-- ==== Sys2Proof/Word.lean ====
section
/-! DEFINITION. The word types of the part and the high-byte-first reading and writing of them. -/

namespace Sys2Proof

/-- One byte on the share bus, in the configuration block or at the diagnostic port. -/
abbrev Byte := BitVec 8

/-- A 16-bit value: a check sequence or a digest. -/
abbrev Word16 := BitVec 16

/-- A 32-bit value: a statistics counter, the round count, a heard mask. -/
abbrev Word32 := BitVec 32

end Sys2Proof
end

