-- ==== Sys2Proof/Syntax.lean ====
section
/-! DEFINITION. The commands: one constructor per row of spec/opcode_table.json, in the table's order,
with the operands the rules take from outside (log 7). -/

namespace Sys2Proof

/-- The role strap or field: LOAD 0, MONITOR 1 (R161, R182, R186). -/
inductive Role where
  | load
  | monitor
deriving DecidableEq, Repr

/-- The events of the part (opcode_table.json; 95_what_each_step_holds.md lists what each holds). -/
inductive Instr where
  /-- POWER_ON_RESET (R96): power comes up. -/
  | powerOnReset
  /-- RESET_N_FALL (R96): RESET_N goes low. -/
  | resetNFall
  /-- RESET_N_RISE (R161): RESET_N goes high; the levels on ADDR4..ADDR0 and ROLE at that instant. -/
  | resetNRise (addr : BitVec 5) (role : Role)
  /-- NOT_ACKNOWLEDGED (R163). -/
  | notAcknowledged
  /-- LOST_LEVEL (R163). -/
  | lostLevel
  /-- BUS_NOT_FREE (R163). -/
  | busNotFree
  /-- CLOCK_HELD (R163). -/
  | clockHeld
  /-- OVERTIME (R163). -/
  | overtime
  /-- RETRY_GAP_END (R163). -/
  | retryGapEnd
  /-- CONFIG_READ_COMPLETE (R164): the 36 data bytes in the order received. -/
  | configReadComplete (block : List Byte)
  /-- EN_LEVEL_CHANGE (R98): the level at the EN pin changes to the other one. -/
  | enLevelChange
  /-- EN_SETTLES_HIGH (R99): EN has held high for 2 ms. -/
  | enSettlesHigh
  /-- EN_SETTLES_LOW (R99): EN has held low for 2 ms. -/
  | enSettlesLow
  /-- CARRIER_BEGINS (R3): a transition on the idle line. -/
  | carrierBegins
  /-- BAD_START_MARK (R3). -/
  | badStartMark
  /-- FRAME_REPORT (R22): the line is idle again after a frame attempt; the body bits decoded, in line
  order, up to a coding violation if there was one (R4). -/
  | frameReport (bits : List Bool)
  /-- SLOT_WINDOW_END (R7). -/
  | slotWindowEnd
  /-- RELEASE_GAP_END (R8). -/
  | releaseGapEnd
  /-- START_DELAY_END (R10). -/
  | startDelayEnd
  /-- INTER_FRAME_GAP_END (R11). -/
  | interFrameGapEnd
  /-- FRAME_SENT (R12). -/
  | frameSent
  /-- ABORT (R13). -/
  | abort
  /-- SILENCE_TIMER_EXPIRY (R18). -/
  | silenceTimerExpiry
  /-- PERIOD_START (R151). -/
  | periodStart
  /-- DUTY_END (R150). -/
  | dutyEnd
  /-- SCAN_COMPLETION (R138): the converter's codes for ISNS, DEM and FEED. A load station does not
  convert FEED (R139) and the third code is then not read. -/
  | scanCompletion (isns dem feed : BitVec 10)
  /-- SCS_N_FALL (R170). -/
  | scsNFall
  /-- SCS_N_RISE (R173). -/
  | scsNRise
  /-- READ (R173): the command byte 0x01 is complete. -/
  | read
  /-- READ_WINDOW_CODE (R173): the window code byte of a READ is complete. -/
  | readWindowCode (code : Byte)
  /-- READ_CAPTURE (R174): the sixteenth bit of the offset is sampled. -/
  | readCapture (offset : BitVec 16)
  /-- SNAPSHOT (R178): the command byte 0x02 is complete. -/
  | snapshot
  /-- SNAPSHOT_CLEAR (R178): the command byte 0x03 is complete. -/
  | snapshotClear
  /-- HISTORY_CLEAR (R179): the command byte 0x04 is complete. -/
  | historyClear
  /-- REFUSED_COMMAND (R172): a command byte of any other value is complete. -/
  | refusedCommand (byte : Byte)
  /-- POWER_ON_RESET_END (R97): power-on reset ends; the levels on the strap pins at that instant. -/
  | powerOnResetEnd (addr : BitVec 5) (role : Role)
  /-- START_MARK (R3). -/
  | startMark
  /-- CODING_VIOLATION (R4). -/
  | codingViolation
deriving DecidableEq, Repr

end Sys2Proof
end

