-- ==== Sys2Proof/Decode.lean ====
section
/-! DEFINITION. Decoding by the table's bits. The part takes events, not words: no row of
spec/opcode_table.json gives bits (98_reader.md counts 0 rows with fixed bits), so no word spells a
command. The command byte of the diagnostic port is decoded here; frames and the configuration block
are decoded in Machine/Operands.lean. -/

namespace Sys2Proof

/-- The command that an nbits-wide word spells by the table's bits: none, for every word. -/
def decodeTableWord (_nbits _w : Nat) : Option Instr := none

/-- The command that a completed command byte of the diagnostic port is (R172, R185). -/
def commandOfByte (b : Byte) : Instr :=
  match b.toNat with
  | 1 => .read
  | 2 => .snapshot
  | 3 => .snapshotClear
  | 4 => .historyClear
  | _ => .refusedCommand b

end Sys2Proof
end

