-- ==== Sys2Proof/Machine/State.lean ====
section
/-! DEFINITION. The state of the part: one record per block of 00_scope 2.2, the pins, and the queue
of commands that wait. Plain data throughout. -/

namespace Sys2Proof.Machine

/-! ## Enumerations -/

/-- The twelve station states (R96). -/
inductive Station where
  | resetting | config | configFault | offline | listen | joining | deferred | active | leaving
  | isolated | addressConflict | groupMismatch
deriving DecidableEq, Repr

/-- The fault codes (R112). -/
inductive FaultCode where
  | none | noMemory | badCrc | badVersion | badValue | conflictByFrame | conflictByCollision
  | groupMismatch
deriving DecidableEq, Repr

/-- The states of a peer-table entry (R41). -/
inductive EntryState where
  | candidate | deferred | active | silent | outside
deriving DecidableEq, Repr

/-- The nine discard reasons, in the order of the acceptance checks (R22). -/
inductive Reason where
  | code | kind | length | crc | group | format | self | role | state
deriving DecidableEq, Repr

/-- The two shed modes (R119). -/
inductive ShedMode where
  | floor | zero
deriving DecidableEq, Repr

/-- The monitor shed state (R123). -/
inductive MonitorState where
  | calm | shedding
deriving DecidableEq, Repr

/-- The status of an address in the confirmation set (R59, R60). -/
inductive Confirmation where
  | pending | agrees | mismatch
deriving DecidableEq, Repr

/-- The two kinds of round boundary (R9, R16). -/
inductive BoundaryKind where
  | ordinary | lost
deriving DecidableEq, Repr

/-- The kinds of CODE defect, and good (R4). -/
inductive CodeStatus where
  | good | badStartMark | codingViolation | notWholeBytes | truncatedBody
deriving DecidableEq, Repr

/-- Where the receiver stands in the activity on the line: stopped before a valid configuration (R20,
R21); idle between activities; hunting for the start mark (R3); decoding body bits (R4); in an
attempt already marked a CODE defect; or ignoring the rest of an activity after an abort (R14). -/
inductive Receiver where
  | stopped | idle | hunting | decoding | badStartMark | codingViolation | ignoring
deriving DecidableEq, Repr

/-- Where the own burst stands: no burst; in the 4-bit-time start delay (R10); a frame being driven;
in the inter-frame gap (R11). -/
inductive TxPhase where
  | quiet | startDelay | sending | frameGap
deriving DecidableEq, Repr

/-- The slot timers (R7, R8): none while unsynced; the window running; activity on the line; the
release gap running since the end of activity. -/
inductive SlotPhase where
  | stopped | window | activity | releaseGap
deriving DecidableEq, Repr

/-- The load status of the Configuration Loader (R161). -/
inductive LoadStatus where
  | idle | reading | waiting | valid | faulted
deriving DecidableEq, Repr

/-- What the loader has done on the I2C port (R162, R163): nothing since reset, both lines released;
an attempt running; or the attempt ended, with a STOP sent or without, and both lines released. -/
inductive I2cPort where
  | idle | attempt | ended (stopSent : Bool)
deriving DecidableEq, Repr

/-- The analog inputs in the order of a scan (R136). -/
inductive ScanInput where
  | isns | dem | feed
deriving DecidableEq, Repr

/-- The two classes a detector's run can hold (R142, R144, R145): excess is over, high or faulty,
normal is within, low or healthy. The class "none" is the absence of one. -/
inductive SampleClass where
  | excess | normal
deriving DecidableEq, Repr

/-- The phases of a diagnostic transaction (R170). -/
inductive PortPhase where
  | command | window | offset | data | ignore
deriving DecidableEq, Repr

/-- The commands of the diagnostic port (R170). -/
inductive PortCommand where
  | read | snapshot | snapshotClear | historyClear
deriving DecidableEq, Repr

/-- What became of the last completed command (R171). -/
inductive PortOutcome where
  | none | accepted | refused
deriving DecidableEq, Repr

/-- The twenty statistics counters, in the order of their numbers (R176). -/
inductive Counter where
  | framesSent | framesAccepted | codeDiscards | kindDiscards | lengthDiscards | crcDiscards
  | groupDiscards | formatDiscards | selfDiscards | roleDiscards | stateDiscards | collisions
  | rounds | lostRounds | dissentRounds | confirmedIncreases | shedsAccepted | shedsSent
  | triggerOverruns | overdrawTrips
deriving DecidableEq, Repr

/-! ## Frames and table data -/

/-- The terms a member announces (R40). -/
structure Terms where
  floor : Nat
  ceiling : Nat
  weight : Nat
  role : Role
deriving DecidableEq, Repr

/-- The value fields of a CLAIM and its STAGE_FAULT flag (R40, R114), in su. -/
structure Values where
  demand : Nat
  held : Nat
  pending : Nat
  draw : Nat
  stageFault : Bool
deriving DecidableEq, Repr

/-- A shed order: its rounds and its mode. Rounds 0 is a release (R120, R127). -/
structure ShedOrder where
  rounds : Nat
  mode : ShedMode
deriving DecidableEq, Repr

/-- The four frame kinds with their fields (R182); received frames and frames of the own burst. -/
inductive Frame where
  | claim (sender : Nat) (values : Values) (terms : Terms) (basis digest : Word16) (mask : Word32)
  | join (sender : Nat) (terms : Terms) (digest : Word16)
  | leave (sender : Nat) (digest : Word16)
  | shed (sender : Nat) (order : ShedOrder) (digest : Word16)
deriving DecidableEq, Repr

/-- One discard record (R36). -/
structure DiscardRecord where
  reason : Reason
  sender : Option Nat
  kind : Option Nat
  firstRound : Byte
  latestRound : Byte
  repeats : Nat
deriving DecidableEq, Repr

/-- One entry of the peer table (R40). The value fields and STAGE_FAULT are present or absent
together; a field that is absent is none. -/
structure Entry where
  addr : Nat
  state : EntryState
  terms : Terms
  values : Option Values
  basis : Option Word16
  heard : Bool
  missed : Nat
  heardMe : Bool
deriving DecidableEq, Repr

/-- One orphan (R55). -/
structure Orphan where
  addr : Nat
  reserve : Nat
  remaining : Nat
deriving DecidableEq, Repr

/-! ## The blocks -/

/-- The input pins as they stand, and whether power is still coming up (R97, R98, R170). -/
structure Pins where
  resetN : Bool
  powerComingUp : Bool
  en : Bool
  scsN : Bool
deriving DecidableEq, Repr

/-- The strap latch (R161). -/
structure Straps where
  addr : Nat
  role : Role
deriving DecidableEq, Repr

/-- The configuration as delivered to the blocks (R165, R167, R184). -/
structure Settings where
  budget : Nat
  nSlots : Nat
  bitRate : Nat
  tIsolate : Nat
  tOrphan : Nat
  expected : Nat
  floor : Nat
  ceiling : Nat
  weight : Nat
  demandStep : Nat
  iScale : Nat
  margin : Nat
  persistence : Nat
  period : Nat
  stepUp : Nat
  stepDown : Nat
  longSample : Bool
  fScale : Nat
  feedLimit : Nat
  hysteresis : Nat
  shedLen : Nat
  shedMode : ShedMode
  releaseEnable : Bool
deriving DecidableEq, Repr

/-- The Configuration Loader (R161). -/
structure Loader where
  straps : Option Straps
  load : LoadStatus
  attempts : Nat
  image : List Byte
  digest : Option Word16
  i2c : I2cPort
deriving DecidableEq, Repr

/-- The Line Controller (R2 to R4, R10 to R14): the receiver, where the own burst stands, and the
frames of the burst that are still to be sent, the one in flight first. -/
structure Line where
  receiver : Receiver
  phase : TxPhase
  burst : List Frame
deriving DecidableEq, Repr

/-- The Rotation Tracker (R6 to R9, R18). The silence timer is none while stopped and otherwise holds
the bit times counted at the last event that set it (log 3). -/
structure Rotation where
  synced : Bool
  rot : Nat
  slot : SlotPhase
  silence : Option Nat
  roundCount : Word32
deriving DecidableEq, Repr

/-- The Frame Checker (R34, R36): the history oldest first, and the heard-mask accumulator with bit n
for address n. -/
structure Checker where
  history : List DiscardRecord
  heardAcc : Word32
deriving DecidableEq, Repr

/-- The Transmit Scheduler (R96, R107, R115, R127). -/
structure Scheduler where
  leaveAttempts : Nat
  collisionRun : Nat
  item : Option ShedOrder
  writtenSince : Bool
deriving DecidableEq, Repr

/-- The Group Table (R39, R55, R59): entries and orphans in ascending address. -/
structure GroupTable where
  entries : List Entry
  orphans : List Orphan
  confirm : List (Nat × Confirmation)
deriving DecidableEq, Repr

/-- The allocation snapshot (R72): the allocation at addresses 0..31. -/
structure Snapshot where
  alloc : List Nat
  basis : Option Word16
  bEff : Nat
  members : Nat
  overcommitted : Bool
  floorShortfall : Bool
deriving DecidableEq, Repr

/-- The Share Regulator (R76). -/
structure Share where
  applied : Nat
  pending : Option Nat
  limit : Nat
deriving DecidableEq, Repr

/-- The Shed Unit (R119, R123): the entry of monitor address m is the m-th. -/
structure ShedUnit where
  table : Vector (Option ShedOrder) 4
  monitor : MonitorState
deriving DecidableEq, Repr

/-- A detector's run: its class and its length (R141); an empty run is the absence of one. -/
structure Run where
  cls : SampleClass
  length : Nat
deriving DecidableEq, Repr

/-- One excursion detector (R141). -/
structure Detector where
  tripped : Bool
  run : Option Run
deriving DecidableEq, Repr

/-- The converter: IDLE or RUNNING with the input being converted and the drive-off mark kept for the
scan (R135, R136). -/
inductive Scan where
  | idle
  | running (input : ScanInput) (driveOff : Bool)
deriving DecidableEq, Repr

/-- The Measurement Unit (R135). STAGE_FAULT is stage.tripped. -/
structure Measurement where
  scan : Scan
  draw : Nat
  rawDemand : Nat
  reported : Nat
  feed : Nat
  overdraw : Detector
  feedDet : Detector
  stage : Detector
deriving DecidableEq, Repr

/-- The Drive Generator (R149). The period counter is none while stopped and otherwise holds the count
of the last drive event, 0 or the duty count (log 3). -/
structure Drive where
  counter : Option Nat
  duty : Nat
  buffer : Nat
  level : Bool
  driven : Bool
deriving DecidableEq, Repr

/-- The Station Controller (R96, R98, R101 to R103, R108, R109, R112). The EN filter is none while
the pin stands at the settled level and otherwise holds the time counted at its last event (log 3). -/
structure Controller where
  station : Station
  settled : Bool
  enFilter : Option Nat
  observed : Nat
  groupEvidence : Bool
  acceptedSeen : Bool
  joinComposed : Bool
  isolationA : Nat
  isolationB : Nat
  heardMeRound : Bool
  acceptedRound : Bool
  isolations : Nat
  faultCode : FaultCode
deriving DecidableEq, Repr

/-- The diagnostic port (R170, R171, R174): no phase while no transaction is answered, no byte on SDO
while SDO is not driven. lowByte is set in OFFSET once the high byte of the offset is in (R173). -/
structure Port where
  phase : Option PortPhase
  bitCount : Nat
  command : Option PortCommand
  window : Nat
  offset : Nat
  lowByte : Bool
  position : Nat
  outcome : PortOutcome
  captureValid : Bool
  statusByte : Byte
  sdo : Option Byte
  capture : List Byte
deriving DecidableEq, Repr

/-- Statistics (R176 to R178): the live counters, the snapshot bank, and the attention set. -/
structure Stats where
  live : Vector Word32 20
  bank : Vector Word32 20
  attention : List Counter
deriving DecidableEq, Repr

/-- The whole part, with the queue of commands that wait, first in, first out (log 1). -/
structure State where
  pins : Pins
  loader : Loader
  cfg : Settings
  line : Line
  rotation : Rotation
  checker : Checker
  sched : Scheduler
  table : GroupTable
  snap : Snapshot
  share : Share
  shed : ShedUnit
  meas : Measurement
  drive : Drive
  ctl : Controller
  port : Port
  stats : Stats
  freeDraws : Nat
  pending : List Instr
deriving DecidableEq, Repr

/-! ## Stops -/

/-- No command of the part ends in a fault: the spec's fault states are states of the machine (R112)
and every event leaves a next state. The type has no constructor. -/
inductive Fault : Type
deriving DecidableEq, Repr

/-- Why a command has no meaning. -/
inductive Refusal where
  /-- A row of the table not modelled yet. Raised by no arm of exec now. Safe. -/
  | notModelled (mnemonic : String)
  /-- Raised by execConfigReadComplete for a block that is not 36 bytes and by execRefusedCommand for
  a byte that is the code of a command: the term is no command of the table (log 25). Safe: the part
  cannot meet it. -/
  | malformed
deriving DecidableEq, Repr

/-! ## Reset values -/

/-- No configuration delivered (R168): every field 0 (log 16). -/
def Settings.undelivered : Settings where
  budget := 0
  nSlots := 0
  bitRate := 0
  tIsolate := 0
  tOrphan := 0
  expected := 0
  floor := 0
  ceiling := 0
  weight := 0
  demandStep := 0
  iScale := 0
  margin := 0
  persistence := 0
  period := 0
  stepUp := 0
  stepDown := 0
  longSample := false
  fScale := 0
  feedLimit := 0
  hysteresis := 0
  shedLen := 0
  shedMode := .floor
  releaseEnable := false

/-- The loader in RESETTING (R169). -/
def Loader.reset : Loader := ⟨none, .idle, 0, [], none, .idle⟩

/-- The Line Controller after reset (R21). -/
def Line.reset : Line := ⟨.stopped, .quiet, []⟩

/-- The Rotation Tracker after reset (R21). -/
def Rotation.reset : Rotation := ⟨false, 0, .stopped, none, 0⟩

/-- The Frame Checker after reset (R38). -/
def Checker.reset : Checker := ⟨[], 0⟩

/-- The Transmit Scheduler after reset (R118, R134). -/
def Scheduler.reset : Scheduler := ⟨0, 0, none, false⟩

/-- The Group Table after reset (R62). -/
def GroupTable.reset : GroupTable := ⟨[], [], []⟩

/-- The empty snapshot (R75). -/
def Snapshot.empty : Snapshot := ⟨List.replicate 32 0, none, 0, 0, false, false⟩

/-- The Share Regulator after reset (R94). -/
def Share.reset : Share := ⟨0, none, 0⟩

/-- The Shed Unit after reset (R134). -/
def ShedUnit.reset : ShedUnit := ⟨Vector.replicate 4 none, .calm⟩

/-- A detector CLEAR with an empty run (R141). -/
def Detector.clear : Detector := ⟨false, none⟩

/-- The Measurement Unit after reset (R148). -/
def Measurement.reset : Measurement := ⟨.idle, 0, 0, 0, 0, .clear, .clear, .clear⟩

/-- The Drive Generator after reset (R159). -/
def Drive.reset : Drive := ⟨none, 0, 0, false, false⟩

/-- The Station Controller after reset (R118). -/
def Controller.reset : Controller where
  station := .resetting
  settled := false
  enFilter := none
  observed := 0
  groupEvidence := false
  acceptedSeen := false
  joinComposed := false
  isolationA := 0
  isolationB := 0
  heardMeRound := false
  acceptedRound := false
  isolations := 0
  faultCode := .none

/-- The diagnostic port after reset (R180; log 15). -/
def Port.reset : Port where
  phase := none
  bitCount := 0
  command := none
  window := 0
  offset := 0
  lowByte := false
  position := 0
  outcome := .none
  captureValid := false
  statusByte := 0
  sdo := none
  capture := List.replicate 512 0

/-- Statistics after reset (R180). -/
def Stats.reset : Stats := ⟨Vector.replicate 20 0, Vector.replicate 20 0, []⟩

/-- Every block at its reset values (R21, R38, R62, R75, R94, R118, R134, R148, R159, R169, R180),
with the pins, the free-order counter and the queue given: those are not the part's to reset. -/
def State.resetWith (pins : Pins) (freeDraws : Nat) (pending : List Instr) : State where
  pins := pins
  loader := .reset
  cfg := .undelivered
  line := .reset
  rotation := .reset
  checker := .reset
  sched := .reset
  table := .reset
  snap := .empty
  share := .reset
  shed := .reset
  meas := .reset
  drive := .reset
  ctl := .reset
  port := .reset
  stats := .reset
  freeDraws := freeDraws
  pending := pending

/-- The part right after reset: RESETTING, held by RESET_N low with power up, EN low, the port not
selected (log 8), and no command waiting. -/
def State.reset : State := State.resetWith ⟨false, false, false, true⟩ 0 []

end Sys2Proof.Machine
end

