-- ==== Sys2Proof/Machine/Intervals.lean ====
section
/-! DEFINITION. The intervals after which the timed commands fall (log 3): what each timer counts to. -/

namespace Sys2Proof.Machine

/-- The line is idle after this many bit times without a transition (R2). -/
def idleBits : Nat := 2
/-- The start of a frame must be decoded within this many bit times of carrier (R3). -/
def startHuntBits : Nat := 10
/-- W_open, the slot window, in bit times (R7). -/
def windowBits : Nat := 32
/-- The release gap in bit times (R8). -/
def releaseGapBits : Nat := 24
/-- The start delay in bit times (R10). -/
def startDelayBits : Nat := 4
/-- The inter-frame gap in bit times (R11). -/
def interFrameGapBits : Nat := 12
/-- How long EN must hold a level to settle, in microseconds (R98). -/
def enSettleMicros : Nat := 2000
/-- The gap after a failed attempt, in microseconds (R163). -/
def retryGapMicros : Nat := 1000
/-- The longest the loader lets SCL be held low, in microseconds (R163). -/
def clockHeldMicros : Nat := 1000
/-- The longest an attempt may last, in microseconds (R163). -/
def overtimeMicros : Nat := 5000

/-- One bit time in microseconds: 8, 4 or 2 for the codes 0, 1 and 2 (R1). -/
def bitTimeMicros (code : Nat) : Nat := 8 / 2 ^ code

/-- T_cold in bit times: (2 × N_slots + own address + 1) × 32 (R18). -/
def tCold (nSlots addr : Nat) : Nat := (2 * nSlots + addr + 1) * 32

/-- T_gone (R40). -/
def tGone (tIsolate : Nat) : Nat := tIsolate + 2

/-- One conversion in microseconds (R136). -/
def conversionMicros (longSample : Bool) : Nat := if longSample then 40 else 14

/-- The inputs of a scan: FEED at a monitor station only (R136). -/
def scanInputs : Role → List ScanInput
  | .load => [.isns, .dem]
  | .monitor => [.isns, .dem, .feed]

/-- A scan in microseconds (R136). -/
def scanMicros (role : Role) (longSample : Bool) : Nat :=
  (scanInputs role).length * conversionMicros longSample

/-- The bit times a frame of n body bytes occupies, preamble and start mark included (chapter 1). -/
def frameBits (n : Nat) : Nat := 8 + 2 + 8 * n

/-- One SCL period in microseconds: 100 kHz (R162). -/
def sclPeriodMicros : Nat := 10
/-- The most clocks the loader gives to free the bus before a START (R163). -/
def freeingClockLimit : Nat := 9

end Sys2Proof.Machine
end

