-- ==== Sys2Proof/Machine/Crc.lean ====
section
/-! DEFINITION. The one CRC function of the part (R181). -/

namespace Sys2Proof.Machine

/-- One left shift, with the generator 0x1021 where the bit shifted out was 1 (R181). -/
def crcShift (v : Word16) : Word16 :=
  if v.msb then (v <<< 1) ^^^ 0x1021 else v <<< 1

/-- One byte: into the high eight bits, then eight shifts (R181). -/
def crcByte (v : Word16) (b : Byte) : Word16 :=
  crcShift (crcShift (crcShift (crcShift (crcShift (crcShift (crcShift (crcShift
    (v ^^^ (b.zeroExtend 16 <<< 8)))))))))

/-- The CRC over a sequence of bytes, from 0xFFFF, with no final inversion (R181). -/
def crc (bytes : List Byte) : Word16 := bytes.foldl crcByte 0xFFFF

end Sys2Proof.Machine
end

