-- ==== Sys2Proof/WellFormed.lean ====
section
/-! DEFINITION. Which terms of Instr are commands of the table. -/

namespace Sys2Proof

/-- A configuration block is 36 bytes (R162, R184). -/
def blockLength : Nat := 36

/-- The command bytes that are a command of their own: READ 1, SNAPSHOT 2, SNAPSHOT_CLEAR 3,
HISTORY_CLEAR 4 (R185). -/
def isCommandByte (b : Byte) : Bool := 1 ≤ b.toNat && b.toNat ≤ 4

/-- A completed read carries 36 bytes (R162), and a refused command byte is none of the four command
codes (R172, R185); every other term is a command whatever its operands. -/
def Instr.wellFormed : Instr → Bool
  | .configReadComplete block => block.length == blockLength
  | .refusedCommand byte => !isCommandByte byte
  | .powerOnReset => true
  | .resetNFall => true
  | .resetNRise _ _ => true
  | .notAcknowledged => true
  | .lostLevel => true
  | .busNotFree => true
  | .clockHeld => true
  | .overtime => true
  | .retryGapEnd => true
  | .enLevelChange => true
  | .enSettlesHigh => true
  | .enSettlesLow => true
  | .carrierBegins => true
  | .badStartMark => true
  | .frameReport _ => true
  | .slotWindowEnd => true
  | .releaseGapEnd => true
  | .startDelayEnd => true
  | .interFrameGapEnd => true
  | .frameSent => true
  | .abort => true
  | .silenceTimerExpiry => true
  | .periodStart => true
  | .dutyEnd => true
  | .scanCompletion _ _ _ => true
  | .scsNFall => true
  | .scsNRise => true
  | .read => true
  | .readWindowCode _ => true
  | .readCapture _ => true
  | .snapshot => true
  | .snapshotClear => true
  | .historyClear => true
  | .powerOnResetEnd _ _ => true
  | .startMark => true
  | .codingViolation => true

end Sys2Proof
end

