-- ==== Sys2Proof/Machine/Operands.lean ====
section
/-! DEFINITION. The operand forms: body bits into frame reports and frames, frames into body bytes and
line levels, and the configuration block into settings (chapters 1, 2, 10 and 12). -/

namespace Sys2Proof.Machine

/-! ## Bytes -/

/-- Eight bits, most significant first, as a byte (R4). -/
def byteOfBits (b7 b6 b5 b4 b3 b2 b1 b0 : Bool) : Byte :=
  BitVec.ofNat 8 (b7.toNat * 128 + b6.toNat * 64 + b5.toNat * 32 + b4.toNat * 16 + b3.toNat * 8
    + b2.toNat * 4 + b1.toNat * 2 + b0.toNat)

/-- Body bits gathered into whole bytes, most significant bit first; a remainder of fewer than eight
bits gives no byte (R4). -/
def gatherBytes : List Bool → List Byte
  | b7 :: b6 :: b5 :: b4 :: b3 :: b2 :: b1 :: b0 :: rest =>
    byteOfBits b7 b6 b5 b4 b3 b2 b1 b0 :: gatherBytes rest
  | _ => []

/-- The bits of a byte in the order they are sent (R1). -/
def bitsOfByte (b : Byte) : List Bool :=
  [b.getLsbD 7, b.getLsbD 6, b.getLsbD 5, b.getLsbD 4, b.getLsbD 3, b.getLsbD 2, b.getLsbD 1,
    b.getLsbD 0]

/-- The bits of a body in the order they are sent (R1). -/
def bitsOfBytes (bytes : List Byte) : List Bool := bytes.flatMap bitsOfByte

/-- Byte i of a body or block, counted from 0. -/
def byteAt (bytes : List Byte) (i : Nat) : Byte := bytes.getD i 0

/-- The two bytes at i, high byte first (R182). -/
def wordAt (bytes : List Byte) (i : Nat) : Nat :=
  (byteAt bytes i).toNat * 256 + (byteAt bytes (i + 1)).toNat

/-- The four bytes at i, high byte first (R182). -/
def longAt (bytes : List Byte) (i : Nat) : Nat := wordAt bytes i * 65536 + wordAt bytes (i + 2)

/-- A value as one byte. -/
def byte (n : Nat) : Byte := BitVec.ofNat 8 n

/-- A 16-bit value as two bytes, high byte first (R182, R185). -/
def bytes2 (n : Nat) : List Byte := [byte (n / 256), byte n]

/-- A 32-bit value as four bytes, high byte first (R182, R185). -/
def bytes4 (n : Nat) : List Byte := bytes2 (n / 65536) ++ bytes2 n

/-- Two 12-bit values packed into three bytes, the first in the high 12 bits (R185). -/
def packed (x y : Nat) : List Byte := [byte (x / 16), byte (x % 16 * 16 + y / 256), byte y]

/-! ## Codes (R186) -/

/-- Role codes. -/
def roleBit : Role → Nat
  | .load => 0
  | .monitor => 1

/-- The role a bit carries. -/
def roleOfBit (b : Bool) : Role := if b then .monitor else .load

/-- Shed mode codes. -/
def ShedMode.toBit : ShedMode → Nat
  | .floor => 0
  | .zero => 1

/-- The shed mode a bit carries. -/
def shedModeOfBit (b : Bool) : ShedMode := if b then .zero else .floor

/-- Station state codes. -/
def Station.toCode : Station → Nat
  | .resetting => 0
  | .config => 1
  | .configFault => 2
  | .offline => 3
  | .listen => 4
  | .joining => 5
  | .deferred => 6
  | .active => 7
  | .leaving => 8
  | .isolated => 9
  | .addressConflict => 10
  | .groupMismatch => 11

/-- Fault codes. -/
def FaultCode.toCode : FaultCode → Nat
  | .none => 0
  | .noMemory => 1
  | .badCrc => 2
  | .badVersion => 3
  | .badValue => 4
  | .conflictByFrame => 5
  | .conflictByCollision => 6
  | .groupMismatch => 7

/-- Entry state codes as the TABLE window shows them. -/
def EntryState.toCode : EntryState → Nat
  | .candidate => 1
  | .deferred => 2
  | .active => 3
  | .silent => 4
  | .outside => 5

/-- Discard reason codes. -/
def Reason.toCode : Reason → Nat
  | .code => 1
  | .kind => 2
  | .length => 3
  | .crc => 4
  | .group => 5
  | .format => 6
  | .self => 7
  | .role => 8
  | .state => 9

/-! ## Frames (R182, R183) -/

/-- The sender address of a frame. -/
def Frame.sender : Frame → Nat
  | .claim a _ _ _ _ _ => a
  | .join a _ _ => a
  | .leave a _ => a
  | .shed a _ _ => a

/-- The group digest of a frame. -/
def Frame.digest : Frame → Word16
  | .claim _ _ _ _ d _ => d
  | .join _ _ d => d
  | .leave _ d => d
  | .shed _ _ d => d

/-- The kind codes (R24, R182). -/
def Frame.kind : Frame → Nat
  | .claim .. => 1
  | .join .. => 2
  | .leave .. => 3
  | .shed .. => 4

/-- The body length fixed for a kind code, check sequence included; none for an unknown kind (R25). -/
def kindLength : Nat → Option Nat
  | 1 => some 25
  | 2 => some 10
  | 3 => some 5
  | 4 => some 6
  | _ => none

/-- The kind code in byte 0 (R182). -/
def kindOf (body : List Byte) : Nat := (byteAt body 0).toNat / 32

/-- The sender address in byte 0 (R182). -/
def senderOf (body : List Byte) : Nat := (byteAt body 0).toNat % 32

/-- Byte 0 (R182). -/
def kindAddress (kind addr : Nat) : Byte := byte (kind * 32 + addr)

/-- The weight/role byte (R182, R183): bits 7..5 are 0. -/
def weightRole (t : Terms) : Byte := byte (roleBit t.role * 16 + t.weight)

/-- The SHED control byte (R182, R183): bit 7 is 0. -/
def shedControl (o : ShedOrder) : Byte := byte (o.mode.toBit * 64 + o.rounds)

/-- The body of a frame without its check sequence (R182, R183). -/
def Frame.payload : Frame → List Byte
  | .claim a v t basis digest mask =>
    [kindAddress 1 a, byte v.stageFault.toNat] ++ bytes2 v.demand ++ bytes2 v.held
      ++ bytes2 v.pending ++ bytes2 v.draw ++ bytes2 t.floor ++ bytes2 t.ceiling ++ [weightRole t]
      ++ bytes2 basis.toNat ++ bytes2 digest.toNat ++ bytes4 mask.toNat
  | .join a t digest =>
    [kindAddress 2 a] ++ bytes2 t.floor ++ bytes2 t.ceiling ++ [weightRole t]
      ++ bytes2 digest.toNat
  | .leave a digest => [kindAddress 3 a] ++ bytes2 digest.toNat
  | .shed a o digest => [kindAddress 4 a, shedControl o] ++ bytes2 digest.toNat

/-- The whole body: the payload and its check sequence, high byte first (R181, R182). -/
def Frame.body (f : Frame) : List Byte := f.payload ++ bytes2 (crc f.payload).toNat

/-- The terms at byte i: floor, ceiling, weight/role (R182). -/
def termsAt (body : List Byte) (i : Nat) : Terms where
  floor := wordAt body i
  ceiling := wordAt body (i + 2)
  weight := (byteAt body (i + 4)).toNat % 16
  role := roleOfBit ((byteAt body (i + 4)).getLsbD 4)

/-- The fields of a body of a known kind (R182); bits that carry no field are ignored (R28, R183). -/
def parseFrame (body : List Byte) : Option Frame :=
  match kindOf body with
  | 1 => some (.claim (senderOf body)
      ⟨wordAt body 2, wordAt body 4, wordAt body 6, wordAt body 8, (byteAt body 1).getLsbD 0⟩
      (termsAt body 10) (BitVec.ofNat 16 (wordAt body 15)) (BitVec.ofNat 16 (wordAt body 17))
      (BitVec.ofNat 32 (longAt body 19)))
  | 2 => some (.join (senderOf body) (termsAt body 1) (BitVec.ofNat 16 (wordAt body 6)))
  | 3 => some (.leave (senderOf body) (BitVec.ofNat 16 (wordAt body 1)))
  | 4 => some (.shed (senderOf body)
      ⟨(byteAt body 1).toNat % 64, shedModeOfBit ((byteAt body 1).getLsbD 6)⟩
      (BitVec.ofNat 16 (wordAt body 2)))
  | _ => none

/-! ## Line coding (R1) -/

/-- The two half-bit levels of a data bit in Manchester code: a 1 is low then high (R1). -/
def manchester (b : Bool) : Bool × Bool := (!b, b)

/-- The preamble (R1). -/
def preamble : List Bool := [true, false, true, false, true, false, true, false]

/-- The start mark: one bit time high, one bit time low, with no mid-bit transition (R1). -/
def startMark : List (Bool × Bool) := [(true, true), (false, false)]

/-- The levels on LTX over a frame, one pair of half-bit levels per bit time (R1). -/
def lineLevels (body : List Byte) : List (Bool × Bool) :=
  preamble.map manchester ++ startMark ++ (bitsOfBytes body).map manchester

/-! ## Frame reports (R4, R5) -/

/-- One frame report (R4). -/
structure FrameReport where
  status : CodeStatus
  length : Option Nat
  body : List Byte
  crcValid : Bool
deriving DecidableEq, Repr

/-- The judgement of the check sequence: the CRC over all body bytes but the last two equals the last
two, high byte first, whatever the length (R5). -/
def crcMatches (bytes : List Byte) : Bool :=
  (crc (bytes.take (bytes.length - 2))).toNat == wordAt bytes (bytes.length - 2)

/-- The code status of an attempt at its end of frame (R3, R4). An attempt that is still hunting when
the line becomes idle has found no start mark (log 11). A body with both a remainder of bits and fewer
than 3 whole bytes is given as not whole bytes, which R4 leaves open (log 32). -/
def codeStatus : Receiver → List Bool → CodeStatus
  | .decoding, bits =>
    if bits.length % 8 ≠ 0 then .notWholeBytes
    else if (gatherBytes bits).length < 3 then .truncatedBody
    else .good
  | .codingViolation, _ => .codingViolation
  | _, _ => .badStartMark

/-- The frame report of an attempt: the length saturates at 255 and is absent for a bad start mark,
the first 32 bytes are kept, and the CRC status is not valid unless the code status is good (R4). -/
def lineReport (r : Receiver) (bits : List Bool) : FrameReport :=
  let status := codeStatus r bits
  let bytes := if status = .badStartMark then [] else gatherBytes bits
  { status := status
    length := if status = .badStartMark then none else some (min bytes.length 255)
    body := bytes.take 32
    crcValid := status == .good && crcMatches bytes }

/-! ## The configuration block (R164 to R167, R184) -/

/-- Block byte n, counted from 1 (R184). -/
def blockByte (block : List Byte) (n : Nat) : Nat := (byteAt block (n - 1)).toNat

/-- Block bytes n and n + 1, high byte first (R184). -/
def blockWord (block : List Byte) (n : Nat) : Nat := wordAt block (n - 1)

/-- The settings a block holds, by the byte positions of R184. -/
def Settings.ofBlock (block : List Byte) : Settings where
  budget := blockWord block 2
  nSlots := 8 * 2 ^ blockByte block 4
  bitRate := blockByte block 5
  tIsolate := blockByte block 6
  tOrphan := blockWord block 7
  expected := blockByte block 9
  floor := blockWord block 10
  ceiling := blockWord block 12
  weight := blockByte block 14
  demandStep := blockByte block 15
  iScale := blockWord block 16
  margin := blockWord block 18
  persistence := blockByte block 20
  period := blockWord block 21
  stepUp := blockByte block 23
  stepDown := blockByte block 24
  longSample := blockByte block 25 == 1
  fScale := blockWord block 26
  feedLimit := blockWord block 28
  hysteresis := blockWord block 30
  shedLen := blockByte block 32
  shedMode := shedModeOfBit (blockByte block 33 == 1)
  releaseEnable := blockByte block 34 == 1

/-- The ranges every role requires (R165), the N_slots code among them. -/
def commonInRange (block : List Byte) : Bool :=
  let c := Settings.ofBlock block
  decide (blockByte block 4 ≤ 2) && decide (blockByte block 5 ≤ 2)
    && decide (1 ≤ c.budget ∧ c.budget ≤ 4000)
    && decide (2 ≤ c.tIsolate ∧ c.tIsolate ≤ 15)
    && decide (c.tOrphan ≤ 4000)
    && decide (1 ≤ c.expected ∧ c.expected ≤ c.nSlots)
    && decide (c.floor ≤ c.ceiling)
    && decide (1 ≤ c.ceiling ∧ c.ceiling ≤ c.budget)
    && decide (1 ≤ c.weight ∧ c.weight ≤ 15)
    && decide (1 ≤ c.demandStep ∧ c.demandStep ≤ 64)
    && decide (1 ≤ c.iScale ∧ c.iScale ≤ 4095)
    && decide (c.margin ≤ 255)
    && decide (1 ≤ c.persistence ∧ c.persistence ≤ 16)
    && decide (200 ≤ c.period ∧ c.period ≤ 8000)
    && decide (1 ≤ c.stepUp) && decide (1 ≤ c.stepDown)
    && decide (blockByte block 25 ≤ 1)

/-- The ranges of the monitor fields, checked at a monitor only (R165, R166). -/
def monitorInRange (block : List Byte) : Bool :=
  let c := Settings.ofBlock block
  decide (1 ≤ c.fScale ∧ c.fScale ≤ 8000)
    && decide (1 ≤ c.feedLimit ∧ c.feedLimit ≤ c.fScale)
    && decide (c.hysteresis + 1 ≤ c.feedLimit)
    && decide (1 ≤ c.shedLen ∧ c.shedLen ≤ 63)
    && decide (blockByte block 33 ≤ 1)
    && decide (blockByte block 34 ≤ 1)

/-- The straps against the block (R166): the address below N_slots, and a MONITOR at 0 to 3. -/
def strapsAgree (block : List Byte) (p : Straps) : Bool :=
  decide (p.addr < (Settings.ofBlock block).nSlots) && decide (p.role = .monitor → p.addr < 4)

/-- The value check (R165, R166). -/
def valuesInRange (block : List Byte) (p : Straps) : Bool :=
  commonInRange block && strapsAgree block p && (decide (p.role = .load) || monitorInRange block)

/-- The checks of a completed read in their order: the first that fails gives the fault code, and
none is a valid configuration (R164). -/
def checkBlock (block : List Byte) (p : Straps) : Option FaultCode :=
  if (crc (block.take 34)).toNat ≠ blockWord block 35 then some .badCrc
  else if blockByte block 1 ≠ 1 then some .badVersion
  else if valuesInRange block p then none
  else some .badValue

/-- The eight bytes of the group digest (R167): block bytes 2 to 9. -/
def groupDigest (block : List Byte) : Word16 := crc ((block.drop 1).take 8)

end Sys2Proof.Machine
end

