-- ==== Sys2Proof/Machine/I2cBus.lean ====
section
/-! DEFINITION. The I2C port on its wires: the operations of an attempt, the levels the loader gives SCL
and SDA over them, and the event that what SDA reads back amounts to (R162, R163). -/

namespace Sys2Proof.Machine

/-! ## Levels (R162) -/

/-- The levels given to SCL and SDA: true is released, so high unless the other side holds it low
(R162). -/
structure Wires where
  scl : Bool
  sda : Bool
deriving DecidableEq, Repr

/-- Both lines released (R162). -/
def Wires.released : Wires := ⟨true, true⟩

/-- What stands on open-drain lines, and is read back: low where either side holds low (R162). -/
def Wires.readBack (loader memory : Wires) : Wires :=
  ⟨loader.scl && memory.scl, loader.sda && memory.sda⟩

/-- A START between two levels: SDA falls while SCL is high (R162). -/
def Wires.isStart (before after : Wires) : Bool :=
  before.scl && after.scl && before.sda && !after.sda

/-- A STOP between two levels: SDA rises while SCL is high (R162). -/
def Wires.isStop (before after : Wires) : Bool :=
  before.scl && after.scl && !before.sda && after.sda

/-! ## Clocks and operations (R162, R163) -/

/-- One SCL period of a byte: a bit the loader sends, the memory's acknowledge, a data bit, or the
loader's own acknowledge or not-acknowledge (R162). -/
inductive I2cBit where
  | put (bit : Bool)
  | awaitAck
  | take
  | answer (acknowledge : Bool)
deriving DecidableEq, Repr

/-- What the loader does with SDA in a period: true leaves it released (R162). -/
def I2cBit.sda : I2cBit → Bool
  | .put bit => bit
  | .awaitAck => true
  | .take => true
  | .answer acknowledge => !acknowledge

/-- The levels of one period: SDA changed while SCL is low, and read while it is high (R162). -/
def I2cBit.levels (b : I2cBit) : List Wires := [⟨false, b.sda⟩, ⟨true, b.sda⟩, ⟨false, b.sda⟩]

/-- One operation of the loader on the I2C port: a clock that frees the bus (R163), and the parts of the
transaction (R162). -/
inductive I2cOp where
  | freeingClock
  | start
  | repeatedStart
  | send (byte : Byte)
  | receive (acknowledge : Bool)
  | stop
deriving DecidableEq, Repr

/-- The nine periods of a byte, most significant bit first, the acknowledge last; none for the other
operations (R162). -/
def I2cOp.bits : I2cOp → List I2cBit
  | .send byte => (bitsOfByte byte).map I2cBit.put ++ [.awaitAck]
  | .receive acknowledge => List.replicate 8 .take ++ [.answer acknowledge]
  | _ => []

/-- The levels over an operation (R162, R163). A freeing clock leaves SDA released; a repeated START
releases SDA while SCL is low and then is a START. -/
def I2cOp.levels : I2cOp → List Wires
  | .freeingClock => [⟨false, true⟩, ⟨true, true⟩]
  | .start => [⟨true, true⟩, ⟨true, false⟩, ⟨false, false⟩]
  | .repeatedStart => [⟨false, true⟩, ⟨true, true⟩, ⟨true, false⟩, ⟨false, false⟩]
  | .stop => [⟨false, false⟩, ⟨true, false⟩, ⟨true, true⟩]
  | op => op.bits.flatMap I2cBit.levels

/-- Parts 1 to 6 of the transaction (R162): the device address 0x50 with the write direction, the word
address 0x00, a repeated START, 0x50 with the read direction, and 36 data bytes of which the last is not
acknowledged. -/
def transferOps : List I2cOp :=
  [.start, .send 0xA0, .send 0x00, .repeatedStart, .send 0xA1]
    ++ List.replicate 35 (.receive true) ++ [.receive false]

/-- The read transaction of one attempt: the seven parts of R162. -/
def readTransaction : List I2cOp := transferOps ++ [.stop]

/-- The SCL periods of the transaction's bytes, in order (R162). -/
def transferBits : List I2cBit := transferOps.flatMap I2cOp.bits

/-! ## Freeing the bus (R163) -/

/-- Where the loader stands before its START: free to send it after a number of clocks, given up, or
still clocking (R163). -/
inductive BusSearch where
  | free (clocks : Nat)
  | notFree
  | clocking
deriving DecidableEq, Repr

/-- The clocks before the START (R163): SDA is read before the first and after each; the loader clocks
while it reads low, stops as soon as it reads high, and gives up when it is still low after the ninth.
The argument clocks is how many have been given. -/
def freeBus (clocks : Nat) : List Bool → BusSearch
  | [] => .clocking
  | true :: _ => .free clocks
  | false :: rest => if clocks < freeingClockLimit then freeBus (clocks + 1) rest else .notFree

/-- The operations of an attempt in which nothing fails, as SDA reads before its START: the freeing
clocks given, and parts 1 to 6 once the bus is free (R162, R163). -/
def attemptOps (sda : List Bool) : List I2cOp :=
  match freeBus 0 sda with
  | .free clocks => List.replicate clocks .freeingClock ++ transferOps
  | .notFree => List.replicate freeingClockLimit .freeingClock
  | .clocking => List.replicate sda.length .freeingClock

/-! ## What SDA reads back (R162, R163) -/

/-- The failure of a period, by what SDA reads in it (R163): a released bit read low is a lost level,
and an acknowledge read high is none. -/
def I2cBit.failure (b : I2cBit) (sda : Bool) : Option Instr :=
  match b with
  | .put bit => if bit && !sda then some .lostLevel else none
  | .awaitAck => if sda then some .notAcknowledged else none
  | .take => none
  | .answer _ => none

/-- The data bit of a period, if it is one (R162). -/
def I2cBit.data (b : I2cBit) (sda : Bool) : Option Bool :=
  match b with
  | .take => some sda
  | _ => none

/-- The event of a transfer whose periods read SDA so (R162 to R164): its first failure; the completed
read once the last period has been clocked, with the data bytes most significant bit first; none
before. -/
def transferEvent (sda : List Bool) : Option Instr :=
  let periods := transferBits.zip sda
  match periods.findSome? (fun x => x.1.failure x.2) with
  | some c => some c
  | none =>
    if sda.length < transferBits.length then none
    else some (.configReadComplete (gatherBytes (periods.filterMap (fun x => x.1.data x.2))))

/-- The event of an attempt, as SDA reads before its START and in every period after it (R162, R163).
Clock held and overtime are matters of time (log 3). -/
def attemptEvent (sda : List Bool) : Option Instr :=
  match freeBus 0 sda with
  | .free clocks => transferEvent (sda.drop (clocks + 1))
  | .notFree => some .busNotFree
  | .clocking => none

end Sys2Proof.Machine
end

