-- ==== Sys2Proof/Machine/LineRead.lean ====
section
/-! DEFINITION. What LRX reads, one bit time after another, and the events it amounts to: the start of a
frame and its absence, the body, and the read-back of a frame driven (R2 to R4, R12, R13). -/

namespace Sys2Proof.Machine

/-- The two half-bit levels of one bit time. The bit times are those the receiver has locked onto, the
first one that in which carrier began (log 22). -/
abbrev BitTime := Bool × Bool

/-- The bit that a bit time decodes to; none without a mid-bit transition (R1, R3). -/
def decodeBit (x : BitTime) : Option Bool := if x.1 = x.2 then none else some x.2

/-! ## The receiver (R2 to R4) -/

/-- The bit times up to the instant at which the line is idle; none while it is not. Idle is 2 bit times
with no transition in or between them (R2). -/
def untilIdle : List BitTime → Option (List BitTime)
  | x :: y :: rest =>
    if decodeBit x = none ∧ x = y then some [x, y] else (untilIdle (y :: rest)).map (x :: ·)
  | _ => none

/-- What the receiver must have decoded to accept a start: the last 6 preamble bits and the start mark
(R3). -/
def startShape : List BitTime := (preamble.drop 2).map manchester ++ startMark

/-- The bit times after the start; none where its shape has not been met within the first 10 bit times
after carrier began (R3). -/
def afterStart (times : List BitTime) : Option (List BitTime) :=
  ((List.range (startHuntBits + 1 - startShape.length)).find?
    (fun n => startShape.isPrefixOf (times.drop n))).map
      (fun n => times.drop (n + startShape.length))

/-- What the hunt has come to after these bit times of an activity (R3): the start, a bad start mark
when 10 have gone by without it, or neither yet. -/
def startEvent (times : List BitTime) : Option Instr :=
  if (afterStart times).isSome then some .startMark
  else if startHuntBits ≤ times.length then some .badStartMark
  else none

/-- The body bits that a body's bit times decode to, up to the first that does not decode (R4). -/
def bodyBits : List BitTime → List Bool
  | [] => []
  | x :: rest =>
    match decodeBit x with
    | some b => b :: bodyBits rest
    | none => []

/-- The events of a body up to its end of frame, by its bit times up to the idle instant (R4). The last 2
of these are the idle time; one before them that does not decode is a coding violation. -/
def bodyEvents (body : List BitTime) : List Instr :=
  let bits := bodyBits body
  (if bits.length + idleBits < body.length then [.codingViolation] else []) ++ [.frameReport bits]

/-- The events of one activity on a line that was idle, in order (R2 to R4): carrier, what the hunt came
to, and what the body did up to the end of frame; none until the line is idle again. An activity that
ends while the hunt is still open is reported with no body (log 11). -/
def activityEvents (times : List BitTime) : Option (List Instr) :=
  (untilIdle times).map (fun heard =>
    .carrierBegins :: ((startEvent heard).toList ++ bodyEvents ((afterStart heard).getD [])))

/-! ## The read-back (R12, R13) -/

/-- Whether a bit time sent was read back as driven (R13): a bit as the same bit, the start mark as its
own levels, with no mid-bit transition. -/
def readsBack (sent read : BitTime) : Bool :=
  match decodeBit sent with
  | some b => decodeBit read == some b
  | none => read == sent

/-- The outcome of a frame driven, by the bit times read back so far (R12, R13): the first mismatch is
the abort, the last bit read back as driven the frame sent, and before that there is none. -/
def readBackEvent : (sent read : List BitTime) → Option Instr
  | [], _ => some .frameSent
  | _ :: _, [] => none
  | x :: sent, y :: read => if readsBack x y then readBackEvent sent read else some .abort

end Sys2Proof.Machine
end

