-- ==== Sys2Proof/Machine/Flags.lean ====
section
/-! DEFINITION. What is read off the state: classes of station states, the own address and role, the
shed cap, and the levels of the output pins. -/

namespace Sys2Proof.Machine

/-! ## Classes of station states -/

/-- A valid configuration has been delivered: the Line Controller, the Rotation Tracker and the period
counter run (R20, R149). -/
def Station.configured : Station → Bool
  | .resetting => false
  | .config => false
  | .configFault => false
  | .offline => true
  | .listen => true
  | .joining => true
  | .deferred => true
  | .active => true
  | .leaving => true
  | .isolated => true
  | .addressConflict => true
  | .groupMismatch => true

/-- The states in which the Group Table, the Allocator, the Shed Unit and the Measurement Unit work:
configured and no fault state (R50, R63, R121, R135). -/
def Station.working : Station → Bool
  | .resetting => false
  | .config => false
  | .configFault => false
  | .offline => true
  | .listen => true
  | .joining => true
  | .deferred => true
  | .active => true
  | .leaving => true
  | .isolated => true
  | .addressConflict => false
  | .groupMismatch => false

/-- The states in which a burst is composed (R10, R113). -/
def Station.transmitting : Station → Bool
  | .joining => true
  | .deferred => true
  | .active => true
  | .leaving => true
  | _ => false

/-- The states in which a collision count of 3 or conflict evidence from a collision acts (R111). -/
def Station.collisionMatters : Station → Bool
  | .joining => true
  | .deferred => true
  | .active => true
  | _ => false

/-- The states in which conflict evidence of a SELF discard acts (R29, R111). -/
def Station.evidenceMatters : Station → Bool
  | .listen => true
  | st => st.collisionMatters

/-- The three fault states (R112). -/
def Station.isFaultState : Station → Bool
  | .configFault => true
  | .addressConflict => true
  | .groupMismatch => true
  | _ => false

/-! ## Identity -/

/-- The own address, as latched (R161). -/
def State.ownAddr (s : State) : Nat :=
  match s.loader.straps with
  | some p => p.addr
  | none => 0

/-- The own role, as latched (R161). -/
def State.ownRole (s : State) : Role :=
  match s.loader.straps with
  | some p => p.role
  | none => .load

/-- The own group digest (R167), carried in every frame sent. -/
def State.ownDigest (s : State) : Word16 := s.loader.digest.getD 0

/-- The configured terms (R114). -/
def Settings.terms (c : Settings) (role : Role) : Terms := ⟨c.floor, c.ceiling, c.weight, role⟩

/-! ## Shed cap and flags -/

/-- The shed cap derived from the shed table (R122): none is unlimited. -/
def shedCap (table : Vector (Option ShedOrder) 4) (floor : Nat) : Option Nat :=
  if table.toList.any (fun o => o.any (fun x => x.mode == .zero)) then some 0
  else if table.toList.any Option.isSome then some floor
  else none

/-- The effective limit: the smaller of the applied share and the shed cap in ACTIVE, 0 elsewhere
(R90). -/
def limitOf (st : Station) (applied : Nat) (cap : Option Nat) : Nat :=
  if st = .active then
    match cap with
    | some c => min applied c
    | none => applied
  else 0

/-- STAGE_FAULT is the state of the STAGE detector (R135). -/
def State.stageFault (s : State) : Bool := s.meas.stage.tripped

/-- Mismatch evidence: frames of another group heard since the entry to LISTEN and none of the own
group accepted (R102). -/
def State.mismatchEvidence (s : State) : Bool := s.ctl.groupEvidence && !s.ctl.acceptedSeen

/-- The own entry of the shed table, at a station whose address has one (R119). -/
def State.ownShedEntry (s : State) : Option ShedOrder := (s.shed.table[s.ownAddr]?).getD none

/-! ## Output pins -/

/-- READY (R117). -/
def State.ready (s : State) : Bool := s.ctl.station == .active

/-- FAULT (R117): in the three fault states, and outside RESETTING and CONFIG while STAGE_FAULT is
set. -/
def State.faultLine (s : State) : Bool :=
  s.ctl.station.isFaultState || (s.ctl.station.working && s.stageFault)

/-- ATTN (R177). -/
def State.attn (s : State) : Bool := !s.stats.attention.isEmpty || !s.checker.history.isEmpty

/-- LDE: high while a frame of the own burst is driven (R1). -/
def State.lde (s : State) : Bool := s.line.phase == .sending

/-- The levels LTX carries over the frame being driven; none while LTX is recessive (R1). -/
def State.ltx (s : State) : Option (List (Bool × Bool)) :=
  if s.lde then (s.line.burst.head?).map (fun f => lineLevels f.body) else none

/-- The outcome of the frame being driven, by what LRX has read of it so far; none while none is driven
(R12, R13). -/
def State.readBack (s : State) (lrx : List BitTime) : Option Instr :=
  s.ltx.bind (fun sent => readBackEvent sent lrx)

/-- The loader drives SCL and SDA only during an attempt (R162, R163, R168). -/
def State.i2cDriven (s : State) : Bool := s.loader.i2c == .attempt

/-- The levels the loader gives SCL and SDA, in order, where SDA has read back as sda says (R162, R163,
R168): both released before an attempt; the freeing clocks and the transfer in one; and after it a STOP,
where one was sent, and both released again. -/
def State.i2cWires (s : State) (sda : List Bool) : List Wires :=
  match s.loader.i2c with
  | .idle => [Wires.released]
  | .attempt => (attemptOps sda).flatMap I2cOp.levels
  | .ended stopSent => (if stopSent then I2cOp.stop.levels else []) ++ [Wires.released]

/-- The level on SDO: bit 7 of the byte being sent first, and the bit that follows after each SCK
period; none while SDO is not driven (R170). -/
def State.sdoLevel (s : State) : Option Bool :=
  s.port.sdo.map (fun b => b.getLsbD (7 - s.port.bitCount))

end Sys2Proof.Machine
end

