-- ==== Sys2Proof/Machine/Ops.lean ====
section
/-! DEFINITION. The shared operations on the registers of one block or of few: counting, the discard
history, the cut, the effective limit, the pending SHED item, the shed table, and the lists of the
Group Table. -/

namespace Sys2Proof.Machine

/-! ## Statistics (R176, R177) -/

/-- The number of a counter (R176). -/
def Counter.index : Counter → Fin 20
  | .framesSent => 0
  | .framesAccepted => 1
  | .codeDiscards => 2
  | .kindDiscards => 3
  | .lengthDiscards => 4
  | .crcDiscards => 5
  | .groupDiscards => 6
  | .formatDiscards => 7
  | .selfDiscards => 8
  | .roleDiscards => 9
  | .stateDiscards => 10
  | .collisions => 11
  | .rounds => 12
  | .lostRounds => 13
  | .dissentRounds => 14
  | .confirmedIncreases => 15
  | .shedsAccepted => 16
  | .shedsSent => 17
  | .triggerOverruns => 18
  | .overdrawTrips => 19

/-- The discard counter of a reason (R35). -/
def Reason.counter : Reason → Counter
  | .code => .codeDiscards
  | .kind => .kindDiscards
  | .length => .lengthDiscards
  | .crc => .crcDiscards
  | .group => .groupDiscards
  | .format => .formatDiscards
  | .self => .selfDiscards
  | .role => .roleDiscards
  | .state => .stateDiscards

/-- A live counter's value. -/
def Stats.get (st : Stats) (c : Counter) : Word32 := st.live[c.index]

/-- An increment, which a counter standing at 4,294,967,295 does not take (R176). -/
def saturatingSucc (v : Word32) : Word32 := if v = 0xFFFFFFFF then v else v + 1

/-- One increment of one counter; the step from 2^31 - 1 to 2^31 adds its number to the attention set,
once (R176, R177). -/
def Stats.bump (st : Stats) (c : Counter) : Stats :=
  { st with
    live := st.live.set c.index (saturatingSucc (st.get c))
    attention :=
      if st.get c = 0x7FFFFFFF ∧ c ∉ st.attention then st.attention ++ [c] else st.attention }

/-- One increment of one counter of the part. -/
def State.count (s : State) (c : Counter) : State := { s with stats := s.stats.bump c }

/-! ## Discard history (R36, R37) -/

/-- The newest record takes one more discard of its description (R37). -/
def DiscardRecord.again (r : DiscardRecord) (round : Byte) : DiscardRecord :=
  { r with latestRound := round, repeats := min (r.repeats + 1) 255 }

/-- Whether a record has the description: reason, sender and kind, an absent field matching only an
absent one (R37). -/
def DiscardRecord.describes (r : DiscardRecord) (reason : Reason) (sender kind : Option Nat) : Bool :=
  r.reason == reason && r.sender == sender && r.kind == kind

/-- A discard joins the newest record of its own description or becomes the newest record; of more
than eight the oldest goes (R37). -/
def addDiscard (history : List DiscardRecord) (reason : Reason) (sender kind : Option Nat)
    (round : Byte) : List DiscardRecord :=
  match history.getLast? with
  | some r =>
    if r.describes reason sender kind then history.dropLast ++ [r.again round]
    else (if history.length < 8 then history else history.drop 1)
      ++ [⟨reason, sender, kind, round, round, 1⟩]
  | none => [⟨reason, sender, kind, round, round, 1⟩]

/-- The low 8 bits of the round count (R36). -/
def State.roundByte (s : State) : Byte := s.rotation.roundCount.truncate 8

/-! ## The cut and the effective limit (R90, R92, R152) -/

/-- A cut: duty and buffer 0 and DRIVE low at once; the period counter and the driven mark stand
(R152). -/
def Drive.cut (d : Drive) : Drive := { d with duty := 0, buffer := 0, level := false }

/-- The limit that R90 gives for the state as it stands. -/
def State.limitNow (s : State) : Nat :=
  limitOf s.ctl.station s.share.applied (shedCap s.shed.table s.cfg.floor)

/-- The Share Regulator forms the effective limit again, and orders a cut when it takes the value 0
from a value above 0 (R90, R92). -/
def State.formLimit (s : State) : State :=
  { s with
    share := { s.share with limit := s.limitNow }
    drive := if 0 < s.share.limit ∧ s.limitNow = 0 then s.drive.cut else s.drive }

/-- A change of station state out of membership to st: the share values to 0 with the cut (R87), the
OVERDRAW detector CLEAR with an empty run (R143), the isolation counts and round flags cleared
(R108). In a station that was not ACTIVE all of these stand there already. -/
def State.leaveMembership (s : State) (st : Station) : State :=
  State.formLimit { s with
    ctl := { s.ctl with
      station := st, isolationA := 0, isolationB := 0, heardMeRound := false
      acceptedRound := false }
    share := { s.share with applied := 0, pending := none }
    meas := { s.meas with overdraw := .clear } }

/-! ## Shed table and pending SHED item (R120, R127, R131) -/

/-- What an order leaves in its entry: rounds 1 to 63 occupy it, rounds 0 empty it (R120). -/
def shedEntryOf (o : ShedOrder) : Option ShedOrder := if o.rounds = 0 then none else some o

/-- Entry m written from an order, and the limit formed again from the cap (R91, R120, R122, R131).
There is no entry for an address above 3. -/
def State.writeShed (s : State) (m : Nat) (o : ShedOrder) : State :=
  State.formLimit { s with
    shed := { s.shed with table := s.shed.table.setIfInBounds m (shedEntryOf o) } }

/-- A write of the pending SHED item, which sets the written-since mark (R127). -/
def State.writeItem (s : State) (o : Option ShedOrder) : State :=
  { s with sched := { s.sched with item := o, writtenSince := true } }

/-! ## Lists of the Group Table (R39, R55) -/

/-- The entry for an address. -/
def findEntry (a : Nat) (es : List Entry) : Option Entry := es.find? (fun e => e.addr == a)

/-- The table without the entry for an address. -/
def removeEntry (a : Nat) (es : List Entry) : List Entry := es.filter (fun e => e.addr != a)

/-- An entry put in its place in ascending address, replacing the one for its address (R39). -/
def putEntry (e : Entry) : List Entry → List Entry
  | [] => [e]
  | x :: xs =>
    if e.addr < x.addr then e :: x :: xs
    else if e.addr = x.addr then e :: xs
    else x :: putEntry e xs

/-- The entry for an address changed, if there is one. -/
def updateEntry (a : Nat) (f : Entry → Entry) (es : List Entry) : List Entry :=
  es.map (fun e => if e.addr = a then f e else e)

/-- The orphan list without the orphan for an address. -/
def removeOrphan (a : Nat) (os : List Orphan) : List Orphan := os.filter (fun o => o.addr != a)

/-- An orphan put in its place in ascending address, replacing one for its address (R55). -/
def putOrphan (o : Orphan) : List Orphan → List Orphan
  | [] => [o]
  | x :: xs =>
    if o.addr < x.addr then o :: x :: xs
    else if o.addr = x.addr then o :: xs
    else x :: putOrphan o xs

/-- The entries whose floors count: ACTIVE and SILENT (R41). -/
def Entry.counted (e : Entry) : Bool := e.state == .active || e.state == .silent

/-- The floor sum (R41). -/
def floorSum (es : List Entry) : Nat := ((es.filter Entry.counted).map (fun e => e.terms.floor)).sum

/-- What a member may be using: the larger of last held and last pending, capped at its ceiling
(R56, R65). -/
def Entry.reserve (e : Entry) : Nat :=
  match e.values with
  | some v => min (max v.held v.pending) e.terms.ceiling
  | none => 0

/-- The own entry removed (R42). -/
def State.removeOwnEntry (s : State) : State :=
  { s with table := { s.table with entries := removeEntry s.ownAddr s.table.entries } }

end Sys2Proof.Machine
end

