-- ==== Sys2Proof/Machine/Table.lean ====
section
/-! DEFINITION. The Group Table: what accepted frames do to it and the stages of a boundary
(chapter 3). -/

namespace Sys2Proof.Machine

/-! ## Frames (R45 to R49, R60) -/

/-- A new CANDIDATE made from a JOIN (R45). -/
def joinedEntry (a : Nat) (t : Terms) : Entry where
  addr := a
  state := .candidate
  terms := t
  values := none
  basis := none
  heard := true
  missed := 0
  heardMe := false

/-- An entry whose terms a JOIN rewrites (R45). -/
def Entry.rejoin (e : Entry) (t : Terms) : Entry := { e with terms := t, heard := true, missed := 0 }

/-- An accepted JOIN from address a (R45): a new CANDIDATE where there is no entry or one in ACTIVE or
SILENT, which also removes an orphan for a, and new terms for an entry in CANDIDATE, DEFERRED or
OUTSIDE. -/
def GroupTable.acceptJoin (g : GroupTable) (a : Nat) (t : Terms) : GroupTable :=
  match findEntry a g.entries with
  | some e =>
    match e.state with
    | .candidate => { g with entries := putEntry (e.rejoin t) g.entries }
    | .deferred => { g with entries := putEntry (e.rejoin t) g.entries }
    | .outside => { g with entries := putEntry (e.rejoin t) g.entries }
    | .active =>
      { g with
        entries := putEntry (joinedEntry a t) g.entries
        orphans := removeOrphan a g.orphans }
    | .silent =>
      { g with
        entries := putEntry (joinedEntry a t) g.entries
        orphans := removeOrphan a g.orphans }
  | none =>
    { g with
      entries := putEntry (joinedEntry a t) g.entries
      orphans := removeOrphan a g.orphans }

/-- The entry a CLAIM writes (R48), in the state given. -/
def claimEntry (own a : Nat) (v : Values) (t : Terms) (basis : Word16) (mask : Word32)
    (st : EntryState) : Entry where
  addr := a
  state := st
  terms := t
  values := some v
  basis := some basis
  heard := true
  missed := 0
  heardMe := mask.getLsbD own

/-- The fit test of R46 and the floor test of R48: the floor sum without a's own entry, plus the floor
of the CLAIM, is at most B. -/
def floorFits (budget : Nat) (es : List Entry) (a floor : Nat) : Bool :=
  decide (floorSum (removeEntry a es) + floor ≤ budget)

/-- The state of the sender's entry after an accepted CLAIM (R46, R47, R48); listening is whether the
receiver is in LISTEN. None: an entry in CANDIDATE or DEFERRED outside LISTEN, whose CLAIM has been
discarded (R32) and does not reach the table. -/
def claimState (listening : Bool) (budget : Nat) (es : List Entry) (a floor : Nat) :
    Option EntryState :=
  let byFit : EntryState := if floorFits budget es a floor then .active else .outside
  match findEntry a es with
  | none => some (if listening then byFit else .outside)
  | some e =>
    match e.state with
    | .candidate => if listening then some byFit else none
    | .deferred => if listening then some byFit else none
    | .outside => some (if listening then byFit else .outside)
    | .active => some (if floor ≤ e.terms.floor then .active else byFit)
    | .silent => some (if floor ≤ e.terms.floor then .active else byFit)

/-- The confirmation status of address a after a CLAIM with this basis digest (R60). -/
def setConfirmation (own : Option Word16) (a : Nat) (basis : Word16)
    (set : List (Nat × Confirmation)) : List (Nat × Confirmation) :=
  set.map (fun x => if x.1 = a then (a, if own = some basis then .agrees else .mismatch) else x)

/-- An accepted CLAIM from address a (R46 to R48, R60): its entry written, an orphan for a removed,
and the sender's confirmation status set against the digest of the present snapshot. -/
def GroupTable.acceptClaim (g : GroupTable) (listening : Bool) (budget own a : Nat) (v : Values)
    (t : Terms) (basis : Word16) (mask : Word32) (snapshot : Option Word16) : GroupTable :=
  match claimState listening budget g.entries a t.floor with
  | some st =>
    { entries := putEntry (claimEntry own a v t basis mask st) g.entries
      orphans := removeOrphan a g.orphans
      confirm := setConfirmation snapshot a basis g.confirm }
  | none => g

/-- An accepted LEAVE from address a: its entry is removed, and nothing else (R49). -/
def GroupTable.acceptLeave (g : GroupTable) (a : Nat) : GroupTable :=
  { g with entries := removeEntry a g.entries }

/-! ## The own entry (R42, R43) -/

/-- The own entry as the station enters JOINING (R42). -/
def ownCandidate (a : Nat) (t : Terms) : Entry where
  addr := a
  state := .candidate
  terms := t
  values := none
  basis := none
  heard := false
  missed := 0
  heardMe := false

/-- An own JOIN reported sent (R43). -/
def Entry.ownJoinSent (e : Entry) : Entry := { e with heard := true }

/-- An own CLAIM reported sent, with the values it carried (R43). -/
def Entry.ownClaimSent (e : Entry) (v : Values) (basis : Word16) : Entry :=
  { e with heard := true, values := some v, basis := some basis }

/-- The own entry takes part in this boundary as SILENT: it is ACTIVE when the stages begin and its
heard flag is clear (R44). -/
def ownSilent (own : Nat) (es : List Entry) : Bool :=
  match findEntry own es with
  | some e => e.state == .active && !e.heard
  | none => false

/-! ## Boundary stages (R50 to R59) -/

/-- One entry aged at an ORDINARY boundary (R51); none where it is removed. The own entry is not aged
(R43). A SILENT entry with its heard flag set does not occur and is left as it stands (log 21). -/
def ageEntry (own gone : Nat) (e : Entry) : Option Entry :=
  if e.addr = own then some e
  else
    match e.state with
    | .candidate => some e
    | .active => some (if e.heard then { e with missed := 0 } else { e with state := .silent, missed := 1 })
    | .silent =>
      if e.heard then some e
      else if gone ≤ e.missed + 1 then none
      else some { e with missed := e.missed + 1 }
    | .deferred =>
      if e.heard then some { e with missed := 0 }
      else if gone ≤ e.missed + 1 then none
      else some { e with missed := e.missed + 1 }
    | .outside =>
      if e.heard then some { e with missed := 0 }
      else if gone ≤ e.missed + 1 then none
      else some { e with missed := e.missed + 1 }

/-- Whether an entry leaves stage 1 as GONE, which makes an orphan: a SILENT or OUTSIDE entry that
ageing removes (R51). -/
def isGone (own gone : Nat) (e : Entry) : Bool :=
  (ageEntry own gone e).isNone && (e.state == .silent || e.state == .outside)

/-- The orphan made from a removed entry (R56). -/
def orphanOf (tOrphan : Nat) (e : Entry) : Orphan := ⟨e.addr, e.reserve, tOrphan⟩

/-- Orphans made and added in their places; none when T_orphan is 0 (R56). -/
def addOrphans (tOrphan : Nat) (es : List Entry) (os : List Orphan) : List Orphan :=
  if tOrphan = 0 then os else es.foldl (fun acc e => putOrphan (orphanOf tOrphan e) acc) os

/-- Stage 2: every orphan on the list loses a round and goes at 0 (R57). -/
def ageOrphans (os : List Orphan) : List Orphan :=
  os.filterMap (fun o =>
    if o.remaining ≤ 1 then none else some { o with remaining := o.remaining - 1 })

/-- Whether stage 3 takes an entry up (R53): every CANDIDATE but an own one whose heard flag is clear,
every DEFERRED that was heard, every OUTSIDE. -/
def eligible (own : Nat) (e : Entry) : Bool :=
  match e.state with
  | .candidate => e.addr != own || e.heard
  | .deferred => e.heard
  | .outside => true
  | .active => false
  | .silent => false

/-- The value fields that admission writes (R53). -/
def zeroValues : Values := ⟨0, 0, 0, 0, false⟩

/-- An admitted entry (R53): ACTIVE with missed rounds 0, and zero values unless it was OUTSIDE. -/
def Entry.admitted (e : Entry) : Entry :=
  { e with
    state := .active
    missed := 0
    values := if e.state = .outside then e.values else some zeroValues }

/-- An entry that is taken up and not admitted: a CANDIDATE becomes DEFERRED with missed rounds 0, any
other stays (R53). -/
def Entry.notAdmitted (e : Entry) : Entry :=
  if e.state = .candidate then { e with state := .deferred, missed := 0 } else e

/-- Stage 3 (R53): the entries in ascending address against the floor sum as the decisions already
made leave it. -/
def admission (budget own : Nat) : Nat → List Entry → List Entry
  | _, [] => []
  | sum, e :: es =>
    if eligible own e then
      if sum + e.terms.floor ≤ budget then e.admitted :: admission budget own (sum + e.terms.floor) es
      else e.notAdmitted :: admission budget own sum es
    else e :: admission budget own sum es

/-- Stage 3's report on the own entry (R54): none where it is not taken up. -/
def ownDecision (own : Nat) (before after : List Entry) : Option Bool :=
  match findEntry own before with
  | some e =>
    if eligible own e then
      (findEntry own after).map (fun x => x.state == .active)
    else none
  | none => none

/-- Stage 4: the other ACTIVE entries, each pending (R59). -/
def rebuildConfirm (own : Nat) (es : List Entry) : List (Nat × Confirmation) :=
  (es.filter (fun e => e.addr != own && e.state == .active)).map (fun e => (e.addr, .pending))

/-- Stage 5: every heard flag cleared (R50). -/
def clearHeard (es : List Entry) : List Entry := es.map (fun e => { e with heard := false })

/-- Stage 1 by the kind of boundary: performed at an ORDINARY one, omitted at a LOST one (R50 to
R52). -/
def stageOne (kind : BoundaryKind) (own gone : Nat) (es : List Entry) : List Entry :=
  match kind with
  | .ordinary => es.filterMap (ageEntry own gone)
  | .lost => es

/-- The entries stage 1 gives up as GONE (R51, R52). -/
def stageOneGone (kind : BoundaryKind) (own gone : Nat) (es : List Entry) : List Entry :=
  match kind with
  | .ordinary => es.filter (isGone own gone)
  | .lost => []

/-- The table after stage 3 (R51, R53). -/
def admittedEntries (c : Settings) (kind : BoundaryKind) (own : Nat) (es : List Entry) : List Entry :=
  let aged := stageOne kind own (tGone c.tIsolate) es
  admission c.budget own (floorSum aged) aged

/-- The five stages (R50) outside an isolation boundary; in ISOLATED the confirmation set stays empty
(R59). Stage 2 ages the orphans that were on the list before stage 1's are added (R57). -/
def GroupTable.stages (g : GroupTable) (c : Settings) (kind : BoundaryKind) (own : Nat)
    (isolated : Bool) : GroupTable where
  entries := clearHeard (admittedEntries c kind own g.entries)
  orphans := addOrphans c.tOrphan (stageOneGone kind own (tGone c.tIsolate) g.entries)
    (ageOrphans g.orphans)
  confirm := if isolated then [] else rebuildConfirm own (admittedEntries c kind own g.entries)

/-- The isolation move (R58): the members and the OUTSIDE entries of other stations become orphans
after stage 2 has aged those on the list, everything else is dropped, and the confirmation set is
emptied. -/
def GroupTable.isolationMove (g : GroupTable) (c : Settings) (own : Nat) : GroupTable where
  entries := []
  orphans := addOrphans c.tOrphan
    (g.entries.filter (fun e => e.addr != own && (e.counted || e.state == .outside)))
    (ageOrphans g.orphans)
  confirm := []

end Sys2Proof.Machine
end

