-- ==== Sys2Proof/Machine/Allocation.lean ====
section
/-! DEFINITION. The Allocator: classes, quorum scaling, floors, passes, the basis digest and the
snapshot (chapter 4, R61). -/

namespace Sys2Proof.Machine

/-- The table as the Allocator takes it: the own entry in the form R44 fixed for this boundary. -/
def formed (own : Nat) (silent : Bool) (es : List Entry) : List Entry :=
  es.map (fun e => if silent && e.addr == own then { e with state := .silent } else e)

/-- The value fields of an entry; an entry that takes part always has them (R40). -/
def Entry.vals (e : Entry) : Values := e.values.getD zeroValues

/-- The pinned amount of an entry, none where it is not pinned (R64, R65): SILENT and OUTSIDE at their
reserve, ACTIVE with STAGE_FAULT at the smaller of last draw and B. -/
def Entry.pinned (budget : Nat) (e : Entry) : Option Nat :=
  match e.state with
  | .silent => some e.reserve
  | .outside => some e.reserve
  | .active => if e.vals.stageFault then some (min e.vals.draw budget) else none
  | .candidate => none
  | .deferred => none

/-- Whether an entry is normal: ACTIVE with STAGE_FAULT clear (R64). -/
def Entry.isNormal (e : Entry) : Bool := e.state == .active && !e.vals.stageFault

/-- m, the number of ACTIVE and SILENT entries (R66). -/
def memberCount (es : List Entry) : Nat := (es.filter Entry.counted).length

/-- B_eff (R66): B where E is 1 or m is at least E, else B × m divided by E, rounded down. -/
def effectiveBudget (budget expected m : Nat) : Nat :=
  if expected = 1 ∨ expected ≤ m then budget else budget * m / expected

/-- The sum of all pinned amounts (R67). -/
def pinnedSum (budget : Nat) (es : List Entry) (os : List Orphan) : Nat :=
  (es.filterMap (Entry.pinned budget)).sum + (os.map (fun o => o.reserve)).sum

/-- A normal entry in the computation: what it asks, and what it has been given so far. -/
structure Claimant where
  addr : Nat
  demand : Nat
  floor : Nat
  ceiling : Nat
  weight : Nat
  given : Nat
deriving DecidableEq, Repr

/-- A normal entry before the floor stage. -/
def Entry.claimant (e : Entry) : Claimant :=
  ⟨e.addr, e.vals.demand, e.terms.floor, e.terms.ceiling, e.terms.weight, 0⟩

/-- The floor grant against the remainder as it stands (R68). -/
def Claimant.floorGrant (c : Claimant) (remainder : Nat) : Nat :=
  min (min c.demand c.floor) remainder

/-- The floor stage, in ascending address (R68): the entries with their grants, and the remainder. -/
def floorStage : Nat → List Claimant → List Claimant × Nat
  | r, [] => ([], r)
  | r, c :: cs =>
    let rest := floorStage (r - c.floorGrant r) cs
    ({ c with given := c.floorGrant r } :: rest.1, rest.2)

/-- FLOOR_SHORTFALL (R68): some normal entry was given less than the smaller of its demand and its
floor. -/
def shortfall (cs : List Claimant) : Bool := cs.any (fun c => decide (c.given < min c.demand c.floor))

/-- What a claimant still wants (R69). -/
def Claimant.want (c : Claimant) : Nat := min c.demand c.ceiling - c.given

/-- W, the sum of the weights of the unsatisfied (R69). -/
def weightSum (cs : List Claimant) : Nat :=
  ((cs.filter (fun c => decide (0 < c.want))).map (fun c => c.weight)).sum

/-- The grant of a weighted pass (R70). -/
def Claimant.weightedGrant (q : Nat) (c : Claimant) : Nat := min (q * c.weight) c.want

/-- A weighted pass (R70). -/
def weightedPass (q : Nat) (cs : List Claimant) : List Claimant :=
  cs.map (fun c => { c with given := c.given + c.weightedGrant q })

/-- What a weighted pass hands out in all (R70). -/
def weightedSum (q : Nat) (cs : List Claimant) : Nat := (cs.map (Claimant.weightedGrant q)).sum

/-- A unit pass over claimants already in the order of R71: one unit to each unsatisfied one while the
remainder lasts. -/
def unitPass : Nat → List Claimant → List Claimant × Nat
  | r, [] => ([], r)
  | 0, cs => (cs, 0)
  | r + 1, c :: cs =>
    if 0 < c.want then
      let rest := unitPass r cs
      ({ c with given := c.given + 1 } :: rest.1, rest.2)
    else
      let rest := unitPass (r + 1) cs
      (c :: rest.1, rest.2)

/-- The extra stage (R69): passes until the remainder is 0 or nobody is unsatisfied. Every pass hands
out at least one unit, so the remainder bounds the number of passes. -/
def extraStage : Nat → Nat → List Claimant → List Claimant
  | 0, _, cs => cs
  | fuel + 1, r, cs =>
    if r = 0 ∨ cs.all (fun c => decide (c.want = 0)) then cs
    else
      let q := r / weightSum cs
      if 1 ≤ q then extraStage fuel (r - weightedSum q cs) (weightedPass q cs)
      else
        let pass := unitPass r cs
        extraStage fuel pass.2 pass.1

/-- The order of a unit pass: heaviest first, then ascending address (R71). -/
def Claimant.before (c d : Claimant) : Bool :=
  decide (d.weight < c.weight) || (c.weight == d.weight && decide (c.addr ≤ d.addr))

/-- A claimant put in its place in the order of R71. -/
def insertClaimant (c : Claimant) : List Claimant → List Claimant
  | [] => [c]
  | d :: ds => if c.before d then c :: d :: ds else d :: insertClaimant c ds

/-- The claimants in the order of R71. -/
def inUnitOrder (cs : List Claimant) : List Claimant := cs.foldr insertClaimant []

/-- The floor stage and the extra stage over the normal entries, from remainder r (R68 to R71). -/
def shareOut (r : Nat) (cs : List Claimant) : List Claimant :=
  let floors := floorStage r cs
  extraStage floors.2 floors.2 (inUnitOrder floors.1)

/-- The allocation of one address (R72): the pinned amount or the grants of its entry, an orphan's
reserve, or 0. -/
def allocationAt (budget : Nat) (es : List Entry) (os : List Orphan) (shares : List Claimant)
    (a : Nat) : Nat :=
  match findEntry a es with
  | some e =>
    match e.pinned budget with
    | some n => n
    | none =>
      match shares.find? (fun c => c.addr == a) with
      | some c => c.given
      | none => 0
  | none =>
    match os.find? (fun o => o.addr == a) with
    | some o => o.reserve
    | none => 0

/-! ## The basis digest (R61) -/

/-- The basis state code: ACTIVE 1, SILENT 2, OUTSIDE 3; none for an entry that does not appear. -/
def basisCode : EntryState → Option Nat
  | .active => some 1
  | .silent => some 2
  | .outside => some 3
  | .candidate => none
  | .deferred => none

/-- The member part of one entry, twelve bytes; nothing for a CANDIDATE or DEFERRED entry (R61). -/
def memberPart (budget : Nat) (e : Entry) : List Byte :=
  match basisCode e.state with
  | some code =>
    [byte e.addr, byte code] ++ bytes2 e.vals.demand ++ bytes2 e.terms.floor
      ++ bytes2 e.terms.ceiling ++ [byte e.terms.weight, byte e.vals.stageFault.toNat]
      ++ bytes2 ((e.pinned budget).getD 0)
  | none => []

/-- The orphan part of one orphan, three bytes (R61). -/
def orphanPart (o : Orphan) : List Byte := byte o.addr :: bytes2 o.reserve

/-- The encoding over which the basis digest is formed (R61). -/
def basisEncoding (budget bEff : Nat) (es : List Entry) (os : List Orphan) : List Byte :=
  es.flatMap (memberPart budget) ++ os.flatMap orphanPart ++ bytes2 bEff

/-! ## The snapshot (R72) -/

/-- The Allocator's computation over a formed table and the orphan list (R63 to R72). -/
def allocate (c : Settings) (es : List Entry) (os : List Orphan) : Snapshot :=
  let m := memberCount es
  let bEff := effectiveBudget c.budget c.expected m
  let pins := pinnedSum c.budget es os
  let r := bEff - pins
  let claimants := (es.filter Entry.isNormal).map Entry.claimant
  let shares := shareOut r claimants
  { alloc := (List.range 32).map (allocationAt c.budget es os shares)
    basis := some (crc (basisEncoding c.budget bEff es os))
    bEff := bEff
    members := m
    overcommitted := decide (bEff < pins)
    floorShortfall := shortfall (floorStage r claimants).1 }

end Sys2Proof.Machine
end

