-- ==== Sys2Proof/Machine/StationMoves.lean ====
section
/-! DEFINITION. The entries to the station states, each with what the other blocks do at the move
(chapters 5, 6 and 8). -/

namespace Sys2Proof.Machine

/-- Entry to OFFLINE (R99, R107, R110): the silence timer is stopped (R18). -/
def State.enterOffline (s : State) : State :=
  { s with
    ctl := { s.ctl with station := .offline }
    rotation := { s.rotation with silence := none } }

/-- Entry to LISTEN (R97, R99, R110): both listen flags cleared (R102), and the silence timer started
at 0 if the station is unsynced (R18). -/
def State.enterListen (s : State) : State :=
  { s with
    ctl := { s.ctl with station := .listen, groupEvidence := false, acceptedSeen := false }
    rotation := { s.rotation with silence := if s.rotation.synced then none else some 0 } }

/-- Entry to JOINING (R42, R103): the own entry made as a CANDIDATE from the configured terms, the
JOIN-composed flag cleared, the silence timer stopped (R18). -/
def State.enterJoining (s : State) : State :=
  { s with
    ctl := { s.ctl with station := .joining, joinComposed := false }
    table := { s.table with
      entries := putEntry (ownCandidate s.ownAddr (s.cfg.terms s.ownRole)) s.table.entries }
    rotation := { s.rotation with silence := none } }

/-- Entry to LEAVING (R106): share values, limit and isolation counts to 0 with the cut, the own entry
removed, the LEAVE attempt count 0. -/
def State.enterLeaving (s : State) : State :=
  let t := (s.leaveMembership .leaving).removeOwnEntry
  { t with sched := { t.sched with leaveAttempts := 0 } }

/-- The end of LEAVING (R107): OFFLINE, and on to JOINING at once if EN is settled high. -/
def State.endLeaving (s : State) : State :=
  if s.ctl.settled then s.enterOffline.enterJoining else s.enterOffline

/-- Entry to ADDRESS_CONFLICT or GROUP_MISMATCH with its fault code (R62, R87, R111, R112, R147): the
share values to 0 with the cut, the own entry removed, the confirmation set emptied, a scan in
progress abandoned, the silence timer stopped. -/
def State.enterFaultState (s : State) (st : Station) (code : FaultCode) : State :=
  let t := (s.leaveMembership st).removeOwnEntry
  { t with
    ctl := { t.ctl with faultCode := code }
    table := { t.table with confirm := [] }
    meas := { t.meas with scan := .idle }
    rotation := { t.rotation with silence := none } }

/-- Conflict evidence of a SELF discard, in the states in which it acts (R29, R111). -/
def State.conflictEvidence (s : State) : State :=
  if s.ctl.station.evidenceMatters then s.enterFaultState .addressConflict .conflictByFrame else s

/-- Entry to ISOLATED, as far as the Station Controller and the Share Regulator go (R89, R109): the
Group Table's isolation move follows as a stage of the same boundary. -/
def State.enterIsolated (s : State) : State :=
  let t := s.leaveMembership .isolated
  { t with
    ctl := { t.ctl with isolations := min (t.ctl.isolations + 1) 255, joinComposed := false } }

/-- The end of LISTEN (R101, R102), and of the silence it waited for: GROUP_MISMATCH if mismatch
evidence stands, else JOINING. -/
def State.endListen (s : State) : State :=
  if s.mismatchEvidence then s.enterFaultState .groupMismatch .groupMismatch else s.enterJoining

/-- The end of ISOLATED (R75, R101, R110): the snapshot emptied, the observation count 1, and LISTEN
or OFFLINE by the settled level of EN. -/
def State.endIsolated (s : State) : State :=
  let t := { s with snap := .empty, ctl := { s.ctl with observed := 1 } }
  if t.ctl.settled then t.enterListen else t.enterOffline

end Sys2Proof.Machine
end

