-- ==== Sys2Proof/Machine/Boundary.lean ====
section
/-! DEFINITION. The round boundary: its stages in order, each on the state the one before left
(R9, R16, R50, R63, R78, R108, R121). -/

namespace Sys2Proof.Machine

/-- What the Rotation Tracker counts at a boundary (R9, R16). -/
def State.countBoundary (s : State) (kind : BoundaryKind) : State :=
  let t := { s with rotation := { s.rotation with roundCount := s.rotation.roundCount + 1 } }
  match kind with
  | .ordinary => t.count .rounds
  | .lost => (t.count .rounds).count .lostRounds

/-! ## Isolation (R108, R109) -/

/-- Whether some other station's entry is ACTIVE or SILENT (R108). -/
def State.hasOtherMember (s : State) : Bool :=
  s.table.entries.any (fun e => e.addr != s.ownAddr && e.counted)

/-- One isolation count after the evaluation: up by one in a round without the event, else 0; 0 where
no other member exists (R108). -/
def isolationStep (member : Bool) (seen : Bool) (n : Nat) : Nat :=
  if member && !seen then n + 1 else 0

/-- Count (a) as the evaluation leaves it (R108). -/
def State.nextIsolationA (s : State) : Nat :=
  isolationStep s.hasOtherMember s.ctl.heardMeRound s.ctl.isolationA

/-- Count (b) as the evaluation leaves it (R108). -/
def State.nextIsolationB (s : State) : Nat :=
  isolationStep s.hasOtherMember s.ctl.acceptedRound s.ctl.isolationB

/-- Whether this boundary isolates the station (R108, R109). -/
def State.isolates (s : State) : Bool :=
  s.ctl.station == .active
    && (decide (s.cfg.tIsolate ≤ s.nextIsolationA) || decide (s.cfg.tIsolate ≤ s.nextIsolationB))

/-- The evaluation on the boundary event, before the Group Table's stages: in ACTIVE only (R108,
R109). -/
def State.evaluateIsolation (s : State) : State :=
  if s.isolates then s.enterIsolated
  else if s.ctl.station = .active then
    { s with
      ctl := { s.ctl with
        isolationA := s.nextIsolationA, isolationB := s.nextIsolationB
        heardMeRound := false, acceptedRound := false } }
  else s

/-! ## Shed countdown (R121, R125) -/

/-- One shed table entry counted down: it loses a round and empties at 0 (R121). -/
def countDown (o : Option ShedOrder) : Option ShedOrder :=
  match o with
  | some x => if x.rounds ≤ 1 then none else some { x with rounds := x.rounds - 1 }
  | none => none

/-- The order a monitor sends: rounds shed_len and mode shed_mode (R124, R125). -/
def Settings.order (c : Settings) : ShedOrder := ⟨c.shedLen, c.shedMode⟩

/-- The monitor's look at its own entry after the countdown (R125): at 1 round or empty, the order is
written into the item. -/
def State.monitorLook (s : State) : State :=
  if s.ownRole = .monitor ∧ s.shed.monitor = .shedding then
    match s.ownShedEntry with
    | some o => if o.rounds = 1 then s.writeItem (some s.cfg.order) else s
    | none => s.writeItem (some s.cfg.order)
  else s

/-- The countdown, the limit formed again from the cap it leaves, and the monitor's look (R91, R121,
R125). -/
def State.shedCountdown (s : State) : State :=
  (State.formLimit { s with
    shed := { s.shed with table := s.shed.table.map countDown } }).monitorLook

/-! ## Group Table, admission, Allocator, Share Regulator -/

/-- What stage 3's report on the own entry does to the station (R54, R103 to R105): admitted in
JOINING or DEFERRED, it enters ACTIVE with the isolation counts and round flags cleared and the
OVERDRAW detector CLEAR; not admitted in JOINING, it enters DEFERRED. The JOIN-composed flag does not
outlive JOINING (log 19). In any other state there is no own entry to report on. -/
def State.ownAdmission (s : State) (decision : Option Bool) : State :=
  match decision with
  | some true =>
    if s.ctl.station = .joining ∨ s.ctl.station = .deferred then
      State.formLimit { s with
        ctl := { s.ctl with
          station := .active, joinComposed := false, isolationA := 0, isolationB := 0
          heardMeRound := false, acceptedRound := false }
        meas := { s.meas with overdraw := .clear } }
    else s
  | some false =>
    if s.ctl.station = .joining then
      { s with ctl := { s.ctl with station := .deferred, joinComposed := false } }
    else s
  | none => s

/-- Stage 3's report at this boundary (R54). -/
def State.ownReport (s : State) (kind : BoundaryKind) : Option Bool :=
  ownDecision s.ownAddr (stageOne kind s.ownAddr (tGone s.cfg.tIsolate) s.table.entries)
    (admittedEntries s.cfg kind s.ownAddr s.table.entries)

/-- The Group Table's part of a boundary outside an isolation boundary, with the station's own
admission (R50, R54). -/
def State.tableStages (s : State) (kind : BoundaryKind) : State :=
  State.ownAdmission
    { s with
      table := s.table.stages s.cfg kind s.ownAddr (s.ctl.station == .isolated) }
    (s.ownReport kind)

/-- The isolation move as the Group Table's part of the boundary (R58). -/
def State.tableIsolation (s : State) : State :=
  { s with table := s.table.isolationMove s.cfg s.ownAddr }

/-- The Allocator's stage (R63, R72). -/
def State.allocateStage (s : State) (silent : Bool) : State :=
  { s with
    snap := allocate s.cfg (formed s.ownAddr silent s.table.entries) s.table.orphans }

/-- The confirmation test (R79). -/
def confirms (pending : Option Nat) (kind : BoundaryKind) (ownSent : Bool)
    (set : List (Nat × Confirmation)) : Bool :=
  pending.isSome && kind == .ordinary && ownSent && set.all (fun x => x.2 == .agrees)

/-- The new applied share from this boundary's a (R80). -/
def newApplied (confirmed : Bool) (a : Nat) (sh : Share) : Nat :=
  match confirmed, sh.pending with
  | true, some p => min a p
  | _, _ => min a sh.applied

/-- The new pending increase: a where it stands above the new applied share (R80). -/
def newPending (a applied : Nat) : Option Nat := if applied < a then some a else none

/-- The allocation of this boundary: the own allocation capped at the ceiling (R78). -/
def State.boundaryAllocation (s : State) : Nat :=
  min (s.snap.alloc.getD s.ownAddr 0) s.cfg.ceiling

/-- A dissent round: a pending increase and a mismatch status (R81). -/
def dissents (pending : Option Nat) (set : List (Nat × Confirmation)) : Bool :=
  pending.isSome && set.any (fun x => x.2 == .mismatch)

/-- The Share Regulator's stage, in ACTIVE only (R78 to R81, R90): set is the confirmation set as it
stood when the boundary began, ownSent whether the own entry takes part as ACTIVE. -/
def State.shareStage (s : State) (kind : BoundaryKind) (ownSent : Bool)
    (set : List (Nat × Confirmation)) : State :=
  if s.ctl.station = .active then
    let ok := confirms s.share.pending kind ownSent set
    let a := s.boundaryAllocation
    let applied := newApplied ok a s.share
    let t := if ok && decide (s.share.applied < applied) then s.count .confirmedIncreases else s
    let u := if dissents s.share.pending set then t.count .dissentRounds else t
    State.formLimit { u with
      share := { u.share with applied := applied, pending := newPending a applied } }
  else s

/-- The changes of state as the boundary operation completes (R101, R102, R110), by the state in which
the boundary began. -/
def State.completeBoundary (s : State) (began : Station) : State :=
  match began with
  | .offline => { s with ctl := { s.ctl with observed := min (s.ctl.observed + 1) 2 } }
  | .listen =>
    let t := { s with ctl := { s.ctl with observed := min (s.ctl.observed + 1) 2 } }
    if s.ctl.observed = 1 then t.endListen else t
  | .isolated => s.endIsolated
  | _ => s

/-- The Group Table's part by whether the boundary isolates the station (R50, R58). -/
def State.tablePart (s : State) (kind : BoundaryKind) (isolating : Bool) : State :=
  if isolating then s.tableIsolation else s.tableStages kind

/-- Whether the own CLAIM of the ending round went out: the own entry is there and takes part as
ACTIVE (R44, R79). -/
def State.ownTakesPartActive (s : State) (silent : Bool) : Bool :=
  !silent && (findEntry s.ownAddr s.table.entries).isSome

/-- The boundary operation of the blocks, in the states in which they work (R50, R63, R121): the
isolation evaluation and the shed countdown on the boundary event, the Group Table's part, the
Allocator, the Share Regulator, and the changes of state as it completes. -/
def State.boundaryWork (s : State) (kind : BoundaryKind) : State :=
  let silent := ownSilent s.ownAddr s.table.entries
  let u := (s.evaluateIsolation.shedCountdown.tablePart kind s.isolates).allocateStage silent
  (u.shareStage kind (u.ownTakesPartActive silent) s.table.confirm).completeBoundary s.ctl.station

/-- A round boundary of either kind (R9, R16). ROT and the slot are the caller's. -/
def State.boundary (s : State) (kind : BoundaryKind) : State :=
  if s.ctl.station.working then (s.countBoundary kind).boundaryWork kind else s.countBoundary kind

end Sys2Proof.Machine
end

