-- ==== Sys2Proof/Machine/Burst.lean ====
section
/-! DEFINITION. Slots and the own burst: slot opening, composition, and the outcomes of its frames
(R7 to R13, R34, R107, R113 to R116, R128, R129, R131). -/

namespace Sys2Proof.Machine

/-! ## Composition (R113, R114, R128) -/

/-- The CLAIM composed from the values that stand at own slot open (R77, R114). -/
def State.ownClaim (s : State) : Frame :=
  .claim s.ownAddr
    ⟨s.meas.reported, s.share.applied, s.share.pending.getD s.share.applied, min s.meas.draw 4095,
      s.stageFault⟩
    (s.cfg.terms s.ownRole) (s.snap.basis.getD 0) s.ownDigest s.checker.heardAcc

/-- The frame of the station state (R113); none outside the transmitting states. -/
def State.stateFrame (s : State) : Option Frame :=
  match s.ctl.station with
  | .joining => some (.join s.ownAddr (s.cfg.terms s.ownRole) s.ownDigest)
  | .deferred => some (.join s.ownAddr (s.cfg.terms s.ownRole) s.ownDigest)
  | .active => some s.ownClaim
  | .leaving => some (.leave s.ownAddr s.ownDigest)
  | _ => none

/-- The burst: a SHED from the pending item first, then the frame of the state (R113, R128); nothing
where no state frame is due. -/
def State.composeBurst (s : State) : List Frame :=
  match s.stateFrame with
  | some f =>
    match s.sched.item with
    | some o => [.shed s.ownAddr o s.ownDigest, f]
    | none => [f]
  | none => []

/-- Own slot open (R10, R34, R103, R113, R128): in a transmitting state the burst is composed and the
start delay begins, the written-since mark is cleared if the item was taken, and a JOIN composed in
JOINING sets the JOIN-composed flag; in every state the heard-mask accumulator is emptied. -/
def State.openOwnSlot (s : State) : State :=
  if s.ctl.station.transmitting then
    { s with
      line := { s.line with phase := .startDelay, burst := s.composeBurst }
      sched := { s.sched with
        writtenSince := if s.sched.item.isSome then false else s.sched.writtenSince }
      ctl := { s.ctl with
        joinComposed := if s.ctl.station = .joining then true else s.ctl.joinComposed }
      checker := { s.checker with heardAcc := 0 } }
  else { s with checker := { s.checker with heardAcc := 0 } }

/-- Slot a opens: ROT is a and the window starts; the own slot if a is the own address (R7). -/
def State.openSlot (s : State) (a : Nat) : State :=
  let t := { s with rotation := { s.rotation with rot := a, slot := .window } }
  if a = s.ownAddr then t.openOwnSlot else t

/-- The end of a slot: ROT advances by one, or from N_slots - 1 the ORDINARY boundary is performed and
slot 0 opens (R7 to R9). -/
def State.advance (s : State) : State :=
  if s.rotation.rot + 1 < s.cfg.nSlots then s.openSlot (s.rotation.rot + 1)
  else (s.boundary .ordinary).openSlot 0

/-! ## Outcomes (R12, R13, R107, R115, R129, R131) -/

/-- Whether a frame is a LEAVE. -/
def Frame.isLeave : Frame → Bool
  | .leave _ _ => true
  | _ => false

/-- The frames of a burst reported collided or deferred: a LEAVE counts an attempt in LEAVING, the
third of which ends it (R107, R115); every other frame leaves things as they stand. -/
def State.framesNotSent (s : State) (frames : List Frame) : State :=
  if frames.any Frame.isLeave ∧ s.ctl.station = .leaving then
    let t := { s with sched := { s.sched with leaveAttempts := s.sched.leaveAttempts + 1 } }
    if 3 ≤ s.sched.leaveAttempts + 1 then t.endLeaving else t
  else s

/-- An abort, or a second frame withheld (R13, R115): both collision counts rise, and a count left at
3 or more in JOINING, DEFERRED or ACTIVE puts the station in ADDRESS_CONFLICT (R111). -/
def State.countCollision (s : State) : State :=
  let t := State.count
    { s with sched := { s.sched with collisionRun := s.sched.collisionRun + 1 } } .collisions
  if 3 ≤ s.sched.collisionRun + 1 ∧ s.ctl.station.collisionMatters then
    t.enterFaultState .addressConflict .conflictByCollision
  else t

/-- The burst given up by the Line Controller: nothing is driven and nothing held. -/
def State.dropBurst (s : State) : State := { s with line := { s.line with phase := .quiet, burst := [] } }

/-- The frames held are reported collided (R12, R13): the collision counts first, so that a LEAVING
that ends by the same report is still LEAVING for R111. -/
def State.collide (s : State) : State := (s.dropBurst.countCollision).framesNotSent s.line.burst

/-- The frames held are reported deferred (R10, R12): no collision is counted. -/
def State.defer (s : State) : State := s.dropBurst.framesNotSent s.line.burst

/-- An own SHED reported sent (R129, R131): counted, and except in a fault state (log 18) the own
entry is written from the copy and the item is consumed unless it was written since. -/
def State.shedSent (s : State) (o : ShedOrder) : State :=
  let t := s.count .shedsSent
  if t.ctl.station.working then
    State.writeShed
      { t with sched := { t.sched with item := if t.sched.writtenSince then t.sched.item else none } }
      t.ownAddr o
  else t

/-- The own entry, if present, changed by an outcome (R43). -/
def State.updateOwn (s : State) (f : Entry → Entry) : State :=
  { s with table := { s.table with entries := updateEntry s.ownAddr f s.table.entries } }

/-- What a frame reported sent does by its kind (R115). -/
def State.frameEffect (s : State) : Frame → State
  | .shed _ o _ => s.shedSent o
  | .join _ _ _ => s.updateOwn Entry.ownJoinSent
  | .claim _ v _ basis _ _ => s.updateOwn (fun e => e.ownClaimSent v basis)
  | .leave _ _ => if s.ctl.station = .leaving then s.endLeaving else s

end Sys2Proof.Machine
end

