-- ==== Sys2Proof/Machine/Acceptance.lean ====
section
/-! DEFINITION. The end of a frame: resync, the nine acceptance checks, and what a discard or an
accepted frame sets in motion (chapters 1 and 2). -/

namespace Sys2Proof.Machine

/-! ## Resync (R6, R15, R16) -/

/-- ROT taken from a frame's sender, with the slot one of activity whose release gap has been running
since the frame's end of activity (R6, R15, R16). -/
def State.takeRot (s : State) (a : Nat) : State :=
  { s with rotation := { s.rotation with rot := a, slot := .releaseGap } }

/-- Sync acquisition (R6, R18, R101): no boundary, the observation count 0, the silence timer
stopped. -/
def State.acquireSync (s : State) (a : Nat) : State :=
  let t := { s with
    rotation := { s.rotation with synced := true, silence := none }
    ctl := { s.ctl with observed := 0 } }
  t.takeRot a

/-- What a CRC-valid frame from address a does to the rotation (R6, R15, R16). A forward resync from a
ROT that is the own address, whose CLAIM went out in this slot, leaves the own entry's heard flag set:
R43 and R44 are followed, by which a CLAIM that went out is one, and not the range of R15, which takes
in the previous ROT (log 29). -/
def State.resync (s : State) (a : Nat) : State :=
  if a < s.cfg.nSlots then
    if s.rotation.synced then
      if a < s.rotation.rot then (s.boundary .lost).takeRot a
      else if s.rotation.rot < a then s.takeRot a
      else s
    else s.acquireSync a
  else s

/-! ## The nine checks (R22 to R32) -/

/-- The verdict on a frame report (R22). -/
inductive Verdict where
  | accepted (f : Frame)
  | discarded (reason : Reason)
deriving DecidableEq, Repr

/-- The range of the terms in a CLAIM or JOIN from address a (R28). -/
def termsInRange (budget a : Nat) (t : Terms) : Bool :=
  decide (1 ≤ t.weight ∧ t.weight ≤ 15) && decide (t.role = .monitor → a < 4)
    && decide (1 ≤ t.ceiling ∧ t.ceiling ≤ budget) && decide (t.floor ≤ t.ceiling)

/-- The FORMAT check (R28). -/
def formatOk (c : Settings) (f : Frame) : Bool :=
  decide (f.sender < c.nSlots) &&
    match f with
    | .claim a v t _ _ mask =>
      termsInRange c.budget a t && decide (v.demand ≤ t.ceiling) && decide (v.held ≤ t.ceiling)
        && decide (v.held ≤ v.pending ∧ v.pending ≤ t.ceiling) && decide (v.draw ≤ 4095)
        && decide (mask.toNat < 2 ^ c.nSlots) && !mask.getLsbD a
    | .join a t _ => termsInRange c.budget a t
    | .leave _ _ => true
    | .shed _ _ _ => true

/-- Whether a frame fails ROLE: a SHED from an address of 4 or above (R30). -/
def failsRole : Frame → Bool
  | .shed a _ _ => decide (4 ≤ a)
  | _ => false

/-- Whether the sender's entry is CANDIDATE or DEFERRED (R32). -/
def notYetMember (a : Nat) (es : List Entry) : Bool :=
  match findEntry a es with
  | some e => e.state == .candidate || e.state == .deferred
  | none => false

/-- Whether a frame fails STATE (R31, R32): every frame where the Group Table does not take frames
(ISOLATED and the fault states), and outside LISTEN a CLAIM whose sender is not yet a member. -/
def failsState (st : Station) (es : List Entry) (f : Frame) : Bool :=
  if st = .isolated ∨ ¬ st.working then true
  else
    match f with
    | .claim a _ _ _ _ _ => st != .listen && notYetMember a es
    | _ => false

/-- The checks from GROUP on, which read the fields (R27 to R32). -/
def State.judgeFields (s : State) (f : Frame) : Verdict :=
  if f.digest ≠ s.ownDigest then .discarded .group
  else if ¬ formatOk s.cfg f then .discarded .format
  else if f.sender = s.ownAddr then .discarded .self
  else if failsRole f then .discarded .role
  else if failsState s.ctl.station s.table.entries f then .discarded .state
  else .accepted f

/-- The nine checks in their order; the first that fails is the reason (R22). -/
def State.judge (s : State) (r : FrameReport) : Verdict :=
  if r.status ≠ .good then .discarded .code
  else
    match kindLength (kindOf r.body), parseFrame r.body with
    | some n, some f =>
      if r.length ≠ some n then .discarded .length
      else if ¬ r.crcValid then .discarded .crc
      else s.judgeFields f
    | _, _ => .discarded .kind

/-! ## Discards (R29, R35 to R37) -/

/-- The sender a discard record names: absent for CODE, KIND and LENGTH (R36). -/
def recordSender (reason : Reason) (body : List Byte) : Option Nat :=
  match reason with
  | .code => none
  | .kind => none
  | .length => none
  | _ => some (senderOf body)

/-- The kind code a discard record names: absent for CODE (R36). -/
def recordKind (reason : Reason) (body : List Byte) : Option Nat :=
  match reason with
  | .code => none
  | _ => some (kindOf body)

/-- The counter and the history of a discard (R35 to R37). -/
def State.recordDiscard (s : State) (reason : Reason) (body : List Byte) : State :=
  { s with
    stats := s.stats.bump reason.counter
    checker := { s.checker with
      history := addDiscard s.checker.history reason (recordSender reason body)
        (recordKind reason body) s.roundByte } }

/-- A discard (R35): counted and recorded, with the group notice of a GROUP discard (R27, R102) and
the conflict evidence of a SELF discard (R29). -/
def State.discard (s : State) (reason : Reason) (body : List Byte) : State :=
  let t := s.recordDiscard reason body
  match reason with
  | .group => { t with ctl := { t.ctl with groupEvidence := true } }
  | .self => t.conflictEvidence
  | _ => t

/-! ## Accepted frames (R33, R34) -/

/-- Whether a frame is a CLAIM whose heard mask holds the bit of address a (R33). -/
def Frame.hears (f : Frame) (a : Nat) : Bool :=
  match f with
  | .claim _ _ _ _ _ mask => mask.getLsbD a
  | _ => false

/-- The acceptance notice to the Station Controller (R33): the accepted flag since the entry to LISTEN
(R102), and in ACTIVE the round flags (R108). -/
def State.notice (s : State) (f : Frame) : State :=
  { s with
    ctl := { s.ctl with
      acceptedSeen := true
      acceptedRound := if s.ctl.station = .active then true else s.ctl.acceptedRound
      heardMeRound :=
        if s.ctl.station = .active ∧ f.hears s.ownAddr then true else s.ctl.heardMeRound } }

/-- The heard-mask accumulator with address a in it (R34). -/
def State.hear (s : State) (a : Nat) : State :=
  { s with checker := { s.checker with heardAcc := s.checker.heardAcc ||| (1 <<< a) } }

/-- The dispatch of an accepted frame (R33, R34): CLAIM, JOIN and LEAVE to the Group Table, SHED to
the Shed Unit. -/
def State.dispatch (s : State) : Frame → State
  | .claim a v t basis _ mask =>
    let u := s.hear a
    { u with
      table := u.table.acceptClaim (s.ctl.station == .listen) s.cfg.budget s.ownAddr a v t basis mask
        s.snap.basis }
  | .join a t _ =>
    let u := s.hear a
    { u with table := u.table.acceptJoin a t }
  | .leave a _ => { s with table := s.table.acceptLeave a }
  | .shed a o _ => (s.count .shedsAccepted).writeShed a o

/-- An accepted frame (R33). -/
def State.accept (s : State) (f : Frame) : State := ((s.count .framesAccepted).notice f).dispatch f

/-- What the verdict does (R33, R35). -/
def State.settleVerdict (s : State) (v : Verdict) (body : List Byte) : State :=
  match v with
  | .accepted f => s.accept f
  | .discarded reason => s.discard reason body

/-! ## End of frame -/

/-- Whether a frame attempt is in progress (R3, R4). -/
def Receiver.attempting : Receiver → Bool
  | .hunting => true
  | .decoding => true
  | .badStartMark => true
  | .codingViolation => true
  | .stopped => false
  | .idle => false
  | .ignoring => false

/-- The line becomes idle (R2, R8): the receiver is ready for the next attempt, and in an open slot the
release gap is running since the end of activity. -/
def State.lineIdle (s : State) : State :=
  { s with
    line := { s.line with receiver := .idle }
    rotation := { s.rotation with
      slot := if s.rotation.slot = .stopped then .stopped else .releaseGap } }

/-- The end of frame of an attempt (R5, R22, R33): a CRC-valid frame resyncs first, with its lost
boundary complete, and then the report is judged and settled. -/
def State.endOfFrame (s : State) (r : FrameReport) : State :=
  let t := if r.crcValid then s.resync (senderOf r.body) else s
  t.settleVerdict (t.judge r) r.body

end Sys2Proof.Machine
end

