-- ==== Sys2Proof/Machine/Windows.lean ====
section
/-! DEFINITION. The eight windows of the diagnostic port and the port status byte (R171, R175,
R185). -/

namespace Sys2Proof.Machine

/-- A bit at its place in a byte or word. -/
def bitAt (b : Bool) (place : Nat) : Nat := b.toNat * 2 ^ place

/-- The port status byte (R171, R185): outcome in bits 1..0, capture valid in bit 2, attention in
bit 3. -/
def portStatus (outcome : PortOutcome) (valid attention : Bool) : Byte :=
  byte ((match outcome with
    | .none => 0
    | .accepted => 1
    | .refused => 2) + bitAt valid 2 + bitAt attention 3)

/-- STATUS, 16 bytes, in the layout of R185. The duty buffer has no field there nor in R175, though R149
says that it is shown: it is left out (log 31). -/
def State.statusWindow (s : State) : List Byte :=
  [byte (s.ctl.station.toCode + s.ctl.faultCode.toCode * 16 + bitAt (s.ownRole == .monitor) 7),
    byte (s.ownAddr + bitAt s.rotation.synced 5 + bitAt s.ctl.settled 6 + bitAt s.attn 7),
    byte (s.rotation.rot + bitAt s.drive.level 5),
    byte s.ctl.isolations]
  ++ bytes2 s.rotation.roundCount.toNat
  ++ bytes2 (s.drive.duty + bitAt s.stageFault 13 + bitAt s.meas.overdraw.tripped 14
      + bitAt s.meas.feedDet.tripped 15)
  ++ packed s.share.applied (s.share.pending.getD s.share.applied)
  ++ packed s.share.limit s.meas.reported
  ++ bytes2 (s.meas.draw + bitAt (s.shed.monitor == .shedding) 12 + bitAt s.sched.item.isSome 13)

/-- The TABLE record of an entry, 16 bytes. -/
def tableRecord (e : Entry) : List Byte :=
  let v := e.values.getD ⟨0, 0, 0, 0, false⟩
  [byte (bitAt true 7 + bitAt e.heard 6 + bitAt e.heardMe 5 + bitAt e.values.isSome 4
      + bitAt e.basis.isSome 3 + e.state.toCode),
    byte (e.terms.weight + roleBit e.terms.role * 16 + bitAt v.stageFault 5)]
  ++ packed e.terms.floor e.terms.ceiling ++ [byte e.missed]
  ++ bytes2 v.demand ++ bytes2 v.held ++ bytes2 v.pending ++ bytes2 v.draw
  ++ bytes2 (e.basis.getD 0).toNat

/-- TABLE, 512 bytes: one record per address, all zero where there is no entry. -/
def State.tableWindow (s : State) : List Byte :=
  (List.range 32).flatMap (fun a =>
    match findEntry a s.table.entries with
    | some e => tableRecord e
    | none => List.replicate 16 0)

/-- Bytes filled up with zeros, or cut, to a size. -/
def fitTo (size : Nat) (bytes : List Byte) : List Byte :=
  (bytes ++ List.replicate (size - bytes.length) 0).take size

/-- The ORPHANS record of an orphan, 4 bytes. -/
def orphanRecord (o : Orphan) : List Byte :=
  byte (bitAt true 7 + o.addr) :: packed o.reserve o.remaining

/-- ORPHANS, 128 bytes: the records in list order, zeros after the last. -/
def State.orphansWindow (s : State) : List Byte := fitTo 128 (s.table.orphans.flatMap orphanRecord)

/-- ALLOCATION, 70 bytes; the digest field of an empty snapshot is 0 (R75). -/
def State.allocationWindow (s : State) : List Byte :=
  (List.range 32).flatMap (fun a => bytes2 (s.snap.alloc.getD a 0))
  ++ bytes2 (s.snap.basis.getD 0).toNat
  ++ [byte (bitAt s.snap.overcommitted 7 + bitAt s.snap.floorShortfall 6), byte s.snap.members]
  ++ bytes2 s.snap.bEff

/-- The two bytes of a shed table entry. -/
def shedRecord : Option ShedOrder → List Byte
  | some o => [byte (bitAt true 7 + o.mode.toBit), byte o.rounds]
  | none => [0, 0]

/-- SHED, 8 bytes. -/
def State.shedWindow (s : State) : List Byte := s.shed.table.toList.flatMap shedRecord

/-- The HISTORY record of a discard record, 6 bytes. -/
def historyRecord (r : DiscardRecord) : List Byte :=
  [byte (bitAt true 7 + bitAt r.sender.isSome 6 + bitAt r.kind.isSome 5 + r.reason.toCode),
    byte (r.sender.getD 0), byte (r.kind.getD 0), r.firstRound, r.latestRound, byte r.repeats]

/-- HISTORY, 48 bytes: oldest first, zeros after the newest. -/
def State.historyWindow (s : State) : List Byte := fitTo 48 (s.checker.history.flatMap historyRecord)

/-- COUNTERS, 80 bytes: the snapshot bank. -/
def State.countersWindow (s : State) : List Byte :=
  s.stats.bank.toList.flatMap (fun w => bytes4 w.toNat)

/-- CONFIG, 36 bytes: the image; an empty image reads as zeros (R169). -/
def State.configWindow (s : State) : List Byte := fitTo 36 s.loader.image

/-- The window of a code (R175). -/
def State.window (s : State) (code : Nat) : List Byte :=
  match code with
  | 0 => s.statusWindow
  | 1 => s.tableWindow
  | 2 => s.orphansWindow
  | 3 => s.allocationWindow
  | 4 => s.shedWindow
  | 5 => s.historyWindow
  | 6 => s.countersWindow
  | 7 => s.configWindow
  | _ => []

/-- The size of a window in bytes (R185). -/
def windowSize (code : Nat) : Nat :=
  match code with
  | 0 => 16
  | 1 => 512
  | 2 => 128
  | 3 => 70
  | 4 => 8
  | 5 => 48
  | 6 => 80
  | 7 => 36
  | _ => 0

/-- The byte the port sends for byte number n of the window captured: from the capture buffer, or 0x00
at or past the window's size (R173). -/
def Port.dataByte (p : Port) (n : Nat) : Byte :=
  if n < windowSize p.window then p.capture.getD n 0 else 0

end Sys2Proof.Machine
end

