-- ==== Sys2Proof/Machine/StartUp.lean ====
section
/-! DEFINITION. Reset and configuration: POWER_ON_RESET, RESET_N_FALL, RESET_N_RISE,
POWER_ON_RESET_END, the five failures of an attempt, RETRY_GAP_END and CONFIG_READ_COMPLETE
(R96, R97, chapter 10). -/

namespace Sys2Proof.Machine

/-- The answer of a command. -/
abbrev Answer := Host.Outcome State Fault Refusal

/-! ## Reset (R96) -/

/-- Every block at its reset values; the pins as they stand (log 8), the free orders go on, and so
does the queue. -/
def State.resetBlocks (s : State) (pins : Pins) : State := State.resetWith pins s.freeDraws s.pending

/-- POWER_ON_RESET (R96): every block to its reset values from any state, and power is coming up. -/
def execPowerOnReset (s : State) : Answer :=
  .next (s.resetBlocks { s.pins with powerComingUp := true })

/-- RESET_N_FALL (R96): every block to its reset values from any state, and RESET_N is low. -/
def execResetNFall (s : State) : Answer := .next (s.resetBlocks { s.pins with resetN := false })

/-! ## The start of CONFIG (R97, R98, R161) -/

/-- The loader at the latch (R161): the straps taken, the attempt count 0, the image empty, the group
digest absent, and the first attempt begun. -/
def Loader.start (addr : BitVec 5) (role : Role) : Loader where
  straps := some ⟨addr.toNat, role⟩
  load := .reading
  attempts := 0
  image := []
  digest := none
  i2c := .attempt

/-- The EN filter for the levels as they stand: stopped while the pin is at the settled level, and at
the start of its 2 ms otherwise (R98). -/
def enFilterFor (pin settled : Bool) : Option Nat := if pin = settled then none else some 0

/-- RESETTING ends: the straps are latched, the first attempt begins, the station enters CONFIG (R97,
R161), and EN is sampled from now on (R98). -/
def State.startConfig (s : State) (addr : BitVec 5) (role : Role) : State :=
  { s with
    loader := Loader.start addr role
    ctl := { s.ctl with
      station := .config, enFilter := enFilterFor s.pins.en s.ctl.settled } }

/-- RESET_N_RISE (R97, R161): from RESETTING to CONFIG, unless power is still coming up: then
POWER_ON_RESET_END decides (log 9). RESET_N that is high already does not rise. -/
def execResetNRise (addr : BitVec 5) (role : Role) (s : State) : Answer :=
  .next (
    if s.pins.resetN then s
    else
      let t := { s with pins := { s.pins with resetN := true } }
      if s.pins.powerComingUp ∨ s.ctl.station ≠ .resetting then t else t.startConfig addr role)

/-- POWER_ON_RESET_END (R97, R161): power is up; with RESET_N high the station goes to CONFIG, and
with RESET_N low it waits for the rise (log 9). -/
def execPowerOnResetEnd (addr : BitVec 5) (role : Role) (s : State) : Answer :=
  .next (
    if s.pins.powerComingUp then
      let t := { s with pins := { s.pins with powerComingUp := false } }
      if s.pins.resetN ∧ s.ctl.station = .resetting then t.startConfig addr role else t
    else s)

/-! ## Attempts (R162, R163) -/

/-- An attempt is in progress on the I2C port (R161). -/
def State.attempting (s : State) : Bool := s.ctl.station == .config && s.loader.load == .reading

/-- CONFIG ends with a fault code (R97, R168). -/
def State.endConfigFaulted (s : State) (code : FaultCode) : State :=
  { s with
    loader := { s.loader with load := .faulted }
    ctl := { s.ctl with station := .configFault, faultCode := code } }

/-- A failed attempt (R163): ended with a STOP or without, both lines released, the count up by one;
then WAITING, or at the third failure NO_MEMORY. The image is not changed. -/
def State.attemptFailure (s : State) (stopSent : Bool) : State :=
  if s.attempting then
    let t := { s with
      loader := { s.loader with attempts := s.loader.attempts + 1, i2c := .ended stopSent } }
    if s.loader.attempts + 1 < 3 then { t with loader := { t.loader with load := .waiting } }
    else t.endConfigFaulted .noMemory
  else s

/-- NOT_ACKNOWLEDGED (R163): the attempt fails and a STOP is sent. -/
def execNotAcknowledged (s : State) : Answer := .next (s.attemptFailure true)

/-- LOST_LEVEL (R163): the attempt fails and a STOP is sent. -/
def execLostLevel (s : State) : Answer := .next (s.attemptFailure true)

/-- BUS_NOT_FREE (R163): the attempt fails without a START and without a STOP. -/
def execBusNotFree (s : State) : Answer := .next (s.attemptFailure false)

/-- CLOCK_HELD (R163): the attempt fails without a STOP. -/
def execClockHeld (s : State) : Answer := .next (s.attemptFailure false)

/-- OVERTIME (R163): the attempt fails and a STOP is sent. -/
def execOvertime (s : State) : Answer := .next (s.attemptFailure true)

/-- RETRY_GAP_END (R161, R163): from WAITING a new attempt begins. -/
def execRetryGapEnd (s : State) : Answer :=
  .next (
    if s.ctl.station = .config ∧ s.loader.load = .waiting then
      { s with loader := { s.loader with load := .reading, i2c := .attempt } }
    else s)

/-! ## A completed read (R164 to R168) -/

/-- The Measurement Unit takes a trigger (R136, R137): a scan begins with the mark if the converter is
IDLE, and the trigger is dropped and counted if a scan runs. -/
def State.trigger (s : State) (driveOff : Bool) : State :=
  match s.meas.scan with
  | .idle => { s with meas := { s.meas with scan := .running .isns driveOff } }
  | .running _ _ => s.count .triggerOverruns

/-- The first period start (R149, R151, R167): the counter at 0, duty and buffer 0, DRIVE low, and a
trigger whose drive-off mark is clear. -/
def State.firstPeriod (s : State) : State :=
  State.trigger { s with drive := ⟨some 0, 0, 0, false, false⟩ } false

/-- The image and the STOP of a completed read (R162); the attempt it was is counted (log 13). -/
def State.takeImage (s : State) (block : List Byte) : State :=
  { s with
    loader := { s.loader with
      image := block, attempts := s.loader.attempts + 1, i2c := .ended true } }

/-- The delivery of a valid configuration (R20, R97, R167): the group digest derived, the settings
handed to every block, the receiver ready, the first period start, and the station in LISTEN or
OFFLINE by the settled level of EN. -/
def State.deliver (s : State) (block : List Byte) : State :=
  let t := State.firstPeriod { s with
    loader := { s.loader with load := .valid, digest := some (groupDigest block) }
    cfg := Settings.ofBlock block
    line := { s.line with receiver := .idle } }
  if t.ctl.settled then t.enterListen else t.enterOffline

/-- The straps as latched, for the checks (R166). -/
def State.strapsNow (s : State) : Straps := ⟨s.ownAddr, s.ownRole⟩

/-- CONFIG_READ_COMPLETE (R162, R164): the 36 bytes placed in the image, and CONFIG ended by the
checks. A block of another length is no completed read (log 25). -/
def execConfigReadComplete (block : List Byte) (s : State) : Answer :=
  if block.length = blockLength then
    .next (
      if s.attempting then
        match checkBlock block s.strapsNow with
        | none => (s.takeImage block).deliver block
        | some code => (s.takeImage block).endConfigFaulted code
      else s)
  else .refused .malformed

end Sys2Proof.Machine
end

