-- ==== Sys2Proof/Machine/DiagnosticPort.lean ====
section
/-! DEFINITION. The diagnostic port: the SCK periods inside a byte, SCS_N_FALL, SCS_N_RISE, READ, READ_WINDOW_CODE, READ_CAPTURE,
SNAPSHOT, SNAPSHOT_CLEAR, HISTORY_CLEAR and REFUSED_COMMAND (chapter 11). -/

namespace Sys2Proof.Machine

/-! ## Transactions (R170, R171, R173) -/

/-- The status byte as the fall of SCS_N forms it (R171, R185). -/
def State.statusNow (s : State) : Byte := portStatus s.port.outcome s.port.captureValid s.attn

/-- A transaction begins (R170, R171): phase COMMAND, bit count 0, nothing of an earlier READ kept but
the outcome and the capture buffer, and the status byte on SDO. -/
def Port.begin (p : Port) (status : Byte) : Port where
  phase := some .command
  bitCount := 0
  command := none
  window := 0
  offset := 0
  lowByte := false
  position := 0
  outcome := p.outcome
  captureValid := p.captureValid
  statusByte := status
  sdo := some status
  capture := p.capture

/-- SCS_N_FALL (R170): a transaction begins, except in RESETTING, where the port does not answer. -/
def execScsNFall (s : State) : Answer :=
  .next (
    if s.pins.scsN then
      let t := { s with pins := { s.pins with scsN := false } }
      if s.ctl.station = .resetting then t else { t with port := s.port.begin s.statusNow }
    else s)

/-- What the fields of the status byte become: the outcome, and whether a capture was taken (R171 to
R173). -/
def Port.record (p : Port) (outcome : PortOutcome) (valid : Bool) : Port :=
  { p with outcome := outcome, captureValid := valid }

/-- A READ whose command byte is complete and whose capture is not taken (R173). -/
def Port.readUnfinished (p : Port) : Bool := p.phase == some .window || p.phase == some .offset

/-- SCS_N_RISE (R170, R173): the transaction ends and SDO is no longer driven; a READ that has not
taken its capture ends as REFUSED. -/
def execScsNRise (s : State) : Answer :=
  .next (
    if s.pins.scsN then s
    else
      let p := if s.port.readUnfinished then s.port.record .refused false else s.port
      { s with
        pins := { s.pins with scsN := true }
        port := { p with phase := none, bitCount := 0, lowByte := false, sdo := none } })

/-! ## The command byte (R172) -/

/-- The port awaits the eighth bit of a command byte (R172). -/
def State.awaitsCommand (s : State) : Bool := s.port.phase == some .command

/-- The port after a byte, with SDO at 0x00 from here (R172, R173). -/
def Port.next (p : Port) (phase : PortPhase) : Port :=
  { p with phase := some phase, bitCount := 0, sdo := some 0 }

/-- The port after one of the three commands that act at once (R172): ACCEPTED with capture valid
clear, and IGNORE. -/
def Port.acted (p : Port) (command : PortCommand) : Port :=
  { (p.record .accepted false).next .ignore with command := some command }

/-- READ (R172, R173): the phase becomes WINDOW; outcome and capture valid wait for its end. -/
def execRead (s : State) : Answer :=
  .next (
    if s.awaitsCommand then
      { s with port := { s.port.next .window with command := some .read } }
    else s)

/-- SNAPSHOT (R178): the twenty live counters copied into the bank. -/
def execSnapshot (s : State) : Answer :=
  .next (
    if s.awaitsCommand then
      { s with
        port := s.port.acted .snapshot
        stats := { s.stats with bank := s.stats.live } }
    else s)

/-- SNAPSHOT_CLEAR (R178): the same copy, the live counters to 0 and the attention set emptied. -/
def execSnapshotClear (s : State) : Answer :=
  .next (
    if s.awaitsCommand then
      { s with
        port := s.port.acted .snapshotClear
        stats := { live := Vector.replicate 20 0, bank := s.stats.live, attention := [] } }
    else s)

/-- HISTORY_CLEAR (R38, R179): the discard history emptied. -/
def execHistoryClear (s : State) : Answer :=
  .next (
    if s.awaitsCommand then
      { s with
        port := s.port.acted .historyClear
        checker := { s.checker with history := [] } }
    else s)

/-- REFUSED_COMMAND (R172): nothing acted on, REFUSED with capture valid clear, and IGNORE. The byte
is none of the four codes (log 25). -/
def execRefusedCommand (byte : Byte) (s : State) : Answer :=
  if isCommandByte byte then .refused .malformed
  else
    .next (
      if s.awaitsCommand then
        { s with port := { (s.port.record .refused false).next .ignore with command := none } }
      else s)

/-! ## READ (R173, R174) -/

/-- READ_WINDOW_CODE (R173): a code of 0 to 7 is kept and the phase becomes OFFSET; any other ends the
READ as REFUSED. -/
def execReadWindowCode (code : Byte) (s : State) : Answer :=
  .next (
    if s.port.phase = some .window then
      if code.toNat < 8 then
        { s with
          port := { s.port.next .offset with window := code.toNat, lowByte := false } }
      else { s with port := (s.port.record .refused false).next .ignore }
    else s)

/-- The capture (R174): every byte of the window as it stands into the capture buffer, in one event;
the buffer past the window is 0 (log 14). -/
def Port.take (p : Port) (bytes : List Byte) (offset : Nat) : Port :=
  { p with
    capture := fitTo 512 bytes
    offset := offset
    position := offset }

/-- READ_CAPTURE (R173, R174): at the sixteenth bit of the offset the capture is taken, ACCEPTED with
capture valid set, and the phase becomes DATA with byte number offset the first to be sent. -/
def execReadCapture (offset : BitVec 16) (s : State) : Answer :=
  .next (
    if s.port.phase = some .offset then
      let p := (s.port.record .accepted true).take (s.window s.port.window) offset.toNat
      { s with
        port := { p with
          phase := some .data, bitCount := 0, lowByte := false
          sdo := some (p.dataByte offset.toNat) } }
    else s)

/-! ## SCK (R170, R172, R173) -/

/-- One SCK period that completes no byte awaited from SDI: its rising edge samples one bit and its
falling edge puts the next bit on SDO (R170). Inside a byte the bit count goes up by one. The eighth
bit of a byte sent in DATA moves the position on by one and puts the next byte of the capture on SDO
(R173); in IGNORE another 0x00 follows (R172); and in OFFSET the high byte is in and the low byte
begins (R173). The eighth bit of the command byte, of the window code and of the low byte of the offset
is the command's that the byte completes, so the period waits for it (log 15). -/
def Port.clock (p : Port) : Port :=
  if p.bitCount < 7 then { p with bitCount := p.bitCount + 1 }
  else
    match p.phase with
    | some .data =>
      { p with
        bitCount := 0, position := p.position + 1, sdo := some (p.dataByte (p.position + 1)) }
    | some .ignore => p.next .ignore
    | some .offset => if p.lowByte then p else { p.next .offset with lowByte := true }
    | _ => p

/-- One SCK period at the part: the port's while a transaction is answered; ignored while none is
(R170). -/
def State.serialClock (s : State) : State :=
  { s with port := if s.port.phase.isSome then s.port.clock else s.port }

/-- The command that bits sampled on SDI complete in a phase, most significant bit first (R170, R172,
R173): the eight bits of a command byte or of a window code, and the sixteen of an offset, high byte
first. -/
def sdiCommand (phase : PortPhase) (bits : List Bool) : Option Instr :=
  if bits.length % 8 ≠ 0 then none
  else
    match phase, gatherBytes bits with
    | .command, [b] => some (commandOfByte b)
    | .window, [code] => some (.readWindowCode code)
    | .offset, [high, low] => some (.readCapture (high ++ low))
    | _, _ => none

end Sys2Proof.Machine
end

