-- ==== Sys2Proof/Config.lean ====
section
/-! DEFINITION. The free values: what the spec leaves open and no Lean proof can see. -/

namespace Sys2Proof

/-- FREE VALUE (log 5). Where a completed run of the STAGE detector clears STAGE_FAULT, whether the
clearing is taken before the Draw Limiter's step of the same completion: R157 lets either be first. The
argument is the counter freeDraws of State, so that each such completion has a choice of its own. No
body: nothing can evaluate it. -/
opaque Config.stageClearBeforeStep : Nat → Bool

end Sys2Proof
end

