-- ==== Sys2Proof/Machine/DriveAndScan.lean ====
section
/-! DEFINITION. Drive and measurement: PERIOD_START, DUTY_END and SCAN_COMPLETION (chapters 8 and 9,
and R124 and R126 of chapter 7). -/

namespace Sys2Proof.Machine

/-! ## The waveform (R150, R151) -/

/-- The period counter runs (R149). -/
def State.periodRunning (s : State) : Bool := s.drive.counter.isSome

/-- The drive-off mark formed at a period start (R145, R151): DRIVE low throughout the period just
ended, and the buffer at 0. -/
def Drive.driveOffMark (d : Drive) : Bool := !d.driven && d.buffer == 0

/-- The period start at the Drive Generator (R150, R151): the buffer copied into the duty, and DRIVE
and the driven mark by the new duty. -/
def Drive.nextPeriod (d : Drive) : Drive where
  counter := some 0
  duty := d.buffer
  buffer := d.buffer
  level := decide (0 < d.buffer)
  driven := decide (0 < d.buffer)

/-- PERIOD_START (R151): the new period, and the trigger with the mark of the one just ended (R136,
R137). In ADDRESS_CONFLICT and GROUP_MISMATCH the trigger starts no scan and counts no overrun
(R147). -/
def execPeriodStart (s : State) : Answer :=
  .next (
    if s.periodRunning then
      let t := { s with drive := s.drive.nextPeriod }
      if s.ctl.station.working then t.trigger s.drive.driveOffMark else t
    else s)

/-- DUTY_END (R150): at count duty of a period whose duty is 1 to P - 1, DRIVE goes low. -/
def execDutyEnd (s : State) : Answer :=
  .next (
    if s.periodRunning ∧ 0 < s.drive.duty ∧ s.drive.duty < s.cfg.period then
      { s with drive := { s.drive with counter := some s.drive.duty, level := false } }
    else s)

/-! ## From codes to share units (R138 to R140) -/

/-- The draw of an ISNS code (R139). -/
def drawOf (c : Settings) (isns : BitVec 10) : Nat := isns.toNat * c.iScale / 1024

/-- The raw demand of a DEM code (R139). -/
def rawDemandOf (c : Settings) (dem : BitVec 10) : Nat := dem.toNat * c.ceiling / 1023

/-- The feed of a FEED code (R139). -/
def feedOf (c : Settings) (feed : BitVec 10) : Nat := feed.toNat * c.fScale / 1024

/-- The reported demand after a completion (R140): the raw demand when it moved by demand_step or
more, or is 0, or is the ceiling. -/
def nextReported (c : Settings) (raw reported : Nat) : Nat :=
  if reported + c.demandStep ≤ raw ∨ raw + c.demandStep ≤ reported ∨ raw = 0 ∨ raw = c.ceiling then raw
  else reported

/-- The values a completion forms, and the converter IDLE (R136, R138 to R140). At a load station FEED
is not converted and the feed stays as it is. -/
def State.formValues (s : State) (isns dem feed : BitVec 10) : State :=
  { s with
    meas := { s.meas with
      scan := .idle
      draw := drawOf s.cfg isns
      rawDemand := rawDemandOf s.cfg dem
      reported := nextReported s.cfg (rawDemandOf s.cfg dem) s.meas.reported
      feed := if s.ownRole = .monitor then feedOf s.cfg feed else s.meas.feed } }

/-! ## The detector mechanism (R141) -/

/-- The run after a sample of a class (R141): one longer, or new with length 1. -/
def extendRun (run : Option Run) (cls : SampleClass) : Run :=
  match run with
  | some r => if r.cls = cls then ⟨cls, r.length + 1⟩ else ⟨cls, 1⟩
  | none => ⟨cls, 1⟩

/-- The class whose run a sample completes, if it completes one; none as a class is the class "none"
(R141). -/
def Detector.completes (d : Detector) (persistence : Nat) (cls : Option SampleClass) :
    Option SampleClass :=
  match cls with
  | some c => if persistence ≤ (extendRun d.run c).length then some c else none
  | none => none

/-- The detector after a sample (R141, R142, R144, R145): a completed run of excess leaves it TRIPPED
and one of normal CLEAR, either empties the run, and so does the class "none". -/
def Detector.judge (d : Detector) (persistence : Nat) (cls : Option SampleClass) : Detector :=
  match d.completes persistence cls with
  | some .excess => ⟨true, none⟩
  | some .normal => ⟨false, none⟩
  | none => ⟨d.tripped, cls.map (extendRun d.run)⟩

/-- A completed run of excess (R142). -/
def Detector.excessCompletes (d : Detector) (persistence : Nat) (cls : Option SampleClass) : Bool :=
  d.completes persistence cls == some .excess

/-- The sample trips a CLEAR detector (R144, R145). -/
def Detector.trips (d : Detector) (persistence : Nat) (cls : Option SampleClass) : Bool :=
  !d.tripped && d.completes persistence cls == some .excess

/-- The sample clears a TRIPPED detector (R144, R145). -/
def Detector.clears (d : Detector) (persistence : Nat) (cls : Option SampleClass) : Bool :=
  d.tripped && d.completes persistence cls == some .normal

/-! ## The three detectors (R142 to R145) -/

/-- The OVERDRAW class: over when the draw is greater than L plus margin, else within (R142). -/
def overdrawClass (margin limit draw : Nat) : Option SampleClass :=
  some (if limit + margin < draw then .excess else .normal)

/-- The FEED class: high above feed_limit, low below feed_limit less hysteresis, none between
(R144). -/
def feedClass (c : Settings) (feed : Nat) : Option SampleClass :=
  if c.feedLimit < feed then some .excess
  else if feed + c.hysteresis < c.feedLimit then some .normal
  else none

/-- The STAGE class: with the drive-off mark set, faulty when the draw is greater than margin, else
healthy; with the mark clear, none (R145). -/
def stageClass (margin : Nat) (driveOff : Bool) (draw : Nat) : Option SampleClass :=
  if driveOff then some (if margin < draw then .excess else .normal) else none

/-- OVERDRAW takes the sample, in ACTIVE only; each trip counts and cuts (R142, R143). -/
def State.judgeOverdraw (s : State) : State :=
  if s.ctl.station = .active then
    let cls := overdrawClass s.cfg.margin s.share.limit s.meas.draw
    let t := { s with
      meas := { s.meas with overdraw := s.meas.overdraw.judge s.cfg.persistence cls } }
    if s.meas.overdraw.excessCompletes s.cfg.persistence cls then
      State.count { t with drive := t.drive.cut } .overdrawTrips
    else t
  else s

/-- The trip of the FEED detector at the Shed Unit (R124). -/
def State.feedTrip (s : State) : State :=
  if s.shed.monitor = .calm then
    State.writeItem { s with shed := { s.shed with monitor := .shedding } } (some s.cfg.order)
  else s

/-- The clear of the FEED detector at the Shed Unit (R126): a release written, or the item emptied. -/
def State.feedClear (s : State) : State :=
  if s.shed.monitor = .shedding then
    let t := { s with shed := { s.shed with monitor := .calm } }
    if s.cfg.releaseEnable then t.writeItem (some ⟨0, s.cfg.shedMode⟩)
    else { t with sched := { t.sched with item := none } }
  else s

/-- FEED takes the sample, at a monitor only, and hands its trips and clears to the Shed Unit
(R144). -/
def State.judgeFeed (s : State) : State :=
  if s.ownRole = .monitor then
    let cls := feedClass s.cfg s.meas.feed
    let t := { s with
      meas := { s.meas with feedDet := s.meas.feedDet.judge s.cfg.persistence cls } }
    if s.meas.feedDet.trips s.cfg.persistence cls then t.feedTrip
    else if s.meas.feedDet.clears s.cfg.persistence cls then t.feedClear
    else t
  else s

/-- STAGE takes the sample with the mark of its scan (R145). -/
def State.judgeStage (s : State) (driveOff : Bool) : State :=
  { s with
    meas := { s.meas with
      stage := s.meas.stage.judge s.cfg.persistence
        (stageClass s.cfg.margin driveOff s.meas.draw) } }

/-- The sample clears STAGE_FAULT (R145, R157). -/
def State.stageClears (s : State) (driveOff : Bool) : Bool :=
  s.meas.stage.clears s.cfg.persistence (stageClass s.cfg.margin driveOff s.meas.draw)

/-! ## The Draw Limiter (R153, R154) -/

/-- The buffer after a step outside the holds, by the four cases in their order, with every value
written clamped to 0..P (R153, R154). -/
def steppedBuffer (c : Settings) (limit reported draw buffer : Nat) : Nat :=
  let target := min limit reported
  if limit + c.margin < draw then min (buffer - c.stepDown) c.period
  else if target < draw then min (buffer - c.stepUp) c.period
  else if draw + c.margin < target then min (buffer + c.stepUp) c.period
  else buffer

/-- The Draw Limiter's step (R153, R154): 0 while L is 0 or STAGE_FAULT is set. -/
def State.limiterStep (s : State) : State :=
  { s with
    drive := { s.drive with
      buffer :=
        if s.share.limit = 0 ∨ s.stageFault then 0
        else steppedBuffer s.cfg s.share.limit s.meas.reported s.meas.draw s.drive.buffer } }

/-- STAGE and the Draw Limiter on the one completion (R157): where the sample clears STAGE_FAULT, the
free value says which is taken first, and it is used up (log 5). At every other sample the detector
comes first, so that a step never finds a flag that its own completion sets still clear, and writes 0
under it (R154, R158). -/
def State.stageAndLimiter (s : State) (driveOff : Bool) : State :=
  if s.stageClears driveOff then
    let t := { s with freeDraws := s.freeDraws + 1 }
    if Config.stageClearBeforeStep s.freeDraws then (t.judgeStage driveOff).limiterStep
    else t.limiterStep.judgeStage driveOff
  else (s.judgeStage driveOff).limiterStep

/-! ## Scan completion (R138) -/

/-- A completed scan with its drive-off mark (R138): the values, then one sample to each neighbour. A
trip of OVERDRAW is taken before the Draw Limiter's step of the completion: R142 lets either be first,
with buffer and duty 0 in both orders (log 30). -/
def State.completeScan (s : State) (driveOff : Bool) (isns dem feed : BitVec 10) : State :=
  ((s.formValues isns dem feed).judgeOverdraw.judgeFeed).stageAndLimiter driveOff

/-- SCAN_COMPLETION (R138), of a scan that runs in a state in which the Measurement Unit does (R135,
R147). -/
def execScanCompletion (isns dem feed : BitVec 10) (s : State) : Answer :=
  .next (
    if s.ctl.station.working then
      match s.meas.scan with
      | .running _ driveOff => s.completeScan driveOff isns dem feed
      | .idle => s
    else s)

end Sys2Proof.Machine
end

