-- ==== Sys2Proof/Machine/EnLine.lean ====
section
/-! DEFINITION. The EN line: EN_LEVEL_CHANGE, EN_SETTLES_HIGH and EN_SETTLES_LOW (R98, R99). -/

namespace Sys2Proof.Machine

/-- EN_LEVEL_CHANGE (R98): the level at the pin is the other one; outside RESETTING, where EN is not
sampled, a departure from the settled level begins its 2 ms afresh and a return ends it. -/
def execEnLevelChange (s : State) : Answer :=
  .next { s with
    pins := { s.pins with en := !s.pins.en }
    ctl := { s.ctl with
      enFilter :=
        if s.ctl.station = .resetting then s.ctl.enFilter
        else enFilterFor (!s.pins.en) s.ctl.settled } }

/-- The settling event itself: the settled level takes the level of the pin and the filter stops
(R98). -/
def State.settle (s : State) (level : Bool) : State :=
  { s with ctl := { s.ctl with settled := level, enFilter := none } }

/-- Whether EN can settle at a level: EN is sampled and the pin holds the level against the settled
one (R98). -/
def State.canSettle (s : State) (level : Bool) : Bool :=
  s.ctl.station != .resetting && s.pins.en == level && s.ctl.settled != level

/-- What EN settling high does by the station state (R99): from OFFLINE to JOINING if synced with one
whole round observed, else to LISTEN; held or without effect in every other state. -/
def State.settledHigh (s : State) : State :=
  match s.ctl.station with
  | .offline => if s.rotation.synced ∧ s.ctl.observed = 2 then s.enterJoining else s.enterListen
  | _ => s

/-- What EN settling low does by the station state (R99): LISTEN, and JOINING with no JOIN composed,
to OFFLINE; JOINING with one composed, DEFERRED and ACTIVE to LEAVING; held or without effect
elsewhere. -/
def State.settledLow (s : State) : State :=
  match s.ctl.station with
  | .listen => s.enterOffline
  | .joining => if s.ctl.joinComposed then s.enterLeaving else s.removeOwnEntry.enterOffline
  | .deferred => s.enterLeaving
  | .active => s.enterLeaving
  | _ => s

/-- EN_SETTLES_HIGH (R98, R99). -/
def execEnSettlesHigh (s : State) : Answer :=
  .next (if s.canSettle true then (s.settle true).settledHigh else s)

/-- EN_SETTLES_LOW (R98, R99). -/
def execEnSettlesLow (s : State) : Answer :=
  .next (if s.canSettle false then (s.settle false).settledLow else s)

end Sys2Proof.Machine
end

