-- ==== Sys2Proof/Machine/ShareBus.lean ====
section
/-! DEFINITION. The share bus: CARRIER_BEGINS, START_MARK, BAD_START_MARK, CODING_VIOLATION,
FRAME_REPORT, SLOT_WINDOW_END, RELEASE_GAP_END, START_DELAY_END, INTER_FRAME_GAP_END, FRAME_SENT,
ABORT and SILENCE_TIMER_EXPIRY (chapters 1, 2 and 6). -/

namespace Sys2Proof.Machine

/-! ## The receiver (R2 to R4) -/

/-- Whether carrier can begin on an idle line: the receiver runs, no frame attempt is in progress and
the station is not driving (R2, R3, R20). A transition that comes less than 2 bit times after the last
bit of an own frame is taken as carrier too, and its activity as a frame attempt (R2 has the line not
idle yet, and no rule says whether that attempt is hunted and reported: log 28). -/
def State.lineFree (s : State) : Bool :=
  s.ctl.station.configured && !s.line.receiver.attempting && s.line.phase != .sending

/-- The transition itself (R3, R7, R8, R18): a frame attempt begins, an open slot becomes one with
activity, and a running silence timer goes back to 0. -/
def State.carrier (s : State) : State :=
  { s with
    line := { s.line with receiver := .hunting }
    rotation := { s.rotation with
      slot := if s.rotation.slot = .stopped then .stopped else .activity
      silence := s.rotation.silence.map (fun _ => 0) } }

/-- CARRIER_BEGINS (R3): the attempt begins; a burst in its start delay is deferred (R10), and a
second frame in the inter-frame gap is withheld as collided (R11, R13). -/
def execCarrierBegins (s : State) : Answer :=
  .next (
    if s.lineFree then
      match s.line.phase with
      | .startDelay => s.carrier.defer
      | .frameGap => s.carrier.collide
      | .quiet => s.carrier
      | .sending => s.carrier
    else s)

/-- START_MARK (R3): the body begins with the next bit time. -/
def execStartMark (s : State) : Answer :=
  .next (
    if s.line.receiver = .hunting then { s with line := { s.line with receiver := .decoding } }
    else s)

/-- BAD_START_MARK (R3): the attempt is a CODE defect, and the rest of the activity is ignored. -/
def execBadStartMark (s : State) : Answer :=
  .next (
    if s.line.receiver = .hunting then { s with line := { s.line with receiver := .badStartMark } }
    else s)

/-- CODING_VIOLATION (R4): the attempt is a CODE defect, and decoding stops until idle. -/
def execCodingViolation (s : State) : Answer :=
  .next (
    if s.line.receiver = .decoding then
      { s with line := { s.line with receiver := .codingViolation } }
    else s)

/-- FRAME_REPORT (R4, R5, R22): at the end of frame of an attempt the report is formed, a CRC-valid
frame resyncs, and the Frame Checker judges it. -/
def execFrameReport (bits : List Bool) (s : State) : Answer :=
  .next (
    if s.ctl.station.configured ∧ s.line.receiver.attempting then
      s.lineIdle.endOfFrame (lineReport s.line.receiver bits)
    else s)

/-! ## The rotation (R7, R8, R18, R19) -/

/-- Whether the slot window can end: it runs, and no start delay of 4 bit times is inside it. -/
def State.windowRunning (s : State) : Bool :=
  s.ctl.station.configured && s.rotation.synced && s.rotation.slot == .window
    && s.line.phase != .startDelay

/-- SLOT_WINDOW_END (R7): the slot is empty, and ROT advances or the round boundary is performed. -/
def execSlotWindowEnd (s : State) : Answer := .next (if s.windowRunning then s.advance else s)

/-- Whether the release gap can end: it runs, and the station neither drives nor stands in the shorter
inter-frame gap of its burst. -/
def State.releaseGapRunning (s : State) : Bool :=
  s.ctl.station.configured && s.rotation.synced && s.rotation.slot == .releaseGap
    && s.line.phase == .quiet && !s.line.receiver.attempting

/-- RELEASE_GAP_END (R8): the slot closes, and ROT advances or the round boundary is performed. -/
def execReleaseGapEnd (s : State) : Answer := .next (if s.releaseGapRunning then s.advance else s)

/-- Cold start (R19, R101, R102): sync set, the observation count 2, JOINING, and slot 0 opens. -/
def State.coldStart (s : State) : State :=
  let t := State.enterJoining { s with
    rotation := { s.rotation with synced := true, rot := 0 }
    ctl := { s.ctl with observed := 2 } }
  t.openSlot 0

/-- Whether the silence timer runs (R18). -/
def State.silenceRunning (s : State) : Bool :=
  s.ctl.station == .listen && !s.rotation.synced && s.rotation.silence.isSome

/-- SILENCE_TIMER_EXPIRY (R18, R102): GROUP_MISMATCH if mismatch evidence stands, else a cold
start. -/
def execSilenceTimerExpiry (s : State) : Answer :=
  .next (
    if s.silenceRunning then
      if s.mismatchEvidence then s.enterFaultState .groupMismatch .groupMismatch else s.coldStart
    else s)

/-! ## The own burst (R10 to R14) -/

/-- The Line Controller begins a frame: LDE high, and the own transmission is activity in the slot
(R1, R7, R10). -/
def State.beginFrame (s : State) : State :=
  { s with
    line := { s.line with phase := .sending }
    rotation := { s.rotation with slot := .activity } }

/-- START_DELAY_END (R10): the first frame begins; in a state that has ceased to transmit the burst is
not begun and has no outcome (R20). -/
def execStartDelayEnd (s : State) : Answer :=
  .next (
    if s.line.phase = .startDelay then
      if s.ctl.station.transmitting then s.beginFrame else s.dropBurst
    else s)

/-- INTER_FRAME_GAP_END (R11): the second frame begins. -/
def execInterFrameGapEnd (s : State) : Answer :=
  .next (if s.line.phase = .frameGap then s.beginFrame else s)

/-- The Line Controller's part of a frame sent (R1, R8, R11, R12): LDE low, the inter-frame gap if a
frame is left, and the slot's release gap counted from here. -/
def State.frameEnded (s : State) (rest : List Frame) : State :=
  { s with
    line := { s.line with phase := if rest.isEmpty then .quiet else .frameGap, burst := rest }
    rotation := { s.rotation with slot := .releaseGap } }

/-- What a frame reported sent counts (R12, R115). -/
def State.countSent (s : State) : State :=
  State.count { s with sched := { s.sched with collisionRun := 0 } } .framesSent

/-- FRAME_SENT (R12, R115): counted, the consecutive collision count 0, and acted on by frame kind. -/
def execFrameSent (s : State) : Answer :=
  .next (
    if s.line.phase = .sending then
      match s.line.burst with
      | f :: rest => ((s.frameEnded rest).countSent).frameEffect f
      | [] => s
    else s)

/-- The receiver and the slot at an abort (R14): the rest of the activity is ignored, and the release
gap runs from its end. -/
def State.abortLine (s : State) : State :=
  { s with
    line := { s.line with receiver := .ignoring }
    rotation := { s.rotation with slot := .releaseGap } }

/-- ABORT (R13, R14): driving stops at once, and the frame in flight and the rest of the burst are
collided. -/
def execAbort (s : State) : Answer :=
  .next (if s.line.phase = .sending then s.abortLine.collide else s)

end Sys2Proof.Machine
end

