-- ==== Sys2Proof/Machine/Dispatch.lean ====
section
/-! DEFINITION. The effect of a command on everything but the queue: one arm per row of the table. -/

namespace Sys2Proof.Machine

def exec (i : Instr) (s : State) : Host.Outcome State Fault Refusal :=
  match i with
  | .powerOnReset => Sys2Proof.Machine.execPowerOnReset s
  | .resetNFall => Sys2Proof.Machine.execResetNFall s
  | .resetNRise addr role => Sys2Proof.Machine.execResetNRise addr role s
  | .notAcknowledged => Sys2Proof.Machine.execNotAcknowledged s
  | .lostLevel => Sys2Proof.Machine.execLostLevel s
  | .busNotFree => Sys2Proof.Machine.execBusNotFree s
  | .clockHeld => Sys2Proof.Machine.execClockHeld s
  | .overtime => Sys2Proof.Machine.execOvertime s
  | .retryGapEnd => Sys2Proof.Machine.execRetryGapEnd s
  | .configReadComplete block => Sys2Proof.Machine.execConfigReadComplete block s
  | .enLevelChange => Sys2Proof.Machine.execEnLevelChange s
  | .enSettlesHigh => Sys2Proof.Machine.execEnSettlesHigh s
  | .enSettlesLow => Sys2Proof.Machine.execEnSettlesLow s
  | .carrierBegins => Sys2Proof.Machine.execCarrierBegins s
  | .badStartMark => Sys2Proof.Machine.execBadStartMark s
  | .frameReport bits => Sys2Proof.Machine.execFrameReport bits s
  | .slotWindowEnd => Sys2Proof.Machine.execSlotWindowEnd s
  | .releaseGapEnd => Sys2Proof.Machine.execReleaseGapEnd s
  | .startDelayEnd => Sys2Proof.Machine.execStartDelayEnd s
  | .interFrameGapEnd => Sys2Proof.Machine.execInterFrameGapEnd s
  | .frameSent => Sys2Proof.Machine.execFrameSent s
  | .abort => Sys2Proof.Machine.execAbort s
  | .silenceTimerExpiry => Sys2Proof.Machine.execSilenceTimerExpiry s
  | .periodStart => Sys2Proof.Machine.execPeriodStart s
  | .dutyEnd => Sys2Proof.Machine.execDutyEnd s
  | .scanCompletion isns dem feed => Sys2Proof.Machine.execScanCompletion isns dem feed s
  | .scsNFall => Sys2Proof.Machine.execScsNFall s
  | .scsNRise => Sys2Proof.Machine.execScsNRise s
  | .read => Sys2Proof.Machine.execRead s
  | .readWindowCode code => Sys2Proof.Machine.execReadWindowCode code s
  | .readCapture offset => Sys2Proof.Machine.execReadCapture offset s
  | .snapshot => Sys2Proof.Machine.execSnapshot s
  | .snapshotClear => Sys2Proof.Machine.execSnapshotClear s
  | .historyClear => Sys2Proof.Machine.execHistoryClear s
  | .refusedCommand byte => Sys2Proof.Machine.execRefusedCommand byte s
  | .powerOnResetEnd addr role => Sys2Proof.Machine.execPowerOnResetEnd addr role s
  | .startMark => Sys2Proof.Machine.execStartMark s
  | .codingViolation => Sys2Proof.Machine.execCodingViolation s

end Sys2Proof.Machine
end

