-- ==== Sys2Proof/Machine/Step.lean ====
section
/-! DEFINITION. One step: the command at the front of the queue, or one period of
SCK at the diagnostic port where none waits. -/

namespace Sys2Proof.Machine

/-- One step (log 1): the front command's effect on the state with the queue's rest; with no command
waiting, one SCK period where the diagnostic port answers a transaction, and else the part idles
(log 15). -/
def step (s : State) : Host.Outcome State Fault Refusal :=
  match s.pending with
  | c :: rest => exec c { s with pending := rest }
  | [] => .next s.serialClock

/-- The state with the command that a word spells put at the front of the queue; unchanged where the
word spells none, which is every word here (log 27). -/
def State.withFetchWord (s : State) (nbits w : Nat) : State :=
  match decodeTableWord nbits w with
  | some c => { s with pending := c :: s.pending }
  | none => s

end Sys2Proof.Machine
end

