-- ==== Sys2Proof/Safety.lean ====
section
/-! DEFINITION. What never goes wrong: the bounds and agreements the spec gives each block's state,
each a property of one state; and the words the statements share. -/

namespace Sys2Proof.Machine

/-! ## Shares and drive -/

/-- R76, R87, R90: s is at most the ceiling and 0 outside ACTIVE; p, where present, is above s and at
most the ceiling, and absent outside ACTIVE; L is the smaller of s and the shed cap in ACTIVE and 0
elsewhere. -/
def State.ShareSafe (s : State) : Prop :=
  s.share.applied ≤ s.cfg.ceiling
    ∧ (∀ p ∈ s.share.pending, s.share.applied < p ∧ p ≤ s.cfg.ceiling)
    ∧ (s.ctl.station ≠ .active → s.share.applied = 0 ∧ s.share.pending = none)
    ∧ s.share.limit = s.limitNow

/-- A scan runs that was triggered with its drive-off mark set (R136, R145). -/
def State.markedScan (s : State) : Bool :=
  match s.meas.scan with
  | .running _ driveOff => driveOff
  | .idle => false

/-- R145, R149, R150, R154, R157, R158: duty and buffer are at most P; DRIVE is high only under a duty
above 0 and with the driven mark set; and while L is 0, while STAGE_FAULT is set, and while a scan runs
whose mark is set, the drive is at 0 and low. -/
def State.DriveSafe (s : State) : Prop :=
  s.drive.duty ≤ s.cfg.period ∧ s.drive.buffer ≤ s.cfg.period
    ∧ (s.drive.level = true → 0 < s.drive.duty ∧ s.drive.driven = true)
    ∧ (s.share.limit = 0 ∨ s.meas.stage.tripped = true ∨ s.markedScan = true →
        s.drive.duty = 0 ∧ s.drive.buffer = 0 ∧ s.drive.level = false)

/-! ## Group Table -/

/-- R39, R40: the entries in ascending address, each below N_slots, with missed rounds up to T_gone,
and with value fields where the state requires them. -/
def State.EntriesSafe (s : State) : Prop :=
  s.table.entries.Pairwise (fun x y => x.addr < y.addr)
    ∧ ∀ e ∈ s.table.entries, e.addr < s.cfg.nSlots ∧ e.missed ≤ tGone s.cfg.tIsolate
      ∧ (e.state = .active ∨ e.state = .silent ∨ e.state = .outside → e.values.isSome = true)

/-- R55: the orphans in ascending address, each with 1 to T_orphan rounds remaining, none for the own
address and none for an address of the peer table. -/
def State.OrphansSafe (s : State) : Prop :=
  s.table.orphans.Pairwise (fun x y => x.addr < y.addr)
    ∧ ∀ o ∈ s.table.orphans, o.addr < s.cfg.nSlots ∧ 1 ≤ o.remaining ∧ o.remaining ≤ s.cfg.tOrphan
      ∧ o.addr ≠ s.ownAddr ∧ ∀ e ∈ s.table.entries, e.addr ≠ o.addr

/-- The state of the own entry that a station state requires; none where there is no own entry (R42,
R54). -/
def ownEntryState : Station → Option EntryState
  | .joining => some .candidate
  | .deferred => some .deferred
  | .active => some .active
  | _ => none

/-- R39 to R42, R54, R55: entries and orphans as they must be, the floor sum within the budget, the
own entry in the form of the station state, nothing held before a valid configuration, and the own
address a slot of the group from then on. -/
def State.TableSafe (s : State) : Prop :=
  s.EntriesSafe ∧ s.OrphansSafe ∧ floorSum s.table.entries ≤ s.cfg.budget
    ∧ (findEntry s.ownAddr s.table.entries).map (fun e => e.state) = ownEntryState s.ctl.station
    ∧ (s.ctl.station.configured = false → s.table.entries = [] ∧ s.table.orphans = [])
    ∧ (s.ctl.station.configured = true → s.ownAddr < s.cfg.nSlots)

/-! ## Rotation and station -/

/-- R6, R10, R20: ROT is a slot of the group once configured; unsynced, it is 0, no slot is open and no
burst is under way; and before a valid configuration the station is unsynced. -/
def State.RotationSafe (s : State) : Prop :=
  (s.ctl.station.configured = true → s.rotation.rot < s.cfg.nSlots)
    ∧ (s.rotation.synced = false →
        s.rotation.rot = 0 ∧ s.rotation.slot = .stopped ∧ s.line.phase = .quiet)
    ∧ (s.ctl.station.configured = false → s.rotation.synced = false)

/-- R101, R107 to R109, R112: a transmitting station is synced and has observed a whole round; the
counts stay in their ranges, the isolation counts and round flags are clear outside ACTIVE; and the
fault code is NONE exactly outside the fault states. -/
def State.StationSafe (s : State) : Prop :=
  (s.ctl.station.transmitting = true → s.rotation.synced = true ∧ s.ctl.observed = 2)
    ∧ s.ctl.observed ≤ 2 ∧ s.ctl.isolations ≤ 255 ∧ s.sched.leaveAttempts ≤ 3
    ∧ (s.ctl.station = .leaving → s.sched.leaveAttempts < 3)
    ∧ s.ctl.isolationA ≤ s.cfg.tIsolate ∧ s.ctl.isolationB ≤ s.cfg.tIsolate
    ∧ (s.ctl.station ≠ .active → s.ctl.isolationA = 0 ∧ s.ctl.isolationB = 0
        ∧ s.ctl.heardMeRound = false ∧ s.ctl.acceptedRound = false)
    ∧ (s.ctl.faultCode = .none ↔ s.ctl.station.isFaultState = false)

/-- R10, R113: the Line Controller holds at most two frames, and holds one exactly while a burst is
under way. -/
def State.LineSafe (s : State) : Prop :=
  s.line.burst.length ≤ 2 ∧ (s.line.phase = .quiet ↔ s.line.burst = [])

/-! ## History, shedding, loader and port -/

/-- Two records of one description (R37). -/
def DiscardRecord.sameAs (r q : DiscardRecord) : Bool := r.describes q.reason q.sender q.kind

/-- Whether no two consecutive records have one description (R37). -/
def noEqualNeighbours : List DiscardRecord → Bool
  | r :: q :: rest => !r.sameAs q && noEqualNeighbours (q :: rest)
  | _ => true

/-- R36, R37: at most eight records, repeat counts 1 to 255, no two consecutive records of one
description. -/
def State.HistorySafe (s : State) : Prop :=
  s.checker.history.length ≤ 8 ∧ noEqualNeighbours s.checker.history = true
    ∧ ∀ r ∈ s.checker.history, 1 ≤ r.repeats ∧ r.repeats ≤ 255

/-- Whether a frame is a SHED whose rounds do not fit their field (R182). -/
def Frame.overlongShed : Frame → Bool
  | .shed _ o _ => decide (63 < o.rounds)
  | _ => false

/-- R119, R127, R165: every occupied shed table entry has 1 to 63 rounds; the item and a SHED of the
burst have at most 63; and so has shed_len at a configured monitor. -/
def State.ShedSafe (s : State) : Prop :=
  (∀ o ∈ s.shed.table.toList, ∀ x ∈ o, 1 ≤ x.rounds ∧ x.rounds ≤ 63)
    ∧ (∀ x ∈ s.sched.item, x.rounds ≤ 63)
    ∧ (∀ f ∈ s.line.burst, f.overlongShed = false)
    ∧ (s.ctl.station.configured = true → s.ownRole = .monitor → s.cfg.shedLen ≤ 63)

/-- R161 to R163: the image is empty or whole, and a loader that is reading or waits to read again has
had fewer than three attempts. -/
def State.LoaderSafe (s : State) : Prop :=
  (s.loader.image = [] ∨ s.loader.image.length = blockLength) ∧ s.loader.attempts ≤ 3
    ∧ (s.loader.load = .reading ∨ s.loader.load = .waiting → s.loader.attempts < 3)

/-- R170, R174: the capture buffer holds 512 bytes, a transaction is answered only while SCS_N is low
and outside RESETTING, SDO is driven exactly while one is, the bit count is 0 to 7 and the window code
0 to 7. -/
def State.PortSafe (s : State) : Prop :=
  s.port.capture.length = 512
    ∧ (s.port.phase.isSome = true → s.pins.scsN = false ∧ s.ctl.station ≠ .resetting)
    ∧ (s.port.sdo.isSome = s.port.phase.isSome) ∧ s.port.bitCount ≤ 7 ∧ s.port.window < 8

/-- R123, R127, R135, R139, R143, R144, R147: where the Measurement Unit does not run the converter is
IDLE; OVERDRAW is CLEAR with an empty run outside ACTIVE; and at a load station, as before a valid
configuration, FEED is CLEAR with an empty run, the feed 0, the monitor CALM and no SHED pending. -/
def State.MeasureSafe (s : State) : Prop :=
  (s.ctl.station.working = false → s.meas.scan = .idle)
    ∧ (s.ctl.station ≠ .active → s.meas.overdraw = .clear)
    ∧ (s.ctl.station.configured = false ∨ s.ownRole = .load →
        s.meas.feedDet = .clear ∧ s.meas.feed = 0 ∧ s.shed.monitor = .calm ∧ s.sched.item = none)

/-- R177: the attention set holds no number twice. -/
def State.AttentionSafe (s : State) : Prop := s.stats.attention.Nodup

/-- All of them together. -/
def State.Safe (s : State) : Prop :=
  s.ShareSafe ∧ s.DriveSafe ∧ s.TableSafe ∧ s.RotationSafe ∧ s.StationSafe ∧ s.LineSafe
    ∧ s.HistorySafe ∧ s.ShedSafe ∧ s.LoaderSafe ∧ s.PortSafe ∧ s.MeasureSafe ∧ s.AttentionSafe

/-! ## Words of the statements -/

/-- The slot's end that a command reports is due (R6, R7, R8, R20): SLOT_WINDOW_END while the window
runs outside a start delay, RELEASE_GAP_END while the release gap runs with the line idle and no
burst under way. -/
def State.SlotEnds (s : State) (c : Instr) : Prop :=
  s.ctl.station.configured = true ∧ s.rotation.synced = true
    ∧ ((c = .slotWindowEnd ∧ s.rotation.slot = .window ∧ s.line.phase ≠ .startDelay)
      ∨ (c = .releaseGapEnd ∧ s.rotation.slot = .releaseGap ∧ s.line.phase = .quiet
        ∧ s.line.receiver.attempting = false))

/-- The burst composed in state t, with heard the heard mask taken (R10, R77, R113, R114, R128): the
pending SHED, if there is one, and the frame of the station state; in a state that transmits. -/
def State.burstNow (t : State) (heard : Word32) : List Frame :=
  let terms : Terms := ⟨t.cfg.floor, t.cfg.ceiling, t.cfg.weight, t.ownRole⟩
  (t.sched.item.map (fun o => Frame.shed t.ownAddr o t.ownDigest)).toList ++
    (match t.ctl.station with
    | .joining => [.join t.ownAddr terms t.ownDigest]
    | .deferred => [.join t.ownAddr terms t.ownDigest]
    | .active => [.claim t.ownAddr
        { demand := t.meas.reported, held := t.share.applied
          pending := t.share.pending.getD t.share.applied, draw := min t.meas.draw 4095
          stageFault := t.meas.stage.tripped }
        terms (t.snap.basis.getD 0) t.ownDigest heard]
    | .leaving => [.leave t.ownAddr t.ownDigest]
    | _ => [])

/-- State t has just opened slot 0 from the lines and the heard mask of s (R7, R9, R10, R19, R34, R103,
R113, R128). If the own address is 0 the mask is emptied, and in a transmitting state the burst is
composed from t as it stands and the start delay begins; a JOIN composed in JOINING is marked, and a
SHED taken clears the written-since mark. Otherwise nothing of this happens. -/
def State.OpenedSlotZero (s t : State) : Prop :=
  let own := s.ownAddr = 0
  let sends := own ∧ t.ctl.station ∈ [.joining, .deferred, .active, .leaving]
  t.checker.heardAcc = (if own then 0 else s.checker.heardAcc)
    ∧ (¬ sends → t.line = s.line)
    ∧ (sends → t.line = { s.line with phase := .startDelay, burst := t.burstNow s.checker.heardAcc }
      ∧ (t.ctl.station = .joining → t.ctl.joinComposed = true)
      ∧ (t.sched.item.isSome = true → t.sched.writtenSince = false))

/-- One entry at stage 3, with the floor sum and the entries decided so far (R53): taken up are a
CANDIDATE, but not an own one that is unheard, a heard DEFERRED and an OUTSIDE. One whose floor fits
becomes ACTIVE, with zero values unless it was OUTSIDE; of the others a CANDIDATE becomes DEFERRED. -/
def decideEntry (budget own : Nat) (done : Nat × List Entry) (e : Entry) : Nat × List Entry :=
  if (e.state = .candidate ∧ (e.addr ≠ own ∨ e.heard = true)) ∨ (e.state = .deferred ∧ e.heard = true)
      ∨ e.state = .outside then
    if done.1 + e.terms.floor ≤ budget then
      (done.1 + e.terms.floor, done.2 ++ [{ e with
        state := .active, missed := 0
        values := if e.state = .outside then e.values else some ⟨0, 0, 0, 0, false⟩ }])
    else if e.state = .candidate then (done.1, done.2 ++ [{ e with state := .deferred, missed := 0 }])
    else (done.1, done.2 ++ [e])
  else (done.1, done.2 ++ [e])

/-- The orphan list a boundary leaves (R56 to R58): those listed before, with a round less, while one is
left; and, where T_orphan is above 0, one for each entry given up, with its reservation and T_orphan
rounds; nothing else. -/
def State.OrphansLeave (s t : State) (gone : List Entry) : Prop :=
  s.EntriesSafe → s.OrphansSafe → ∀ o : Orphan, o ∈ t.table.orphans ↔
    (1 ≤ o.remaining ∧ { o with remaining := o.remaining + 1 } ∈ s.table.orphans)
      ∨ (0 < s.cfg.tOrphan ∧ ∃ e ∈ gone, ∃ v ∈ e.values,
        o = ⟨e.addr, min (max v.held v.pending) e.terms.ceiling, s.cfg.tOrphan⟩)

/-- What a boundary that does not isolate the station leaves of the Group Table and the snapshot, from
the entries that stage 1 left (aged) and those it gave up as GONE: admission in ascending address (R53),
the confirmation set (R59), the heard flags (R50), the orphans aged and made (R56, R57), and the
Allocator's computation over that table, with the own entry SILENT if its CLAIM did not go out (R44,
R63, R72). Where LISTEN ends the own entry is made or the fault state's table left (R42, R62), and where
ISOLATED ends the snapshot is emptied (R75). -/
def State.StagesLeave (s t : State) (aged gone : List Entry) : Prop :=
  let floors := (aged.filter (fun e => e.state = .active ∨ e.state = .silent)).map (·.terms.floor)
  let decided := (aged.foldl (decideEntry s.cfg.budget s.ownAddr) (floors.sum, [])).2
  let cleared := decided.map (fun e => { e with heard := false })
  let ends := s.ctl.station = .listen ∧ s.ctl.observed = 1
  let mismatch := s.ctl.groupEvidence = true ∧ s.ctl.acceptedSeen = false
  let candidate : Entry :=
    { addr := s.ownAddr, state := .candidate
      terms := ⟨s.cfg.floor, s.cfg.ceiling, s.cfg.weight, s.ownRole⟩
      values := none, basis := none, heard := false, missed := 0, heardMe := false }
  let unsent := (findEntry s.ownAddr s.table.entries).any (fun e => e.state = .active ∧ e.heard = false)
  t.table.entries
      = (if ends then
          if mismatch then removeEntry s.ownAddr cleared else putEntry candidate cleared
        else cleared)
    ∧ t.table.confirm
      = (if s.ctl.station = .isolated ∨ (ends ∧ mismatch) then []
        else (decided.filter (fun e => e.addr ≠ s.ownAddr ∧ e.state = .active)).map
          (fun e => (e.addr, .pending)))
    ∧ s.OrphansLeave t gone
    ∧ t.snap
      = (if s.ctl.station = .isolated then Snapshot.empty
        else allocate s.cfg
          (cleared.map (fun e =>
            if unsent = true ∧ e.addr = s.ownAddr then { e with state := .silent } else e))
          t.table.orphans)

/-- What a boundary of either kind in ACTIVE leaves of the isolation counts (R108, R109). With another
member in the table a count rises in a round without its event and else returns to 0. Below T_isolate the
station stays and the round flags are cleared. At T_isolate it is ISOLATED: no share, an empty table and
confirmation set, the reservations of the other members and OUTSIDE entries made orphans beside those
aged (R57, R58), and the Allocator computing over the orphans alone (R63). The JOIN-composed flag is clear
in ISOLATED (R118). -/
def State.IsolationLeaves (s t : State) : Prop :=
  let member := ∃ e ∈ s.table.entries, e.addr ≠ s.ownAddr ∧ (e.state = .active ∨ e.state = .silent)
  ∀ a b : Nat,
  (member → s.ctl.heardMeRound = false → a = s.ctl.isolationA + 1) →
  (¬ member ∨ s.ctl.heardMeRound = true → a = 0) →
  (member → s.ctl.acceptedRound = false → b = s.ctl.isolationB + 1) →
  (¬ member ∨ s.ctl.acceptedRound = true → b = 0) →
  (a < s.cfg.tIsolate → b < s.cfg.tIsolate →
    t.ctl = { s.ctl with
      isolationA := a, isolationB := b, heardMeRound := false, acceptedRound := false })
  ∧ (s.cfg.tIsolate ≤ a ∨ s.cfg.tIsolate ≤ b →
    t.ctl = { s.ctl with
      station := .isolated, isolationA := 0, isolationB := 0, heardMeRound := false
      acceptedRound := false, joinComposed := false
      isolations := min (s.ctl.isolations + 1) 255 }
    ∧ t.share = { applied := 0, pending := none, limit := 0 }
    ∧ t.table.entries = [] ∧ t.table.confirm = []
    ∧ t.snap = allocate s.cfg [] t.table.orphans
    ∧ s.OrphansLeave t (s.table.entries.filter (fun e =>
        e.addr ≠ s.ownAddr ∧ e.state ∈ [.active, .silent, .outside])))

/-- What a boundary of either kind leaves of the Shed Unit (R121, R125): each occupied entry loses a round
and empties at 0, and a monitor in SHEDDING whose own entry then stands at 1 round or empty has written its
order into the item. -/
def State.ShedUnitLeaves (s t : State) : Prop :=
  t.shed.monitor = s.shed.monitor
  ∧ (∀ m : Fin 4, t.shed.table[m]
    = (match s.shed.table[m] with
      | some o => if o.rounds ≤ 1 then none else some { o with rounds := o.rounds - 1 }
      | none => none))
  ∧ (s.ownRole = .load ∨ s.shed.monitor = .calm → t.sched.item = s.sched.item)
  ∧ (∀ m : Fin 4, m.val = s.ownAddr → s.ownRole = .monitor → s.shed.monitor = .shedding →
    t.sched.item
      = (match t.shed.table[m] with
        | some o => if o.rounds = 1 then some ⟨s.cfg.shedLen, s.cfg.shedMode⟩ else s.sched.item
        | none => some ⟨s.cfg.shedLen, s.cfg.shedMode⟩))

/-- What a boundary of either kind does to a station that is not a member (R54, R85, R101, R102, R104, R105,
R110): OFFLINE and LISTEN observe it, LISTEN ends at the count of 2 in GROUP_MISMATCH or JOINING by the
evidence, ISOLATED ends in LISTEN or OFFLINE with an empty snapshot and the count 1, and JOINING and
DEFERRED go where the own entry goes: with its JOIN sent, to ACTIVE where it was admitted, with no share
and the isolation counts and flags clear, and to DEFERRED where it was not; without it nowhere. -/
def State.StationMoves (s t : State) : Prop :=
  (s.ctl.station = .offline →
    t.ctl.station = .offline ∧ t.ctl.observed = min (s.ctl.observed + 1) 2)
  ∧ (s.ctl.station = .listen → s.ctl.observed ≠ 1 →
    t.ctl.station = .listen ∧ t.ctl.observed = min (s.ctl.observed + 1) 2)
  ∧ (s.ctl.station = .listen → s.ctl.observed = 1 →
    t.ctl.observed = 2
    ∧ (s.ctl.groupEvidence = true → s.ctl.acceptedSeen = false →
      t.ctl.station = .groupMismatch ∧ t.ctl.faultCode = .groupMismatch)
    ∧ (s.ctl.groupEvidence = false ∨ s.ctl.acceptedSeen = true →
      t.ctl.station = .joining
      ∧ (findEntry s.ownAddr t.table.entries).map (fun e => e.state) = some .candidate))
  ∧ (s.ctl.station = .isolated →
    t.snap = Snapshot.empty ∧ t.ctl.observed = 1
    ∧ t.ctl.station = (if s.ctl.settled then .listen else .offline))
  ∧ (∀ e, findEntry s.ownAddr s.table.entries = some e →
    (s.ctl.station = .joining ∧ e.state = .candidate)
      ∨ (s.ctl.station = .deferred ∧ e.state = .deferred) →
    let admitted := (findEntry s.ownAddr t.table.entries).map (fun x => x.state) = some .active
    (e.heard = false → t.ctl.station = s.ctl.station)
    ∧ (e.heard = true → ¬ admitted → t.ctl.station = .deferred)
    ∧ (e.heard = true → admitted → t.ctl.station = .active ∧ t.ready = true
      ∧ t.ctl.isolationA = 0 ∧ t.ctl.isolationB = 0
      ∧ t.ctl.heardMeRound = false ∧ t.ctl.acceptedRound = false
      ∧ (s.TableSafe → s.share = { applied := 0, pending := none, limit := 0 } →
        t.share = { applied := 0, pending := none, limit := 0 })))

/-- The history h becomes h' by one discard of this description in this round (R37). A newest record of
the same description, an absent field matching only an absent one, takes the round as its latest and one
more repeat, which stays at 255; otherwise a new record follows, and of eight the oldest goes. -/
def historyTakes (h h' : List DiscardRecord) (reason : Reason) (sender kind : Option Nat)
    (round : Byte) : Prop :=
  let same := fun (r : DiscardRecord) => r.reason = reason ∧ r.sender = sender ∧ r.kind = kind
  (∀ r, h.getLast? = some r → same r →
    h' = h.dropLast ++ [{ r with
      latestRound := round, repeats := if r.repeats < 255 then r.repeats + 1 else 255 }])
  ∧ ((∀ r, h.getLast? = some r → ¬ same r) →
    h' = (if h.length < 8 then h else h.drop 1)
      ++ [{ reason := reason, sender := sender, kind := kind, firstRound := round
            latestRound := round, repeats := 1 }])

/-- The fixed amount of an entry (R65): SILENT and OUTSIDE at the larger of held and pending, capped at
the ceiling; ACTIVE with STAGE_FAULT at the smaller of draw and B; 0 for every other (R64). -/
def Entry.fixedAmount (budget : Nat) (e : Entry) : Nat :=
  let v := e.values.getD ⟨0, 0, 0, 0, false⟩
  if e.state = .silent ∨ e.state = .outside then min (max v.held v.pending) e.terms.ceiling
  else if e.state = .active ∧ v.stageFault = true then min v.draw budget
  else 0

/-- One floor grant, with the remainder and the grants so far (R68): the smallest of demand, floor and
remainder. -/
def floorGrant (done : Nat × List (Entry × Nat)) (e : Entry) : Nat × List (Entry × Nat) :=
  let grant := min (min e.vals.demand e.terms.floor) done.1
  (done.1 - grant, done.2 ++ [(e, grant)])

/-- What an entry with its grants so far still wants (R69). -/
def wantLeft (x : Entry × Nat) : Nat := min x.1.vals.demand x.1.terms.ceiling - x.2

/-- One pass over the normal entries with their grants, from the remainder that stands (R69 to R71). With W
the weights of the unsatisfied and q = R ÷ W: where q is at least 1 the smaller of q × weight and the want;
else one unit to each unsatisfied entry before which the remainder has not run out, the heavier coming
first and among equal weights the lower address. -/
def extraPass (p : Nat × List (Entry × Nat)) : Nat × List (Entry × Nat) :=
  let unsatisfied := p.2.filter (fun x => 0 < wantLeft x)
  let q := p.1 / (unsatisfied.map (fun x => x.1.terms.weight)).sum
  let before := fun (x : Entry × Nat) => (unsatisfied.filter (fun y =>
    x.1.terms.weight < y.1.terms.weight
      ∨ (x.1.terms.weight = y.1.terms.weight ∧ y.1.addr < x.1.addr))).length
  let grant := fun (x : Entry × Nat) =>
    if 1 ≤ q then min (q * x.1.terms.weight) (wantLeft x)
    else if 0 < wantLeft x ∧ before x < p.1 then 1
    else 0
  (p.1 - (p.2.map grant).sum, p.2.map (fun x => (x.1, x.2 + grant x)))

/-- The fields of terms fit the widths of R182. -/
def Terms.Fits (t : Terms) : Prop := t.floor < 65536 ∧ t.ceiling < 65536 ∧ t.weight < 16

/-- The fields of a frame fit the widths of R182. -/
def Frame.Fits : Frame → Prop
  | .claim a v t _ _ _ =>
    a < 32 ∧ v.demand < 65536 ∧ v.held < 65536 ∧ v.pending < 65536 ∧ v.draw < 65536 ∧ t.Fits
  | .join a t _ => a < 32 ∧ t.Fits
  | .leave a _ => a < 32
  | .shed a o _ => a < 32 ∧ o.rounds < 64

/-- The state in which the Frame Checker judges the report of these body bits (R5, R6, R15, R16, R22):
the line idle, and the rotation moved by a CRC-valid frame, with its lost boundary complete. -/
def State.atJudgement (s : State) (bits : List Bool) : State :=
  let r := lineReport s.line.receiver bits
  if r.crcValid then s.lineIdle.resync (senderOf r.body) else s.lineIdle

/-- The Frame Checker's verdict on the report of these body bits (R22), at the end of frame of an
attempt in a configured station. -/
def State.Judges (s : State) (bits : List Bool) (v : Verdict) : Prop :=
  s.ctl.station.configured = true ∧ s.line.receiver.attempting = true
    ∧ (s.atJudgement bits).judge (lineReport s.line.receiver bits) = v

/-- The acceptance notice (R33, R102, R108) on the Station Controller's flags. -/
def State.noticed (s : State) (hearsMe : Bool) : Controller :=
  { s.ctl with
    acceptedSeen := true
    acceptedRound := if s.ctl.station = .active then true else s.ctl.acceptedRound
    heardMeRound := if s.ctl.station = .active ∧ hearsMe then true else s.ctl.heardMeRound }

/-- The counters that one frame report moves one of: frames accepted and the nine discard reasons
(R35). -/
def verdictCounters : List Counter :=
  [.framesAccepted, .codeDiscards, .kindDiscards, .lengthDiscards, .crcDiscards, .groupDiscards,
    .formatDiscards, .selfDiscards, .roleDiscards, .stateDiscards]

end Sys2Proof.Machine
end

