-- ==== Sys2Proof/Certificates/Slice0/Obligations.lean ====
section
/-! DEFINITION. The statements for the provers, in the order of OBLIGATIONS.json. -/

open Sys2Proof Sys2Proof.Machine

/-! ## The queue -/

/-- A step is the effect of the command at the front of the queue, on the state with the queue's rest.
With no command waiting the part idles, but for one SCK period at a port that answers a transaction
(the model's choice, logs 1 and 15; SerialClockMovesOneBit says what it does). -/
def Obligations.StepRunsTheFrontCommand : Prop :=
  ∀ (c : Instr) (rest : List Instr) (s : State),
    step { s with pending := c :: rest } = exec c { s with pending := rest }
      ∧ (s.port.phase = none → step { s with pending := [] } = .next { s with pending := [] })
      ∧ (s.port.phase ≠ none →
        step { s with pending := [] } = .next { s with pending := [], port := s.port.clock })

/-- No command reads the queue or changes it: with another queue the same effect follows, and that
queue stands (log 1). -/
def Obligations.NoCommandReadsOrChangesTheQueue : Prop :=
  ∀ (c : Instr) (q : List Instr) (s : State),
    exec c { s with pending := q }
      = (match exec c s with
        | .next t => .next { t with pending := q }
        | .fault e => .fault e
        | .refused e => .refused e)

/-- Every command of the table, in every state, leaves a next state; that it does so also in a state in
which its event cannot occur, where nothing changes, is the model's choice (log 4). A term that is no
command is refused by name, the model's choice too (log 25). -/
def Obligations.WellFormedCommandsAlwaysComplete : Prop :=
  ∀ (c : Instr) (s : State),
    (c.wellFormed = true → ∃ t, exec c s = .next t)
      ∧ (c.wellFormed = false → exec c s = .refused .malformed)

/-! ## Reset and the start of CONFIG -/

/-- The values after reset (R21, R38, R62, R75, R94, R118, R134, R148, R159, R169, R180), each spelled
out. -/
def Obligations.ResetValuesOfEveryBlock : Prop :=
  State.reset.ctl
      = { station := .resetting, settled := false, enFilter := none, observed := 0
          groupEvidence := false, acceptedSeen := false, joinComposed := false
          isolationA := 0, isolationB := 0, heardMeRound := false, acceptedRound := false
          isolations := 0, faultCode := .none }
    ∧ State.reset.loader
      = { straps := none, load := .idle, attempts := 0, image := [], digest := none, i2c := .idle }
    ∧ State.reset.line = { receiver := .stopped, phase := .quiet, burst := [] }
    ∧ State.reset.rotation
      = { synced := false, rot := 0, slot := .stopped, silence := none, roundCount := 0 }
    ∧ State.reset.checker = { history := [], heardAcc := 0 }
    ∧ State.reset.sched
      = { leaveAttempts := 0, collisionRun := 0, item := none, writtenSince := false }
    ∧ State.reset.table = { entries := [], orphans := [], confirm := [] }
    ∧ State.reset.snap
      = { alloc := List.replicate 32 0, basis := none, bEff := 0, members := 0
          overcommitted := false, floorShortfall := false }
    ∧ State.reset.share = { applied := 0, pending := none, limit := 0 }
    ∧ State.reset.shed = { table := #v[none, none, none, none], monitor := .calm }
    ∧ State.reset.meas
      = { scan := .idle, draw := 0, rawDemand := 0, reported := 0, feed := 0
          overdraw := ⟨false, none⟩, feedDet := ⟨false, none⟩, stage := ⟨false, none⟩ }
    ∧ State.reset.drive
      = { counter := none, duty := 0, buffer := 0, level := false, driven := false }
    ∧ State.reset.stats
      = { live := Vector.replicate 20 0, bank := Vector.replicate 20 0, attention := [] }
    ∧ State.reset.port.phase = none ∧ State.reset.port.outcome = .none
    ∧ State.reset.port.captureValid = false ∧ State.reset.port.capture = List.replicate 512 0

/-- Power-on reset and RESET_N act at once from any state: every block takes its reset values (R96).
The pins stand as they are, and the queue and the free orders, which are the model's own, go on
(logs 1, 5, 8). -/
def Obligations.ResetEventsPutEveryBlockInReset : Prop :=
  ∀ s : State,
    exec .powerOnReset s = .next { State.reset with
      pins := { s.pins with powerComingUp := true }
      freeDraws := s.freeDraws
      pending := s.pending }
    ∧ exec .resetNFall s = .next { State.reset with
      pins := { s.pins with resetN := false }
      freeDraws := s.freeDraws
      pending := s.pending }

/-- CONFIG begins when RESET_N rises with power up, and when power-on reset ends with RESET_N high
(R97, R161): the straps are latched, the first attempt begins and EN is sampled from here (R98). Of
the two conditions the one that comes last decides (log 9). -/
def Obligations.ConfigBeginsWhenResetIsOver : Prop :=
  ∀ (s : State) (addr : BitVec 5) (role : Role), s.ctl.station = .resetting →
    let begun := fun (pins : Pins) => { s with
      pins := pins
      loader := {
        straps := some ⟨addr.toNat, role⟩, load := .reading, attempts := 0, image := []
        digest := none, i2c := .attempt }
      ctl := { s.ctl with
        station := .config
        enFilter := if s.pins.en = s.ctl.settled then none else some 0 } }
    (s.pins.resetN = false → s.pins.powerComingUp = false →
        exec (.resetNRise addr role) s = .next (begun { s.pins with resetN := true }))
    ∧ (s.pins.powerComingUp = true → s.pins.resetN = true →
        exec (.powerOnResetEnd addr role) s = .next (begun { s.pins with powerComingUp := false }))
    ∧ (s.pins.resetN = false → s.pins.powerComingUp = true →
        exec (.resetNRise addr role) s
          = .next { s with pins := { s.pins with resetN := true } }
        ∧ exec (.powerOnResetEnd addr role) s
          = .next { s with pins := { s.pins with powerComingUp := false } })

/-! ## Configuration -/

/-- A failed attempt (R161, R163): the five events, each with its STOP or without, count the attempt;
below three the loader waits, and the third ends CONFIG with NO_MEMORY. The image stands. The end of
the gap begins a new attempt. -/
def Obligations.FailedAttemptsWaitThenGiveUp : Prop :=
  ∀ (s : State) (c : Instr) (stop : Bool), s.ctl.station = .config →
    ((c, stop) ∈ [(Instr.notAcknowledged, true), (.lostLevel, true), (.busNotFree, false),
        (.clockHeld, false), (.overtime, true)] → s.loader.load = .reading →
      (s.loader.attempts + 1 < 3 → exec c s = .next { s with
        loader := { s.loader with
          load := .waiting, attempts := s.loader.attempts + 1, i2c := .ended stop } })
      ∧ (s.loader.attempts + 1 = 3 → exec c s = .next { s with
        loader := { s.loader with load := .faulted, attempts := 3, i2c := .ended stop }
        ctl := { s.ctl with station := .configFault, faultCode := .noMemory } }))
    ∧ (s.loader.load = .waiting → exec .retryGapEnd s
      = .next { s with loader := { s.loader with load := .reading, i2c := .attempt } })

/-- What SDA reads is the event of the attempt (R162 to R164). Up to nine freeing clocks precede the
START, and ten low readings are a bus not free. A memory that acknowledges the three bytes sent to it and
answers 36 bytes, most significant bit first, all but the last acknowledged by the loader, is the
completed read of those bytes after 351 periods; the first acknowledge missing is NOT_ACKNOWLEDGED, and
the first 1 that reads back as 0 is LOST_LEVEL. The levels given to SCL and SDA are the transaction of
R162, in pairs of SCL and SDA, true for released: before the START the freeing clocks, SCL clocked with
SDA released; then START, device address 0x50 to write, word address 0, repeated START, 0x50 to read, 36
bytes with SDA released but for the acknowledge; SDA changes only while SCL is low, but for START and
STOP. Both lines are released before an attempt and after it, where a STOP comes first if one was sent.
That the state keeps no finer grain than the attempt is the model's choice (log 24). -/
def Obligations.WiresOfAnAttemptGiveItsEvent : Prop :=
  ∀ (block : List Byte) (low i : Nat) (rest : List Bool),
    let acknowledged := fun (b : Byte) => bitsOfByte b ++ [false]
    let told := ([0xA0, 0x00, 0xA1] : List Byte).flatMap acknowledged
    let answered := (block.take 35).flatMap acknowledged
      ++ (block.drop 35).flatMap (fun b => bitsOfByte b ++ [true])
    let free := List.replicate low false ++ [true]
    (9 < low → attemptEvent (List.replicate low false ++ rest) = some .busNotFree)
    ∧ (low ≤ 9 →
      (block.length = 36 → (told ++ answered).length = 351
        ∧ attemptEvent (free ++ told ++ answered) = some (.configReadComplete block))
      ∧ (i ∈ [8, 17, 26] →
        attemptEvent (free ++ told.take i ++ true :: rest) = some .notAcknowledged)
      ∧ (told[i]? = some true →
        attemptEvent (free ++ told.take i ++ false :: rest) = some .lostLevel))
    ∧ ∀ s : State,
      let clock := fun (sda : Bool) => ([⟨false, sda⟩, ⟨true, sda⟩, ⟨false, sda⟩] : List Wires)
      let send := fun (b : Byte) =>
        ([7, 6, 5, 4, 3, 2, 1, 0].map b.getLsbD ++ [true]).flatMap clock
      let receive := fun (acknowledge : Bool) =>
        (List.replicate 8 true ++ [!acknowledge]).flatMap clock
      let freeing := fun (n : Nat) =>
        (List.replicate n ([⟨false, true⟩, ⟨true, true⟩] : List Wires)).flatten
      let start : List Wires := [⟨true, true⟩, ⟨true, false⟩, ⟨false, false⟩]
      let transfer := start ++ send 0xA0 ++ send 0x00 ++ ⟨false, true⟩ :: start ++ send 0xA1
        ++ (List.replicate 35 (receive true)).flatten ++ receive false
      (s.loader.i2c = .idle → s.i2cWires rest = [⟨true, true⟩])
      ∧ (s.loader.i2c = .attempt → low ≤ 9 →
        s.i2cWires (List.replicate low false) = freeing low
        ∧ s.i2cWires (free ++ rest) = freeing low ++ transfer)
      ∧ (s.loader.i2c = .attempt → 9 < low →
        s.i2cWires (List.replicate low false ++ rest) = freeing 9)
      ∧ (s.loader.i2c = .ended false → s.i2cWires rest = [⟨true, true⟩])
      ∧ (s.loader.i2c = .ended true →
        s.i2cWires rest = [⟨false, false⟩, ⟨true, false⟩, ⟨true, true⟩, ⟨true, true⟩])

/-- The value check is the table of R165 with the straps of R166, at the byte positions of R184. -/
def Obligations.ValueCheckIsTheTableOfRanges : Prop :=
  ∀ (block : List Byte) (p : Straps),
    let b := fun (n : Nat) => (block.getD (n - 1) 0).toNat
    let w := fun (n : Nat) => b n * 256 + b (n + 1)
    let slots := 8 * 2 ^ b 4
    valuesInRange block p = true ↔
      (1 ≤ w 2 ∧ w 2 ≤ 4000) ∧ b 4 ≤ 2 ∧ b 5 ≤ 2 ∧ (2 ≤ b 6 ∧ b 6 ≤ 15) ∧ w 7 ≤ 4000
      ∧ (1 ≤ b 9 ∧ b 9 ≤ slots) ∧ w 10 ≤ w 12 ∧ (1 ≤ w 12 ∧ w 12 ≤ w 2)
      ∧ (1 ≤ b 14 ∧ b 14 ≤ 15) ∧ (1 ≤ b 15 ∧ b 15 ≤ 64) ∧ (1 ≤ w 16 ∧ w 16 ≤ 4095) ∧ w 18 ≤ 255
      ∧ (1 ≤ b 20 ∧ b 20 ≤ 16) ∧ (200 ≤ w 21 ∧ w 21 ≤ 8000) ∧ 1 ≤ b 23 ∧ 1 ≤ b 24 ∧ b 25 ≤ 1
      ∧ p.addr < slots
      ∧ (p.role = .monitor →
        p.addr < 4 ∧ (1 ≤ w 26 ∧ w 26 ≤ 8000) ∧ (1 ≤ w 28 ∧ w 28 ≤ w 26) ∧ w 30 < w 28
        ∧ (1 ≤ b 32 ∧ b 32 ≤ 63) ∧ b 33 ≤ 1 ∧ b 34 ≤ 1)

/-- A completed read whose checks fail (R164, R168, R169): the first failing check gives the fault
code, the image keeps the bytes, and the station stands in CONFIG_FAULT. That the completed read counts
as an attempt is the model's reading (log 13). -/
def Obligations.FirstFailingBlockCheckGivesTheFaultCode : Prop :=
  ∀ (s : State) (block : List Byte) (code : FaultCode),
    block.length = 36 → s.ctl.station = .config → s.loader.load = .reading →
    let goodCrc := (crc (block.take 34)).toNat
      = (block.getD 34 0).toNat * 256 + (block.getD 35 0).toNat
    let goodVersion := (block.getD 0 0).toNat = 1
    ((code = .badCrc ∧ ¬ goodCrc) ∨ (code = .badVersion ∧ goodCrc ∧ ¬ goodVersion)
      ∨ (code = .badValue ∧ goodCrc ∧ goodVersion
        ∧ valuesInRange block ⟨s.ownAddr, s.ownRole⟩ = false)) →
    exec (.configReadComplete block) s = .next { s with
      loader := { s.loader with
        load := .faulted, attempts := s.loader.attempts + 1, image := block, i2c := .ended true }
      ctl := { s.ctl with station := .configFault, faultCode := code } }

/-- A completed read whose checks all pass (R20, R97, R149, R167, R184): the digest is the CRC over the
eight group bytes, every block takes the configuration, each setting from its bytes of the block
(byte 1 is the first, and pairs are high byte first), the first period start triggers a scan with the
mark clear, and the station enters LISTEN or OFFLINE by the settled level of EN. That the completed
read counts as an attempt is the model's reading (log 13). -/
def Obligations.ValidBlockStartsEveryBlock : Prop :=
  ∀ (s : State) (block : List Byte),
    block.length = 36 → s.ctl.station = .config → s.loader.load = .reading → s.meas.scan = .idle →
    (crc (block.take 34)).toNat = (block.getD 34 0).toNat * 256 + (block.getD 35 0).toNat →
    (block.getD 0 0).toNat = 1 → valuesInRange block ⟨s.ownAddr, s.ownRole⟩ = true →
    let b := fun (n : Nat) => (block.getD (n - 1) 0).toNat
    let w := fun (n : Nat) => b n * 256 + b (n + 1)
    exec (.configReadComplete block) s = .next { s with
      loader := { s.loader with
        load := .valid, attempts := s.loader.attempts + 1, image := block, i2c := .ended true
        digest := some (crc [block.getD 1 0, block.getD 2 0, block.getD 3 0, block.getD 4 0,
          block.getD 5 0, block.getD 6 0, block.getD 7 0, block.getD 8 0]) }
      cfg := {
        budget := w 2, nSlots := 8 * 2 ^ b 4, bitRate := b 5, tIsolate := b 6, tOrphan := w 7
        expected := b 9, floor := w 10, ceiling := w 12, weight := b 14, demandStep := b 15
        iScale := w 16, margin := w 18, persistence := b 20, period := w 21, stepUp := b 23
        stepDown := b 24, longSample := decide (b 25 = 1), fScale := w 26, feedLimit := w 28
        hysteresis := w 30, shedLen := b 32, shedMode := if b 33 = 1 then .zero else .floor
        releaseEnable := decide (b 34 = 1) }
      line := { s.line with receiver := .idle }
      meas := { s.meas with scan := .running .isns false }
      drive := { counter := some 0, duty := 0, buffer := 0, level := false, driven := false }
      ctl :=
        if s.ctl.settled then
          { s.ctl with station := .listen, groupEvidence := false, acceptedSeen := false }
        else { s.ctl with station := .offline }
      rotation := { s.rotation with
        silence := if s.ctl.settled = true ∧ s.rotation.synced = false then some 0 else none } }

/-! ## EN -/

/-- A change of the level at EN (R98): a departure from the settled level begins its 2 ms afresh, a
return ends it, and in RESETTING EN is not sampled (log 10). -/
def Obligations.EnLevelChangeStartsOrEndsTheFilter : Prop :=
  ∀ s : State, exec .enLevelChange s = .next { s with
    pins := { s.pins with en := !s.pins.en }
    ctl := { s.ctl with
      enFilter :=
        if s.ctl.station = .resetting then s.ctl.enFilter
        else if (!s.pins.en) = s.ctl.settled then none else some 0 } }

/-- EN settling high (R99): OFFLINE goes to JOINING if synced with an observation count of 2, with the
own entry made as a CANDIDATE (R42, R103), and to LISTEN otherwise; in CONFIG, CONFIG_FAULT, LEAVING,
ISOLATED and the fault states only the settled level changes. That the same holds in LISTEN, JOINING,
DEFERRED and ACTIVE, where R99 says that EN does not settle high, is the model's choice (log 21). -/
def Obligations.EnSettlingHighActsInOffline : Prop :=
  ∀ s : State, s.ctl.station ≠ .resetting → s.pins.en = true → s.ctl.settled = false →
    let settled := { s.ctl with settled := true, enFilter := none }
    (s.ctl.station = .offline → s.rotation.synced = true → s.ctl.observed = 2 →
      exec .enSettlesHigh s = .next { s with
        ctl := { settled with station := .joining, joinComposed := false }
        table := { s.table with
          entries := putEntry
            { addr := s.ownAddr, state := .candidate
              terms := ⟨s.cfg.floor, s.cfg.ceiling, s.cfg.weight, s.ownRole⟩
              values := none, basis := none, heard := false, missed := 0, heardMe := false }
            s.table.entries }
        rotation := { s.rotation with silence := none } })
    ∧ (s.ctl.station = .offline → s.rotation.synced = false ∨ s.ctl.observed ≠ 2 →
      exec .enSettlesHigh s = .next { s with
        ctl := { settled with station := .listen, groupEvidence := false, acceptedSeen := false }
        rotation := { s.rotation with silence := if s.rotation.synced then none else some 0 } })
    ∧ (s.ctl.station ≠ .offline → exec .enSettlesHigh s = .next { s with ctl := settled })

/-- EN settling low (R87, R92, R99, R106, R143): LISTEN and an uncommitted JOINING go to OFFLINE;
JOINING with a JOIN composed, DEFERRED and ACTIVE go to LEAVING with the share values 0, the drive
cut if L was above 0, and the own entry removed; in CONFIG, CONFIG_FAULT, LEAVING, ISOLATED and the
fault states only the settled level changes. That the same holds in OFFLINE, where R99 says that EN does
not settle low, is the model's choice (log 21). -/
def Obligations.EnSettlingLowStandsTheStationDown : Prop :=
  ∀ s : State, s.ctl.station ≠ .resetting → s.pins.en = false → s.ctl.settled = true →
    let settled := { s.ctl with settled := false, enFilter := none }
    let without := { s.table with entries := removeEntry s.ownAddr s.table.entries }
    (s.ctl.station = .listen → exec .enSettlesLow s = .next { s with
      ctl := { settled with station := .offline }
      rotation := { s.rotation with silence := none } })
    ∧ (s.ctl.station = .joining → s.ctl.joinComposed = false → exec .enSettlesLow s = .next { s with
      ctl := { settled with station := .offline }
      table := without
      rotation := { s.rotation with silence := none } })
    ∧ ((s.ctl.station = .joining ∧ s.ctl.joinComposed = true) ∨ s.ctl.station = .deferred
        ∨ s.ctl.station = .active →
      exec .enSettlesLow s = .next { s with
        ctl := { settled with
          station := .leaving, isolationA := 0, isolationB := 0, heardMeRound := false
          acceptedRound := false }
        table := without
        share := { applied := 0, pending := none, limit := 0 }
        meas := { s.meas with overdraw := ⟨false, none⟩ }
        drive :=
          if 0 < s.share.limit then { s.drive with duty := 0, buffer := 0, level := false }
          else s.drive
        sched := { s.sched with leaveAttempts := 0 } })
    ∧ (s.ctl.station ∉ [.listen, .joining, .deferred, .active] →
      exec .enSettlesLow s = .next { s with ctl := settled })

/-! ## The receiver and the frames -/

/-- The receiver (R3, R4, R7, R8, R18): carrier on an idle line with no burst waiting begins a frame
attempt, makes an open slot one with activity and puts a running silence timer back to 0; the start
mark opens the body; its absence, and a coding violation in the body, make the attempt a CODE defect.
The sender (R1, R7, R10, R11): the start delay and the inter-frame gap end with the frame begun, LDE
high, and the transmission is activity in the slot. The levels on LRX decide (R3, R12, R13): a start is
the last 6 preamble bits and the start mark within 10 bit times of carrier, and its absence after those
is a bad start mark; a frame driven is sent when every bit time reads back as driven, and the first that
does not is the abort. The grid of bit times is the model's choice (log 22). -/
def Obligations.ReceiverAndSenderMoves : Prop :=
  ∀ (s : State) (times tail : List BitTime) (i : Nat) (y : BitTime),
    let mark : List BitTime := [(false, true), (true, false), (false, true), (true, false),
      (false, true), (true, false), (true, true), (false, false)]
    let started := ∃ lead after, times = lead ++ mark ++ after ∧ lead.length ≤ 2
    let begun := { s with
      line := { s.line with phase := .sending }, rotation := { s.rotation with slot := .activity } }
    (s.ctl.station.configured = true → s.line.receiver.attempting = false →
      s.line.phase = .quiet →
      exec .carrierBegins s = .next { s with
        line := { s.line with receiver := .hunting }
        rotation := { s.rotation with
          slot := if s.rotation.slot = .stopped then .stopped else .activity
          silence := if s.rotation.silence.isSome then some 0 else none } })
    ∧ (s.line.receiver = .hunting →
      exec .startMark s = .next { s with line := { s.line with receiver := .decoding } }
      ∧ exec .badStartMark s = .next { s with line := { s.line with receiver := .badStartMark } })
    ∧ (s.line.receiver = .decoding →
      exec .codingViolation s
        = .next { s with line := { s.line with receiver := .codingViolation } })
    ∧ (s.line.phase = .startDelay → s.ctl.station ∈ [.joining, .deferred, .active, .leaving] →
      exec .startDelayEnd s = .next begun ∧ begun.lde = true)
    ∧ (s.line.phase = .frameGap → exec .interFrameGapEnd s = .next begun)
    ∧ (started → startEvent times = some .startMark)
    ∧ (¬ started → times.length < 10 → startEvent times = none)
    ∧ (¬ started → 10 ≤ times.length → startEvent times = some .badStartMark)
    ∧ (s.ltx = none → s.readBack times = none)
    ∧ ∀ sent, s.ltx = some sent →
      s.readBack sent = some .frameSent
      ∧ (i < sent.length → s.readBack (sent.take i) = none)
      ∧ (i < sent.length → sent[i]? ≠ some y → s.readBack (sent.take i ++ y :: tail) = some .abort)

/-- A burst deferred at the start delay (R10, R12, R107): nothing is sent and no collision counted; a
LEAVE deferred in LEAVING counts an attempt, and the third ends LEAVING into OFFLINE, or at once into
JOINING if EN is settled high, with the own entry made as a CANDIDATE and the JOIN-composed flag clear
(R42, R103). -/
def Obligations.CarrierInTheStartDelayDefersTheBurst : Prop :=
  ∀ s : State, s.ctl.station.configured = true → s.line.receiver.attempting = false →
    s.line.phase = .startDelay →
    let heard := { s with
      line := { receiver := .hunting, phase := .quiet, burst := [] }
      rotation := { s.rotation with
        slot := if s.rotation.slot = .stopped then .stopped else .activity
        silence := if s.rotation.silence.isSome then some 0 else none } }
    let leaving := s.ctl.station = .leaving ∧ s.line.burst.any Frame.isLeave = true
    let counted := { s.sched with leaveAttempts := s.sched.leaveAttempts + 1 }
    (¬ leaving → exec .carrierBegins s = .next heard)
    ∧ (leaving → s.sched.leaveAttempts + 1 < 3 →
      exec .carrierBegins s = .next { heard with sched := counted })
    ∧ (leaving → 3 ≤ s.sched.leaveAttempts + 1 → s.ctl.settled = false →
      exec .carrierBegins s = .next { heard with
        sched := counted
        ctl := { s.ctl with station := .offline }
        rotation := { heard.rotation with silence := none } })
    ∧ (leaving → 3 ≤ s.sched.leaveAttempts + 1 → s.ctl.settled = true →
      exec .carrierBegins s = .next { heard with
        sched := counted
        ctl := { s.ctl with station := .joining, joinComposed := false }
        table := { s.table with
          entries := putEntry
            { addr := s.ownAddr, state := .candidate
              terms := ⟨s.cfg.floor, s.cfg.ceiling, s.cfg.weight, s.ownRole⟩
              values := none, basis := none, heard := false, missed := 0, heardMe := false }
            s.table.entries }
        rotation := { heard.rotation with silence := none } })

/-- A collision (R11, R13, R14, R111, R115): an abort, and a second frame withheld at the inter-frame
gap, raise the collisions counter and the consecutive count by one and end the burst. Below three
nothing else changes, but for a LEAVE attempt in LEAVING, where no count is a conflict and a burst
without a LEAVE changes nothing else at all (R116); the third in a row in JOINING, DEFERRED or
ACTIVE is an ADDRESS_CONFLICT by collision, with the share values 0, the drive cut, the own entry
removed, the confirmation set emptied and the converter stopped (R62, R87, R92, R147). Two clauses are the
model's, not the spec's: that an abort leaves the slot in its release gap and the receiver ignoring at
once (log 12), and that the receiver hunts after any transition in the inter-frame gap, its first 2 bit
times included (log 28). -/
def Obligations.CollisionCountsOnceAndTheThirdIsAConflict : Prop :=
  ∀ (s : State) (c : Instr),
    (c = .abort ∧ s.line.phase = .sending)
      ∨ (c = .carrierBegins ∧ s.line.phase = .frameGap ∧ s.ctl.station.configured = true
        ∧ s.line.receiver.attempting = false) →
    let collided := { s with
      line := {
        receiver := if c = .abort then .ignoring else .hunting, phase := .quiet, burst := [] }
      rotation := { s.rotation with
        slot :=
          if c = .abort then .releaseGap
          else if s.rotation.slot = .stopped then .stopped else .activity
        silence :=
          if c = .abort ∨ s.rotation.silence = none then s.rotation.silence else some 0 }
      sched := { s.sched with collisionRun := s.sched.collisionRun + 1 }
      stats := s.stats.bump .collisions }
    (s.ctl.station ∉ [.joining, .deferred, .active, .leaving]
        ∨ (s.ctl.station ≠ .leaving ∧ s.sched.collisionRun + 1 < 3) → exec c s = .next collided)
    ∧ (s.ctl.station = .leaving → ∃ t, exec c s = .next t ∧ t.line = collided.line
      ∧ t.stats = collided.stats ∧ t.sched.collisionRun = s.sched.collisionRun + 1
      ∧ (s.line.burst.any Frame.isLeave = false → t = collided)
      ∧ (s.line.burst.any Frame.isLeave = true → s.sched.leaveAttempts + 1 < 3 →
        t = { collided with sched := { collided.sched with
          leaveAttempts := s.sched.leaveAttempts + 1 } })
      ∧ (s.line.burst.any Frame.isLeave = true → 3 ≤ s.sched.leaveAttempts + 1 →
        t.ctl.station = (if s.ctl.settled then .joining else .offline)))
    ∧ (s.ctl.station ∈ [.joining, .deferred, .active] → 3 ≤ s.sched.collisionRun + 1 →
      exec c s = .next { collided with
        ctl := { s.ctl with
          station := .addressConflict, faultCode := .conflictByCollision, isolationA := 0
          isolationB := 0, heardMeRound := false, acceptedRound := false }
        share := { applied := 0, pending := none, limit := 0 }
        drive :=
          if 0 < s.share.limit then { s.drive with duty := 0, buffer := 0, level := false }
          else s.drive
        table := { s.table with
          entries := removeEntry s.ownAddr s.table.entries, confirm := [] }
        meas := { s.meas with scan := .idle, overdraw := ⟨false, none⟩ }
        rotation := { collided.rotation with silence := none } })

/-- Every end of frame of an attempt gives one verdict (R22, R35): exactly one of the frames-accepted
counter and the nine discard counters takes an increment. -/
def Obligations.EveryFrameReportCountsOneVerdict : Prop :=
  ∀ (s : State) (bits : List Bool),
    s.ctl.station.configured = true → s.line.receiver.attempting = true →
    ∃ t, exec (.frameReport bits) s = .next t ∧ t.line.receiver = .idle
      ∧ ∃ c ∈ verdictCounters, t.stats.get c = saturatingSucc (s.stats.get c)
        ∧ ∀ d ∈ verdictCounters, d ≠ c → t.stats.get d = s.stats.get d

/-- The first failing check is the verdict (R22 to R32), check by check, for a report whose body and
length are as the Line Controller forms them. The FORMAT check is the table of ranges of R28. -/
def Obligations.FirstFailingAcceptanceCheckIsTheVerdict : Prop :=
  ∀ (s : State) (r : FrameReport),
    (r.status ≠ .good → s.judge r = .discarded .code)
    ∧ (r.status = .good → kindOf r.body ∉ [1, 2, 3, 4] → s.judge r = .discarded .kind)
    ∧ ∀ (n : Nat) (f : Frame), r.status = .good →
      (kindOf r.body, n) ∈ [(1, 25), (2, 10), (3, 5), (4, 6)] → parseFrame r.body = some f →
      let terms := fun (t : Terms) => (1 ≤ t.weight ∧ t.weight ≤ 15)
        ∧ (t.role = .monitor → f.sender ≤ 3) ∧ (1 ≤ t.ceiling ∧ t.ceiling ≤ s.cfg.budget)
        ∧ t.floor ≤ t.ceiling
      let inRange := f.sender < s.cfg.nSlots
        ∧ (∀ a t d, f = .join a t d → terms t)
        ∧ (∀ a v t basis d mask, f = .claim a v t basis d mask → terms t
          ∧ v.demand ≤ t.ceiling ∧ v.held ≤ t.ceiling ∧ (v.held ≤ v.pending ∧ v.pending ≤ t.ceiling)
          ∧ v.draw ≤ 4095 ∧ (∀ n < 32, s.cfg.nSlots ≤ n → mask.getLsbD n = false)
          ∧ mask.getLsbD a = false)
      (r.length ≠ some n → s.judge r = .discarded .length)
      ∧ (r.length = some n → r.crcValid = false → s.judge r = .discarded .crc)
      ∧ (r.length = some n → r.crcValid = true →
        (f.digest ≠ s.ownDigest → s.judge r = .discarded .group)
        ∧ (f.digest = s.ownDigest → ¬ inRange → s.judge r = .discarded .format)
        ∧ (f.digest = s.ownDigest → inRange →
          (f.sender = s.ownAddr → s.judge r = .discarded .self)
          ∧ (f.sender ≠ s.ownAddr → f.kind = 4 → 4 ≤ f.sender → s.judge r = .discarded .role)
          ∧ (f.sender ≠ s.ownAddr → ¬ (f.kind = 4 ∧ 4 ≤ f.sender) →
            let barred := s.ctl.station.working = false ∨ s.ctl.station = .isolated
              ∨ (f.kind = 1 ∧ s.ctl.station ≠ .listen
                ∧ ∃ e, findEntry f.sender s.table.entries = some e
                  ∧ (e.state = .candidate ∨ e.state = .deferred))
            (barred → s.judge r = .discarded .state) ∧ (¬ barred → s.judge r = .accepted f))))

/-- What a frame does to the rotation (R6, R15, R16), by the report's CRC status and its sender: sync
acquisition, no resync, forward resync, or a lost boundary. -/
def Obligations.ResyncFollowsTheSender : Prop :=
  ∀ (s : State) (bits : List Bool),
    s.ctl.station.configured = true → s.line.receiver.attempting = true →
    let r := lineReport s.line.receiver bits
    let a := senderOf r.body
    ∃ t, exec (.frameReport bits) s = .next t
      ∧ (r.crcValid = false ∨ s.cfg.nSlots ≤ a →
        t.rotation.synced = s.rotation.synced ∧ t.rotation.rot = s.rotation.rot
        ∧ t.rotation.roundCount = s.rotation.roundCount)
      ∧ (r.crcValid = true → a < s.cfg.nSlots → t.rotation.synced = true ∧ t.rotation.rot = a)
      ∧ (r.crcValid = true → a < s.cfg.nSlots →
        s.rotation.slot ≠ .stopped ∨ s.rotation.synced = false → t.rotation.slot = .releaseGap)
      ∧ (r.crcValid = true → a < s.cfg.nSlots → s.rotation.synced = false →
        t.rotation.roundCount = s.rotation.roundCount ∧ t.rotation.silence = none
        ∧ t.ctl.observed = 0)
      ∧ (r.crcValid = true → a < s.cfg.nSlots → s.rotation.synced = true → s.rotation.rot ≤ a →
        t.rotation.roundCount = s.rotation.roundCount
        ∧ t.stats.get .rounds = s.stats.get .rounds
        ∧ t.stats.get .lostRounds = s.stats.get .lostRounds)
      ∧ (r.crcValid = true → a < s.cfg.nSlots → s.rotation.synced = true → a < s.rotation.rot →
        t.rotation.roundCount = s.rotation.roundCount + 1
        ∧ t.stats.get .rounds = saturatingSucc (s.stats.get .rounds)
        ∧ t.stats.get .lostRounds = saturatingSucc (s.stats.get .lostRounds))

/-- A report whose code status is not good (R23): whatever the kind of defect, it is one discard of
reason CODE, counted and recorded with sender and kind absent; it resyncs nobody, and nothing else
changes but the receiver and the slot. A discard of any other reason, in the state u in which the frame is
judged, the rotation already moved by it, is counted under its reason and recorded with the round as u has
it: the sender absent for KIND and LENGTH and else as decoded, the kind as decoded (R35 to R37); a GROUP
discard also sets the group-evidence flag (R27, R102); and nothing else changes: the tables, the shares
and the heard mask stand (R32, R34). What a SELF discard does beside is OwnAddressOnTheLineIsAConflict. -/
def Obligations.CodeDefectIsOnlyCountedAndRecorded : Prop :=
  ∀ (s : State) (bits : List Bool) (reason : Reason) (c : Counter),
    s.ctl.station.configured = true → s.line.receiver.attempting = true →
    let report := lineReport s.line.receiver bits
    let first := (report.body.getD 0 0).toNat
    (report.status ≠ .good → ∃ h, exec (.frameReport bits) s = .next { s with
        line := { s.line with receiver := .idle }
        rotation := { s.rotation with
          slot := if s.rotation.slot = .stopped then .stopped else .releaseGap }
        stats := s.stats.bump .codeDiscards
        checker := { s.checker with history := h } }
      ∧ historyTakes s.checker.history h .code none none (s.rotation.roundCount.truncate 8))
    ∧ (s.Judges bits (.discarded reason) →
      (reason, c) ∈ [(Reason.code, Counter.codeDiscards), (.kind, .kindDiscards),
        (.length, .lengthDiscards), (.crc, .crcDiscards), (.group, .groupDiscards),
        (.format, .formatDiscards), (.self, .selfDiscards), (.role, .roleDiscards),
        (.state, .stateDiscards)] →
      let u := s.atJudgement bits
      ∃ t, exec (.frameReport bits) s = .next t
        ∧ historyTakes u.checker.history t.checker.history reason
          (if reason ∈ [.code, .kind, .length] then none else some (first % 32))
          (if reason = .code then none else some (first / 32)) (u.rotation.roundCount.truncate 8)
        ∧ t.stats = u.stats.bump c
        ∧ t.checker = { u.checker with history := t.checker.history }
        ∧ (reason ≠ .self → t = { u with
          checker := t.checker, stats := t.stats
          ctl := { u.ctl with groupEvidence := if reason = .group then true else u.ctl.groupEvidence } }))

/-- An accepted SHED (R33, R91, R92, R120, R122): entry m takes the order, or is emptied by rounds 0,
the limit is formed again from the cap with a cut where it falls to 0, and both counters rise; no
share, allocation or peer-table entry changes. The limit in ACTIVE is 0 while any entry of the table
holds ZERO, the smaller of the applied share and the floor while one is occupied and none holds ZERO,
and the applied share while all are empty; elsewhere it is 0. The notice sets the accepted flag (R102). The state u
is the one in which the frame is judged, the rotation already moved by it. -/
def Obligations.AcceptedShedWritesItsEntryAndTheLimit : Prop :=
  (∀ (st : Station) (applied floor : Nat) (table : Vector (Option ShedOrder) 4),
    let limit := limitOf st applied (shedCap table floor)
    let zero := ∃ m : Fin 4, ∃ o ∈ table[m], o.mode = .zero
    let occupied := ∃ m : Fin 4, table[m].isSome = true
    (st ≠ .active → limit = 0) ∧ (st = .active → zero → limit = 0)
    ∧ (st = .active → ¬ zero → occupied → limit = min applied floor)
    ∧ (st = .active → ¬ occupied → limit = applied))
  ∧ ∀ (s : State) (bits : List Bool) (m : Fin 4) (o : ShedOrder) (d : Word16),
    s.Judges bits (.accepted (.shed m.val o d)) →
    let u := s.atJudgement bits
    let table := u.shed.table.set m (if o.rounds = 0 then none else some o)
    let limit := limitOf u.ctl.station u.share.applied (shedCap table u.cfg.floor)
    exec (.frameReport bits) s = .next { u with
      shed := { u.shed with table := table }
      share := { u.share with limit := limit }
      drive :=
        if 0 < u.share.limit ∧ limit = 0 then { u.drive with duty := 0, buffer := 0, level := false }
        else u.drive
      ctl := u.noticed false
      stats := (u.stats.bump .framesAccepted).bump .shedsAccepted }

/-- An accepted LEAVE (R49): the entry for its sender is removed, in whatever state it stands, its floor
leaving the floor sum, with no orphan made; an orphan, the confirmation set and every other entry
stand, and without an entry the table stands whole. The state u is the one in which the frame is
judged, the rotation already moved by it. -/
def Obligations.AcceptedLeaveRemovesTheEntryOnly : Prop :=
  ∀ (s : State) (bits : List Bool) (a : Nat) (d : Word16),
    s.Judges bits (.accepted (.leave a d)) →
    let u := s.atJudgement bits
    ∃ t, exec (.frameReport bits) s = .next t
      ∧ findEntry a t.table.entries = none
      ∧ (∀ x, x ≠ a → findEntry x t.table.entries = findEntry x u.table.entries)
      ∧ (u.EntriesSafe → floorSum t.table.entries
          + (match findEntry a u.table.entries with
            | some e => if e.state = .active ∨ e.state = .silent then e.terms.floor else 0
            | none => 0) = floorSum u.table.entries)
      ∧ (findEntry a u.table.entries = none → t.table = u.table)
      ∧ t.table.orphans = u.table.orphans ∧ t.table.confirm = u.table.confirm
      ∧ t = { u with
          table := t.table, ctl := u.noticed false, stats := u.stats.bump .framesAccepted }

/-- An accepted JOIN (R34, R45): with no entry, or one in ACTIVE or SILENT, a new CANDIDATE, heard and
without values, and no orphan left for the address; otherwise the terms are rewritten and the entry
heard, its state and values standing. Other entries stand, and the sender joins the heard mask. The
notice sets the accepted flag (R102). The state u is the one in which the frame is judged. -/
def Obligations.AcceptedJoinMakesOrRewritesTheEntry : Prop :=
  ∀ (s : State) (bits : List Bool) (a : Nat) (terms : Terms) (d : Word16),
    s.Judges bits (.accepted (.join a terms d)) →
    let u := s.atJudgement bits
    let old := findEntry a u.table.entries
    let renewed := ∀ e, old = some e → e.state = .active ∨ e.state = .silent
    ∃ t, exec (.frameReport bits) s = .next t
      ∧ (renewed → findEntry a t.table.entries = some
          { addr := a, state := .candidate, terms := terms, values := none, basis := none
            heard := true, missed := 0, heardMe := false }
        ∧ t.table.orphans = u.table.orphans.filter (fun o => o.addr != a))
      ∧ (¬ renewed → findEntry a t.table.entries
          = old.map (fun e => { e with terms := terms, heard := true, missed := 0 })
        ∧ t.table.orphans = u.table.orphans)
      ∧ (∀ x, x ≠ a → findEntry x t.table.entries = findEntry x u.table.entries)
      ∧ t.table.confirm = u.table.confirm
      ∧ t = { u with
          table := t.table, ctl := u.noticed false, stats := u.stats.bump .framesAccepted
          checker := { u.checker with heardAcc := u.checker.heardAcc ||| (1 <<< a) } }

/-- An accepted CLAIM (R34, R46 to R48, R60): the sender's entry is written from its fields, ACTIVE or
OUTSIDE by the entry it had and the floor test, no orphan is left for the address, and its status in
the confirmation set says whether its digest is the snapshot's. Other entries stand. The notice sets
the accepted flag (R102). The state u is the one in which the frame is judged. -/
def Obligations.AcceptedClaimWritesTheEntryAndTheStatus : Prop :=
  ∀ (s : State) (bits : List Bool) (a : Nat) (v : Values) (terms : Terms) (basis d : Word16)
      (mask : Word32),
    s.Judges bits (.accepted (.claim a v terms basis d mask)) →
    let u := s.atJudgement bits
    let old := findEntry a u.table.entries
    let fits := floorSum (removeEntry a u.table.entries) + terms.floor ≤ u.cfg.budget
    let member := ∃ e, old = some e ∧ (e.state = .active ∨ e.state = .silent)
    let lowerFloor := ∃ e, old = some e ∧ (e.state = .active ∨ e.state = .silent)
      ∧ terms.floor ≤ e.terms.floor
    ∃ t st, exec (.frameReport bits) s = .next t
      ∧ findEntry a t.table.entries = some
          { addr := a, state := st, terms := terms, values := some v, basis := some basis
            heard := true, missed := 0, heardMe := mask.getLsbD u.ownAddr }
      ∧ (st = .active ∨ st = .outside)
      ∧ (st = .active ↔ lowerFloor ∨ ((member ∨ u.ctl.station = .listen) ∧ fits))
      ∧ (∀ x, x ≠ a → findEntry x t.table.entries = findEntry x u.table.entries)
      ∧ t.table.orphans = u.table.orphans.filter (fun o => o.addr != a)
      ∧ t.table.confirm = u.table.confirm.map (fun x =>
          if x.1 = a then (a, if u.snap.basis = some basis then .agrees else .mismatch) else x)
      ∧ t = { u with
          table := t.table, ctl := u.noticed (mask.getLsbD u.ownAddr)
          stats := u.stats.bump .framesAccepted
          checker := { u.checker with heardAcc := u.checker.heardAcc ||| (1 <<< a) } }

/-- A frame of the own address (R29, R111): counted as SELF, and in LISTEN, JOINING, DEFERRED and
ACTIVE the station enters ADDRESS_CONFLICT by frame, with the share values 0 and the drive cut, the own
entry removed, the confirmation set emptied and the converter stopped (R62, R87, R92, R147); in OFFLINE,
LEAVING and ISOLATED, and in the fault states, nothing else changes. The record it makes in the history is
CodeDefectIsOnlyCountedAndRecorded's. The state u is the one in which the frame is judged. -/
def Obligations.OwnAddressOnTheLineIsAConflict : Prop :=
  ∀ (s : State) (bits : List Bool), s.Judges bits (.discarded .self) →
    let u := s.atJudgement bits
    ∃ t, exec (.frameReport bits) s = .next t
      ∧ t.stats = u.stats.bump .selfDiscards
      ∧ (u.ctl.station ∈ [.listen, .joining, .deferred, .active] → t = { u with
        stats := t.stats, checker := t.checker
        ctl := { u.ctl with
          station := .addressConflict, faultCode := .conflictByFrame, isolationA := 0
          isolationB := 0, heardMeRound := false, acceptedRound := false }
        share := { applied := 0, pending := none, limit := 0 }
        drive :=
          if 0 < u.share.limit then { u.drive with duty := 0, buffer := 0, level := false }
          else u.drive
        table := { u.table with
          entries := removeEntry u.ownAddr u.table.entries, confirm := [] }
        meas := { u.meas with scan := .idle, overdraw := ⟨false, none⟩ }
        rotation := { u.rotation with silence := none } })
      ∧ (u.ctl.station ∉ [.listen, .joining, .deferred, .active] →
        t = { u with stats := t.stats, checker := t.checker })

/-! ## Slots and boundaries -/

/-- The end of a slot whose successor is not slot 0 (R7, R8): ROT advances by one and the window of the
next slot starts, and nothing else changes unless it is the own slot. There, in a transmitting state,
the burst is the pending SHED, if any, and the frame of the state, from the values that stand, and the
start delay begins; and in every state the heard-mask accumulator is emptied (R10, R34, R103, R113,
R114, R128). -/
def Obligations.SlotEndOpensTheNextSlot : Prop :=
  ∀ (s : State) (c : Instr), s.SlotEnds c → s.rotation.rot + 1 < s.cfg.nSlots →
    let next := { s with
      rotation := { s.rotation with rot := s.rotation.rot + 1, slot := .window } }
    let opened := { next with checker := { s.checker with heardAcc := 0 } }
    let terms : Terms := ⟨s.cfg.floor, s.cfg.ceiling, s.cfg.weight, s.ownRole⟩
    let sheds := (s.sched.item.map (fun o => Frame.shed s.ownAddr o s.ownDigest)).toList
    let begun := fun (f : Frame) => { opened with
      line := { s.line with phase := .startDelay, burst := sheds ++ [f] }
      sched := { s.sched with
        writtenSince := if s.sched.item.isSome then false else s.sched.writtenSince } }
    (s.rotation.rot + 1 ≠ s.ownAddr → exec c s = .next next)
    ∧ (s.rotation.rot + 1 = s.ownAddr →
      (s.ctl.station = .joining → exec c s = .next { begun (.join s.ownAddr terms s.ownDigest) with
        ctl := { s.ctl with joinComposed := true } })
      ∧ (s.ctl.station = .deferred → exec c s = .next (begun (.join s.ownAddr terms s.ownDigest)))
      ∧ (s.ctl.station = .active → exec c s = .next (begun (.claim s.ownAddr
          { demand := s.meas.reported, held := s.share.applied
            pending := s.share.pending.getD s.share.applied, draw := min s.meas.draw 4095
            stageFault := s.meas.stage.tripped }
          terms (s.snap.basis.getD 0) s.ownDigest s.checker.heardAcc)))
      ∧ (s.ctl.station = .leaving → exec c s = .next (begun (.leave s.ownAddr s.ownDigest)))
      ∧ (s.ctl.station ∉ [.joining, .deferred, .active, .leaving] → exec c s = .next opened))

/-- The end of the last slot (R9): the round count and the rounds counter rise by one, wrapping and
saturating, slot 0 opens, and a boundary of the kind ORDINARY leaves the lost-rounds counter, the
configuration, the loader, the port, the pins and the discard history as they stand. A station at
address 0 composes its burst from the state the boundary leaves (OpenedSlotZero: R9, R113). In
ADDRESS_CONFLICT and GROUP_MISMATCH nothing else changes at all, but for the accumulator at an own
slot 0 (R34, R50, R63, R121, R133). -/
def Obligations.RoundBoundaryReturnsToSlotZero : Prop :=
  ∀ (s : State) (c : Instr), s.SlotEnds c → s.rotation.rot + 1 = s.cfg.nSlots →
    (∃ t, exec c s = .next t ∧ t.rotation.rot = 0 ∧ t.rotation.slot = .window
      ∧ t.rotation.synced = true ∧ t.rotation.roundCount = s.rotation.roundCount + 1
      ∧ t.stats.get .rounds = saturatingSucc (s.stats.get .rounds)
      ∧ t.stats.get .lostRounds = s.stats.get .lostRounds
      ∧ t.checker.history = s.checker.history ∧ t.loader = s.loader ∧ t.cfg = s.cfg
      ∧ t.port = s.port ∧ t.pins = s.pins ∧ t.freeDraws = s.freeDraws ∧ t.pending = s.pending
      ∧ s.OpenedSlotZero t)
    ∧ (s.ctl.station = .addressConflict ∨ s.ctl.station = .groupMismatch →
      exec c s = .next { s with
        rotation := { s.rotation with
          rot := 0, slot := .window, roundCount := s.rotation.roundCount + 1 }
        stats := s.stats.bump .rounds
        checker := { s.checker with
          heardAcc := if s.ownAddr = 0 then 0 else s.checker.heardAcc } })

/-- The Share Regulator at an ORDINARY boundary in ACTIVE (R78 to R82, R90): with a the own allocation
of this boundary's snapshot capped at the ceiling, s rises to at most p and only if p was held, the own
CLAIM went out and every status is match; else it stays or falls to a. The snapshot is the Allocator's
(GroupTableAndAllocatorAtTheBoundary). -/
def Obligations.ShareRisesOnlyWhenConfirmed : Prop :=
  ∀ (s : State) (c : Instr) (e : Entry), s.SlotEnds c → s.rotation.rot + 1 = s.cfg.nSlots →
    s.ctl.station = .active → s.isolates = false →
    findEntry s.ownAddr s.table.entries = some e → e.state = .active →
    let confirmed := e.heard = true ∧ (∀ x ∈ s.table.confirm, x.2 = .agrees)
    ∃ t, exec c s = .next t ∧ t.ctl.station = .active
      ∧ (∀ p ∈ s.share.pending, confirmed →
        t.share.applied = min (min (t.snap.alloc.getD s.ownAddr 0) s.cfg.ceiling) p)
      ∧ (s.share.pending = none ∨ ¬ confirmed →
        t.share.applied
          = min (min (t.snap.alloc.getD s.ownAddr 0) s.cfg.ceiling) s.share.applied)
      ∧ t.share.pending
        = (if t.share.applied < min (t.snap.alloc.getD s.ownAddr 0) s.cfg.ceiling
          then some (min (t.snap.alloc.getD s.ownAddr 0) s.cfg.ceiling) else none)
      ∧ t.share.limit
        = (match shedCap t.shed.table s.cfg.floor with
          | some cap => min t.share.applied cap
          | none => t.share.applied)
      ∧ (s.share.pending.isSome = true → (∃ x ∈ s.table.confirm, x.2 = .mismatch) →
        t.stats.get .dissentRounds = saturatingSucc (s.stats.get .dissentRounds))
      ∧ (s.share.pending = none ∨ (∀ x ∈ s.table.confirm, x.2 ≠ .mismatch) →
        t.stats.get .dissentRounds = s.stats.get .dissentRounds)
      ∧ t.stats.get .confirmedIncreases
        = (if s.share.applied < t.share.applied then
            saturatingSucc (s.stats.get .confirmedIncreases)
          else s.stats.get .confirmedIncreases)

/-- The Group Table's stages and the Allocator at an ORDINARY boundary (R44, R50, R51, R53, R54, R56, R57,
R59, R63, R72): stage 1 ages every entry but the own one and a CANDIDATE, an unheard ACTIVE becomes
SILENT, an unheard SILENT, DEFERRED or OUTSIDE is removed at T_gone = T_isolate + 2, and a removed SILENT
or OUTSIDE is GONE; what follows is StagesLeave. A SILENT entry that was heard, which R51 says does not
occur, is left as it stands (the model's choice, log 21). -/
def Obligations.GroupTableAndAllocatorAtTheBoundary : Prop :=
  ∀ (s : State) (c : Instr), s.SlotEnds c → s.rotation.rot + 1 = s.cfg.nSlots →
    s.ctl.station.working = true → s.isolates = false →
    let age := fun (e : Entry) =>
      if e.addr = s.ownAddr ∨ e.state = .candidate then some e
      else if e.heard = true then some (if e.state = .silent then e else { e with missed := 0 })
      else if e.state = .active then some { e with state := .silent, missed := 1 }
      else if s.cfg.tIsolate + 2 ≤ e.missed + 1 then none
      else some { e with missed := e.missed + 1 }
    ∃ t, exec c s = .next t
      ∧ s.StagesLeave t (s.table.entries.filterMap age)
        (s.table.entries.filter (fun e => age e = none ∧ e.state ≠ .deferred))

/-- A frame from an address below ROT is judged after a boundary of the kind LOST (R16, R44, R52, R57, R63,
R83, R121): the round and both counters go up by one, no entry is aged and none is GONE, the other
stages and the Allocator follow as at an ORDINARY boundary, the shed table counts down and a shedding
monitor refreshes its order (ShedUnitLeaves: R121, R125), in ACTIVE the isolation counts are evaluated
(IsolationLeaves: R108, R109) and s does not rise, and a station that is not a member observes the
boundary, leaves ISOLATED or is admitted (StationMoves: R54, R101, R102, R104, R105, R110). The state u is the one in which the frame is judged; the verdict on it follows. -/
def Obligations.LostBoundaryAgesNothingAndRaisesNoShare : Prop :=
  ∀ (s : State) (bits : List Bool),
    s.ctl.station.working = true → s.line.receiver.attempting = true →
    let r := lineReport s.line.receiver bits
    let a := senderOf r.body
    r.crcValid = true → a < s.cfg.nSlots → s.rotation.synced = true → a < s.rotation.rot →
    let u := s.atJudgement bits
    let allocation := min (u.snap.alloc.getD s.ownAddr 0) s.cfg.ceiling
    exec (.frameReport bits) s = .next (u.settleVerdict (u.judge r) r.body)
    ∧ u.rotation.rot = a ∧ u.rotation.slot = .releaseGap
    ∧ u.rotation.roundCount = s.rotation.roundCount + 1
    ∧ u.stats.get .rounds = saturatingSucc (s.stats.get .rounds)
    ∧ u.stats.get .lostRounds = saturatingSucc (s.stats.get .lostRounds)
    ∧ u.stats.get .confirmedIncreases = s.stats.get .confirmedIncreases
    ∧ u.checker = s.checker ∧ u.line = { s.line with receiver := .idle }
    ∧ s.ShedUnitLeaves u ∧ s.StationMoves u
    ∧ (s.ctl.station = .active → s.IsolationLeaves u)
    ∧ (s.isolates = false → s.StagesLeave u s.table.entries [])
    ∧ (s.isolates = true → u.ctl.station = .isolated
      ∧ u.share = { applied := 0, pending := none, limit := 0 }
      ∧ u.table.entries = [] ∧ u.table.confirm = []
      ∧ u.snap = allocate s.cfg [] u.table.orphans)
    ∧ (s.isolates = false → s.ctl.station = .active → u.ctl.station = .active
      ∧ u.share.applied = min allocation s.share.applied
      ∧ u.share.pending = (if u.share.applied < allocation then some allocation else none)
      ∧ u.share.limit = limitOf .active u.share.applied (shedCap u.shed.table s.cfg.floor)
      ∧ u.stats.get .dissentRounds
        = (if s.share.pending.isSome = true ∧ ∃ x ∈ s.table.confirm, x.2 = .mismatch then
            saturatingSucc (s.stats.get .dissentRounds)
          else s.stats.get .dissentRounds))

/-- The isolation counts at an ORDINARY boundary in ACTIVE (R57, R58, R63, R108, R109, R118), as
IsolationLeaves spells out: the two counts, what they leave below T_isolate, and ISOLATED at T_isolate
with every reservation an orphan and nothing else made. At a LOST boundary it is the same
(LostBoundaryAgesNothingAndRaisesNoShare). -/
def Obligations.IsolationFollowsTheTwoCounts : Prop :=
  ∀ (s : State) (c : Instr), s.SlotEnds c → s.rotation.rot + 1 = s.cfg.nSlots →
    s.ctl.station = .active → ∃ t, exec c s = .next t ∧ s.IsolationLeaves t

/-- The Shed Unit at an ORDINARY boundary (R121, R125), as ShedUnitLeaves spells out: each occupied entry
loses a round and empties at 0, and a monitor in SHEDDING whose own entry then stands at 1 round or empty
writes its order into the item. At a LOST boundary it is the same
(LostBoundaryAgesNothingAndRaisesNoShare). -/
def Obligations.ShedOrdersCountDownAtTheBoundary : Prop :=
  ∀ (s : State) (c : Instr), s.SlotEnds c → s.rotation.rot + 1 = s.cfg.nSlots →
    s.ctl.station.working = true → ∃ t, exec c s = .next t ∧ s.ShedUnitLeaves t

/-- What an ORDINARY boundary does to a station that is not a member (R54, R85, R101, R102, R104, R105,
R110), as StationMoves spells out: OFFLINE and LISTEN observe it, LISTEN ends at the count of 2, ISOLATED
ends, and JOINING and DEFERRED go where the own entry goes. At a LOST boundary it is the same
(LostBoundaryAgesNothingAndRaisesNoShare). -/
def Obligations.StationMovesAtTheBoundary : Prop :=
  ∀ (s : State) (c : Instr), s.SlotEnds c → s.rotation.rot + 1 = s.cfg.nSlots →
    ∃ t, exec c s = .next t ∧ s.StationMoves t

/-! ## Allocation -/

/-- A computed allocation stays within its budget (R66, R67, R69): outside overcommitment the
allocations sum to at most B_eff, which is at most B; overcommitted, they are the pinned amounts
alone; and no normal entry gets more than the smaller of its demand and its ceiling. A SILENT or OUTSIDE
entry gets the larger of held and pending, capped at its ceiling, an ACTIVE one with STAGE_FAULT the
smaller of its draw and B, an orphan its reserve, and every other address that is not normal 0 (R64, R65,
R72). m counts the ACTIVE and SILENT entries, and B_eff is B or B × m divided by E (R66). OVERCOMMITTED is
set where the pinned amounts are more than B_eff (R67), and FLOOR_SHORTFALL where the remainder does not
reach every normal entry's smaller of demand and floor (R68). The basis digest is the CRC over the
encoding of R61: twelve bytes for each ACTIVE, SILENT or OUTSIDE entry, three for each orphan, and
B_eff. -/
def Obligations.AllocationsStayWithinTheBudget : Prop :=
  ∀ (c : Settings) (es : List Entry) (os : List Orphan),
    es.Pairwise (fun x y => x.addr < y.addr) → os.Pairwise (fun x y => x.addr < y.addr) →
    (∀ e ∈ es, e.addr < 32 ∧ e.terms.floor ≤ e.terms.ceiling) →
    (∀ o ∈ os, o.addr < 32 ∧ ∀ e ∈ es, e.addr ≠ o.addr) →
    let snap := allocate c es os
    let vals := fun (e : Entry) => e.values.getD ⟨0, 0, 0, 0, false⟩
    let normals := es.filter (fun e => e.state = .active ∧ (vals e).stageFault = false)
    let present := es.filter (fun e => e.state = .active ∨ e.state = .silent ∨ e.state = .outside)
    let m := (es.filter (fun e => e.state = .active ∨ e.state = .silent)).length
    let pins := (es.map (Entry.fixedAmount c.budget)).sum + (os.map (fun o => o.reserve)).sum
    let two := fun (n : Nat) => [BitVec.ofNat 8 (n / 256), BitVec.ofNat 8 n]
    let code := fun (e : Entry) => if e.state = .active then 1 else if e.state = .silent then 2 else 3
    snap.bEff ≤ c.budget
    ∧ (snap.overcommitted = false → snap.alloc.sum ≤ snap.bEff)
    ∧ (snap.overcommitted = true → snap.bEff < snap.alloc.sum ∧ snap.alloc.sum = pins)
    ∧ (∀ e ∈ es, e.state = .active → (vals e).stageFault = false →
      snap.alloc.getD e.addr 0 ≤ min (vals e).demand e.terms.ceiling)
    ∧ (∀ e ∈ es, ¬ (e.state = .active ∧ (vals e).stageFault = false) →
      snap.alloc.getD e.addr 0 = e.fixedAmount c.budget)
    ∧ (∀ o ∈ os, snap.alloc.getD o.addr 0 = o.reserve)
    ∧ (∀ a, (∀ e ∈ es, e.addr ≠ a) → (∀ o ∈ os, o.addr ≠ a) → snap.alloc.getD a 0 = 0)
    ∧ snap.alloc.length = 32 ∧ snap.members = m
    ∧ snap.bEff
      = (if c.expected = 1 ∨ c.expected ≤ m then c.budget else c.budget * m / c.expected)
    ∧ (snap.overcommitted = true ↔ snap.bEff < pins)
    ∧ (snap.floorShortfall = true ↔
      snap.bEff - pins < (normals.map (fun e => min (vals e).demand e.terms.floor)).sum)
    ∧ snap.basis = some (crc (
        present.flatMap (fun e => [BitVec.ofNat 8 e.addr, code e] ++ two (vals e).demand
          ++ two e.terms.floor ++ two e.terms.ceiling
          ++ [BitVec.ofNat 8 e.terms.weight, if (vals e).stageFault then 1 else 0]
          ++ two (e.fixedAmount c.budget))
        ++ os.flatMap (fun o => BitVec.ofNat 8 o.addr :: two o.reserve) ++ two snap.bEff))

/-- How the remainder is shared out (R68 to R71). The normal entries take their floor grants in ascending
address (floorGrant); then passes follow (extraPass), each against the wants and the remainder that the
last one left: where q = R ÷ W is at least 1 everyone unsatisfied gets the smaller of q × weight and its
want, and where q is 0 one unit, heaviest first and then the lower address, while the remainder lasts. A
pass that finds no remainder or nobody unsatisfied gives nothing, so n passes are the extra stage whenever
n is at least the remainder. The grants are the allocations. The extra is spent: where a normal entry is
left with less than the smaller of its demand and its ceiling and the group is not overcommitted, the
allocations sum to exactly B_eff. -/
def Obligations.UnmetWantLeavesNoRemainder : Prop :=
  ∀ (c : Settings) (es : List Entry) (os : List Orphan) (n : Nat),
    es.Pairwise (fun x y => x.addr < y.addr) → os.Pairwise (fun x y => x.addr < y.addr) →
    (∀ e ∈ es, e.addr < 32 ∧ e.terms.floor ≤ e.terms.ceiling) →
    (∀ o ∈ os, o.addr < 32 ∧ ∀ e ∈ es, e.addr ≠ o.addr) →
    let snap := allocate c es os
    let normals := es.filter (fun e => e.state = .active ∧ e.vals.stageFault = false)
    let pins := (es.map (Entry.fixedAmount c.budget)).sum + (os.map (fun o => o.reserve)).sum
    let floors := normals.foldl floorGrant (snap.bEff - pins, [])
    let shares := (extraPass^[n] floors).2
    (snap.bEff - pins ≤ n → shares.map Prod.fst = normals
      ∧ ∀ x ∈ shares, snap.alloc.getD x.1.addr 0 = x.2)
    ∧ ∀ e ∈ normals, snap.alloc.getD e.addr 0 < min e.vals.demand e.terms.ceiling →
      snap.overcommitted = false → snap.alloc.sum = snap.bEff

/-! ## The own burst and cold start -/

/-- A frame reported sent (R12, R43, R107, R115, R129, R131): counted, the consecutive collision count
0, the next frame waits in the gap; a JOIN marks the own entry heard, a CLAIM also writes its values
there, a SHED writes the own shed entry and consumes the item unless written since, and a LEAVE ends
LEAVING in OFFLINE, or at once in JOINING if EN is settled high, with the own entry made as a CANDIDATE
and the JOIN-composed flag clear (R42, R103). -/
def Obligations.FrameSentActsByKind : Prop :=
  ∀ (s : State) (f : Frame) (rest : List Frame), s.line.phase = .sending → s.line.burst = f :: rest →
    let sent := { s with
      line := { s.line with phase := if rest = [] then .quiet else .frameGap, burst := rest }
      rotation := { s.rotation with slot := .releaseGap }
      sched := { s.sched with collisionRun := 0 }
      stats := s.stats.bump .framesSent }
    (∀ a t d, f = .join a t d → exec .frameSent s = .next { sent with
      table := { s.table with entries := s.table.entries.map (fun e =>
        if e.addr = s.ownAddr then { e with heard := true } else e) } })
    ∧ (∀ a v t b d m, f = .claim a v t b d m → exec .frameSent s = .next { sent with
      table := { s.table with entries := s.table.entries.map (fun e =>
        if e.addr = s.ownAddr then { e with heard := true, values := some v, basis := some b }
        else e) } })
    ∧ (∀ a d, f = .leave a d → s.ctl.station = .leaving → s.ctl.settled = false →
      exec .frameSent s = .next { sent with
        ctl := { s.ctl with station := .offline }
        rotation := { s.rotation with slot := .releaseGap, silence := none } })
    ∧ (∀ a d, f = .leave a d → s.ctl.station = .leaving → s.ctl.settled = true →
      exec .frameSent s = .next { sent with
        ctl := { s.ctl with station := .joining, joinComposed := false }
        table := { s.table with
          entries := putEntry
            { addr := s.ownAddr, state := .candidate
              terms := ⟨s.cfg.floor, s.cfg.ceiling, s.cfg.weight, s.ownRole⟩
              values := none, basis := none, heard := false, missed := 0, heardMe := false }
            s.table.entries }
        rotation := { s.rotation with slot := .releaseGap, silence := none } })
    ∧ (∀ a o d (m : Fin 4), f = .shed a o d → m.val = s.ownAddr → s.ctl.station.working = true →
      let table := s.shed.table.set m (if o.rounds = 0 then none else some o)
      let limit := limitOf s.ctl.station s.share.applied (shedCap table s.cfg.floor)
      exec .frameSent s = .next { sent with
        shed := { s.shed with table := table }
        share := { s.share with limit := limit }
        drive :=
          if 0 < s.share.limit ∧ limit = 0 then
            { s.drive with duty := 0, buffer := 0, level := false }
          else s.drive
        sched := { s.sched with
          collisionRun := 0, item := if s.sched.writtenSince then s.sched.item else none }
        stats := (s.stats.bump .framesSent).bump .shedsSent })

/-- The silence timer reaches T_cold in an unsynced LISTEN (R18, R19, R101 to R103, R112): without
mismatch evidence a cold start with ROT 0, the round count unchanged, in JOINING with the own entry a
CANDIDATE, and a burst composed and waiting if the own address is 0 (R113); with it GROUP_MISMATCH, still unsynced. -/
def Obligations.SilenceEndsInAColdStartOrAMismatch : Prop :=
  ∀ s : State, s.ctl.station = .listen → s.rotation.synced = false →
    s.rotation.silence.isSome = true →
    let mismatch := s.ctl.groupEvidence = true ∧ s.ctl.acceptedSeen = false
    ∃ t, exec .silenceTimerExpiry s = .next t ∧ t.rotation.silence = none
      ∧ t.rotation.roundCount = s.rotation.roundCount
      ∧ (mismatch → t.ctl.station = .groupMismatch ∧ t.ctl.faultCode = .groupMismatch
        ∧ t.rotation.synced = false ∧ t.faultLine = true)
      ∧ (¬ mismatch → t.ctl.station = .joining ∧ t.ctl.observed = 2 ∧ t.rotation.synced = true
        ∧ t.rotation.rot = 0 ∧ t.rotation.slot = .window
        ∧ (findEntry s.ownAddr t.table.entries).map (fun e => e.state) = some .candidate
        ∧ s.OpenedSlotZero t
        ∧ t = { s with
            ctl := t.ctl, rotation := t.rotation, table := t.table, line := t.line
            sched := t.sched, checker := t.checker })

/-! ## Drive and measurement -/

/-- The waveform (R136, R137, R145, R147, R150, R151): at a period start the buffer becomes the duty,
DRIVE and the driven mark follow it, and the trigger with the mark of the period just ended starts a
scan on an idle converter, counts an overrun on a running one, and does neither in the two fault
states; at count duty DRIVE goes low, and the duty, the buffer and the driven mark stand. -/
def Obligations.DriveFollowsTheDutyOfEachPeriod : Prop :=
  ∀ s : State, s.drive.counter.isSome = true →
    let mark := decide (s.drive.driven = false ∧ s.drive.buffer = 0)
    let turned := { s with
      drive := {
        counter := some 0, duty := s.drive.buffer, buffer := s.drive.buffer
        level := decide (0 < s.drive.buffer), driven := decide (0 < s.drive.buffer) } }
    (s.ctl.station.working = true → s.meas.scan = .idle →
      exec .periodStart s
        = .next { turned with meas := { s.meas with scan := .running .isns mark } })
    ∧ (s.ctl.station.working = true → s.meas.scan ≠ .idle →
      exec .periodStart s = .next { turned with stats := s.stats.bump .triggerOverruns })
    ∧ (s.ctl.station.working = false → exec .periodStart s = .next turned)
    ∧ (0 < s.drive.duty → s.drive.duty < s.cfg.period → exec .dutyEnd s = .next { s with
      drive := { s.drive with counter := some s.drive.duty, level := false } })

/-- A scan completion forms its values (R138 to R140), the reported demand taking the raw demand where
it moved by demand_step or more, or is 0, or is the ceiling; it leaves every share, allocation, table,
configuration and line value as it stands, and the converter is IDLE again. -/
def Obligations.ScanCompletionFormsTheValues : Prop :=
  ∀ (s : State) (isns dem feed : BitVec 10) (input : ScanInput) (mark : Bool),
    s.ctl.station.working = true → s.meas.scan = .running input mark →
    let raw := dem.toNat * s.cfg.ceiling / 1023
    let moved := s.meas.reported + s.cfg.demandStep ≤ raw
      ∨ raw + s.cfg.demandStep ≤ s.meas.reported
    ∃ t, exec (.scanCompletion isns dem feed) s = .next t ∧ t.meas.scan = .idle
      ∧ t.meas.draw = isns.toNat * s.cfg.iScale / 1024 ∧ t.meas.rawDemand = raw
      ∧ (moved ∨ raw = 0 ∨ raw = s.cfg.ceiling → t.meas.reported = raw)
      ∧ (¬ (moved ∨ raw = 0 ∨ raw = s.cfg.ceiling) → t.meas.reported = s.meas.reported)
      ∧ (s.ownRole = .monitor → t.meas.feed = feed.toNat * s.cfg.fScale / 1024)
      ∧ (s.ownRole = .load → t.meas.feed = s.meas.feed ∧ t.meas.feedDet = s.meas.feedDet
        ∧ t.shed = s.shed ∧ t.sched = s.sched)
      ∧ t.shed.table = s.shed.table ∧ t.drive.counter = s.drive.counter
      ∧ t.drive.driven = s.drive.driven
      ∧ t = { s with
          meas := t.meas, drive := t.drive, shed := t.shed, sched := t.sched, stats := t.stats
          freeDraws := t.freeDraws }

/-- The detector mechanism (R141): a sample of the run's class lengthens it, one of another class
starts a run of 1, "none" empties it; a run that reaches persistence acts and is emptied, and nothing
else changes the detector. -/
def Obligations.DetectorsActOnWholeRuns : Prop :=
  ∀ (d : Detector) (persistence : Nat) (k : SampleClass),
    let n := (match d.run with
      | some r => if r.cls = k then r.length + 1 else 1
      | none => 1)
    d.judge persistence none = { d with run := none }
    ∧ (n < persistence → d.judge persistence (some k) = { d with run := some ⟨k, n⟩ })
    ∧ (persistence ≤ n →
      d.judge persistence (some k) = { tripped := decide (k = .excess), run := none })

/-- The three detectors on a completion (R142 to R145): OVERDRAW in ACTIVE by the draw against L plus
margin, FEED at a monitor by the feed against its bounds, STAGE by the drive-off mark and the draw
against margin. -/
def Obligations.EachDetectorJudgesItsSample : Prop :=
  ∀ (s : State) (isns dem feed : BitVec 10) (input : ScanInput) (mark : Bool),
    s.ctl.station.working = true → s.meas.scan = .running input mark →
    let n := s.cfg.persistence
    ∃ t, exec (.scanCompletion isns dem feed) s = .next t
      ∧ (s.ctl.station = .active → t.meas.overdraw = s.meas.overdraw.judge n
        (some (if s.share.limit + s.cfg.margin < t.meas.draw then .excess else .normal)))
      ∧ (s.ctl.station ≠ .active → t.meas.overdraw = s.meas.overdraw)
      ∧ (s.ownRole = .monitor → t.meas.feedDet = s.meas.feedDet.judge n
        (if s.cfg.feedLimit < t.meas.feed then some .excess
          else if t.meas.feed + s.cfg.hysteresis < s.cfg.feedLimit then some .normal else none))
      ∧ t.meas.stage = s.meas.stage.judge n
        (if mark = true then some (if s.cfg.margin < t.meas.draw then .excess else .normal)
          else none)

/-- An OVERDRAW trip (R142, R152): in ACTIVE, a run of over samples that reaches persistence, from
CLEAR or TRIPPED, counts one trip and leaves duty, buffer and DRIVE at 0 and low, with s, p and L as
they stand. -/
def Obligations.OverdrawTripCutsTheDrive : Prop :=
  ∀ (s : State) (isns dem feed : BitVec 10) (input : ScanInput) (mark : Bool),
    s.ctl.station = .active → s.meas.scan = .running input mark →
    s.share.limit + s.cfg.margin < isns.toNat * s.cfg.iScale / 1024 →
    (s.cfg.persistence ≤ 1 ∨ ∃ r ∈ s.meas.overdraw.run,
      r.cls = .excess ∧ s.cfg.persistence ≤ r.length + 1) →
    ∃ t, exec (.scanCompletion isns dem feed) s = .next t
      ∧ t.meas.overdraw = { tripped := true, run := none }
      ∧ t.stats = s.stats.bump .overdrawTrips
      ∧ t.drive = { s.drive with duty := 0, buffer := 0, level := false }
      ∧ t.share = s.share

/-- The Draw Limiter on a completion (R153, R154, R157, R158). L at 0, or STAGE_FAULT set after it, leaves
the buffer 0. At a completion without an OVERDRAW trip the duty and DRIVE stand, and the buffer goes by
the first case that applies, clamped to 0..P, where STAGE_FAULT stands clear; where the completion
clears it, the buffer is that or 0, as R157 lets either order be taken (log 5). -/
def Obligations.LimiterHoldsOrStepsByTheFirstCase : Prop :=
  ∀ (s : State) (isns dem feed : BitVec 10) (input : ScanInput) (mark : Bool),
    s.ctl.station.working = true → s.meas.scan = .running input mark →
    let excess := s.share.limit + s.cfg.margin < isns.toNat * s.cfg.iScale / 1024
    let trips := s.ctl.station = .active ∧ excess ∧ (s.cfg.persistence ≤ 1
      ∨ ∃ r ∈ s.meas.overdraw.run, r.cls = .excess ∧ s.cfg.persistence ≤ r.length + 1)
    ∃ t, exec (.scanCompletion isns dem feed) s = .next t
      ∧ (s.share.limit = 0 ∨ t.meas.stage.tripped = true → t.drive.buffer = 0)
      ∧ (¬ trips →
        t.drive.duty = s.drive.duty ∧ t.drive.level = s.drive.level
        ∧ (0 < s.share.limit → t.meas.stage.tripped = false →
          let stepped :=
            (if s.share.limit + s.cfg.margin < t.meas.draw then
              min (s.drive.buffer - s.cfg.stepDown) s.cfg.period
            else if min s.share.limit t.meas.reported < t.meas.draw then
              min (s.drive.buffer - s.cfg.stepUp) s.cfg.period
            else if t.meas.draw + s.cfg.margin < min s.share.limit t.meas.reported then
              min (s.drive.buffer + s.cfg.stepUp) s.cfg.period
            else s.drive.buffer)
          (s.meas.stage.tripped = false → t.drive.buffer = stepped)
          ∧ (s.meas.stage.tripped = true → t.drive.buffer = stepped ∨ t.drive.buffer = 0)))

/-- FEED trips and clears at the monitor (R124, R126, R144): a trip in CALM writes the order and makes
it SHEDDING; a clear in SHEDDING makes it CALM and writes a release, or empties the item, by
release_enable. -/
def Obligations.FeedTripsAndClearsWriteTheItem : Prop :=
  ∀ (s : State) (isns dem feed : BitVec 10) (input : ScanInput) (mark : Bool),
    s.ctl.station.working = true → s.ownRole = .monitor → s.meas.scan = .running input mark →
    ∃ t, exec (.scanCompletion isns dem feed) s = .next t
      ∧ (s.meas.feedDet.tripped = false → t.meas.feedDet.tripped = true →
        s.shed.monitor = .calm → t.shed.monitor = .shedding
        ∧ t.sched.item = some ⟨s.cfg.shedLen, s.cfg.shedMode⟩ ∧ t.sched.writtenSince = true)
      ∧ (s.meas.feedDet.tripped = true → t.meas.feedDet.tripped = false →
        s.shed.monitor = .shedding → t.shed.monitor = .calm
        ∧ t.sched.item = (if s.cfg.releaseEnable then some ⟨0, s.cfg.shedMode⟩ else none))
      ∧ (s.meas.feedDet.tripped = t.meas.feedDet.tripped →
        t.shed = s.shed ∧ t.sched = s.sched)

/-! ## The diagnostic port -/

/-- The fall and the rise of SCS_N (R170, R171, R173): the fall forms the status byte from the outcome,
capture valid and ATTN and begins in COMMAND, except in RESETTING; the rise ends the transaction, a
READ without its capture as REFUSED. -/
def Obligations.SelectLineBeginsAndEndsTransactions : Prop :=
  ∀ s : State,
    let code : Nat := (match s.port.outcome with | .none => 0 | .accepted => 1 | .refused => 2)
    let status := BitVec.ofNat 8 (code + s.port.captureValid.toNat * 4 + s.attn.toNat * 8)
    (s.pins.scsN = true → s.ctl.station ≠ .resetting → exec .scsNFall s = .next { s with
      pins := { s.pins with scsN := false }
      port := { s.port with
        phase := some .command, bitCount := 0, command := none, window := 0, offset := 0
        lowByte := false, position := 0, statusByte := status, sdo := some status } })
    ∧ (s.pins.scsN = true → s.ctl.station = .resetting →
      exec .scsNFall s = .next { s with pins := { s.pins with scsN := false } })
    ∧ (s.pins.scsN = false →
      let unread := s.port.phase = some .window ∨ s.port.phase = some .offset
      exec .scsNRise s = .next { s with
        pins := { s.pins with scsN := true }
        port := { s.port with
          phase := none, bitCount := 0, lowByte := false, sdo := none
          outcome := if unread then .refused else s.port.outcome
          captureValid := if unread then false else s.port.captureValid } })

/-- One SCK period of a transaction answered, with no command waiting (R170, R172, R173; that it is what a
step does then is the model's choice, logs 1 and 15): SDO shows the byte being sent, most significant bit
first, and the bit count goes up by one. After the eighth bit of a byte, DATA sends the capture's next
byte, 0x00 at or past the window's size, IGNORE sends 0x00, and OFFSET awaits its low byte; the eighth
bit of a command byte, a window code and the low byte waits for its command. The bits sampled on SDI spell
that command, most significant bit first; CommandByteActsAtItsEighthBit has the codes. -/
def Obligations.SerialClockMovesOneBit : Prop :=
  ∀ (s : State) (b b2 : Byte), s.pending = [] →
    let p := s.port
    let size := [16, 512, 128, 70, 8, 48, 80, 36].getD p.window 0
    let sent := fun (q : Port) (x : Byte) => { s with port := { q with bitCount := 0, sdo := some x } }
    s.sdoLevel = p.sdo.map (fun x => x.getLsbD (7 - p.bitCount))
    ∧ (p.phase ≠ none → p.bitCount < 7 →
      step s = .next { s with port := { p with bitCount := p.bitCount + 1 } })
    ∧ (p.phase = some .data → p.bitCount = 7 →
      step s = .next (sent { p with position := p.position + 1 }
        (if p.position + 1 < size then p.capture.getD (p.position + 1) 0 else 0)))
    ∧ (p.phase = some .ignore → p.bitCount = 7 → step s = .next (sent p 0))
    ∧ (p.phase = some .offset → p.bitCount = 7 →
      step s = .next (if p.lowByte then s else sent { p with lowByte := true } 0))
    ∧ (p.phase = some .command ∨ p.phase = some .window → p.bitCount = 7 → step s = .next s)
    ∧ sdiCommand .command (bitsOfByte b) = some (commandOfByte b)
    ∧ sdiCommand .window (bitsOfByte b) = some (.readWindowCode b)
    ∧ sdiCommand .offset (bitsOfByte b ++ bitsOfByte b2)
      = some (.readCapture (BitVec.ofNat 16 (b.toNat * 256 + b2.toNat)))

/-- The command byte (R172, R173, R178): SNAPSHOT copies the live counters into the bank, SNAPSHOT_CLEAR
also clears them and the attention set, HISTORY_CLEAR empties the history, each ACCEPTED with capture
valid clear; READ waits in WINDOW with both fields standing; any byte that is no command is REFUSED
and acts on nothing. Nothing else changes. The byte decides by the codes of R185. -/
def Obligations.CommandByteActsAtItsEighthBit : Prop :=
  ∀ (s : State) (b : Byte), s.port.phase = some .command →
    let done := fun (k : PortCommand) => { s.port with
      phase := some .ignore, bitCount := 0, command := some k, outcome := .accepted
      captureValid := false, sdo := some 0 }
    commandOfByte b = (if b.toNat = 1 then .read else if b.toNat = 2 then .snapshot
      else if b.toNat = 3 then .snapshotClear else if b.toNat = 4 then .historyClear
      else .refusedCommand b)
    ∧ exec .snapshot s
      = .next { s with port := done .snapshot, stats := { s.stats with bank := s.stats.live } }
    ∧ exec .snapshotClear s = .next { s with
      port := done .snapshotClear
      stats := { live := Vector.replicate 20 0, bank := s.stats.live, attention := [] } }
    ∧ exec .historyClear s = .next { s with
      port := done .historyClear, checker := { s.checker with history := [] } }
    ∧ exec .read s = .next { s with
      port := { s.port with
        phase := some .window, bitCount := 0, command := some .read, sdo := some 0 } }
    ∧ (b.toNat = 0 ∨ 4 < b.toNat → exec (.refusedCommand b) s = .next { s with
      port := { s.port with
        phase := some .ignore, bitCount := 0, command := none, outcome := .refused
        captureValid := false, sdo := some 0 } })

/-- HISTORY_CLEAR (R179): the history is empty, no counter, bank or attention number changes, and ATTN
falls if the attention set is empty. -/
def Obligations.HistoryClearLowersAttn : Prop :=
  ∀ s : State, s.port.phase = some .command →
    ∃ t, exec .historyClear s = .next t ∧ t.checker.history = [] ∧ t.stats = s.stats
      ∧ (s.stats.attention = [] → t.attn = false)
      ∧ (s.stats.attention ≠ [] → t.attn = true)

/-- The window code and the capture of a READ (R173, R174): a code of 0 to 7 is kept, any other refuses
the READ; the offset's last bit copies the whole window into the capture buffer at once, and the first
byte sent is byte number offset of the window, or 0x00 at or past its end. -/
def Obligations.ReadCapturesTheWindowAtOnce : Prop :=
  ∀ (s : State) (code : Byte) (offset : BitVec 16),
    (s.port.phase = some .window → code.toNat < 8 →
      exec (.readWindowCode code) s = .next { s with
        port := { s.port with
          phase := some .offset, bitCount := 0, window := code.toNat, lowByte := false
          sdo := some 0 } })
    ∧ (s.port.phase = some .window → 8 ≤ code.toNat →
      exec (.readWindowCode code) s = .next { s with
        port := { s.port with
          phase := some .ignore, bitCount := 0, outcome := .refused, captureValid := false
          sdo := some 0 } })
    ∧ (s.port.phase = some .offset → s.port.window < 8 →
      ∃ t, exec (.readCapture offset) s = .next t
        ∧ t.port.phase = some .data ∧ t.port.bitCount = 0 ∧ t.port.outcome = .accepted ∧ t.port.captureValid = true
        ∧ t.port.offset = offset.toNat ∧ t.port.position = offset.toNat
        ∧ t.port.capture.take (s.window s.port.window).length = s.window s.port.window
        ∧ t.port.sdo = some ((s.window s.port.window).getD offset.toNat 0)
        ∧ t = { s with port := t.port })

/-- The windows and the pins show the state. Every window has its size and, where the fields shown fit
their widths, the layout of R185 with the codes of R186; what is absent reads as 0. READY is high in
ACTIVE alone, FAULT as R117 says, and LDE while a frame is driven, when LTX carries the preamble, the start
mark and the body in Manchester code, most significant bit first (R1). -/
def Obligations.WindowsAndPinsShowTheState : Prop :=
  ∀ s : State,
    let b := fun (w : List Byte) (n : Nat) => (w.getD n 0).toNat
    let two := fun (w : List Byte) (n : Nat) => b w n * 256 + b w (n + 1)
    let high := fun (w : List Byte) (n : Nat) => b w n * 16 + b w (n + 1) / 16
    let low := fun (w : List Byte) (n : Nat) => b w (n + 1) % 16 * 256 + b w (n + 2)
    let stations : List Station := [.resetting, .config, .configFault, .offline, .listen, .joining,
      .deferred, .active, .leaving, .isolated, .addressConflict, .groupMismatch]
    let faults : List FaultCode := [.none, .noMemory, .badCrc, .badVersion, .badValue,
      .conflictByFrame, .conflictByCollision, .groupMismatch]
    let entryStates : List EntryState := [.candidate, .deferred, .active, .silent, .outside]
    let reasons : List Reason :=
      [.code, .kind, .length, .crc, .group, .format, .self, .role, .state]
    (s.statusWindow.length = 16 ∧ s.tableWindow.length = 512 ∧ s.orphansWindow.length = 128
      ∧ s.allocationWindow.length = 70 ∧ s.shedWindow.length = 8 ∧ s.historyWindow.length = 48
      ∧ s.countersWindow.length = 80 ∧ s.configWindow.length = 36)
    ∧ (s.ownAddr < 32 → s.rotation.rot < 32 → s.ctl.isolations < 256 → s.drive.duty < 8192 →
      s.share.applied < 4096 → (∀ p ∈ s.share.pending, p < 4096) → s.share.limit < 4096 →
      s.meas.reported < 4096 → s.meas.draw < 4096 →
      let w := s.statusWindow
      stations[b w 0 % 16]? = some s.ctl.station ∧ faults[b w 0 / 16 % 8]? = some s.ctl.faultCode
      ∧ b w 0 / 128 = (if s.ownRole = .monitor then 1 else 0)
      ∧ b w 1 = s.ownAddr + 32 * s.rotation.synced.toNat + 64 * s.ctl.settled.toNat
        + 128 * s.attn.toNat
      ∧ b w 2 = s.rotation.rot + 32 * s.drive.level.toNat ∧ b w 3 = s.ctl.isolations
      ∧ two w 4 = s.rotation.roundCount.toNat % 65536
      ∧ two w 6 = s.drive.duty + 8192 * s.meas.stage.tripped.toNat
        + 16384 * s.meas.overdraw.tripped.toNat + 32768 * s.meas.feedDet.tripped.toNat
      ∧ high w 8 = s.share.applied ∧ low w 8 = s.share.pending.getD s.share.applied
      ∧ high w 11 = s.share.limit ∧ low w 11 = s.meas.reported
      ∧ two w 14 = s.meas.draw + (if s.shed.monitor = .shedding then 4096 else 0)
        + 8192 * s.sched.item.isSome.toNat)
    ∧ (∀ a < 32,
      let w := s.tableWindow
      (findEntry a s.table.entries = none → ∀ i < 16, b w (16 * a + i) = 0)
      ∧ ∀ e, findEntry a s.table.entries = some e → e.terms.weight < 16 → e.terms.floor < 4096 →
        e.terms.ceiling < 4096 → e.missed < 256 →
        (∀ v ∈ e.values, v.demand < 65536 ∧ v.held < 65536 ∧ v.pending < 65536 ∧ v.draw < 65536) →
        b w (16 * a) / 8 = 16 + 8 * e.heard.toNat + 4 * e.heardMe.toNat
          + 2 * e.values.isSome.toNat + e.basis.isSome.toNat
        ∧ entryStates[b w (16 * a) % 8 - 1]? = some e.state ∧ 1 ≤ b w (16 * a) % 8
        ∧ b w (16 * a + 1) = e.terms.weight + (if e.terms.role = .monitor then 16 else 0)
          + (if e.values.any (fun v => v.stageFault) then 32 else 0)
        ∧ high w (16 * a + 2) = e.terms.floor ∧ low w (16 * a + 2) = e.terms.ceiling
        ∧ b w (16 * a + 5) = e.missed
        ∧ two w (16 * a + 6) = (e.values.map (fun v => v.demand)).getD 0
        ∧ two w (16 * a + 8) = (e.values.map (fun v => v.held)).getD 0
        ∧ two w (16 * a + 10) = (e.values.map (fun v => v.pending)).getD 0
        ∧ two w (16 * a + 12) = (e.values.map (fun v => v.draw)).getD 0
        ∧ two w (16 * a + 14) = (e.basis.getD 0).toNat)
    ∧ (∀ i < 32,
      let w := s.orphansWindow
      (s.table.orphans[i]? = none → ∀ j < 4, b w (4 * i + j) = 0)
      ∧ ∀ o, s.table.orphans[i]? = some o → o.addr < 32 → o.reserve < 4096 → o.remaining < 4096 →
        b w (4 * i) = 128 + o.addr ∧ high w (4 * i + 1) = o.reserve
        ∧ low w (4 * i + 1) = o.remaining)
    ∧ (let w := s.allocationWindow
      (∀ a < 32, s.snap.alloc.getD a 0 < 65536 → two w (2 * a) = s.snap.alloc.getD a 0)
      ∧ two w 64 = (s.snap.basis.getD 0).toNat
      ∧ b w 66 = 128 * s.snap.overcommitted.toNat + 64 * s.snap.floorShortfall.toNat
      ∧ (s.snap.members < 256 → b w 67 = s.snap.members)
      ∧ (s.snap.bEff < 65536 → two w 68 = s.snap.bEff))
    ∧ (∀ m : Fin 4,
      let w := s.shedWindow
      (s.shed.table[m] = none → b w (2 * m) = 0 ∧ b w (2 * m + 1) = 0)
      ∧ ∀ o, s.shed.table[m] = some o → o.rounds < 256 →
        b w (2 * m) = 128 + (if o.mode = .zero then 1 else 0) ∧ b w (2 * m + 1) = o.rounds)
    ∧ (∀ i < 8,
      let w := s.historyWindow
      (s.checker.history[i]? = none → ∀ j < 6, b w (6 * i + j) = 0)
      ∧ ∀ r, s.checker.history[i]? = some r → (∀ a ∈ r.sender, a < 256) → (∀ k ∈ r.kind, k < 256) →
        r.repeats < 256 →
        b w (6 * i) / 16 = 8 + 4 * r.sender.isSome.toNat + 2 * r.kind.isSome.toNat
        ∧ reasons[b w (6 * i) % 16 - 1]? = some r.reason ∧ 1 ≤ b w (6 * i) % 16
        ∧ b w (6 * i + 1) = r.sender.getD 0 ∧ b w (6 * i + 2) = r.kind.getD 0
        ∧ b w (6 * i + 3) = r.firstRound.toNat ∧ b w (6 * i + 4) = r.latestRound.toNat
        ∧ b w (6 * i + 5) = r.repeats)
    ∧ (∀ n : Fin 20, two s.countersWindow (4 * n) * 65536 + two s.countersWindow (4 * n + 2)
      = s.stats.bank[n].toNat)
    ∧ (s.loader.image = [] → s.configWindow = List.replicate 36 0)
    ∧ (s.loader.image.length = 36 → s.configWindow = s.loader.image)
    ∧ (s.ready = true ↔ s.ctl.station = .active)
    ∧ (s.faultLine = true ↔ s.ctl.station ∈ [.configFault, .addressConflict, .groupMismatch]
      ∨ (s.ctl.station ∉ [.resetting, .config] ∧ s.meas.stage.tripped = true))
    ∧ (s.lde = true ↔ s.line.phase = .sending)
    ∧ (s.line.phase ≠ .sending → s.ltx = none)
    ∧ (s.line.phase = .sending → s.ltx = s.line.burst.head?.map (fun f =>
      [true, false, true, false, true, false, true, false].map (fun x => (!x, x))
        ++ [(true, true), (false, false)]
        ++ f.body.flatMap (fun y =>
          [7, 6, 5, 4, 3, 2, 1, 0].map (fun n => (!y.getLsbD n, y.getLsbD n)))))

/-- One increment (R176, R177): the counter rises by one or stays at its maximum, no other counter and
no bank value changes, and its number joins the attention set exactly when it reaches 2^31. -/
def Obligations.CountersSaturateAndRaiseAttention : Prop :=
  ∀ (st : Stats) (c : Counter),
    ((st.bump c).get c).toNat = min ((st.get c).toNat + 1) 4294967295
    ∧ (∀ d, d ≠ c → (st.bump c).get d = st.get d) ∧ (st.bump c).bank = st.bank
    ∧ (∀ d, d ∈ (st.bump c).attention ↔
      d ∈ st.attention ∨ (d = c ∧ (st.get c).toNat = 2147483647))

/-! ## Encodings -/

/-- The CRC function is that of R181: from 0xFFFF each byte goes into the high half, and eight shifts
follow, each with 0x1021 where a 1 was shifted out; and it has the values R181 gives. Every frame whose
fields fit is read back from its own body bits (R4, R5, R182): the report is good, of the kind's length
and CRC-valid, and its fields are the frame's. And those body bits are what the receiver has from the
levels of the frame (R1 to R4): an activity of its levels, the first 2 preamble bits lost or not, then 2
bit times without a transition, is carrier, start mark and a report of the body's bits; a bit time without
a mid-bit transition inside the body is a coding violation, and the report has the bits before it. The
grid of bit times is the model's choice (log 22). -/
def Obligations.CheckSequencesAndFramesAreReadBack : Prop :=
  (crc [] = 0xFFFF ∧ crc [0x00] = 0xE1F0
    ∧ crc [0x31, 0x32, 0x33, 0x34, 0x35, 0x36, 0x37, 0x38, 0x39] = 0x29B1
    ∧ ∀ (bytes : List Byte) (b : Byte),
      let shift := fun (v : Word16) => (v <<< 1) ^^^ (if v.getLsbD 15 then 0x1021 else 0)
      crc (bytes ++ [b]) = shift^[8] (crc bytes ^^^ (b.zeroExtend 16 <<< 8)))
  ∧ (∀ f : Frame, f.Fits →
    let r := lineReport .decoding (bitsOfBytes f.body)
    r.status = .good ∧ r.crcValid = true ∧ r.body = f.body
      ∧ r.length = kindLength f.kind ∧ kindOf r.body = f.kind ∧ senderOf r.body = f.sender
      ∧ parseFrame r.body = some f)
  ∧ ∀ (f : Frame) (bits : List Bool) (level flat : Bool) (x y z : BitTime) (mid rest : List BitTime),
    let lead := x :: y :: (lineLevels []).drop 2
    let idle : List BitTime := [(level, level), (level, level)]
    ¬ (x.1 = x.2 ∧ y = x) →
    activityEvents (x :: y :: (lineLevels f.body).drop 2 ++ idle ++ rest)
      = some [.carrierBegins, .startMark, .frameReport (bitsOfBytes f.body)]
    ∧ (z ≠ (flat, flat) → bits ≠ [] ∨ flat = true →
      activityEvents (lead ++ bits.map (fun b => (!b, b)) ++ (flat, flat) :: z :: mid ++ idle ++ rest)
        = some [.carrierBegins, .startMark, .codingViolation, .frameReport bits])

/-! ## Invariants that every step keeps -/

/-- Shares: every step keeps ShareSafe (R76, R87, R90). -/
def Obligations.EveryStepKeepsTheShareSafe : Prop :=
  ∀ s t : State, s.ShareSafe → step s = .next t → t.ShareSafe

/-- Drive: every step keeps DriveSafe, the drive at 0 and low while L is 0 and while STAGE_FAULT is set
among it (R145, R149, R150, R154, R157, R158). -/
def Obligations.EveryStepKeepsTheDriveSafe : Prop :=
  ∀ s t : State, s.DriveSafe → step s = .next t → t.DriveSafe

/-- Group Table: every step keeps TableSafe, the floor sum within the budget among it (R39 to R42,
R54, R55). -/
def Obligations.EveryStepKeepsTheTableSafe : Prop :=
  ∀ s t : State, s.TableSafe → step s = .next t → t.TableSafe

/-- Rotation and Line Controller: every step keeps RotationSafe with LineSafe (R6, R10, R20, R113).
Station Controller: every step keeps StationSafe (R101, R107 to R109, R112). -/
def Obligations.EveryStepKeepsTheRotationAndTheStationSafe : Prop :=
  (∀ s t : State, s.RotationSafe → s.LineSafe → step s = .next t → t.RotationSafe ∧ t.LineSafe)
  ∧ ∀ s t : State, s.StationSafe → step s = .next t → t.StationSafe

/-- Shedding and measurement: every step keeps ShedSafe and MeasureSafe (R119, R123, R127, R135, R143,
R144, R147). -/
def Obligations.EveryStepKeepsSheddingAndMeasurementSafe : Prop :=
  ∀ s t : State, s.ShedSafe → s.MeasureSafe → step s = .next t → t.ShedSafe ∧ t.MeasureSafe

/-- Discard history, attention set, loader and port: every step keeps their bounds (R36, R37, R161,
R163, R170, R174, R177). -/
def Obligations.EveryStepKeepsHistoryLoaderAndPortSafe : Prop :=
  ∀ s t : State, s.HistorySafe → s.AttentionSafe → s.LoaderSafe → s.PortSafe → step s = .next t →
    t.HistorySafe ∧ t.AttentionSafe ∧ t.LoaderSafe ∧ t.PortSafe

/-- The state after reset has all of them. -/
def Obligations.ResetStateIsSafe : Prop := State.reset.Safe
end

