-- ==== Sys2Proof/Laws/State.lean ====
section
/-! SUPPORT. The updates of State, field by field: what each named update leaves in each field, true by
rfl, so that no proof unfolds a record update. A field with a formula of its own, not stated here,
has its lemma in Laws/Ops.lean. -/

namespace Sys2Proof.Machine

/-! ## count -/

@[simp] theorem State.count_pins (s : State) (c : Counter) : (s.count c).pins = s.pins := rfl
@[simp] theorem State.count_loader (s : State) (c : Counter) : (s.count c).loader = s.loader := rfl
@[simp] theorem State.count_cfg (s : State) (c : Counter) : (s.count c).cfg = s.cfg := rfl
@[simp] theorem State.count_line (s : State) (c : Counter) : (s.count c).line = s.line := rfl
@[simp] theorem State.count_rotation (s : State) (c : Counter) :
    (s.count c).rotation = s.rotation := rfl
@[simp] theorem State.count_checker (s : State) (c : Counter) :
    (s.count c).checker = s.checker := rfl
@[simp] theorem State.count_sched (s : State) (c : Counter) : (s.count c).sched = s.sched := rfl
@[simp] theorem State.count_table (s : State) (c : Counter) : (s.count c).table = s.table := rfl
@[simp] theorem State.count_snap (s : State) (c : Counter) : (s.count c).snap = s.snap := rfl
@[simp] theorem State.count_share (s : State) (c : Counter) : (s.count c).share = s.share := rfl
@[simp] theorem State.count_shed (s : State) (c : Counter) : (s.count c).shed = s.shed := rfl
@[simp] theorem State.count_meas (s : State) (c : Counter) : (s.count c).meas = s.meas := rfl
@[simp] theorem State.count_drive (s : State) (c : Counter) : (s.count c).drive = s.drive := rfl
@[simp] theorem State.count_ctl (s : State) (c : Counter) : (s.count c).ctl = s.ctl := rfl
@[simp] theorem State.count_port (s : State) (c : Counter) : (s.count c).port = s.port := rfl
@[simp] theorem State.count_stats (s : State) (c : Counter) :
    (s.count c).stats = s.stats.bump c := rfl
@[simp] theorem State.count_freeDraws (s : State) (c : Counter) :
    (s.count c).freeDraws = s.freeDraws := rfl
@[simp] theorem State.count_pending (s : State) (c : Counter) :
    (s.count c).pending = s.pending := rfl

/-! ## writeItem -/

@[simp] theorem State.writeItem_pins (s : State) (o : Option ShedOrder) :
    (s.writeItem o).pins = s.pins := rfl
@[simp] theorem State.writeItem_loader (s : State) (o : Option ShedOrder) :
    (s.writeItem o).loader = s.loader := rfl
@[simp] theorem State.writeItem_cfg (s : State) (o : Option ShedOrder) :
    (s.writeItem o).cfg = s.cfg := rfl
@[simp] theorem State.writeItem_line (s : State) (o : Option ShedOrder) :
    (s.writeItem o).line = s.line := rfl
@[simp] theorem State.writeItem_rotation (s : State) (o : Option ShedOrder) :
    (s.writeItem o).rotation = s.rotation := rfl
@[simp] theorem State.writeItem_checker (s : State) (o : Option ShedOrder) :
    (s.writeItem o).checker = s.checker := rfl
@[simp] theorem State.writeItem_sched (s : State) (o : Option ShedOrder) :
    (s.writeItem o).sched = { s.sched with item := o, writtenSince := true } := rfl
@[simp] theorem State.writeItem_table (s : State) (o : Option ShedOrder) :
    (s.writeItem o).table = s.table := rfl
@[simp] theorem State.writeItem_snap (s : State) (o : Option ShedOrder) :
    (s.writeItem o).snap = s.snap := rfl
@[simp] theorem State.writeItem_share (s : State) (o : Option ShedOrder) :
    (s.writeItem o).share = s.share := rfl
@[simp] theorem State.writeItem_shed (s : State) (o : Option ShedOrder) :
    (s.writeItem o).shed = s.shed := rfl
@[simp] theorem State.writeItem_meas (s : State) (o : Option ShedOrder) :
    (s.writeItem o).meas = s.meas := rfl
@[simp] theorem State.writeItem_drive (s : State) (o : Option ShedOrder) :
    (s.writeItem o).drive = s.drive := rfl
@[simp] theorem State.writeItem_ctl (s : State) (o : Option ShedOrder) :
    (s.writeItem o).ctl = s.ctl := rfl
@[simp] theorem State.writeItem_port (s : State) (o : Option ShedOrder) :
    (s.writeItem o).port = s.port := rfl
@[simp] theorem State.writeItem_stats (s : State) (o : Option ShedOrder) :
    (s.writeItem o).stats = s.stats := rfl
@[simp] theorem State.writeItem_freeDraws (s : State) (o : Option ShedOrder) :
    (s.writeItem o).freeDraws = s.freeDraws := rfl
@[simp] theorem State.writeItem_pending (s : State) (o : Option ShedOrder) :
    (s.writeItem o).pending = s.pending := rfl

/-! ## removeOwnEntry -/

@[simp] theorem State.removeOwnEntry_pins (s : State) : (s.removeOwnEntry).pins = s.pins := rfl
@[simp] theorem State.removeOwnEntry_loader (s : State) :
    (s.removeOwnEntry).loader = s.loader := rfl
@[simp] theorem State.removeOwnEntry_cfg (s : State) : (s.removeOwnEntry).cfg = s.cfg := rfl
@[simp] theorem State.removeOwnEntry_line (s : State) : (s.removeOwnEntry).line = s.line := rfl
@[simp] theorem State.removeOwnEntry_rotation (s : State) :
    (s.removeOwnEntry).rotation = s.rotation := rfl
@[simp] theorem State.removeOwnEntry_checker (s : State) :
    (s.removeOwnEntry).checker = s.checker := rfl
@[simp] theorem State.removeOwnEntry_sched (s : State) : (s.removeOwnEntry).sched = s.sched := rfl
@[simp] theorem State.removeOwnEntry_table (s : State) :
    (s.removeOwnEntry).table = { s.table with entries := removeEntry s.ownAddr s.table.entries } := rfl
@[simp] theorem State.removeOwnEntry_snap (s : State) : (s.removeOwnEntry).snap = s.snap := rfl
@[simp] theorem State.removeOwnEntry_share (s : State) : (s.removeOwnEntry).share = s.share := rfl
@[simp] theorem State.removeOwnEntry_shed (s : State) : (s.removeOwnEntry).shed = s.shed := rfl
@[simp] theorem State.removeOwnEntry_meas (s : State) : (s.removeOwnEntry).meas = s.meas := rfl
@[simp] theorem State.removeOwnEntry_drive (s : State) : (s.removeOwnEntry).drive = s.drive := rfl
@[simp] theorem State.removeOwnEntry_ctl (s : State) : (s.removeOwnEntry).ctl = s.ctl := rfl
@[simp] theorem State.removeOwnEntry_port (s : State) : (s.removeOwnEntry).port = s.port := rfl
@[simp] theorem State.removeOwnEntry_stats (s : State) : (s.removeOwnEntry).stats = s.stats := rfl
@[simp] theorem State.removeOwnEntry_freeDraws (s : State) :
    (s.removeOwnEntry).freeDraws = s.freeDraws := rfl
@[simp] theorem State.removeOwnEntry_pending (s : State) :
    (s.removeOwnEntry).pending = s.pending := rfl

/-! ## updateOwn -/

@[simp] theorem State.updateOwn_pins (s : State) (f : Entry → Entry) :
    (s.updateOwn f).pins = s.pins := rfl
@[simp] theorem State.updateOwn_loader (s : State) (f : Entry → Entry) :
    (s.updateOwn f).loader = s.loader := rfl
@[simp] theorem State.updateOwn_cfg (s : State) (f : Entry → Entry) :
    (s.updateOwn f).cfg = s.cfg := rfl
@[simp] theorem State.updateOwn_line (s : State) (f : Entry → Entry) :
    (s.updateOwn f).line = s.line := rfl
@[simp] theorem State.updateOwn_rotation (s : State) (f : Entry → Entry) :
    (s.updateOwn f).rotation = s.rotation := rfl
@[simp] theorem State.updateOwn_checker (s : State) (f : Entry → Entry) :
    (s.updateOwn f).checker = s.checker := rfl
@[simp] theorem State.updateOwn_sched (s : State) (f : Entry → Entry) :
    (s.updateOwn f).sched = s.sched := rfl
@[simp] theorem State.updateOwn_table (s : State) (f : Entry → Entry) :
    (s.updateOwn f).table = { s.table with entries := updateEntry s.ownAddr f s.table.entries } := rfl
@[simp] theorem State.updateOwn_snap (s : State) (f : Entry → Entry) :
    (s.updateOwn f).snap = s.snap := rfl
@[simp] theorem State.updateOwn_share (s : State) (f : Entry → Entry) :
    (s.updateOwn f).share = s.share := rfl
@[simp] theorem State.updateOwn_shed (s : State) (f : Entry → Entry) :
    (s.updateOwn f).shed = s.shed := rfl
@[simp] theorem State.updateOwn_meas (s : State) (f : Entry → Entry) :
    (s.updateOwn f).meas = s.meas := rfl
@[simp] theorem State.updateOwn_drive (s : State) (f : Entry → Entry) :
    (s.updateOwn f).drive = s.drive := rfl
@[simp] theorem State.updateOwn_ctl (s : State) (f : Entry → Entry) :
    (s.updateOwn f).ctl = s.ctl := rfl
@[simp] theorem State.updateOwn_port (s : State) (f : Entry → Entry) :
    (s.updateOwn f).port = s.port := rfl
@[simp] theorem State.updateOwn_stats (s : State) (f : Entry → Entry) :
    (s.updateOwn f).stats = s.stats := rfl
@[simp] theorem State.updateOwn_freeDraws (s : State) (f : Entry → Entry) :
    (s.updateOwn f).freeDraws = s.freeDraws := rfl
@[simp] theorem State.updateOwn_pending (s : State) (f : Entry → Entry) :
    (s.updateOwn f).pending = s.pending := rfl

/-! ## formLimit -/

@[simp] theorem State.formLimit_pins (s : State) : (s.formLimit).pins = s.pins := rfl
@[simp] theorem State.formLimit_loader (s : State) : (s.formLimit).loader = s.loader := rfl
@[simp] theorem State.formLimit_cfg (s : State) : (s.formLimit).cfg = s.cfg := rfl
@[simp] theorem State.formLimit_line (s : State) : (s.formLimit).line = s.line := rfl
@[simp] theorem State.formLimit_rotation (s : State) : (s.formLimit).rotation = s.rotation := rfl
@[simp] theorem State.formLimit_checker (s : State) : (s.formLimit).checker = s.checker := rfl
@[simp] theorem State.formLimit_sched (s : State) : (s.formLimit).sched = s.sched := rfl
@[simp] theorem State.formLimit_table (s : State) : (s.formLimit).table = s.table := rfl
@[simp] theorem State.formLimit_snap (s : State) : (s.formLimit).snap = s.snap := rfl
@[simp] theorem State.formLimit_share (s : State) :
    (s.formLimit).share = { s.share with limit := s.limitNow } := rfl
@[simp] theorem State.formLimit_shed (s : State) : (s.formLimit).shed = s.shed := rfl
@[simp] theorem State.formLimit_meas (s : State) : (s.formLimit).meas = s.meas := rfl
@[simp] theorem State.formLimit_drive (s : State) :
    (s.formLimit).drive = if 0 < s.share.limit ∧ s.limitNow = 0 then s.drive.cut else s.drive := rfl
@[simp] theorem State.formLimit_ctl (s : State) : (s.formLimit).ctl = s.ctl := rfl
@[simp] theorem State.formLimit_port (s : State) : (s.formLimit).port = s.port := rfl
@[simp] theorem State.formLimit_stats (s : State) : (s.formLimit).stats = s.stats := rfl
@[simp] theorem State.formLimit_freeDraws (s : State) : (s.formLimit).freeDraws = s.freeDraws := rfl
@[simp] theorem State.formLimit_pending (s : State) : (s.formLimit).pending = s.pending := rfl

/-! ## leaveMembership -/

@[simp] theorem State.leaveMembership_pins (s : State) (st : Station) :
    (s.leaveMembership st).pins = s.pins := rfl
@[simp] theorem State.leaveMembership_loader (s : State) (st : Station) :
    (s.leaveMembership st).loader = s.loader := rfl
@[simp] theorem State.leaveMembership_cfg (s : State) (st : Station) :
    (s.leaveMembership st).cfg = s.cfg := rfl
@[simp] theorem State.leaveMembership_line (s : State) (st : Station) :
    (s.leaveMembership st).line = s.line := rfl
@[simp] theorem State.leaveMembership_rotation (s : State) (st : Station) :
    (s.leaveMembership st).rotation = s.rotation := rfl
@[simp] theorem State.leaveMembership_checker (s : State) (st : Station) :
    (s.leaveMembership st).checker = s.checker := rfl
@[simp] theorem State.leaveMembership_sched (s : State) (st : Station) :
    (s.leaveMembership st).sched = s.sched := rfl
@[simp] theorem State.leaveMembership_table (s : State) (st : Station) :
    (s.leaveMembership st).table = s.table := rfl
@[simp] theorem State.leaveMembership_snap (s : State) (st : Station) :
    (s.leaveMembership st).snap = s.snap := rfl
@[simp] theorem State.leaveMembership_shed (s : State) (st : Station) :
    (s.leaveMembership st).shed = s.shed := rfl
@[simp] theorem State.leaveMembership_meas (s : State) (st : Station) :
    (s.leaveMembership st).meas = { s.meas with overdraw := .clear } := rfl
@[simp] theorem State.leaveMembership_ctl (s : State) (st : Station) :
    (s.leaveMembership st).ctl = { s.ctl with
        station := st, isolationA := 0, isolationB := 0, heardMeRound := false
        acceptedRound := false } := rfl
@[simp] theorem State.leaveMembership_port (s : State) (st : Station) :
    (s.leaveMembership st).port = s.port := rfl
@[simp] theorem State.leaveMembership_stats (s : State) (st : Station) :
    (s.leaveMembership st).stats = s.stats := rfl
@[simp] theorem State.leaveMembership_freeDraws (s : State) (st : Station) :
    (s.leaveMembership st).freeDraws = s.freeDraws := rfl
@[simp] theorem State.leaveMembership_pending (s : State) (st : Station) :
    (s.leaveMembership st).pending = s.pending := rfl

/-! ## writeShed -/

@[simp] theorem State.writeShed_pins (s : State) (m : Nat) (o : ShedOrder) :
    (s.writeShed m o).pins = s.pins := rfl
@[simp] theorem State.writeShed_loader (s : State) (m : Nat) (o : ShedOrder) :
    (s.writeShed m o).loader = s.loader := rfl
@[simp] theorem State.writeShed_cfg (s : State) (m : Nat) (o : ShedOrder) :
    (s.writeShed m o).cfg = s.cfg := rfl
@[simp] theorem State.writeShed_line (s : State) (m : Nat) (o : ShedOrder) :
    (s.writeShed m o).line = s.line := rfl
@[simp] theorem State.writeShed_rotation (s : State) (m : Nat) (o : ShedOrder) :
    (s.writeShed m o).rotation = s.rotation := rfl
@[simp] theorem State.writeShed_checker (s : State) (m : Nat) (o : ShedOrder) :
    (s.writeShed m o).checker = s.checker := rfl
@[simp] theorem State.writeShed_sched (s : State) (m : Nat) (o : ShedOrder) :
    (s.writeShed m o).sched = s.sched := rfl
@[simp] theorem State.writeShed_table (s : State) (m : Nat) (o : ShedOrder) :
    (s.writeShed m o).table = s.table := rfl
@[simp] theorem State.writeShed_snap (s : State) (m : Nat) (o : ShedOrder) :
    (s.writeShed m o).snap = s.snap := rfl
@[simp] theorem State.writeShed_shed (s : State) (m : Nat) (o : ShedOrder) :
    (s.writeShed m o).shed = { s.shed with table := s.shed.table.setIfInBounds m (shedEntryOf o) } := rfl
@[simp] theorem State.writeShed_meas (s : State) (m : Nat) (o : ShedOrder) :
    (s.writeShed m o).meas = s.meas := rfl
@[simp] theorem State.writeShed_ctl (s : State) (m : Nat) (o : ShedOrder) :
    (s.writeShed m o).ctl = s.ctl := rfl
@[simp] theorem State.writeShed_port (s : State) (m : Nat) (o : ShedOrder) :
    (s.writeShed m o).port = s.port := rfl
@[simp] theorem State.writeShed_stats (s : State) (m : Nat) (o : ShedOrder) :
    (s.writeShed m o).stats = s.stats := rfl
@[simp] theorem State.writeShed_freeDraws (s : State) (m : Nat) (o : ShedOrder) :
    (s.writeShed m o).freeDraws = s.freeDraws := rfl
@[simp] theorem State.writeShed_pending (s : State) (m : Nat) (o : ShedOrder) :
    (s.writeShed m o).pending = s.pending := rfl

/-! ## enterOffline -/

@[simp] theorem State.enterOffline_pins (s : State) : (s.enterOffline).pins = s.pins := rfl
@[simp] theorem State.enterOffline_loader (s : State) : (s.enterOffline).loader = s.loader := rfl
@[simp] theorem State.enterOffline_cfg (s : State) : (s.enterOffline).cfg = s.cfg := rfl
@[simp] theorem State.enterOffline_line (s : State) : (s.enterOffline).line = s.line := rfl
@[simp] theorem State.enterOffline_rotation (s : State) :
    (s.enterOffline).rotation = { s.rotation with silence := none } := rfl
@[simp] theorem State.enterOffline_checker (s : State) : (s.enterOffline).checker = s.checker := rfl
@[simp] theorem State.enterOffline_sched (s : State) : (s.enterOffline).sched = s.sched := rfl
@[simp] theorem State.enterOffline_table (s : State) : (s.enterOffline).table = s.table := rfl
@[simp] theorem State.enterOffline_snap (s : State) : (s.enterOffline).snap = s.snap := rfl
@[simp] theorem State.enterOffline_share (s : State) : (s.enterOffline).share = s.share := rfl
@[simp] theorem State.enterOffline_shed (s : State) : (s.enterOffline).shed = s.shed := rfl
@[simp] theorem State.enterOffline_meas (s : State) : (s.enterOffline).meas = s.meas := rfl
@[simp] theorem State.enterOffline_drive (s : State) : (s.enterOffline).drive = s.drive := rfl
@[simp] theorem State.enterOffline_ctl (s : State) :
    (s.enterOffline).ctl = { s.ctl with station := .offline } := rfl
@[simp] theorem State.enterOffline_port (s : State) : (s.enterOffline).port = s.port := rfl
@[simp] theorem State.enterOffline_stats (s : State) : (s.enterOffline).stats = s.stats := rfl
@[simp] theorem State.enterOffline_freeDraws (s : State) :
    (s.enterOffline).freeDraws = s.freeDraws := rfl
@[simp] theorem State.enterOffline_pending (s : State) : (s.enterOffline).pending = s.pending := rfl

/-! ## enterListen -/

@[simp] theorem State.enterListen_pins (s : State) : (s.enterListen).pins = s.pins := rfl
@[simp] theorem State.enterListen_loader (s : State) : (s.enterListen).loader = s.loader := rfl
@[simp] theorem State.enterListen_cfg (s : State) : (s.enterListen).cfg = s.cfg := rfl
@[simp] theorem State.enterListen_line (s : State) : (s.enterListen).line = s.line := rfl
@[simp] theorem State.enterListen_rotation (s : State) :
    (s.enterListen).rotation = { s.rotation with silence := if s.rotation.synced then none else some 0 } := rfl
@[simp] theorem State.enterListen_checker (s : State) : (s.enterListen).checker = s.checker := rfl
@[simp] theorem State.enterListen_sched (s : State) : (s.enterListen).sched = s.sched := rfl
@[simp] theorem State.enterListen_table (s : State) : (s.enterListen).table = s.table := rfl
@[simp] theorem State.enterListen_snap (s : State) : (s.enterListen).snap = s.snap := rfl
@[simp] theorem State.enterListen_share (s : State) : (s.enterListen).share = s.share := rfl
@[simp] theorem State.enterListen_shed (s : State) : (s.enterListen).shed = s.shed := rfl
@[simp] theorem State.enterListen_meas (s : State) : (s.enterListen).meas = s.meas := rfl
@[simp] theorem State.enterListen_drive (s : State) : (s.enterListen).drive = s.drive := rfl
@[simp] theorem State.enterListen_ctl (s : State) :
    (s.enterListen).ctl = { s.ctl with station := .listen, groupEvidence := false, acceptedSeen := false } := rfl
@[simp] theorem State.enterListen_port (s : State) : (s.enterListen).port = s.port := rfl
@[simp] theorem State.enterListen_stats (s : State) : (s.enterListen).stats = s.stats := rfl
@[simp] theorem State.enterListen_freeDraws (s : State) :
    (s.enterListen).freeDraws = s.freeDraws := rfl
@[simp] theorem State.enterListen_pending (s : State) : (s.enterListen).pending = s.pending := rfl

/-! ## enterJoining -/

@[simp] theorem State.enterJoining_pins (s : State) : (s.enterJoining).pins = s.pins := rfl
@[simp] theorem State.enterJoining_loader (s : State) : (s.enterJoining).loader = s.loader := rfl
@[simp] theorem State.enterJoining_cfg (s : State) : (s.enterJoining).cfg = s.cfg := rfl
@[simp] theorem State.enterJoining_line (s : State) : (s.enterJoining).line = s.line := rfl
@[simp] theorem State.enterJoining_rotation (s : State) :
    (s.enterJoining).rotation = { s.rotation with silence := none } := rfl
@[simp] theorem State.enterJoining_checker (s : State) : (s.enterJoining).checker = s.checker := rfl
@[simp] theorem State.enterJoining_sched (s : State) : (s.enterJoining).sched = s.sched := rfl
@[simp] theorem State.enterJoining_table (s : State) :
    (s.enterJoining).table = { s.table with
        entries := putEntry (ownCandidate s.ownAddr (s.cfg.terms s.ownRole)) s.table.entries } := rfl
@[simp] theorem State.enterJoining_snap (s : State) : (s.enterJoining).snap = s.snap := rfl
@[simp] theorem State.enterJoining_share (s : State) : (s.enterJoining).share = s.share := rfl
@[simp] theorem State.enterJoining_shed (s : State) : (s.enterJoining).shed = s.shed := rfl
@[simp] theorem State.enterJoining_meas (s : State) : (s.enterJoining).meas = s.meas := rfl
@[simp] theorem State.enterJoining_drive (s : State) : (s.enterJoining).drive = s.drive := rfl
@[simp] theorem State.enterJoining_ctl (s : State) :
    (s.enterJoining).ctl = { s.ctl with station := .joining, joinComposed := false } := rfl
@[simp] theorem State.enterJoining_port (s : State) : (s.enterJoining).port = s.port := rfl
@[simp] theorem State.enterJoining_stats (s : State) : (s.enterJoining).stats = s.stats := rfl
@[simp] theorem State.enterJoining_freeDraws (s : State) :
    (s.enterJoining).freeDraws = s.freeDraws := rfl
@[simp] theorem State.enterJoining_pending (s : State) : (s.enterJoining).pending = s.pending := rfl

/-! ## enterIsolated -/

@[simp] theorem State.enterIsolated_pins (s : State) : (s.enterIsolated).pins = s.pins := rfl
@[simp] theorem State.enterIsolated_loader (s : State) : (s.enterIsolated).loader = s.loader := rfl
@[simp] theorem State.enterIsolated_cfg (s : State) : (s.enterIsolated).cfg = s.cfg := rfl
@[simp] theorem State.enterIsolated_line (s : State) : (s.enterIsolated).line = s.line := rfl
@[simp] theorem State.enterIsolated_rotation (s : State) :
    (s.enterIsolated).rotation = s.rotation := rfl
@[simp] theorem State.enterIsolated_checker (s : State) :
    (s.enterIsolated).checker = s.checker := rfl
@[simp] theorem State.enterIsolated_sched (s : State) : (s.enterIsolated).sched = s.sched := rfl
@[simp] theorem State.enterIsolated_table (s : State) : (s.enterIsolated).table = s.table := rfl
@[simp] theorem State.enterIsolated_snap (s : State) : (s.enterIsolated).snap = s.snap := rfl
@[simp] theorem State.enterIsolated_shed (s : State) : (s.enterIsolated).shed = s.shed := rfl
@[simp] theorem State.enterIsolated_meas (s : State) :
    (s.enterIsolated).meas = { s.meas with overdraw := .clear } := rfl
@[simp] theorem State.enterIsolated_ctl (s : State) :
    (s.enterIsolated).ctl = { s.ctl with
        station := .isolated, isolationA := 0, isolationB := 0, heardMeRound := false
        acceptedRound := false, isolations := min (s.ctl.isolations + 1) 255
        joinComposed := false } := rfl
@[simp] theorem State.enterIsolated_port (s : State) : (s.enterIsolated).port = s.port := rfl
@[simp] theorem State.enterIsolated_stats (s : State) : (s.enterIsolated).stats = s.stats := rfl
@[simp] theorem State.enterIsolated_freeDraws (s : State) :
    (s.enterIsolated).freeDraws = s.freeDraws := rfl
@[simp] theorem State.enterIsolated_pending (s : State) :
    (s.enterIsolated).pending = s.pending := rfl

/-! ## enterLeaving -/

@[simp] theorem State.enterLeaving_pins (s : State) : (s.enterLeaving).pins = s.pins := rfl
@[simp] theorem State.enterLeaving_loader (s : State) : (s.enterLeaving).loader = s.loader := rfl
@[simp] theorem State.enterLeaving_cfg (s : State) : (s.enterLeaving).cfg = s.cfg := rfl
@[simp] theorem State.enterLeaving_line (s : State) : (s.enterLeaving).line = s.line := rfl
@[simp] theorem State.enterLeaving_rotation (s : State) :
    (s.enterLeaving).rotation = s.rotation := rfl
@[simp] theorem State.enterLeaving_checker (s : State) : (s.enterLeaving).checker = s.checker := rfl
@[simp] theorem State.enterLeaving_sched (s : State) :
    (s.enterLeaving).sched = { s.sched with leaveAttempts := 0 } := rfl
@[simp] theorem State.enterLeaving_table (s : State) :
    (s.enterLeaving).table = { s.table with entries := removeEntry s.ownAddr s.table.entries } := rfl
@[simp] theorem State.enterLeaving_snap (s : State) : (s.enterLeaving).snap = s.snap := rfl
@[simp] theorem State.enterLeaving_shed (s : State) : (s.enterLeaving).shed = s.shed := rfl
@[simp] theorem State.enterLeaving_meas (s : State) :
    (s.enterLeaving).meas = { s.meas with overdraw := .clear } := rfl
@[simp] theorem State.enterLeaving_port (s : State) : (s.enterLeaving).port = s.port := rfl
@[simp] theorem State.enterLeaving_stats (s : State) : (s.enterLeaving).stats = s.stats := rfl
@[simp] theorem State.enterLeaving_freeDraws (s : State) :
    (s.enterLeaving).freeDraws = s.freeDraws := rfl
@[simp] theorem State.enterLeaving_pending (s : State) : (s.enterLeaving).pending = s.pending := rfl

/-! ## enterFaultState -/

@[simp] theorem State.enterFaultState_pins (s : State) (st : Station) (code : FaultCode) :
    (s.enterFaultState st code).pins = s.pins := rfl
@[simp] theorem State.enterFaultState_loader (s : State) (st : Station) (code : FaultCode) :
    (s.enterFaultState st code).loader = s.loader := rfl
@[simp] theorem State.enterFaultState_cfg (s : State) (st : Station) (code : FaultCode) :
    (s.enterFaultState st code).cfg = s.cfg := rfl
@[simp] theorem State.enterFaultState_line (s : State) (st : Station) (code : FaultCode) :
    (s.enterFaultState st code).line = s.line := rfl
@[simp] theorem State.enterFaultState_rotation (s : State) (st : Station) (code : FaultCode) :
    (s.enterFaultState st code).rotation = { s.rotation with silence := none } := rfl
@[simp] theorem State.enterFaultState_checker (s : State) (st : Station) (code : FaultCode) :
    (s.enterFaultState st code).checker = s.checker := rfl
@[simp] theorem State.enterFaultState_sched (s : State) (st : Station) (code : FaultCode) :
    (s.enterFaultState st code).sched = s.sched := rfl
@[simp] theorem State.enterFaultState_table (s : State) (st : Station) (code : FaultCode) :
    (s.enterFaultState st code).table = { s.table with entries := removeEntry s.ownAddr s.table.entries, confirm := [] } := rfl
@[simp] theorem State.enterFaultState_snap (s : State) (st : Station) (code : FaultCode) :
    (s.enterFaultState st code).snap = s.snap := rfl
@[simp] theorem State.enterFaultState_shed (s : State) (st : Station) (code : FaultCode) :
    (s.enterFaultState st code).shed = s.shed := rfl
@[simp] theorem State.enterFaultState_meas (s : State) (st : Station) (code : FaultCode) :
    (s.enterFaultState st code).meas = { s.meas with overdraw := .clear, scan := .idle } := rfl
@[simp] theorem State.enterFaultState_port (s : State) (st : Station) (code : FaultCode) :
    (s.enterFaultState st code).port = s.port := rfl
@[simp] theorem State.enterFaultState_stats (s : State) (st : Station) (code : FaultCode) :
    (s.enterFaultState st code).stats = s.stats := rfl
@[simp] theorem State.enterFaultState_freeDraws (s : State) (st : Station) (code : FaultCode) :
    (s.enterFaultState st code).freeDraws = s.freeDraws := rfl
@[simp] theorem State.enterFaultState_pending (s : State) (st : Station) (code : FaultCode) :
    (s.enterFaultState st code).pending = s.pending := rfl

/-! ## tableIsolation -/

@[simp] theorem State.tableIsolation_pins (s : State) : (s.tableIsolation).pins = s.pins := rfl
@[simp] theorem State.tableIsolation_loader (s : State) :
    (s.tableIsolation).loader = s.loader := rfl
@[simp] theorem State.tableIsolation_cfg (s : State) : (s.tableIsolation).cfg = s.cfg := rfl
@[simp] theorem State.tableIsolation_line (s : State) : (s.tableIsolation).line = s.line := rfl
@[simp] theorem State.tableIsolation_rotation (s : State) :
    (s.tableIsolation).rotation = s.rotation := rfl
@[simp] theorem State.tableIsolation_checker (s : State) :
    (s.tableIsolation).checker = s.checker := rfl
@[simp] theorem State.tableIsolation_sched (s : State) : (s.tableIsolation).sched = s.sched := rfl
@[simp] theorem State.tableIsolation_table (s : State) :
    (s.tableIsolation).table = s.table.isolationMove s.cfg s.ownAddr := rfl
@[simp] theorem State.tableIsolation_snap (s : State) : (s.tableIsolation).snap = s.snap := rfl
@[simp] theorem State.tableIsolation_share (s : State) : (s.tableIsolation).share = s.share := rfl
@[simp] theorem State.tableIsolation_shed (s : State) : (s.tableIsolation).shed = s.shed := rfl
@[simp] theorem State.tableIsolation_meas (s : State) : (s.tableIsolation).meas = s.meas := rfl
@[simp] theorem State.tableIsolation_drive (s : State) : (s.tableIsolation).drive = s.drive := rfl
@[simp] theorem State.tableIsolation_ctl (s : State) : (s.tableIsolation).ctl = s.ctl := rfl
@[simp] theorem State.tableIsolation_port (s : State) : (s.tableIsolation).port = s.port := rfl
@[simp] theorem State.tableIsolation_stats (s : State) : (s.tableIsolation).stats = s.stats := rfl
@[simp] theorem State.tableIsolation_freeDraws (s : State) :
    (s.tableIsolation).freeDraws = s.freeDraws := rfl
@[simp] theorem State.tableIsolation_pending (s : State) :
    (s.tableIsolation).pending = s.pending := rfl

/-! ## allocateStage -/

@[simp] theorem State.allocateStage_pins (s : State) (silent : Bool) :
    (s.allocateStage silent).pins = s.pins := rfl
@[simp] theorem State.allocateStage_loader (s : State) (silent : Bool) :
    (s.allocateStage silent).loader = s.loader := rfl
@[simp] theorem State.allocateStage_cfg (s : State) (silent : Bool) :
    (s.allocateStage silent).cfg = s.cfg := rfl
@[simp] theorem State.allocateStage_line (s : State) (silent : Bool) :
    (s.allocateStage silent).line = s.line := rfl
@[simp] theorem State.allocateStage_rotation (s : State) (silent : Bool) :
    (s.allocateStage silent).rotation = s.rotation := rfl
@[simp] theorem State.allocateStage_checker (s : State) (silent : Bool) :
    (s.allocateStage silent).checker = s.checker := rfl
@[simp] theorem State.allocateStage_sched (s : State) (silent : Bool) :
    (s.allocateStage silent).sched = s.sched := rfl
@[simp] theorem State.allocateStage_table (s : State) (silent : Bool) :
    (s.allocateStage silent).table = s.table := rfl
@[simp] theorem State.allocateStage_snap (s : State) (silent : Bool) :
    (s.allocateStage silent).snap = allocate s.cfg (formed s.ownAddr silent s.table.entries) s.table.orphans := rfl
@[simp] theorem State.allocateStage_share (s : State) (silent : Bool) :
    (s.allocateStage silent).share = s.share := rfl
@[simp] theorem State.allocateStage_shed (s : State) (silent : Bool) :
    (s.allocateStage silent).shed = s.shed := rfl
@[simp] theorem State.allocateStage_meas (s : State) (silent : Bool) :
    (s.allocateStage silent).meas = s.meas := rfl
@[simp] theorem State.allocateStage_drive (s : State) (silent : Bool) :
    (s.allocateStage silent).drive = s.drive := rfl
@[simp] theorem State.allocateStage_ctl (s : State) (silent : Bool) :
    (s.allocateStage silent).ctl = s.ctl := rfl
@[simp] theorem State.allocateStage_port (s : State) (silent : Bool) :
    (s.allocateStage silent).port = s.port := rfl
@[simp] theorem State.allocateStage_stats (s : State) (silent : Bool) :
    (s.allocateStage silent).stats = s.stats := rfl
@[simp] theorem State.allocateStage_freeDraws (s : State) (silent : Bool) :
    (s.allocateStage silent).freeDraws = s.freeDraws := rfl
@[simp] theorem State.allocateStage_pending (s : State) (silent : Bool) :
    (s.allocateStage silent).pending = s.pending := rfl

/-! ## takeRot -/

@[simp] theorem State.takeRot_pins (s : State) (a : Nat) : (s.takeRot a).pins = s.pins := rfl
@[simp] theorem State.takeRot_loader (s : State) (a : Nat) : (s.takeRot a).loader = s.loader := rfl
@[simp] theorem State.takeRot_cfg (s : State) (a : Nat) : (s.takeRot a).cfg = s.cfg := rfl
@[simp] theorem State.takeRot_line (s : State) (a : Nat) : (s.takeRot a).line = s.line := rfl
@[simp] theorem State.takeRot_rotation (s : State) (a : Nat) :
    (s.takeRot a).rotation = { s.rotation with rot := a, slot := .releaseGap } := rfl
@[simp] theorem State.takeRot_checker (s : State) (a : Nat) :
    (s.takeRot a).checker = s.checker := rfl
@[simp] theorem State.takeRot_sched (s : State) (a : Nat) : (s.takeRot a).sched = s.sched := rfl
@[simp] theorem State.takeRot_table (s : State) (a : Nat) : (s.takeRot a).table = s.table := rfl
@[simp] theorem State.takeRot_snap (s : State) (a : Nat) : (s.takeRot a).snap = s.snap := rfl
@[simp] theorem State.takeRot_share (s : State) (a : Nat) : (s.takeRot a).share = s.share := rfl
@[simp] theorem State.takeRot_shed (s : State) (a : Nat) : (s.takeRot a).shed = s.shed := rfl
@[simp] theorem State.takeRot_meas (s : State) (a : Nat) : (s.takeRot a).meas = s.meas := rfl
@[simp] theorem State.takeRot_drive (s : State) (a : Nat) : (s.takeRot a).drive = s.drive := rfl
@[simp] theorem State.takeRot_ctl (s : State) (a : Nat) : (s.takeRot a).ctl = s.ctl := rfl
@[simp] theorem State.takeRot_port (s : State) (a : Nat) : (s.takeRot a).port = s.port := rfl
@[simp] theorem State.takeRot_stats (s : State) (a : Nat) : (s.takeRot a).stats = s.stats := rfl
@[simp] theorem State.takeRot_freeDraws (s : State) (a : Nat) :
    (s.takeRot a).freeDraws = s.freeDraws := rfl
@[simp] theorem State.takeRot_pending (s : State) (a : Nat) :
    (s.takeRot a).pending = s.pending := rfl

/-! ## acquireSync -/

@[simp] theorem State.acquireSync_pins (s : State) (a : Nat) :
    (s.acquireSync a).pins = s.pins := rfl
@[simp] theorem State.acquireSync_loader (s : State) (a : Nat) :
    (s.acquireSync a).loader = s.loader := rfl
@[simp] theorem State.acquireSync_cfg (s : State) (a : Nat) : (s.acquireSync a).cfg = s.cfg := rfl
@[simp] theorem State.acquireSync_line (s : State) (a : Nat) :
    (s.acquireSync a).line = s.line := rfl
@[simp] theorem State.acquireSync_rotation (s : State) (a : Nat) :
    (s.acquireSync a).rotation = { s.rotation with
        synced := true, silence := none, rot := a, slot := .releaseGap } := rfl
@[simp] theorem State.acquireSync_checker (s : State) (a : Nat) :
    (s.acquireSync a).checker = s.checker := rfl
@[simp] theorem State.acquireSync_sched (s : State) (a : Nat) :
    (s.acquireSync a).sched = s.sched := rfl
@[simp] theorem State.acquireSync_table (s : State) (a : Nat) :
    (s.acquireSync a).table = s.table := rfl
@[simp] theorem State.acquireSync_snap (s : State) (a : Nat) :
    (s.acquireSync a).snap = s.snap := rfl
@[simp] theorem State.acquireSync_share (s : State) (a : Nat) :
    (s.acquireSync a).share = s.share := rfl
@[simp] theorem State.acquireSync_shed (s : State) (a : Nat) :
    (s.acquireSync a).shed = s.shed := rfl
@[simp] theorem State.acquireSync_meas (s : State) (a : Nat) :
    (s.acquireSync a).meas = s.meas := rfl
@[simp] theorem State.acquireSync_drive (s : State) (a : Nat) :
    (s.acquireSync a).drive = s.drive := rfl
@[simp] theorem State.acquireSync_ctl (s : State) (a : Nat) :
    (s.acquireSync a).ctl = { s.ctl with observed := 0 } := rfl
@[simp] theorem State.acquireSync_port (s : State) (a : Nat) :
    (s.acquireSync a).port = s.port := rfl
@[simp] theorem State.acquireSync_stats (s : State) (a : Nat) :
    (s.acquireSync a).stats = s.stats := rfl
@[simp] theorem State.acquireSync_freeDraws (s : State) (a : Nat) :
    (s.acquireSync a).freeDraws = s.freeDraws := rfl
@[simp] theorem State.acquireSync_pending (s : State) (a : Nat) :
    (s.acquireSync a).pending = s.pending := rfl

/-! ## hear -/

@[simp] theorem State.hear_pins (s : State) (a : Nat) : (s.hear a).pins = s.pins := rfl
@[simp] theorem State.hear_loader (s : State) (a : Nat) : (s.hear a).loader = s.loader := rfl
@[simp] theorem State.hear_cfg (s : State) (a : Nat) : (s.hear a).cfg = s.cfg := rfl
@[simp] theorem State.hear_line (s : State) (a : Nat) : (s.hear a).line = s.line := rfl
@[simp] theorem State.hear_rotation (s : State) (a : Nat) : (s.hear a).rotation = s.rotation := rfl
@[simp] theorem State.hear_checker (s : State) (a : Nat) :
    (s.hear a).checker = { s.checker with heardAcc := s.checker.heardAcc ||| (1 <<< a) } := rfl
@[simp] theorem State.hear_sched (s : State) (a : Nat) : (s.hear a).sched = s.sched := rfl
@[simp] theorem State.hear_table (s : State) (a : Nat) : (s.hear a).table = s.table := rfl
@[simp] theorem State.hear_snap (s : State) (a : Nat) : (s.hear a).snap = s.snap := rfl
@[simp] theorem State.hear_share (s : State) (a : Nat) : (s.hear a).share = s.share := rfl
@[simp] theorem State.hear_shed (s : State) (a : Nat) : (s.hear a).shed = s.shed := rfl
@[simp] theorem State.hear_meas (s : State) (a : Nat) : (s.hear a).meas = s.meas := rfl
@[simp] theorem State.hear_drive (s : State) (a : Nat) : (s.hear a).drive = s.drive := rfl
@[simp] theorem State.hear_ctl (s : State) (a : Nat) : (s.hear a).ctl = s.ctl := rfl
@[simp] theorem State.hear_port (s : State) (a : Nat) : (s.hear a).port = s.port := rfl
@[simp] theorem State.hear_stats (s : State) (a : Nat) : (s.hear a).stats = s.stats := rfl
@[simp] theorem State.hear_freeDraws (s : State) (a : Nat) :
    (s.hear a).freeDraws = s.freeDraws := rfl
@[simp] theorem State.hear_pending (s : State) (a : Nat) : (s.hear a).pending = s.pending := rfl

/-! ## notice -/

@[simp] theorem State.notice_pins (s : State) (f : Frame) : (s.notice f).pins = s.pins := rfl
@[simp] theorem State.notice_loader (s : State) (f : Frame) : (s.notice f).loader = s.loader := rfl
@[simp] theorem State.notice_cfg (s : State) (f : Frame) : (s.notice f).cfg = s.cfg := rfl
@[simp] theorem State.notice_line (s : State) (f : Frame) : (s.notice f).line = s.line := rfl
@[simp] theorem State.notice_rotation (s : State) (f : Frame) :
    (s.notice f).rotation = s.rotation := rfl
@[simp] theorem State.notice_checker (s : State) (f : Frame) :
    (s.notice f).checker = s.checker := rfl
@[simp] theorem State.notice_sched (s : State) (f : Frame) : (s.notice f).sched = s.sched := rfl
@[simp] theorem State.notice_table (s : State) (f : Frame) : (s.notice f).table = s.table := rfl
@[simp] theorem State.notice_snap (s : State) (f : Frame) : (s.notice f).snap = s.snap := rfl
@[simp] theorem State.notice_share (s : State) (f : Frame) : (s.notice f).share = s.share := rfl
@[simp] theorem State.notice_shed (s : State) (f : Frame) : (s.notice f).shed = s.shed := rfl
@[simp] theorem State.notice_meas (s : State) (f : Frame) : (s.notice f).meas = s.meas := rfl
@[simp] theorem State.notice_drive (s : State) (f : Frame) : (s.notice f).drive = s.drive := rfl
@[simp] theorem State.notice_port (s : State) (f : Frame) : (s.notice f).port = s.port := rfl
@[simp] theorem State.notice_stats (s : State) (f : Frame) : (s.notice f).stats = s.stats := rfl
@[simp] theorem State.notice_freeDraws (s : State) (f : Frame) :
    (s.notice f).freeDraws = s.freeDraws := rfl
@[simp] theorem State.notice_pending (s : State) (f : Frame) :
    (s.notice f).pending = s.pending := rfl

/-! ## recordDiscard -/

@[simp] theorem State.recordDiscard_pins (s : State) (reason : Reason) (body : List Byte) :
    (s.recordDiscard reason body).pins = s.pins := rfl
@[simp] theorem State.recordDiscard_loader (s : State) (reason : Reason) (body : List Byte) :
    (s.recordDiscard reason body).loader = s.loader := rfl
@[simp] theorem State.recordDiscard_cfg (s : State) (reason : Reason) (body : List Byte) :
    (s.recordDiscard reason body).cfg = s.cfg := rfl
@[simp] theorem State.recordDiscard_line (s : State) (reason : Reason) (body : List Byte) :
    (s.recordDiscard reason body).line = s.line := rfl
@[simp] theorem State.recordDiscard_rotation (s : State) (reason : Reason) (body : List Byte) :
    (s.recordDiscard reason body).rotation = s.rotation := rfl
@[simp] theorem State.recordDiscard_sched (s : State) (reason : Reason) (body : List Byte) :
    (s.recordDiscard reason body).sched = s.sched := rfl
@[simp] theorem State.recordDiscard_table (s : State) (reason : Reason) (body : List Byte) :
    (s.recordDiscard reason body).table = s.table := rfl
@[simp] theorem State.recordDiscard_snap (s : State) (reason : Reason) (body : List Byte) :
    (s.recordDiscard reason body).snap = s.snap := rfl
@[simp] theorem State.recordDiscard_share (s : State) (reason : Reason) (body : List Byte) :
    (s.recordDiscard reason body).share = s.share := rfl
@[simp] theorem State.recordDiscard_shed (s : State) (reason : Reason) (body : List Byte) :
    (s.recordDiscard reason body).shed = s.shed := rfl
@[simp] theorem State.recordDiscard_meas (s : State) (reason : Reason) (body : List Byte) :
    (s.recordDiscard reason body).meas = s.meas := rfl
@[simp] theorem State.recordDiscard_drive (s : State) (reason : Reason) (body : List Byte) :
    (s.recordDiscard reason body).drive = s.drive := rfl
@[simp] theorem State.recordDiscard_ctl (s : State) (reason : Reason) (body : List Byte) :
    (s.recordDiscard reason body).ctl = s.ctl := rfl
@[simp] theorem State.recordDiscard_port (s : State) (reason : Reason) (body : List Byte) :
    (s.recordDiscard reason body).port = s.port := rfl
@[simp] theorem State.recordDiscard_stats (s : State) (reason : Reason) (body : List Byte) :
    (s.recordDiscard reason body).stats = s.stats.bump reason.counter := rfl
@[simp] theorem State.recordDiscard_freeDraws (s : State) (reason : Reason) (body : List Byte) :
    (s.recordDiscard reason body).freeDraws = s.freeDraws := rfl
@[simp] theorem State.recordDiscard_pending (s : State) (reason : Reason) (body : List Byte) :
    (s.recordDiscard reason body).pending = s.pending := rfl

/-! ## lineIdle -/

@[simp] theorem State.lineIdle_pins (s : State) : (s.lineIdle).pins = s.pins := rfl
@[simp] theorem State.lineIdle_loader (s : State) : (s.lineIdle).loader = s.loader := rfl
@[simp] theorem State.lineIdle_cfg (s : State) : (s.lineIdle).cfg = s.cfg := rfl
@[simp] theorem State.lineIdle_line (s : State) :
    (s.lineIdle).line = { s.line with receiver := .idle } := rfl
@[simp] theorem State.lineIdle_rotation (s : State) :
    (s.lineIdle).rotation = { s.rotation with
        slot := if s.rotation.slot = .stopped then .stopped else .releaseGap } := rfl
@[simp] theorem State.lineIdle_checker (s : State) : (s.lineIdle).checker = s.checker := rfl
@[simp] theorem State.lineIdle_sched (s : State) : (s.lineIdle).sched = s.sched := rfl
@[simp] theorem State.lineIdle_table (s : State) : (s.lineIdle).table = s.table := rfl
@[simp] theorem State.lineIdle_snap (s : State) : (s.lineIdle).snap = s.snap := rfl
@[simp] theorem State.lineIdle_share (s : State) : (s.lineIdle).share = s.share := rfl
@[simp] theorem State.lineIdle_shed (s : State) : (s.lineIdle).shed = s.shed := rfl
@[simp] theorem State.lineIdle_meas (s : State) : (s.lineIdle).meas = s.meas := rfl
@[simp] theorem State.lineIdle_drive (s : State) : (s.lineIdle).drive = s.drive := rfl
@[simp] theorem State.lineIdle_ctl (s : State) : (s.lineIdle).ctl = s.ctl := rfl
@[simp] theorem State.lineIdle_port (s : State) : (s.lineIdle).port = s.port := rfl
@[simp] theorem State.lineIdle_stats (s : State) : (s.lineIdle).stats = s.stats := rfl
@[simp] theorem State.lineIdle_freeDraws (s : State) : (s.lineIdle).freeDraws = s.freeDraws := rfl
@[simp] theorem State.lineIdle_pending (s : State) : (s.lineIdle).pending = s.pending := rfl

/-! ## carrier -/

@[simp] theorem State.carrier_pins (s : State) : (s.carrier).pins = s.pins := rfl
@[simp] theorem State.carrier_loader (s : State) : (s.carrier).loader = s.loader := rfl
@[simp] theorem State.carrier_cfg (s : State) : (s.carrier).cfg = s.cfg := rfl
@[simp] theorem State.carrier_line (s : State) :
    (s.carrier).line = { s.line with receiver := .hunting } := rfl
@[simp] theorem State.carrier_checker (s : State) : (s.carrier).checker = s.checker := rfl
@[simp] theorem State.carrier_sched (s : State) : (s.carrier).sched = s.sched := rfl
@[simp] theorem State.carrier_table (s : State) : (s.carrier).table = s.table := rfl
@[simp] theorem State.carrier_snap (s : State) : (s.carrier).snap = s.snap := rfl
@[simp] theorem State.carrier_share (s : State) : (s.carrier).share = s.share := rfl
@[simp] theorem State.carrier_shed (s : State) : (s.carrier).shed = s.shed := rfl
@[simp] theorem State.carrier_meas (s : State) : (s.carrier).meas = s.meas := rfl
@[simp] theorem State.carrier_drive (s : State) : (s.carrier).drive = s.drive := rfl
@[simp] theorem State.carrier_ctl (s : State) : (s.carrier).ctl = s.ctl := rfl
@[simp] theorem State.carrier_port (s : State) : (s.carrier).port = s.port := rfl
@[simp] theorem State.carrier_stats (s : State) : (s.carrier).stats = s.stats := rfl
@[simp] theorem State.carrier_freeDraws (s : State) : (s.carrier).freeDraws = s.freeDraws := rfl
@[simp] theorem State.carrier_pending (s : State) : (s.carrier).pending = s.pending := rfl

/-! ## beginFrame -/

@[simp] theorem State.beginFrame_pins (s : State) : (s.beginFrame).pins = s.pins := rfl
@[simp] theorem State.beginFrame_loader (s : State) : (s.beginFrame).loader = s.loader := rfl
@[simp] theorem State.beginFrame_cfg (s : State) : (s.beginFrame).cfg = s.cfg := rfl
@[simp] theorem State.beginFrame_line (s : State) :
    (s.beginFrame).line = { s.line with phase := .sending } := rfl
@[simp] theorem State.beginFrame_rotation (s : State) :
    (s.beginFrame).rotation = { s.rotation with slot := .activity } := rfl
@[simp] theorem State.beginFrame_checker (s : State) : (s.beginFrame).checker = s.checker := rfl
@[simp] theorem State.beginFrame_sched (s : State) : (s.beginFrame).sched = s.sched := rfl
@[simp] theorem State.beginFrame_table (s : State) : (s.beginFrame).table = s.table := rfl
@[simp] theorem State.beginFrame_snap (s : State) : (s.beginFrame).snap = s.snap := rfl
@[simp] theorem State.beginFrame_share (s : State) : (s.beginFrame).share = s.share := rfl
@[simp] theorem State.beginFrame_shed (s : State) : (s.beginFrame).shed = s.shed := rfl
@[simp] theorem State.beginFrame_meas (s : State) : (s.beginFrame).meas = s.meas := rfl
@[simp] theorem State.beginFrame_drive (s : State) : (s.beginFrame).drive = s.drive := rfl
@[simp] theorem State.beginFrame_ctl (s : State) : (s.beginFrame).ctl = s.ctl := rfl
@[simp] theorem State.beginFrame_port (s : State) : (s.beginFrame).port = s.port := rfl
@[simp] theorem State.beginFrame_stats (s : State) : (s.beginFrame).stats = s.stats := rfl
@[simp] theorem State.beginFrame_freeDraws (s : State) :
    (s.beginFrame).freeDraws = s.freeDraws := rfl
@[simp] theorem State.beginFrame_pending (s : State) : (s.beginFrame).pending = s.pending := rfl

/-! ## frameEnded -/

@[simp] theorem State.frameEnded_pins (s : State) (rest : List Frame) :
    (s.frameEnded rest).pins = s.pins := rfl
@[simp] theorem State.frameEnded_loader (s : State) (rest : List Frame) :
    (s.frameEnded rest).loader = s.loader := rfl
@[simp] theorem State.frameEnded_cfg (s : State) (rest : List Frame) :
    (s.frameEnded rest).cfg = s.cfg := rfl
@[simp] theorem State.frameEnded_rotation (s : State) (rest : List Frame) :
    (s.frameEnded rest).rotation = { s.rotation with slot := .releaseGap } := rfl
@[simp] theorem State.frameEnded_checker (s : State) (rest : List Frame) :
    (s.frameEnded rest).checker = s.checker := rfl
@[simp] theorem State.frameEnded_sched (s : State) (rest : List Frame) :
    (s.frameEnded rest).sched = s.sched := rfl
@[simp] theorem State.frameEnded_table (s : State) (rest : List Frame) :
    (s.frameEnded rest).table = s.table := rfl
@[simp] theorem State.frameEnded_snap (s : State) (rest : List Frame) :
    (s.frameEnded rest).snap = s.snap := rfl
@[simp] theorem State.frameEnded_share (s : State) (rest : List Frame) :
    (s.frameEnded rest).share = s.share := rfl
@[simp] theorem State.frameEnded_shed (s : State) (rest : List Frame) :
    (s.frameEnded rest).shed = s.shed := rfl
@[simp] theorem State.frameEnded_meas (s : State) (rest : List Frame) :
    (s.frameEnded rest).meas = s.meas := rfl
@[simp] theorem State.frameEnded_drive (s : State) (rest : List Frame) :
    (s.frameEnded rest).drive = s.drive := rfl
@[simp] theorem State.frameEnded_ctl (s : State) (rest : List Frame) :
    (s.frameEnded rest).ctl = s.ctl := rfl
@[simp] theorem State.frameEnded_port (s : State) (rest : List Frame) :
    (s.frameEnded rest).port = s.port := rfl
@[simp] theorem State.frameEnded_stats (s : State) (rest : List Frame) :
    (s.frameEnded rest).stats = s.stats := rfl
@[simp] theorem State.frameEnded_freeDraws (s : State) (rest : List Frame) :
    (s.frameEnded rest).freeDraws = s.freeDraws := rfl
@[simp] theorem State.frameEnded_pending (s : State) (rest : List Frame) :
    (s.frameEnded rest).pending = s.pending := rfl

/-! ## countSent -/

@[simp] theorem State.countSent_pins (s : State) : (s.countSent).pins = s.pins := rfl
@[simp] theorem State.countSent_loader (s : State) : (s.countSent).loader = s.loader := rfl
@[simp] theorem State.countSent_cfg (s : State) : (s.countSent).cfg = s.cfg := rfl
@[simp] theorem State.countSent_line (s : State) : (s.countSent).line = s.line := rfl
@[simp] theorem State.countSent_rotation (s : State) : (s.countSent).rotation = s.rotation := rfl
@[simp] theorem State.countSent_checker (s : State) : (s.countSent).checker = s.checker := rfl
@[simp] theorem State.countSent_sched (s : State) :
    (s.countSent).sched = { s.sched with collisionRun := 0 } := rfl
@[simp] theorem State.countSent_table (s : State) : (s.countSent).table = s.table := rfl
@[simp] theorem State.countSent_snap (s : State) : (s.countSent).snap = s.snap := rfl
@[simp] theorem State.countSent_share (s : State) : (s.countSent).share = s.share := rfl
@[simp] theorem State.countSent_shed (s : State) : (s.countSent).shed = s.shed := rfl
@[simp] theorem State.countSent_meas (s : State) : (s.countSent).meas = s.meas := rfl
@[simp] theorem State.countSent_drive (s : State) : (s.countSent).drive = s.drive := rfl
@[simp] theorem State.countSent_ctl (s : State) : (s.countSent).ctl = s.ctl := rfl
@[simp] theorem State.countSent_port (s : State) : (s.countSent).port = s.port := rfl
@[simp] theorem State.countSent_stats (s : State) :
    (s.countSent).stats = s.stats.bump .framesSent := rfl
@[simp] theorem State.countSent_freeDraws (s : State) : (s.countSent).freeDraws = s.freeDraws := rfl
@[simp] theorem State.countSent_pending (s : State) : (s.countSent).pending = s.pending := rfl

/-! ## dropBurst -/

@[simp] theorem State.dropBurst_pins (s : State) : (s.dropBurst).pins = s.pins := rfl
@[simp] theorem State.dropBurst_loader (s : State) : (s.dropBurst).loader = s.loader := rfl
@[simp] theorem State.dropBurst_cfg (s : State) : (s.dropBurst).cfg = s.cfg := rfl
@[simp] theorem State.dropBurst_line (s : State) :
    (s.dropBurst).line = { s.line with phase := .quiet, burst := [] } := rfl
@[simp] theorem State.dropBurst_rotation (s : State) : (s.dropBurst).rotation = s.rotation := rfl
@[simp] theorem State.dropBurst_checker (s : State) : (s.dropBurst).checker = s.checker := rfl
@[simp] theorem State.dropBurst_sched (s : State) : (s.dropBurst).sched = s.sched := rfl
@[simp] theorem State.dropBurst_table (s : State) : (s.dropBurst).table = s.table := rfl
@[simp] theorem State.dropBurst_snap (s : State) : (s.dropBurst).snap = s.snap := rfl
@[simp] theorem State.dropBurst_share (s : State) : (s.dropBurst).share = s.share := rfl
@[simp] theorem State.dropBurst_shed (s : State) : (s.dropBurst).shed = s.shed := rfl
@[simp] theorem State.dropBurst_meas (s : State) : (s.dropBurst).meas = s.meas := rfl
@[simp] theorem State.dropBurst_drive (s : State) : (s.dropBurst).drive = s.drive := rfl
@[simp] theorem State.dropBurst_ctl (s : State) : (s.dropBurst).ctl = s.ctl := rfl
@[simp] theorem State.dropBurst_port (s : State) : (s.dropBurst).port = s.port := rfl
@[simp] theorem State.dropBurst_stats (s : State) : (s.dropBurst).stats = s.stats := rfl
@[simp] theorem State.dropBurst_freeDraws (s : State) : (s.dropBurst).freeDraws = s.freeDraws := rfl
@[simp] theorem State.dropBurst_pending (s : State) : (s.dropBurst).pending = s.pending := rfl

/-! ## abortLine -/

@[simp] theorem State.abortLine_pins (s : State) : (s.abortLine).pins = s.pins := rfl
@[simp] theorem State.abortLine_loader (s : State) : (s.abortLine).loader = s.loader := rfl
@[simp] theorem State.abortLine_cfg (s : State) : (s.abortLine).cfg = s.cfg := rfl
@[simp] theorem State.abortLine_line (s : State) :
    (s.abortLine).line = { s.line with receiver := .ignoring } := rfl
@[simp] theorem State.abortLine_rotation (s : State) :
    (s.abortLine).rotation = { s.rotation with slot := .releaseGap } := rfl
@[simp] theorem State.abortLine_checker (s : State) : (s.abortLine).checker = s.checker := rfl
@[simp] theorem State.abortLine_sched (s : State) : (s.abortLine).sched = s.sched := rfl
@[simp] theorem State.abortLine_table (s : State) : (s.abortLine).table = s.table := rfl
@[simp] theorem State.abortLine_snap (s : State) : (s.abortLine).snap = s.snap := rfl
@[simp] theorem State.abortLine_share (s : State) : (s.abortLine).share = s.share := rfl
@[simp] theorem State.abortLine_shed (s : State) : (s.abortLine).shed = s.shed := rfl
@[simp] theorem State.abortLine_meas (s : State) : (s.abortLine).meas = s.meas := rfl
@[simp] theorem State.abortLine_drive (s : State) : (s.abortLine).drive = s.drive := rfl
@[simp] theorem State.abortLine_ctl (s : State) : (s.abortLine).ctl = s.ctl := rfl
@[simp] theorem State.abortLine_port (s : State) : (s.abortLine).port = s.port := rfl
@[simp] theorem State.abortLine_stats (s : State) : (s.abortLine).stats = s.stats := rfl
@[simp] theorem State.abortLine_freeDraws (s : State) : (s.abortLine).freeDraws = s.freeDraws := rfl
@[simp] theorem State.abortLine_pending (s : State) : (s.abortLine).pending = s.pending := rfl

/-! ## settle -/

@[simp] theorem State.settle_pins (s : State) (level : Bool) : (s.settle level).pins = s.pins := rfl
@[simp] theorem State.settle_loader (s : State) (level : Bool) :
    (s.settle level).loader = s.loader := rfl
@[simp] theorem State.settle_cfg (s : State) (level : Bool) : (s.settle level).cfg = s.cfg := rfl
@[simp] theorem State.settle_line (s : State) (level : Bool) : (s.settle level).line = s.line := rfl
@[simp] theorem State.settle_rotation (s : State) (level : Bool) :
    (s.settle level).rotation = s.rotation := rfl
@[simp] theorem State.settle_checker (s : State) (level : Bool) :
    (s.settle level).checker = s.checker := rfl
@[simp] theorem State.settle_sched (s : State) (level : Bool) :
    (s.settle level).sched = s.sched := rfl
@[simp] theorem State.settle_table (s : State) (level : Bool) :
    (s.settle level).table = s.table := rfl
@[simp] theorem State.settle_snap (s : State) (level : Bool) : (s.settle level).snap = s.snap := rfl
@[simp] theorem State.settle_share (s : State) (level : Bool) :
    (s.settle level).share = s.share := rfl
@[simp] theorem State.settle_shed (s : State) (level : Bool) : (s.settle level).shed = s.shed := rfl
@[simp] theorem State.settle_meas (s : State) (level : Bool) : (s.settle level).meas = s.meas := rfl
@[simp] theorem State.settle_drive (s : State) (level : Bool) :
    (s.settle level).drive = s.drive := rfl
@[simp] theorem State.settle_ctl (s : State) (level : Bool) :
    (s.settle level).ctl = { s.ctl with settled := level, enFilter := none } := rfl
@[simp] theorem State.settle_port (s : State) (level : Bool) : (s.settle level).port = s.port := rfl
@[simp] theorem State.settle_stats (s : State) (level : Bool) :
    (s.settle level).stats = s.stats := rfl
@[simp] theorem State.settle_freeDraws (s : State) (level : Bool) :
    (s.settle level).freeDraws = s.freeDraws := rfl
@[simp] theorem State.settle_pending (s : State) (level : Bool) :
    (s.settle level).pending = s.pending := rfl

/-! ## takeImage -/

@[simp] theorem State.takeImage_pins (s : State) (block : List Byte) :
    (s.takeImage block).pins = s.pins := rfl
@[simp] theorem State.takeImage_cfg (s : State) (block : List Byte) :
    (s.takeImage block).cfg = s.cfg := rfl
@[simp] theorem State.takeImage_line (s : State) (block : List Byte) :
    (s.takeImage block).line = s.line := rfl
@[simp] theorem State.takeImage_rotation (s : State) (block : List Byte) :
    (s.takeImage block).rotation = s.rotation := rfl
@[simp] theorem State.takeImage_checker (s : State) (block : List Byte) :
    (s.takeImage block).checker = s.checker := rfl
@[simp] theorem State.takeImage_sched (s : State) (block : List Byte) :
    (s.takeImage block).sched = s.sched := rfl
@[simp] theorem State.takeImage_table (s : State) (block : List Byte) :
    (s.takeImage block).table = s.table := rfl
@[simp] theorem State.takeImage_snap (s : State) (block : List Byte) :
    (s.takeImage block).snap = s.snap := rfl
@[simp] theorem State.takeImage_share (s : State) (block : List Byte) :
    (s.takeImage block).share = s.share := rfl
@[simp] theorem State.takeImage_shed (s : State) (block : List Byte) :
    (s.takeImage block).shed = s.shed := rfl
@[simp] theorem State.takeImage_meas (s : State) (block : List Byte) :
    (s.takeImage block).meas = s.meas := rfl
@[simp] theorem State.takeImage_drive (s : State) (block : List Byte) :
    (s.takeImage block).drive = s.drive := rfl
@[simp] theorem State.takeImage_ctl (s : State) (block : List Byte) :
    (s.takeImage block).ctl = s.ctl := rfl
@[simp] theorem State.takeImage_port (s : State) (block : List Byte) :
    (s.takeImage block).port = s.port := rfl
@[simp] theorem State.takeImage_stats (s : State) (block : List Byte) :
    (s.takeImage block).stats = s.stats := rfl
@[simp] theorem State.takeImage_freeDraws (s : State) (block : List Byte) :
    (s.takeImage block).freeDraws = s.freeDraws := rfl
@[simp] theorem State.takeImage_pending (s : State) (block : List Byte) :
    (s.takeImage block).pending = s.pending := rfl

/-! ## endConfigFaulted -/

@[simp] theorem State.endConfigFaulted_pins (s : State) (code : FaultCode) :
    (s.endConfigFaulted code).pins = s.pins := rfl
@[simp] theorem State.endConfigFaulted_loader (s : State) (code : FaultCode) :
    (s.endConfigFaulted code).loader = { s.loader with load := .faulted } := rfl
@[simp] theorem State.endConfigFaulted_cfg (s : State) (code : FaultCode) :
    (s.endConfigFaulted code).cfg = s.cfg := rfl
@[simp] theorem State.endConfigFaulted_line (s : State) (code : FaultCode) :
    (s.endConfigFaulted code).line = s.line := rfl
@[simp] theorem State.endConfigFaulted_rotation (s : State) (code : FaultCode) :
    (s.endConfigFaulted code).rotation = s.rotation := rfl
@[simp] theorem State.endConfigFaulted_checker (s : State) (code : FaultCode) :
    (s.endConfigFaulted code).checker = s.checker := rfl
@[simp] theorem State.endConfigFaulted_sched (s : State) (code : FaultCode) :
    (s.endConfigFaulted code).sched = s.sched := rfl
@[simp] theorem State.endConfigFaulted_table (s : State) (code : FaultCode) :
    (s.endConfigFaulted code).table = s.table := rfl
@[simp] theorem State.endConfigFaulted_snap (s : State) (code : FaultCode) :
    (s.endConfigFaulted code).snap = s.snap := rfl
@[simp] theorem State.endConfigFaulted_share (s : State) (code : FaultCode) :
    (s.endConfigFaulted code).share = s.share := rfl
@[simp] theorem State.endConfigFaulted_shed (s : State) (code : FaultCode) :
    (s.endConfigFaulted code).shed = s.shed := rfl
@[simp] theorem State.endConfigFaulted_meas (s : State) (code : FaultCode) :
    (s.endConfigFaulted code).meas = s.meas := rfl
@[simp] theorem State.endConfigFaulted_drive (s : State) (code : FaultCode) :
    (s.endConfigFaulted code).drive = s.drive := rfl
@[simp] theorem State.endConfigFaulted_ctl (s : State) (code : FaultCode) :
    (s.endConfigFaulted code).ctl = { s.ctl with station := .configFault, faultCode := code } := rfl
@[simp] theorem State.endConfigFaulted_port (s : State) (code : FaultCode) :
    (s.endConfigFaulted code).port = s.port := rfl
@[simp] theorem State.endConfigFaulted_stats (s : State) (code : FaultCode) :
    (s.endConfigFaulted code).stats = s.stats := rfl
@[simp] theorem State.endConfigFaulted_freeDraws (s : State) (code : FaultCode) :
    (s.endConfigFaulted code).freeDraws = s.freeDraws := rfl
@[simp] theorem State.endConfigFaulted_pending (s : State) (code : FaultCode) :
    (s.endConfigFaulted code).pending = s.pending := rfl

/-! ## startConfig -/

@[simp] theorem State.startConfig_pins (s : State) (addr : BitVec 5) (role : Role) :
    (s.startConfig addr role).pins = s.pins := rfl
@[simp] theorem State.startConfig_loader (s : State) (addr : BitVec 5) (role : Role) :
    (s.startConfig addr role).loader = Loader.start addr role := rfl
@[simp] theorem State.startConfig_cfg (s : State) (addr : BitVec 5) (role : Role) :
    (s.startConfig addr role).cfg = s.cfg := rfl
@[simp] theorem State.startConfig_line (s : State) (addr : BitVec 5) (role : Role) :
    (s.startConfig addr role).line = s.line := rfl
@[simp] theorem State.startConfig_rotation (s : State) (addr : BitVec 5) (role : Role) :
    (s.startConfig addr role).rotation = s.rotation := rfl
@[simp] theorem State.startConfig_checker (s : State) (addr : BitVec 5) (role : Role) :
    (s.startConfig addr role).checker = s.checker := rfl
@[simp] theorem State.startConfig_sched (s : State) (addr : BitVec 5) (role : Role) :
    (s.startConfig addr role).sched = s.sched := rfl
@[simp] theorem State.startConfig_table (s : State) (addr : BitVec 5) (role : Role) :
    (s.startConfig addr role).table = s.table := rfl
@[simp] theorem State.startConfig_snap (s : State) (addr : BitVec 5) (role : Role) :
    (s.startConfig addr role).snap = s.snap := rfl
@[simp] theorem State.startConfig_share (s : State) (addr : BitVec 5) (role : Role) :
    (s.startConfig addr role).share = s.share := rfl
@[simp] theorem State.startConfig_shed (s : State) (addr : BitVec 5) (role : Role) :
    (s.startConfig addr role).shed = s.shed := rfl
@[simp] theorem State.startConfig_meas (s : State) (addr : BitVec 5) (role : Role) :
    (s.startConfig addr role).meas = s.meas := rfl
@[simp] theorem State.startConfig_drive (s : State) (addr : BitVec 5) (role : Role) :
    (s.startConfig addr role).drive = s.drive := rfl
@[simp] theorem State.startConfig_port (s : State) (addr : BitVec 5) (role : Role) :
    (s.startConfig addr role).port = s.port := rfl
@[simp] theorem State.startConfig_stats (s : State) (addr : BitVec 5) (role : Role) :
    (s.startConfig addr role).stats = s.stats := rfl
@[simp] theorem State.startConfig_freeDraws (s : State) (addr : BitVec 5) (role : Role) :
    (s.startConfig addr role).freeDraws = s.freeDraws := rfl
@[simp] theorem State.startConfig_pending (s : State) (addr : BitVec 5) (role : Role) :
    (s.startConfig addr role).pending = s.pending := rfl

/-! ## formValues -/

@[simp] theorem State.formValues_pins (s : State) (isns dem feed : BitVec 10) :
    (s.formValues isns dem feed).pins = s.pins := rfl
@[simp] theorem State.formValues_loader (s : State) (isns dem feed : BitVec 10) :
    (s.formValues isns dem feed).loader = s.loader := rfl
@[simp] theorem State.formValues_cfg (s : State) (isns dem feed : BitVec 10) :
    (s.formValues isns dem feed).cfg = s.cfg := rfl
@[simp] theorem State.formValues_line (s : State) (isns dem feed : BitVec 10) :
    (s.formValues isns dem feed).line = s.line := rfl
@[simp] theorem State.formValues_rotation (s : State) (isns dem feed : BitVec 10) :
    (s.formValues isns dem feed).rotation = s.rotation := rfl
@[simp] theorem State.formValues_checker (s : State) (isns dem feed : BitVec 10) :
    (s.formValues isns dem feed).checker = s.checker := rfl
@[simp] theorem State.formValues_sched (s : State) (isns dem feed : BitVec 10) :
    (s.formValues isns dem feed).sched = s.sched := rfl
@[simp] theorem State.formValues_table (s : State) (isns dem feed : BitVec 10) :
    (s.formValues isns dem feed).table = s.table := rfl
@[simp] theorem State.formValues_snap (s : State) (isns dem feed : BitVec 10) :
    (s.formValues isns dem feed).snap = s.snap := rfl
@[simp] theorem State.formValues_share (s : State) (isns dem feed : BitVec 10) :
    (s.formValues isns dem feed).share = s.share := rfl
@[simp] theorem State.formValues_shed (s : State) (isns dem feed : BitVec 10) :
    (s.formValues isns dem feed).shed = s.shed := rfl
@[simp] theorem State.formValues_drive (s : State) (isns dem feed : BitVec 10) :
    (s.formValues isns dem feed).drive = s.drive := rfl
@[simp] theorem State.formValues_ctl (s : State) (isns dem feed : BitVec 10) :
    (s.formValues isns dem feed).ctl = s.ctl := rfl
@[simp] theorem State.formValues_port (s : State) (isns dem feed : BitVec 10) :
    (s.formValues isns dem feed).port = s.port := rfl
@[simp] theorem State.formValues_stats (s : State) (isns dem feed : BitVec 10) :
    (s.formValues isns dem feed).stats = s.stats := rfl
@[simp] theorem State.formValues_freeDraws (s : State) (isns dem feed : BitVec 10) :
    (s.formValues isns dem feed).freeDraws = s.freeDraws := rfl
@[simp] theorem State.formValues_pending (s : State) (isns dem feed : BitVec 10) :
    (s.formValues isns dem feed).pending = s.pending := rfl

/-! ## judgeStage -/

@[simp] theorem State.judgeStage_pins (s : State) (driveOff : Bool) :
    (s.judgeStage driveOff).pins = s.pins := rfl
@[simp] theorem State.judgeStage_loader (s : State) (driveOff : Bool) :
    (s.judgeStage driveOff).loader = s.loader := rfl
@[simp] theorem State.judgeStage_cfg (s : State) (driveOff : Bool) :
    (s.judgeStage driveOff).cfg = s.cfg := rfl
@[simp] theorem State.judgeStage_line (s : State) (driveOff : Bool) :
    (s.judgeStage driveOff).line = s.line := rfl
@[simp] theorem State.judgeStage_rotation (s : State) (driveOff : Bool) :
    (s.judgeStage driveOff).rotation = s.rotation := rfl
@[simp] theorem State.judgeStage_checker (s : State) (driveOff : Bool) :
    (s.judgeStage driveOff).checker = s.checker := rfl
@[simp] theorem State.judgeStage_sched (s : State) (driveOff : Bool) :
    (s.judgeStage driveOff).sched = s.sched := rfl
@[simp] theorem State.judgeStage_table (s : State) (driveOff : Bool) :
    (s.judgeStage driveOff).table = s.table := rfl
@[simp] theorem State.judgeStage_snap (s : State) (driveOff : Bool) :
    (s.judgeStage driveOff).snap = s.snap := rfl
@[simp] theorem State.judgeStage_share (s : State) (driveOff : Bool) :
    (s.judgeStage driveOff).share = s.share := rfl
@[simp] theorem State.judgeStage_shed (s : State) (driveOff : Bool) :
    (s.judgeStage driveOff).shed = s.shed := rfl
@[simp] theorem State.judgeStage_drive (s : State) (driveOff : Bool) :
    (s.judgeStage driveOff).drive = s.drive := rfl
@[simp] theorem State.judgeStage_ctl (s : State) (driveOff : Bool) :
    (s.judgeStage driveOff).ctl = s.ctl := rfl
@[simp] theorem State.judgeStage_port (s : State) (driveOff : Bool) :
    (s.judgeStage driveOff).port = s.port := rfl
@[simp] theorem State.judgeStage_stats (s : State) (driveOff : Bool) :
    (s.judgeStage driveOff).stats = s.stats := rfl
@[simp] theorem State.judgeStage_freeDraws (s : State) (driveOff : Bool) :
    (s.judgeStage driveOff).freeDraws = s.freeDraws := rfl
@[simp] theorem State.judgeStage_pending (s : State) (driveOff : Bool) :
    (s.judgeStage driveOff).pending = s.pending := rfl

/-! ## limiterStep -/

@[simp] theorem State.limiterStep_pins (s : State) : (s.limiterStep).pins = s.pins := rfl
@[simp] theorem State.limiterStep_loader (s : State) : (s.limiterStep).loader = s.loader := rfl
@[simp] theorem State.limiterStep_cfg (s : State) : (s.limiterStep).cfg = s.cfg := rfl
@[simp] theorem State.limiterStep_line (s : State) : (s.limiterStep).line = s.line := rfl
@[simp] theorem State.limiterStep_rotation (s : State) :
    (s.limiterStep).rotation = s.rotation := rfl
@[simp] theorem State.limiterStep_checker (s : State) : (s.limiterStep).checker = s.checker := rfl
@[simp] theorem State.limiterStep_sched (s : State) : (s.limiterStep).sched = s.sched := rfl
@[simp] theorem State.limiterStep_table (s : State) : (s.limiterStep).table = s.table := rfl
@[simp] theorem State.limiterStep_snap (s : State) : (s.limiterStep).snap = s.snap := rfl
@[simp] theorem State.limiterStep_share (s : State) : (s.limiterStep).share = s.share := rfl
@[simp] theorem State.limiterStep_shed (s : State) : (s.limiterStep).shed = s.shed := rfl
@[simp] theorem State.limiterStep_meas (s : State) : (s.limiterStep).meas = s.meas := rfl
@[simp] theorem State.limiterStep_ctl (s : State) : (s.limiterStep).ctl = s.ctl := rfl
@[simp] theorem State.limiterStep_port (s : State) : (s.limiterStep).port = s.port := rfl
@[simp] theorem State.limiterStep_stats (s : State) : (s.limiterStep).stats = s.stats := rfl
@[simp] theorem State.limiterStep_freeDraws (s : State) :
    (s.limiterStep).freeDraws = s.freeDraws := rfl
@[simp] theorem State.limiterStep_pending (s : State) : (s.limiterStep).pending = s.pending := rfl

/-! ## serialClock -/

@[simp] theorem State.serialClock_pins (s : State) : (s.serialClock).pins = s.pins := rfl
@[simp] theorem State.serialClock_loader (s : State) : (s.serialClock).loader = s.loader := rfl
@[simp] theorem State.serialClock_cfg (s : State) : (s.serialClock).cfg = s.cfg := rfl
@[simp] theorem State.serialClock_line (s : State) : (s.serialClock).line = s.line := rfl
@[simp] theorem State.serialClock_rotation (s : State) :
    (s.serialClock).rotation = s.rotation := rfl
@[simp] theorem State.serialClock_checker (s : State) : (s.serialClock).checker = s.checker := rfl
@[simp] theorem State.serialClock_sched (s : State) : (s.serialClock).sched = s.sched := rfl
@[simp] theorem State.serialClock_table (s : State) : (s.serialClock).table = s.table := rfl
@[simp] theorem State.serialClock_snap (s : State) : (s.serialClock).snap = s.snap := rfl
@[simp] theorem State.serialClock_share (s : State) : (s.serialClock).share = s.share := rfl
@[simp] theorem State.serialClock_shed (s : State) : (s.serialClock).shed = s.shed := rfl
@[simp] theorem State.serialClock_meas (s : State) : (s.serialClock).meas = s.meas := rfl
@[simp] theorem State.serialClock_drive (s : State) : (s.serialClock).drive = s.drive := rfl
@[simp] theorem State.serialClock_ctl (s : State) : (s.serialClock).ctl = s.ctl := rfl
@[simp] theorem State.serialClock_port (s : State) :
    (s.serialClock).port = if s.port.phase.isSome then s.port.clock else s.port := rfl
@[simp] theorem State.serialClock_stats (s : State) : (s.serialClock).stats = s.stats := rfl
@[simp] theorem State.serialClock_freeDraws (s : State) :
    (s.serialClock).freeDraws = s.freeDraws := rfl
@[simp] theorem State.serialClock_pending (s : State) : (s.serialClock).pending = s.pending := rfl

end Sys2Proof.Machine
end

