-- ==== Sys2Proof/Laws/Ops.lean ====
section
/-! SUPPORT. What each shared operation of Machine/Ops.lean can do, said once: counters, the discard
history, the cut and the effective limit, and the lists of the Group Table. -/

namespace Sys2Proof.Machine

/-! ## Counters -/

/-- An increment adds one or stays at the maximum (R176). -/
theorem saturatingSucc_toNat (v : Word32) :
    (saturatingSucc v).toNat = min (v.toNat + 1) 4294967295 := by
  unfold saturatingSucc
  split <;> rename_i h
  · subst h; rfl
  · have : v.toNat ≠ 4294967295 := fun e => h (BitVec.eq_of_toNat_eq (by simpa using e))
    have := v.isLt
    have h1 : (1 : Word32).toNat = 1 := rfl
    rw [BitVec.toNat_add, h1]
    omega

/-- Counters have different numbers (R176). -/
theorem Counter.index_injective : Function.Injective Counter.index := by
  intro a b h
  cases a <;> cases b <;> first | rfl | simp [Counter.index] at h

/-- The counter counted takes the increment (R176). -/
@[simp] theorem Stats.get_bump_self (st : Stats) (c : Counter) :
    (st.bump c).get c = saturatingSucc (st.get c) := by
  simp [Stats.bump, Stats.get]

/-- No other counter moves (R176). -/
theorem Stats.get_bump_of_ne (st : Stats) {c d : Counter} (h : d ≠ c) :
    (st.bump c).get d = st.get d := by
  have : (c.index : Nat) ≠ d.index := fun e => h (Counter.index_injective (Fin.ext e)).symm
  simp [Stats.bump, Stats.get, Vector.getElem_set_ne, this]

/-- The bank stands through an increment (R178). -/
@[simp] theorem Stats.bank_bump (st : Stats) (c : Counter) : (st.bump c).bank = st.bank := rfl

/-- The attention set keeps every number it holds (R177). -/
theorem Stats.mem_attention_bump_of_mem (st : Stats) (c : Counter) {d : Counter}
    (h : d ∈ st.attention) : d ∈ (st.bump c).attention := by
  unfold Stats.bump
  simp only
  split
  · exact List.mem_append_left _ h
  · exact h

/-! ## Discard history -/

/-- A discard leaves at least one record (R37). -/
theorem addDiscard_ne_nil (h : List DiscardRecord) (reason : Reason) (a k : Option Nat)
    (round : Byte) : addDiscard h reason a k round ≠ [] := by
  unfold addDiscard
  split
  · split <;> simp
  · simp

/-- A history of at most eight records stays so (R37). -/
theorem addDiscard_length_le (h : List DiscardRecord) (reason : Reason) (a k : Option Nat)
    (round : Byte) (hl : h.length ≤ 8) : (addDiscard h reason a k round).length ≤ 8 := by
  unfold addDiscard
  split
  · rename_i r hr
    have : h ≠ [] := by intro e; simp [e] at hr
    have : 0 < h.length := List.length_pos_of_ne_nil this
    split
    · simp; omega
    · split <;> simp <;> omega
  · simp

/-! ## The cut and the effective limit -/

@[simp] theorem Drive.cut_counter (d : Drive) : d.cut.counter = d.counter := rfl
@[simp] theorem Drive.cut_duty (d : Drive) : d.cut.duty = 0 := rfl
@[simp] theorem Drive.cut_buffer (d : Drive) : d.cut.buffer = 0 := rfl
@[simp] theorem Drive.cut_level (d : Drive) : d.cut.level = false := rfl
@[simp] theorem Drive.cut_driven (d : Drive) : d.cut.driven = d.driven := rfl

/-- Outside ACTIVE the limit is 0 (R90). -/
theorem limitOf_of_ne_active {st : Station} (h : st ≠ .active) (n : Nat) (cap : Option Nat) :
    limitOf st n cap = 0 := by simp [limitOf, h]

/-- The limit never exceeds the applied share (R90). -/
theorem limitOf_le (st : Station) (n : Nat) (cap : Option Nat) : limitOf st n cap ≤ n := by
  unfold limitOf
  split
  · split <;> omega
  · omega

/-- After the limit is formed it is what R90 gives for that state. -/
theorem State.limit_formLimit (s : State) : s.formLimit.share.limit = s.formLimit.limitNow := rfl

/-- The drive is cut or stands, and it stands unless the limit fell to 0 (R92). -/
theorem State.drive_formLimit (s : State) :
    (s.formLimit.drive = s.drive.cut ∧ 0 < s.share.limit ∧ s.formLimit.share.limit = 0)
      ∨ (s.formLimit.drive = s.drive ∧ ¬ (0 < s.share.limit ∧ s.formLimit.share.limit = 0)) := by
  by_cases h : 0 < s.share.limit ∧ s.limitNow = 0
  · exact Or.inl ⟨by simp [h], by simpa using h⟩
  · exact Or.inr ⟨by simp [h], by simpa using h⟩

/-- Leaving membership leaves the share values 0 (R87), for any state but ACTIVE. -/
theorem State.share_leaveMembership (s : State) {st : Station} (h : st ≠ .active) :
    (s.leaveMembership st).share = { applied := 0, pending := none, limit := 0 } := by
  simp [State.leaveMembership, State.limitNow, limitOf, h]

/-- Leaving membership cuts the drive exactly where the limit stood above 0 (R92). -/
theorem State.drive_leaveMembership (s : State) {st : Station} (h : st ≠ .active) :
    (s.leaveMembership st).drive = if 0 < s.share.limit then s.drive.cut else s.drive := by
  simp [State.leaveMembership, State.limitNow, limitOf, h]

/-- The entry an order leaves holds 1 round or more (R119, R120). -/
theorem rounds_of_shedEntryOf {o x : ShedOrder} (h : shedEntryOf o = some x) :
    x = o ∧ 1 ≤ x.rounds := by
  unfold shedEntryOf at h
  split at h
  · simp at h
  · simp at h; subst h; exact ⟨rfl, by omega⟩

/-! ## Entries -/

/-- Entries in ascending address, each address once (R39). -/
abbrev SortedEntries (es : List Entry) : Prop := es.Pairwise (fun x y => x.addr < y.addr)

/-- Orphans in ascending address, each address once (R55). -/
abbrev SortedOrphans (os : List Orphan) : Prop := os.Pairwise (fun x y => x.addr < y.addr)

/-- The entry found for an address has it. -/
theorem addr_of_findEntry {a : Nat} {es : List Entry} {e : Entry} (h : findEntry a es = some e) :
    e.addr = a := by
  have := List.find?_some h
  simpa using this

/-- The entry found is in the table. -/
theorem mem_of_findEntry {a : Nat} {es : List Entry} {e : Entry} (h : findEntry a es = some e) :
    e ∈ es := List.mem_of_find?_eq_some h

/-- No entry is found exactly where none has the address. -/
theorem findEntry_eq_none {a : Nat} {es : List Entry} :
    findEntry a es = none ↔ ∀ e ∈ es, e.addr ≠ a := by
  simp [findEntry, List.find?_eq_none]

/-- An entry put in is found. -/
theorem findEntry_putEntry_self (e : Entry) (es : List Entry) :
    findEntry e.addr (putEntry e es) = some e := by
  induction es with
  | nil => simp [putEntry, findEntry]
  | cons x xs ih =>
    unfold putEntry
    split
    · simp [findEntry]
    · split
      · simp [findEntry]
      · rename_i h
        have hx : (x.addr == e.addr) = false := by simp; exact fun h' => h h'.symm
        simpa [findEntry, List.find?_cons, hx] using ih

/-- An entry put in leaves every other address as it was. -/
theorem findEntry_putEntry_of_ne (e : Entry) (es : List Entry) {a : Nat} (h : a ≠ e.addr) :
    findEntry a (putEntry e es) = findEntry a es := by
  have he : (e.addr == a) = false := by simp; exact fun h' => h h'.symm
  induction es with
  | nil => simp [putEntry, findEntry, he]
  | cons x xs ih =>
    unfold putEntry
    split
    · simp [findEntry, List.find?_cons, he]
    · split
      · rename_i hx
        have hx' : (x.addr == a) = false := by rw [← hx]; exact he
        simp [findEntry, he, hx']
      · simp only [findEntry, List.find?_cons] at ih ⊢
        split
        · rfl
        · exact ih

/-- What is in a table an entry was put in: that entry, or one that was there. -/
theorem mem_putEntry {e x : Entry} {es : List Entry} (h : x ∈ putEntry e es) : x = e ∨ x ∈ es := by
  induction es with
  | nil => simpa [putEntry] using h
  | cons y ys ih =>
    unfold putEntry at h
    split at h
    · simpa using h
    · split at h
      · rcases List.mem_cons.1 h with h | h
        · exact Or.inl h
        · exact Or.inr (List.mem_cons_of_mem _ h)
      · rcases List.mem_cons.1 h with h | h
        · exact Or.inr (by simp [h])
        · exact (ih h).imp id (List.mem_cons_of_mem _)

/-- Putting an entry in keeps the order (R39). -/
theorem sorted_putEntry (e : Entry) {es : List Entry} (h : SortedEntries es) :
    SortedEntries (putEntry e es) := by
  induction es with
  | nil => simp [putEntry, SortedEntries]
  | cons x xs ih =>
    have hc := List.pairwise_cons.1 h
    unfold putEntry
    split
    · rename_i hlt
      refine List.pairwise_cons.2 ⟨?_, h⟩
      intro y hy
      rcases List.mem_cons.1 hy with hy | hy
      · subst hy; exact hlt
      · exact lt_trans hlt (hc.1 y hy)
    · split
      · rename_i heq
        exact List.pairwise_cons.2 ⟨fun y hy => by rw [heq]; exact hc.1 y hy, hc.2⟩
      · refine List.pairwise_cons.2 ⟨?_, ih hc.2⟩
        intro y hy
        rcases mem_putEntry hy with hy | hy
        · subst hy; omega
        · exact hc.1 y hy

/-- The address removed is not found. -/
theorem findEntry_removeEntry_self (a : Nat) (es : List Entry) :
    findEntry a (removeEntry a es) = none := by
  rw [findEntry_eq_none]
  intro e he
  simpa using (List.mem_filter.1 he).2

/-- Every other address is found as before. -/
theorem findEntry_removeEntry_of_ne (es : List Entry) {a x : Nat} (h : x ≠ a) :
    findEntry x (removeEntry a es) = findEntry x es := by
  induction es with
  | nil => rfl
  | cons y ys ih =>
    by_cases hy : y.addr = a
    · have : (y.addr == x) = false := by simp; omega
      simpa [removeEntry, findEntry, List.find?_cons, hy, this, Ne.symm h] using ih
    · by_cases hx : y.addr = x
      · simp [removeEntry, findEntry, hx, h]
      · simpa [removeEntry, findEntry, List.find?_cons, hy, hx] using ih

/-- Removing an entry keeps the order (R39). -/
theorem sorted_removeEntry (a : Nat) {es : List Entry} (h : SortedEntries es) :
    SortedEntries (removeEntry a es) := List.Pairwise.filter _ h

/-- Removing an entry removes nothing else. -/
theorem mem_removeEntry {a : Nat} {es : List Entry} {e : Entry} :
    e ∈ removeEntry a es ↔ e ∈ es ∧ e.addr ≠ a := by simp [removeEntry, List.mem_filter]

/-- In an ordered table an address has one entry. -/
theorem findEntry_of_mem {es : List Entry} (h : SortedEntries es) {e : Entry} (he : e ∈ es) :
    findEntry e.addr es = some e := by
  induction es with
  | nil => simp at he
  | cons x xs ih =>
    have hc := List.pairwise_cons.1 h
    rcases List.mem_cons.1 he with he | he
    · subst he; simp [findEntry]
    · have : (x.addr == e.addr) = false := by
        have := hc.1 e he
        simp; omega
      simpa [findEntry, List.find?_cons, this] using ih hc.2 he

/-- A change of the entry for one address keeps the order where it keeps the address. -/
theorem sorted_updateEntry (a : Nat) {f : Entry → Entry} (hf : ∀ e, (f e).addr = e.addr)
    {es : List Entry} (h : SortedEntries es) : SortedEntries (updateEntry a f es) := by
  refine List.pairwise_map.2 (h.imp ?_)
  intro x y hxy
  split <;> split <;> simp [hf, hxy]

/-! ## Floor sum (R41) -/

@[simp] theorem floorSum_nil : floorSum [] = 0 := rfl

/-- The floor sum entry by entry. -/
theorem floorSum_cons (e : Entry) (es : List Entry) :
    floorSum (e :: es) = (if e.counted then e.terms.floor else 0) + floorSum es := by
  unfold floorSum
  by_cases h : e.counted <;> simp [h]

/-- Removing an entry never raises the floor sum. -/
theorem floorSum_removeEntry_le (a : Nat) (es : List Entry) :
    floorSum (removeEntry a es) ≤ floorSum es := by
  induction es with
  | nil => simp [removeEntry]
  | cons x xs ih =>
    by_cases h : x.addr = a
    · simp only [removeEntry, h, bne_self_eq_false, Bool.false_eq_true, not_false_eq_true,
        List.filter_cons_of_neg, floorSum_cons] at ih ⊢
      omega
    · have h' : (x.addr != a) = true := by simpa using h
      simp only [removeEntry, List.filter_cons, h', if_true, floorSum_cons] at ih ⊢
      omega

/-- A new entry adds its floor where it counts, to the sum without its address (R46, R48). -/
theorem floorSum_putEntry (e : Entry) {es : List Entry} (h : SortedEntries es) :
    floorSum (putEntry e es)
      = (if e.counted then e.terms.floor else 0) + floorSum (removeEntry e.addr es) := by
  induction es with
  | nil => simp [putEntry, removeEntry, floorSum_cons]
  | cons x xs ih =>
    have hc := List.pairwise_cons.1 h
    have hall : (∀ y ∈ xs, e.addr < y.addr) → removeEntry e.addr xs = xs := by
      intro hy
      refine List.filter_eq_self.2 (fun y hyx => ?_)
      have := hy y hyx
      simp; omega
    unfold putEntry
    split
    · rename_i hlt
      have hx : (x.addr != e.addr) = true := by simp; omega
      have := hall (fun y hy => lt_trans hlt (hc.1 y hy))
      rw [removeEntry] at this
      simp [removeEntry, hx, floorSum_cons, this]
    · split
      · rename_i heq
        have := hall (fun y hy => by rw [heq]; exact hc.1 y hy)
        rw [removeEntry] at this
        simp [removeEntry, heq, floorSum_cons]
        rw [← heq, this]
      · rename_i hne
        have hx : (x.addr != e.addr) = true := by simp; exact fun h' => hne h'.symm
        rw [floorSum_cons, ih hc.2]
        simp only [removeEntry, List.filter_cons, hx, if_true, floorSum_cons]
        omega

/-! ## Orphans -/

/-- What is on a list an orphan was put on: that orphan, or one that was there. -/
theorem mem_putOrphan {o x : Orphan} {os : List Orphan} (h : x ∈ putOrphan o os) :
    x = o ∨ x ∈ os := by
  induction os with
  | nil => simpa [putOrphan] using h
  | cons y ys ih =>
    unfold putOrphan at h
    split at h
    · simpa using h
    · split at h
      · rcases List.mem_cons.1 h with h | h
        · exact Or.inl h
        · exact Or.inr (List.mem_cons_of_mem _ h)
      · rcases List.mem_cons.1 h with h | h
        · exact Or.inr (by simp [h])
        · exact (ih h).imp id (List.mem_cons_of_mem _)

/-- The orphan put on the list is on it. -/
theorem self_mem_putOrphan (o : Orphan) (os : List Orphan) : o ∈ putOrphan o os := by
  induction os with
  | nil => simp [putOrphan]
  | cons y ys ih =>
    unfold putOrphan
    split
    · simp
    · split
      · simp
      · exact List.mem_cons_of_mem _ ih

/-- An orphan of another address stays on the list. -/
theorem mem_putOrphan_of_ne {o x : Orphan} {os : List Orphan} (h : x ∈ os) (hne : x.addr ≠ o.addr) :
    x ∈ putOrphan o os := by
  induction os with
  | nil => simp at h
  | cons y ys ih =>
    unfold putOrphan
    split
    · exact List.mem_cons_of_mem _ h
    · split
      · rename_i heq
        rcases List.mem_cons.1 h with h | h
        · subst h; exact absurd heq.symm hne
        · exact List.mem_cons_of_mem _ h
      · rcases List.mem_cons.1 h with h | h
        · simp [h]
        · exact List.mem_cons_of_mem _ (ih h)

/-- Putting an orphan on the list keeps the order (R55). -/
theorem sorted_putOrphan (o : Orphan) {os : List Orphan} (h : SortedOrphans os) :
    SortedOrphans (putOrphan o os) := by
  induction os with
  | nil => simp [putOrphan, SortedOrphans]
  | cons x xs ih =>
    have hc := List.pairwise_cons.1 h
    unfold putOrphan
    split
    · rename_i hlt
      refine List.pairwise_cons.2 ⟨?_, h⟩
      intro y hy
      rcases List.mem_cons.1 hy with hy | hy
      · subst hy; exact hlt
      · exact lt_trans hlt (hc.1 y hy)
    · split
      · rename_i heq
        exact List.pairwise_cons.2 ⟨fun y hy => by rw [heq]; exact hc.1 y hy, hc.2⟩
      · refine List.pairwise_cons.2 ⟨?_, ih hc.2⟩
        intro y hy
        rcases mem_putOrphan hy with hy | hy
        · subst hy; omega
        · exact hc.1 y hy

/-- Removing an orphan keeps the order (R55). -/
theorem sorted_removeOrphan (a : Nat) {os : List Orphan} (h : SortedOrphans os) :
    SortedOrphans (removeOrphan a os) := List.Pairwise.filter _ h

/-- Removing an orphan removes nothing else. -/
theorem mem_removeOrphan {a : Nat} {os : List Orphan} {o : Orphan} :
    o ∈ removeOrphan a os ↔ o ∈ os ∧ o.addr ≠ a := by simp [removeOrphan, List.mem_filter]

end Sys2Proof.Machine
end

