-- ==== Sys2Proof/Laws/Table.lean ====
section
/-! SUPPORT. What the Group Table's operations do to order, addresses and the floor sum, said once per
operation (chapter 3). -/

namespace Sys2Proof.Machine

/-! ## Frames -/

/-- A LEAVE touches the entries only (R49). -/
theorem GroupTable.acceptLeave_eq (g : GroupTable) (a : Nat) :
    g.acceptLeave a = { g with entries := removeEntry a g.entries } := rfl

/-- A JOIN puts one entry for its address, either a new CANDIDATE or the old entry with its terms
rewritten, and leaves the confirmation set (R45). -/
theorem GroupTable.acceptJoin_cases (g : GroupTable) (a : Nat) (t : Terms) :
    (g.acceptJoin a t = { g with
        entries := putEntry (joinedEntry a t) g.entries, orphans := removeOrphan a g.orphans }
      ∧ ∀ e, findEntry a g.entries = some e → e.state = .active ∨ e.state = .silent)
    ∨ ∃ e, findEntry a g.entries = some e
      ∧ (e.state = .candidate ∨ e.state = .deferred ∨ e.state = .outside)
      ∧ g.acceptJoin a t = { g with entries := putEntry (e.rejoin t) g.entries } := by
  unfold GroupTable.acceptJoin
  split
  · rename_i e he
    cases hs : e.state <;> simp [he, hs]
  · rename_i he
    simp [he]

/-- A JOIN keeps the order of the table (R39). -/
theorem GroupTable.sorted_acceptJoin (g : GroupTable) (a : Nat) (t : Terms)
    (h : SortedEntries g.entries) : SortedEntries (g.acceptJoin a t).entries := by
  rcases g.acceptJoin_cases a t with ⟨h1, -⟩ | ⟨e, -, -, h1⟩ <;> rw [h1] <;>
    exact sorted_putEntry _ h

/-- A CLAIM that reaches the table writes the sender's entry, removes its orphan and sets its status
(R46 to R48, R60); one that does not changes nothing. -/
theorem GroupTable.acceptClaim_cases (g : GroupTable) (l : Bool) (budget own a : Nat) (v : Values)
    (t : Terms) (basis : Word16) (mask : Word32) (snap : Option Word16) :
    (∃ st, claimState l budget g.entries a t.floor = some st
      ∧ g.acceptClaim l budget own a v t basis mask snap
        = { entries := putEntry (claimEntry own a v t basis mask st) g.entries
            orphans := removeOrphan a g.orphans
            confirm := setConfirmation snap a basis g.confirm })
    ∨ (claimState l budget g.entries a t.floor = none
      ∧ g.acceptClaim l budget own a v t basis mask snap = g) := by
  unfold GroupTable.acceptClaim
  cases claimState l budget g.entries a t.floor <;> simp

/-- A CLAIM keeps the order of the table (R39). -/
theorem GroupTable.sorted_acceptClaim (g : GroupTable) (l : Bool) (budget own a : Nat) (v : Values)
    (t : Terms) (basis : Word16) (mask : Word32) (snap : Option Word16)
    (h : SortedEntries g.entries) :
    SortedEntries (g.acceptClaim l budget own a v t basis mask snap).entries := by
  rcases g.acceptClaim_cases l budget own a v t basis mask snap with ⟨st, -, h1⟩ | ⟨-, h1⟩ <;> rw [h1]
  · exact sorted_putEntry _ h
  · exact h

/-- The state a CLAIM gives is ACTIVE or OUTSIDE (R46 to R48). -/
theorem claimState_active_or_outside {l : Bool} {budget : Nat} {es : List Entry} {a floor : Nat}
    {st : EntryState} (h : claimState l budget es a floor = some st) :
    st = .active ∨ st = .outside := by
  unfold claimState at h
  revert h
  cases floorFits budget es a floor <;> cases l <;> cases findEntry a es with
  | none => intro h; simp at h; simp [← h]
  | some e =>
    cases hs : e.state <;> simp only [hs] <;> intro h <;> (try split at h) <;> simp at h <;>
      simp [← h]

/-! ## Ageing -/

/-- Ageing keeps an entry's address, terms and values, and what is counted after it was counted
before (R51). -/
theorem ageEntry_keeps {own gone : Nat} {e x : Entry} (h : ageEntry own gone e = some x) :
    x.addr = e.addr ∧ x.terms = e.terms ∧ x.values = e.values ∧ x.counted = e.counted := by
  unfold ageEntry at h
  revert h
  split
  · rintro ⟨rfl⟩; simp
  · cases hs : e.state <;> simp only
    · rintro ⟨rfl⟩; simp
    all_goals
      split <;> try split
      all_goals first
        | (rintro ⟨rfl⟩; simp [Entry.counted, hs])
        | (intro h; simp at h)

/-- A list each of whose entries keeps its address or goes keeps its order. -/
theorem sorted_filterMap {f : Entry → Option Entry} (hf : ∀ e x, f e = some x → x.addr = e.addr)
    {es : List Entry} (h : SortedEntries es) : SortedEntries (es.filterMap f) := by
  refine List.pairwise_filterMap.2 (h.imp ?_)
  intro x y hxy x' hx' y' hy'
  rw [hf x x' hx', hf y y' hy']
  exact hxy

/-- Stage 1 keeps the order (R50 to R52). -/
theorem sorted_stageOne (kind : BoundaryKind) (own gone : Nat) {es : List Entry}
    (h : SortedEntries es) : SortedEntries (stageOne kind own gone es) := by
  cases kind
  · exact sorted_filterMap (fun _ _ hx => (ageEntry_keeps hx).1) h
  · exact h

/-- Stage 1 never raises the floor sum (R41, R51). -/
theorem floorSum_stageOne_le (kind : BoundaryKind) (own gone : Nat) (es : List Entry) :
    floorSum (stageOne kind own gone es) ≤ floorSum es := by
  cases kind
  · induction es with
    | nil => simp [stageOne]
    | cons e es ih =>
      simp only [stageOne, List.filterMap_cons] at ih ⊢
      cases hx : ageEntry own gone e with
      | none => simp only [floorSum_cons]; omega
      | some x =>
        obtain ⟨-, ht, -, hc⟩ := ageEntry_keeps hx
        simp only [floorSum_cons, ht, hc]; omega
  · exact le_refl _

/-! ## Admission -/

@[simp] theorem Entry.admitted_addr (e : Entry) : e.admitted.addr = e.addr := rfl
@[simp] theorem Entry.admitted_terms (e : Entry) : e.admitted.terms = e.terms := rfl
@[simp] theorem Entry.admitted_state (e : Entry) : e.admitted.state = .active := rfl

@[simp] theorem Entry.notAdmitted_addr (e : Entry) : e.notAdmitted.addr = e.addr := by
  unfold Entry.notAdmitted; split <;> rfl

@[simp] theorem Entry.notAdmitted_terms (e : Entry) : e.notAdmitted.terms = e.terms := by
  unfold Entry.notAdmitted; split <;> rfl

/-- An entry that is taken up does not count in the floor sum yet (R41, R53). -/
theorem counted_of_eligible {own : Nat} {e : Entry} (h : eligible own e = true) :
    e.counted = false := by
  unfold eligible at h
  unfold Entry.counted
  cases hs : e.state <;> simp_all

/-- An entry that is not admitted does not count either (R53). -/
theorem counted_notAdmitted {own : Nat} {e : Entry} (h : eligible own e = true) :
    e.notAdmitted.counted = false := by
  unfold Entry.notAdmitted
  split
  · simp [Entry.counted]
  · exact counted_of_eligible h

/-- Stage 3 keeps the addresses in their order (R53). -/
theorem admission_addrs (budget own sum : Nat) (es : List Entry) :
    (admission budget own sum es).map (fun e => e.addr) = es.map (fun e => e.addr) := by
  induction es generalizing sum with
  | nil => rfl
  | cons e es ih =>
    unfold admission
    split
    · split <;> simp [ih]
    · simp [ih]

/-- The order of a table is the order of its addresses. -/
theorem sorted_iff_addrs (es : List Entry) :
    SortedEntries es ↔ (es.map (fun e => e.addr)).Pairwise (· < ·) := List.pairwise_map.symm

/-- Stage 3 keeps the order (R53). -/
theorem sorted_admission (budget own sum : Nat) {es : List Entry} (h : SortedEntries es) :
    SortedEntries (admission budget own sum es) := by
  rw [sorted_iff_addrs, admission_addrs, ← sorted_iff_addrs]; exact h

/-- Stage 3 admits within the budget: with the running sum at what the entries before leave (base) and
the floor sum of the rest, the floor sum after it stays at most the larger of the two (R53). -/
theorem floorSum_admission_le (budget own sum base : Nat) (es : List Entry)
    (h : sum = base + floorSum es) :
    base + floorSum (admission budget own sum es) ≤ max sum budget := by
  induction es generalizing sum base with
  | nil => simp [admission]; omega
  | cons e es ih =>
    rw [floorSum_cons] at h
    unfold admission
    split
    · rename_i hel
      have hc := counted_of_eligible hel
      simp only [hc, Bool.false_eq_true, if_false, zero_add] at h
      split
      · have := ih (sum + e.terms.floor) (base + e.terms.floor) (by omega)
        rw [floorSum_cons]
        simp only [Entry.counted, Entry.admitted_state, beq_self_eq_true, Bool.true_or, if_true,
          Entry.admitted_terms]
        omega
      · have := ih sum base h
        rw [floorSum_cons, counted_notAdmitted hel]
        simpa using this
    · have := ih sum (base + if e.counted then e.terms.floor else 0) (by omega)
      rw [floorSum_cons]
      omega

/-- One entry at stage 3, in the words of the meaning (R53). -/
theorem decideEntry_eq (budget own sum : Nat) (done : List Entry) (e : Entry) :
    decideEntry budget own (sum, done) e
      = if eligible own e then
          if sum + e.terms.floor ≤ budget then (sum + e.terms.floor, done ++ [e.admitted])
          else (sum, done ++ [e.notAdmitted])
        else (sum, done ++ [e]) := by
  unfold decideEntry
  cases h : e.state <;> by_cases hh : e.heard = true <;> by_cases ha : e.addr = own <;>
    simp [eligible, Entry.admitted, Entry.notAdmitted, zeroValues, h, hh, ha]

/-- Stage 3 as one pass over the entries, with the sum and the decisions so far (R53). -/
theorem foldl_decideEntry (budget own sum : Nat) (done es : List Entry) :
    (es.foldl (decideEntry budget own) (sum, done)).2 = done ++ admission budget own sum es := by
  induction es generalizing sum done with
  | nil => simp [admission]
  | cons e es ih =>
    rw [List.foldl_cons, decideEntry_eq, admission]
    split
    · split <;> rw [ih] <;> simp
    · rw [ih]; simp

/-- A boundary keeps the floor sum within the budget (R41, R53). -/
theorem floorSum_admittedEntries_le (c : Settings) (kind : BoundaryKind) (own : Nat)
    (es : List Entry) (h : floorSum es ≤ c.budget) :
    floorSum (admittedEntries c kind own es) ≤ c.budget := by
  have h1 := floorSum_stageOne_le kind own (tGone c.tIsolate) es
  have h2 := floorSum_admission_le c.budget own _ 0 (stageOne kind own (tGone c.tIsolate) es)
    (zero_add _).symm
  simp only [admittedEntries]
  omega

/-- A boundary keeps the order of the table (R39). -/
theorem sorted_admittedEntries (c : Settings) (kind : BoundaryKind) (own : Nat) {es : List Entry}
    (h : SortedEntries es) : SortedEntries (admittedEntries c kind own es) :=
  sorted_admission _ _ _ (sorted_stageOne _ _ _ h)

/-- Stage 5 touches the heard flags only (R50). -/
theorem floorSum_clearHeard (es : List Entry) : floorSum (clearHeard es) = floorSum es := by
  induction es with
  | nil => rfl
  | cons e es ih =>
    simp only [clearHeard, List.map_cons, floorSum_cons] at ih ⊢
    rw [ih]; rfl

/-- Stage 5 keeps the order (R39). -/
theorem sorted_clearHeard {es : List Entry} (h : SortedEntries es) :
    SortedEntries (clearHeard es) := List.pairwise_map.2 (h.imp (fun hxy => hxy))

/-! ## Orphans -/

/-- Stage 2 lowers each remaining count by one and keeps those above 0 (R57). -/
theorem mem_ageOrphans {os : List Orphan} {x : Orphan} :
    x ∈ ageOrphans os ↔ 1 ≤ x.remaining ∧ { x with remaining := x.remaining + 1 } ∈ os := by
  unfold ageOrphans
  rw [List.mem_filterMap]
  constructor
  · rintro ⟨o, ho, h⟩
    split at h
    · simp at h
    · simp at h; subst h
      have : o.remaining - 1 + 1 = o.remaining := by omega
      exact ⟨by simp; omega, by simpa [this] using ho⟩
  · rintro ⟨h1, h2⟩
    refine ⟨_, h2, ?_⟩
    have : ¬ x.remaining + 1 ≤ 1 := by omega
    simp [this]

/-- Stage 2 keeps the order (R55). -/
theorem sorted_ageOrphans {os : List Orphan} (h : SortedOrphans os) :
    SortedOrphans (ageOrphans os) := by
  refine List.pairwise_filterMap.2 (h.imp ?_)
  intro x y hxy x' hx' y' hy'
  split at hx' <;> simp at hx'
  split at hy' <;> simp at hy'
  subst hx' hy'
  exact hxy

/-- Orphans made from entries keep the order of the list (R55, R56). -/
theorem sorted_addOrphans (tOrphan : Nat) (es : List Entry) {os : List Orphan}
    (h : SortedOrphans os) : SortedOrphans (addOrphans tOrphan es os) := by
  unfold addOrphans
  split
  · exact h
  · induction es generalizing os with
    | nil => exact h
    | cons e es ih => exact ih (sorted_putOrphan _ h)

/-- What is on the list after orphans were made: one that was there, or the orphan of an entry
(R56). -/
theorem mem_addOrphans {tOrphan : Nat} {es : List Entry} {os : List Orphan} {x : Orphan}
    (h : x ∈ addOrphans tOrphan es os) : x ∈ os ∨ ∃ e ∈ es, x = orphanOf tOrphan e := by
  unfold addOrphans at h
  split at h
  · exact Or.inl h
  · induction es generalizing os with
    | nil => exact Or.inl h
    | cons e es ih =>
      rcases ih h with h' | ⟨y, hy, rfl⟩
      · rcases mem_putOrphan h' with rfl | h''
        · exact Or.inr ⟨e, by simp, rfl⟩
        · exact Or.inl h''
      · exact Or.inr ⟨y, List.mem_cons_of_mem _ hy, rfl⟩

/-- The five stages keep both orders (R39, R55). -/
theorem GroupTable.sorted_stages (g : GroupTable) (c : Settings) (kind : BoundaryKind) (own : Nat)
    (isolated : Bool) (he : SortedEntries g.entries) (ho : SortedOrphans g.orphans) :
    SortedEntries (g.stages c kind own isolated).entries
      ∧ SortedOrphans (g.stages c kind own isolated).orphans :=
  ⟨sorted_clearHeard (sorted_admittedEntries c kind own he),
    sorted_addOrphans _ _ (sorted_ageOrphans ho)⟩

/-- The isolation move keeps the order of the orphans and no entry (R58). -/
theorem GroupTable.sorted_isolationMove (g : GroupTable) (c : Settings) (own : Nat)
    (ho : SortedOrphans g.orphans) :
    (g.isolationMove c own).entries = [] ∧ SortedOrphans (g.isolationMove c own).orphans :=
  ⟨rfl, sorted_addOrphans _ _ (sorted_ageOrphans ho)⟩

end Sys2Proof.Machine
end

