-- ==== Sys2Proof/Laws/Allocation.lean ====
section
/-! SUPPORT. What the stages of the Allocator hand out, said once per stage: what is given and what
remains add up to what there was, and nobody is given more than it asks (R68 to R71). -/

namespace Sys2Proof.Machine

/-- What the claimants hold in all. -/
abbrev givenSum (cs : List Claimant) : Nat := (cs.map (fun c => c.given)).sum

/-- No claimant holds more than the smaller of its demand and its ceiling (R69). -/
abbrev WithinWants (cs : List Claimant) : Prop := ∀ c ∈ cs, c.given ≤ min c.demand c.ceiling

/-! ## Floor stage -/

/-- The floor stage hands out of its remainder and keeps the rest (R68). -/
theorem floorStage_sum (r : Nat) (cs : List Claimant) :
    givenSum (floorStage r cs).1 + (floorStage r cs).2 = r := by
  induction cs generalizing r with
  | nil => simp [floorStage, givenSum]
  | cons c cs ih =>
    have := ih (r - c.floorGrant r)
    have hg : c.floorGrant r ≤ r := Nat.min_le_right _ _
    simp only [givenSum, floorStage, List.map_cons, List.sum_cons] at this ⊢
    omega

/-- The floor stage keeps the addresses in their order. -/
theorem floorStage_addrs (r : Nat) (cs : List Claimant) :
    (floorStage r cs).1.map (fun c => c.addr) = cs.map (fun c => c.addr) := by
  induction cs generalizing r with
  | nil => rfl
  | cons c cs ih => simp [floorStage, ih]

/-- A floor grant is at most the smaller of demand and floor, so within the want where the floor is
within the ceiling (R68, R69). -/
theorem floorStage_within (r : Nat) (cs : List Claimant) (h : ∀ c ∈ cs, c.floor ≤ c.ceiling) :
    WithinWants (floorStage r cs).1 := by
  induction cs generalizing r with
  | nil => simp [floorStage, WithinWants]
  | cons c cs ih =>
    intro x hx
    simp only [floorStage, List.mem_cons] at hx
    rcases hx with rfl | hx
    · have hf := h c (by simp)
      have : c.floorGrant r ≤ min c.demand c.floor := Nat.min_le_left _ _
      simp only
      omega
    · exact ih _ (fun y hy => h y (List.mem_cons_of_mem _ hy)) x hx

/-- Some normal entry is short of its floor grant exactly where the remainder does not reach all of
them (R68). -/
theorem shortfall_floorStage (r : Nat) (es : List Entry) :
    shortfall (floorStage r (es.map Entry.claimant)).1 = true
      ↔ r < (es.map (fun e => min e.vals.demand e.terms.floor)).sum := by
  induction es generalizing r with
  | nil => simp [floorStage, shortfall]
  | cons e es ih =>
    have h := ih (r - e.claimant.floorGrant r)
    simp only [shortfall, List.map_cons, floorStage, List.any_cons, Bool.or_eq_true,
      decide_eq_true_eq, List.sum_cons, Claimant.floorGrant, Entry.claimant] at h ⊢
    rw [h]
    omega

/-! ## Weighted pass -/

/-- A weighted pass hands out weightedSum (R70). -/
theorem weightedPass_sum (q : Nat) (cs : List Claimant) :
    givenSum (weightedPass q cs) = givenSum cs + weightedSum q cs := by
  induction cs with
  | nil => rfl
  | cons c cs ih =>
    simp only [givenSum, weightedPass, weightedSum, List.map_cons, List.sum_cons] at ih ⊢
    omega

/-- A weighted pass hands out at most q for each unit of weight of the unsatisfied (R70). -/
theorem weightedSum_le (q : Nat) (cs : List Claimant) : weightedSum q cs ≤ q * weightSum cs := by
  induction cs with
  | nil => simp [weightedSum]
  | cons c cs ih =>
    unfold weightedSum weightSum at *
    simp only [List.map_cons, List.sum_cons, List.filter_cons]
    by_cases h : 0 < c.want
    · simp only [h, decide_true, if_true, List.map_cons, List.sum_cons, Nat.mul_add]
      have : c.weightedGrant q ≤ q * c.weight := Nat.min_le_left _ _
      omega
    · have : c.weightedGrant q ≤ c.want := Nat.min_le_right _ _
      simp only [h, decide_false, Bool.false_eq_true, if_false]
      omega

/-- A weighted pass gives nobody more than it asks (R70). -/
theorem weightedPass_within (q : Nat) {cs : List Claimant} (h : WithinWants cs) :
    WithinWants (weightedPass q cs) := by
  intro x hx
  obtain ⟨c, hc, rfl⟩ := List.mem_map.1 hx
  have h1 := h c hc
  have h2 : c.weightedGrant q ≤ c.want := Nat.min_le_right _ _
  simp only [Claimant.want] at h2 ⊢
  omega

/-! ## Unit pass -/

/-- A unit pass hands out of its remainder and keeps the rest (R71). -/
theorem unitPass_sum (r : Nat) (cs : List Claimant) :
    givenSum (unitPass r cs).1 + (unitPass r cs).2 = givenSum cs + r := by
  induction cs generalizing r with
  | nil => cases r <;> simp [unitPass]
  | cons c cs ih =>
    cases r with
    | zero => simp [unitPass]
    | succ r =>
      unfold unitPass
      split
      · have := ih r
        simp only [givenSum, List.map_cons, List.sum_cons] at this ⊢
        omega
      · have := ih (r + 1)
        simp only [givenSum, List.map_cons, List.sum_cons] at this ⊢
        omega

/-- A unit pass gives nobody more than it asks (R71). -/
theorem unitPass_within (r : Nat) {cs : List Claimant} (h : WithinWants cs) :
    WithinWants (unitPass r cs).1 := by
  induction cs generalizing r with
  | nil => cases r <;> simp [unitPass, WithinWants]
  | cons c cs ih =>
    have hc := h c (by simp)
    have ht : WithinWants cs := fun y hy => h y (List.mem_cons_of_mem _ hy)
    cases r with
    | zero => simpa [unitPass] using h
    | succ r =>
      unfold unitPass
      split
      · rename_i hw
        intro x hx
        simp only [List.mem_cons] at hx
        rcases hx with rfl | hx
        · simp only [Claimant.want] at hw ⊢; omega
        · exact ih r ht x hx
      · intro x hx
        simp only [List.mem_cons] at hx
        rcases hx with rfl | hx
        · exact hc
        · exact ih (r + 1) ht x hx

/-! ## The order of a unit pass -/

/-- Putting a claimant in its place only moves it. -/
theorem insertClaimant_perm (c : Claimant) (cs : List Claimant) :
    (insertClaimant c cs).Perm (c :: cs) := by
  induction cs with
  | nil => simp [insertClaimant]
  | cons d ds ih =>
    unfold insertClaimant
    split
    · exact List.Perm.refl _
    · exact (List.Perm.cons d ih).trans (List.Perm.swap c d ds)

/-- The order of R71 is a rearrangement. -/
theorem inUnitOrder_perm (cs : List Claimant) : (inUnitOrder cs).Perm cs := by
  induction cs with
  | nil => exact List.Perm.refl _
  | cons c cs ih =>
    exact (insertClaimant_perm c _).trans (List.Perm.cons c ih)

/-! ## The snapshot -/

/-- The snapshot always has an allocation for each of the 32 addresses (R72). -/
theorem length_alloc_allocate (c : Settings) (es : List Entry) (os : List Orphan) :
    (allocate c es os).alloc.length = 32 := by simp [allocate]

end Sys2Proof.Machine
end

