-- ==== Sys2Proof/Laws/Frame.lean ====
section
/-! SUPPORT. What the operations of the share bus never touch: the pins, the loader, the delivered
configuration, the port, the free orders and the queue, and what a boundary besides never touches. -/

namespace Sys2Proof.Machine

/-- What no event of the share bus touches. -/
def State.KeepsOutside (s t : State) : Prop :=
  t.pins = s.pins ∧ t.loader = s.loader ∧ t.cfg = s.cfg ∧ t.port = s.port
    ∧ t.freeDraws = s.freeDraws ∧ t.pending = s.pending

/-- What a boundary does not touch besides: the Line Controller and the Frame Checker. -/
def State.KeepsLine (s t : State) : Prop :=
  s.KeepsOutside t ∧ t.line = s.line ∧ t.checker = s.checker

theorem State.KeepsOutside.refl (s : State) : s.KeepsOutside s := ⟨rfl, rfl, rfl, rfl, rfl, rfl⟩

theorem State.KeepsOutside.trans {s t u : State} (h : s.KeepsOutside t) (g : t.KeepsOutside u) :
    s.KeepsOutside u :=
  ⟨g.1.trans h.1, g.2.1.trans h.2.1, g.2.2.1.trans h.2.2.1, g.2.2.2.1.trans h.2.2.2.1,
    g.2.2.2.2.1.trans h.2.2.2.2.1, g.2.2.2.2.2.trans h.2.2.2.2.2⟩

theorem State.KeepsLine.refl (s : State) : s.KeepsLine s := ⟨.refl s, rfl, rfl⟩

theorem State.KeepsLine.trans {s t u : State} (h : s.KeepsLine t) (g : t.KeepsLine u) :
    s.KeepsLine u := ⟨h.1.trans g.1, g.2.1.trans h.2.1, g.2.2.trans h.2.2⟩

/-- The own address stands where the loader does. -/
theorem State.KeepsOutside.ownAddr {s t : State} (h : s.KeepsOutside t) : t.ownAddr = s.ownAddr := by
  unfold State.ownAddr; rw [h.2.1]

/-- The own role stands where the loader does. -/
theorem State.KeepsOutside.ownRole {s t : State} (h : s.KeepsOutside t) : t.ownRole = s.ownRole := by
  unfold State.ownRole; rw [h.2.1]

/-! ## Moves of the station -/

theorem State.keeps_formLimit (s : State) : s.KeepsLine s.formLimit := .refl s
theorem State.keeps_enterOffline (s : State) : s.KeepsLine s.enterOffline := .refl s
theorem State.keeps_enterListen (s : State) : s.KeepsLine s.enterListen := .refl s
theorem State.keeps_enterJoining (s : State) : s.KeepsLine s.enterJoining := .refl s
theorem State.keeps_enterIsolated (s : State) : s.KeepsLine s.enterIsolated := .refl s

theorem State.keeps_enterFaultState (s : State) (st : Station) (code : FaultCode) :
    s.KeepsLine (s.enterFaultState st code) := .refl s

theorem State.keeps_endLeaving (s : State) : s.KeepsLine s.endLeaving := by
  unfold State.endLeaving; split <;> exact .refl s

theorem State.keeps_endListen (s : State) : s.KeepsLine s.endListen := by
  unfold State.endListen; split <;> exact .refl s

theorem State.keeps_endIsolated (s : State) : s.KeepsLine s.endIsolated := by
  unfold State.endIsolated; simp only; split <;> exact .refl s

theorem State.keeps_conflictEvidence (s : State) : s.KeepsLine s.conflictEvidence := by
  unfold State.conflictEvidence; split <;> exact .refl s

/-! ## The boundary -/

theorem State.keeps_countBoundary (s : State) (kind : BoundaryKind) :
    s.KeepsLine (s.countBoundary kind) := by cases kind <;> exact .refl s

theorem State.keeps_evaluateIsolation (s : State) : s.KeepsLine s.evaluateIsolation := by
  unfold State.evaluateIsolation; split <;> try split
  all_goals exact .refl s

theorem State.keeps_monitorLook (s : State) : s.KeepsLine s.monitorLook := by
  unfold State.monitorLook
  split <;> try split
  all_goals first | exact .refl s | (split <;> exact .refl s)

theorem State.keeps_shedCountdown (s : State) : s.KeepsLine s.shedCountdown :=
  .trans (t := State.formLimit { s with
    shed := { s.shed with table := s.shed.table.map countDown } }) (.refl s) (keeps_monitorLook _)

theorem State.keeps_ownAdmission (s : State) (d : Option Bool) : s.KeepsLine (s.ownAdmission d) := by
  unfold State.ownAdmission
  split <;> try split
  all_goals exact .refl s

theorem State.keeps_tablePart (s : State) (kind : BoundaryKind) (isolating : Bool) :
    s.KeepsLine (s.tablePart kind isolating) := by
  unfold State.tablePart
  split
  · exact .refl s
  · unfold State.tableStages
    refine State.KeepsLine.trans (t := { s with
      table := s.table.stages s.cfg kind s.ownAddr (s.ctl.station == .isolated) }) (.refl s) ?_
    exact State.keeps_ownAdmission _ _

theorem State.keeps_allocateStage (s : State) (silent : Bool) :
    s.KeepsLine (s.allocateStage silent) := .refl s

theorem State.keeps_shareStage (s : State) (kind : BoundaryKind) (own : Bool)
    (set : List (Nat × Confirmation)) : s.KeepsLine (s.shareStage kind own set) := by
  unfold State.shareStage
  split
  · simp only
    split <;> split <;> exact .refl s
  · exact .refl s

theorem State.keeps_completeBoundary (s : State) (began : Station) :
    s.KeepsLine (s.completeBoundary began) := by
  unfold State.completeBoundary
  split
  · exact .refl s
  · simp only
    split
    · exact State.keeps_endListen _
    · exact .refl s
  · exact State.keeps_endIsolated s
  · exact .refl s

theorem State.keeps_boundaryWork (s : State) (kind : BoundaryKind) :
    s.KeepsLine (s.boundaryWork kind) := by
  unfold State.boundaryWork
  refine .trans ?_ (State.keeps_completeBoundary _ _)
  refine .trans ?_ (State.keeps_shareStage _ _ _ _)
  refine .trans ?_ (State.keeps_allocateStage _ _)
  refine .trans ?_ (State.keeps_tablePart _ _ _)
  exact .trans s.keeps_evaluateIsolation (State.keeps_shedCountdown _)

/-- A boundary of either kind leaves everything outside the group's own bookkeeping. -/
theorem State.keeps_boundary (s : State) (kind : BoundaryKind) : s.KeepsLine (s.boundary kind) := by
  unfold State.boundary
  split
  · exact (s.keeps_countBoundary kind).trans (keeps_boundaryWork _ _)
  · exact s.keeps_countBoundary kind

/-! ## The rotation through a boundary -/

/-- What a boundary leaves of the rotation: everything but the silence timer (R9, R18). -/
def State.SameRotation (s t : State) : Prop :=
  t.rotation.synced = s.rotation.synced ∧ t.rotation.rot = s.rotation.rot
    ∧ t.rotation.slot = s.rotation.slot ∧ t.rotation.roundCount = s.rotation.roundCount

theorem State.SameRotation.refl (s : State) : s.SameRotation s := ⟨rfl, rfl, rfl, rfl⟩

theorem State.SameRotation.trans {s t u : State} (h : s.SameRotation t) (g : t.SameRotation u) :
    s.SameRotation u :=
  ⟨g.1.trans h.1, g.2.1.trans h.2.1, g.2.2.1.trans h.2.2.1, g.2.2.2.trans h.2.2.2⟩

theorem State.sameRotation_evaluateIsolation (s : State) : s.SameRotation s.evaluateIsolation := by
  unfold State.evaluateIsolation; split <;> try split
  all_goals exact .refl s

theorem State.sameRotation_shedCountdown (s : State) : s.SameRotation s.shedCountdown := by
  unfold State.shedCountdown State.monitorLook
  split <;> try split
  all_goals first | exact .refl s | (split <;> exact .refl s)

theorem State.sameRotation_tablePart (s : State) (kind : BoundaryKind) (isolating : Bool) :
    s.SameRotation (s.tablePart kind isolating) := by
  unfold State.tablePart State.tableStages State.ownAdmission
  split
  · exact .refl s
  · split <;> try split
    all_goals exact .refl s

theorem State.sameRotation_allocateStage (s : State) (silent : Bool) :
    s.SameRotation (s.allocateStage silent) := .refl s

theorem State.sameRotation_shareStage (s : State) (kind : BoundaryKind) (own : Bool)
    (set : List (Nat × Confirmation)) : s.SameRotation (s.shareStage kind own set) := by
  unfold State.shareStage
  split
  · simp only
    split <;> split <;> exact .refl s
  · exact .refl s

theorem State.sameRotation_completeBoundary (s : State) (began : Station) :
    s.SameRotation (s.completeBoundary began) := by
  unfold State.completeBoundary State.endListen State.endIsolated
  split
  · exact .refl s
  · simp only
    split
    · split <;> exact .refl s
    · exact .refl s
  · simp only
    split <;> exact .refl s
  · exact .refl s

/-- The work of a boundary leaves sync, ROT, the slot and the round count; only the silence timer may
be started or stopped by a change of station state (R9, R18). -/
theorem State.sameRotation_boundaryWork (s : State) (kind : BoundaryKind) :
    s.SameRotation (s.boundaryWork kind) := by
  unfold State.boundaryWork
  refine .trans ?_ (State.sameRotation_completeBoundary _ _)
  refine .trans ?_ (State.sameRotation_shareStage _ _ _ _)
  refine .trans ?_ (State.sameRotation_allocateStage _ _)
  refine .trans ?_ (State.sameRotation_tablePart _ _ _)
  exact .trans s.sameRotation_evaluateIsolation (State.sameRotation_shedCountdown _)

/-- A boundary counts one round and leaves sync, ROT and the slot (R9, R16). -/
theorem State.rotation_boundary (s : State) (kind : BoundaryKind) :
    (s.boundary kind).rotation.synced = s.rotation.synced
      ∧ (s.boundary kind).rotation.rot = s.rotation.rot
      ∧ (s.boundary kind).rotation.slot = s.rotation.slot
      ∧ (s.boundary kind).rotation.roundCount = s.rotation.roundCount + 1 := by
  have h : (s.countBoundary kind).SameRotation (s.boundary kind) := by
    unfold State.boundary
    split
    · exact sameRotation_boundaryWork _ _
    · exact .refl _
  cases kind <;> exact h

/-! ## The own burst -/

theorem State.keeps_openOwnSlot (s : State) : s.KeepsOutside s.openOwnSlot := by
  unfold State.openOwnSlot; split <;> exact .refl s

theorem State.keeps_openSlot (s : State) (a : Nat) : s.KeepsOutside (s.openSlot a) := by
  unfold State.openSlot
  simp only
  split
  · exact State.KeepsOutside.trans (t := { s with
      rotation := { s.rotation with rot := a, slot := .window } }) (.refl s) (keeps_openOwnSlot _)
  · exact .refl s

/-- A slot opens with ROT at it and its window running (R7). -/
theorem State.rotation_openSlot (s : State) (a : Nat) :
    (s.openSlot a).rotation = { s.rotation with rot := a, slot := .window } := by
  unfold State.openSlot State.openOwnSlot
  simp only
  split
  · split <;> rfl
  · rfl

theorem State.keeps_advance (s : State) : s.KeepsOutside s.advance := by
  unfold State.advance
  split
  · exact s.keeps_openSlot _
  · exact (s.keeps_boundary _).1.trans (keeps_openSlot _ _)

theorem State.keeps_framesNotSent (s : State) (frames : List Frame) :
    s.KeepsOutside (s.framesNotSent frames) := by
  unfold State.framesNotSent
  split
  · simp only
    split
    · refine State.KeepsOutside.trans (t := { s with
        sched := { s.sched with leaveAttempts := s.sched.leaveAttempts + 1 } }) (.refl s) ?_
      exact (State.keeps_endLeaving _).1
    · exact .refl s
  · exact .refl s

theorem State.keeps_countCollision (s : State) : s.KeepsLine s.countCollision := by
  unfold State.countCollision
  simp only
  split <;> simp [State.KeepsLine, State.KeepsOutside]

theorem State.keeps_collide (s : State) : s.KeepsOutside s.collide :=
  (State.KeepsOutside.trans (t := s.dropBurst) (.refl s) (keeps_countCollision _).1).trans
    (keeps_framesNotSent _ _)

theorem State.keeps_defer (s : State) : s.KeepsOutside s.defer :=
  State.KeepsOutside.trans (t := s.dropBurst) (.refl s) (keeps_framesNotSent _ _)

theorem State.keeps_frameEffect (s : State) (f : Frame) : s.KeepsLine (s.frameEffect f) := by
  cases f
  · exact .refl s
  · exact .refl s
  · unfold State.frameEffect
    simp only
    split
    · exact s.keeps_endLeaving
    · exact .refl s
  · unfold State.frameEffect State.shedSent
    simp only
    split <;> exact .refl s

/-! ## The end of a frame -/

/-- A resync leaves the Line Controller and the Frame Checker (R6, R15, R16). -/
theorem State.keeps_resync (s : State) (a : Nat) : s.KeepsLine (s.resync a) := by
  unfold State.resync
  split
  · split
    · split
      · exact (s.keeps_boundary .lost).trans (.refl _)
      · split <;> exact .refl s
    · exact .refl s
  · exact .refl s

/-- A resync by a slot of the group leaves the station synced at that slot (R6, R15, R16). -/
theorem State.rot_resync (s : State) {a : Nat} (h : a < s.cfg.nSlots) :
    (s.resync a).rotation.synced = true ∧ (s.resync a).rotation.rot = a := by
  unfold State.resync
  rw [if_pos h]
  split
  · rename_i hs
    split
    · exact ⟨(s.rotation_boundary .lost).1.trans hs, rfl⟩
    · split
      · exact ⟨hs, rfl⟩
      · exact ⟨hs, by omega⟩
  · exact ⟨rfl, rfl⟩

theorem State.keeps_discard (s : State) (reason : Reason) (body : List Byte) :
    s.KeepsOutside (s.discard reason body) := by
  cases reason <;> first
    | exact .refl s
    | exact State.KeepsOutside.trans (t := s.recordDiscard _ body) (.refl s)
        (keeps_conflictEvidence _).1

theorem State.keeps_accept (s : State) (f : Frame) : s.KeepsOutside (s.accept f) := by
  cases f <;> simp [State.KeepsOutside, State.accept, State.dispatch]

theorem State.keeps_settleVerdict (s : State) (v : Verdict) (body : List Byte) :
    s.KeepsOutside (s.settleVerdict v body) := by
  cases v
  · exact s.keeps_accept _
  · exact s.keeps_discard _ _

/-- The end of a frame leaves everything outside the group's own bookkeeping (R22, R33). -/
theorem State.keeps_endOfFrame (s : State) (r : FrameReport) : s.KeepsOutside (s.endOfFrame r) := by
  unfold State.endOfFrame
  refine .trans ?_ (State.keeps_settleVerdict _ _ _)
  split
  · exact (s.keeps_resync _).1
  · exact .refl s

end Sys2Proof.Machine
end

