-- ==== Sys2Proof/Laws/FrameReport.lean ====
section
/-! SUPPORT. What a frame report comes to, in the words of the statements: the verdict settled in the
state of judgement, and the history that a discard leaves (R22, R33, R35, R37). -/

namespace Sys2Proof.Machine

/-- A frame report of an attempt in a configured station is its verdict, settled in the state in which the
frame is judged (R22). -/
theorem exec_frameReport_of_judges {s : State} {bits : List Bool} {v : Verdict} (h : s.Judges bits v) :
    exec (.frameReport bits) s
      = .next ((s.atJudgement bits).settleVerdict v (lineReport s.line.receiver bits).body) := by
  obtain ⟨hc, ha, rfl⟩ := h
  simp [exec, execFrameReport, hc, ha, State.endOfFrame, State.atJudgement]

/-- A report that is not CRC-valid is judged with the line idle and the rotation as it stood (R5). -/
theorem State.atJudgement_of_invalid {s : State} {bits : List Bool}
    (h : (lineReport s.line.receiver bits).crcValid = false) : s.atJudgement bits = s.lineIdle := by
  simp [State.atJudgement, h]

/-- A report whose code status is not good is not CRC-valid (R4). -/
theorem crcValid_of_status {r : Receiver} {bits : List Bool} (h : (lineReport r bits).status ≠ .good) :
    (lineReport r bits).crcValid = false := by
  have h' : codeStatus r bits ≠ .good := h
  simp [lineReport, h']

/-- The history takes a discard as R37 says. -/
theorem historyTakes_addDiscard (h : List DiscardRecord) (reason : Reason) (sender kind : Option Nat)
    (round : Byte) :
    historyTakes h (addDiscard h reason sender kind round) reason sender kind round := by
  have hd : ∀ r : DiscardRecord, r.describes reason sender kind = true
      ↔ r.reason = reason ∧ r.sender = sender ∧ r.kind = kind := by
    intro r; simp [DiscardRecord.describes, and_assoc]
  constructor
  · intro r hr hs
    have hm : min (r.repeats + 1) 255 = if r.repeats < 255 then r.repeats + 1 else 255 := by
      split <;> omega
    simp [addDiscard, hr, (hd r).2 hs, DiscardRecord.again, hm]
  · intro hn
    unfold addDiscard
    cases hl : h.getLast? with
    | none => simp [List.getLast?_eq_none_iff.1 hl]
    | some r =>
      have : ¬ r.describes reason sender kind = true := fun hh => hn r hl ((hd r).1 hh)
      simp [this]

end Sys2Proof.Machine
end

