-- ==== Sys2Proof/Laws/LineRead.lean ====
section
/-! SUPPORT. What the readings of LRX can come to, said once: bits in Manchester code, the idle line, the
start of a frame, and the read-back (R2 to R4, R13). -/

namespace Sys2Proof.Machine

/-! ## Bit times -/

/-- A bit in Manchester code decodes to itself (R1). -/
@[simp] theorem decodeBit_manchester (b : Bool) : decodeBit (manchester b) = some b := by
  cases b <;> rfl

/-- A level held for a bit time does not decode (R4). -/
@[simp] theorem decodeBit_flat (level : Bool) : decodeBit (level, level) = none := by
  simp [decodeBit]

/-- A bit time that decodes is the Manchester code of its bit (R1). -/
theorem eq_manchester_of_decodeBit {x : BitTime} {b : Bool} (h : decodeBit x = some b) :
    x = manchester b := by
  revert h; revert x b; decide

/-! ## The idle line -/

/-- A bit time with a transition is no idle time (R2). -/
theorem untilIdle_cons_of_bit {x : BitTime} (h : decodeBit x ≠ none) (times : List BitTime) :
    untilIdle (x :: times) = (untilIdle times).map (x :: ·) := by
  cases times with
  | nil => rfl
  | cons y rest => simp [untilIdle, h]

/-- A level held for a bit time is no idle time where it does not go on (R2). -/
theorem untilIdle_cons_of_ne {x y : BitTime} (h : y ≠ x) (times : List BitTime) :
    untilIdle (x :: y :: times) = (untilIdle (y :: times)).map (x :: ·) := by
  simp [untilIdle, Ne.symm h]

/-- Two bit times without a transition are the idle line (R2). -/
@[simp] theorem untilIdle_idle (level : Bool) (rest : List BitTime) :
    untilIdle ((level, level) :: (level, level) :: rest) = some [(level, level), (level, level)] := by
  simp [untilIdle]

/-- Bits in Manchester code pass before the line is idle (R2). -/
theorem untilIdle_bits (bits : List Bool) (times : List BitTime) :
    untilIdle (bits.map manchester ++ times) = (untilIdle times).map (bits.map manchester ++ ·) := by
  induction bits with
  | nil => simp
  | cons b bits ih =>
    rw [List.map_cons, List.cons_append, untilIdle_cons_of_bit (by simp), ih, Option.map_map]
    rfl

/-! ## Start and body -/

/-- The bits before the first bit time that does not decode are the body's (R4). -/
theorem bodyBits_bits (bits : List Bool) (times : List BitTime) :
    bodyBits (bits.map manchester ++ times) = bits ++ bodyBits times := by
  induction bits with
  | nil => simp
  | cons b bits ih => simp [bodyBits, ih]

/-- A start is accepted with the first two preamble bits lost (R3). -/
theorem afterStart_of_lead (x y : BitTime) (body : List BitTime) :
    afterStart (x :: y :: startShape ++ body) = some body := by
  rcases x with ⟨_ | _, _ | _⟩ <;> rcases y with ⟨_ | _, _ | _⟩ <;> rfl

/-! ## The read-back -/

/-- A bit time is read back as driven exactly where the levels are those driven (R13). -/
theorem readsBack_iff (sent read : BitTime) : readsBack sent read = true ↔ read = sent := by
  revert sent read; decide

/-- A frame read back as driven is sent (R12). -/
theorem readBackEvent_self (sent : List BitTime) : readBackEvent sent sent = some .frameSent := by
  induction sent with
  | nil => rfl
  | cons x sent ih => simp [readBackEvent, (readsBack_iff x x).2 rfl, ih]

/-- A frame of which every bit time so far was read back as driven has no outcome yet (R12). -/
theorem readBackEvent_take (sent : List BitTime) (i : Nat) (h : i < sent.length) :
    readBackEvent sent (sent.take i) = none := by
  induction sent generalizing i with
  | nil => simp at h
  | cons x sent ih =>
    cases i with
    | zero => rfl
    | succ i =>
      simpa [readBackEvent, (readsBack_iff x x).2 rfl] using ih i (by simpa using h)

/-- The first bit time read back as another is the abort, whatever follows it (R13). -/
theorem readBackEvent_mismatch (sent tail : List BitTime) (i : Nat) (y : BitTime)
    (h : i < sent.length) (hy : sent[i]? ≠ some y) :
    readBackEvent sent (sent.take i ++ y :: tail) = some .abort := by
  induction sent generalizing i with
  | nil => simp at h
  | cons x sent ih =>
    cases i with
    | zero =>
      have hne : readsBack x y = false := by
        rw [Bool.eq_false_iff, Ne, readsBack_iff]
        rintro rfl
        simp at hy
      simp [readBackEvent, hne]
    | succ i =>
      simpa [readBackEvent, (readsBack_iff x x).2 rfl] using ih i (by simpa using h) (by simpa using hy)

end Sys2Proof.Machine
end

