-- ==== Sys2Proof/Laws/Operands.lean ====
section
/-! SUPPORT. Bytes, bits and lengths: what the operand forms of Machine/Operands.lean and
Machine/Windows.lean give back. -/

namespace Sys2Proof.Machine

/-! ## Bytes -/

/-- A value as one byte keeps its low eight bits. -/
@[simp] theorem byte_toNat (n : Nat) : (byte n).toNat = n % 256 := by
  simp [byte]

/-- Two bytes, high byte first, give a 16-bit value back (R182). -/
theorem bytes2_value {n : Nat} (h : n < 65536) :
    (byte (n / 256)).toNat * 256 + (byte n).toNat = n := by
  simp only [byte_toNat]; omega

@[simp] theorem length_bytes2 (n : Nat) : (bytes2 n).length = 2 := rfl
@[simp] theorem length_bytes4 (n : Nat) : (bytes4 n).length = 4 := rfl
@[simp] theorem length_packed (x y : Nat) : (packed x y).length = 3 := rfl

/-! ## Bits -/

/-- The eight bits of a byte gather into it (R1, R4). -/
theorem byteOfBits_bits (b : Byte) :
    byteOfBits (b.getLsbD 7) (b.getLsbD 6) (b.getLsbD 5) (b.getLsbD 4) (b.getLsbD 3) (b.getLsbD 2)
      (b.getLsbD 1) (b.getLsbD 0) = b := by
  revert b; decide

/-- The bits of a body gather into its bytes (R1, R4). -/
theorem gatherBytes_bitsOfBytes (bytes : List Byte) : gatherBytes (bitsOfBytes bytes) = bytes := by
  induction bytes with
  | nil => rfl
  | cons b bs ih =>
    have : bitsOfBytes (b :: bs) = bitsOfByte b ++ bitsOfBytes bs := rfl
    rw [this]
    simp only [bitsOfByte, List.cons_append, List.nil_append, gatherBytes, ih, byteOfBits_bits]

/-- A body has eight bits to the byte (R1). -/
theorem length_bitsOfBytes (bytes : List Byte) : (bitsOfBytes bytes).length = 8 * bytes.length := by
  induction bytes with
  | nil => rfl
  | cons b bs ih =>
    have : bitsOfBytes (b :: bs) = bitsOfByte b ++ bitsOfBytes bs := rfl
    rw [this, List.length_append, ih]
    simp [bitsOfByte]
    omega

/-! ## Frames -/

/-- A body is two bytes longer than its payload (R181). -/
theorem length_body (f : Frame) : f.body.length = f.payload.length + 2 := by
  simp [Frame.body]

/-- The body of each kind has the length fixed for it (R25). -/
theorem kindLength_of_frame (f : Frame) : kindLength f.kind = some f.body.length := by
  cases f <;> simp [Frame.body, Frame.payload, Frame.kind, kindLength]

/-- The judgement of a report that is good (R4, R5): the bytes gathered are judged by the CRC over all
but the last two. -/
theorem crcValid_of_good {r : Receiver} {bits : List Bool} (h : codeStatus r bits = .good) :
    (lineReport r bits).crcValid = crcMatches (gatherBytes bits) := by
  simp [lineReport, h]

/-! ## Windows -/

/-- Bytes fitted to a size have it. -/
@[simp] theorem length_fitTo (size : Nat) (bytes : List Byte) : (fitTo size bytes).length = size := by
  simp [fitTo]; omega

/-- Bytes that fit stand at the front. -/
theorem take_fitTo {size : Nat} {bytes : List Byte} (h : bytes.length ≤ size) :
    (fitTo size bytes).take bytes.length = bytes := by
  unfold fitTo
  rw [List.take_take, Nat.min_eq_left h, List.take_append_of_le_length (le_refl _), List.take_length]

end Sys2Proof.Machine
end

