-- ==== Sys2Proof/Laws/Port.lean ====
section
/-! SUPPORT. What the operations on wires can do, said once: the SCK period and SDI at the diagnostic
port, and the I2C port of the loader; and the Draw Limiter beside the STAGE detector. -/

namespace Sys2Proof.Machine

/-! ## SCK and SDI -/

/-- With no transaction answered an SCK period changes nothing (R170). -/
theorem State.serialClock_of_none (s : State) (h : s.port.phase = none) : s.serialClock = s := by
  simp [State.serialClock, h]

/-- In a transaction an SCK period is the port's (R170). -/
theorem State.serialClock_of_some (s : State) {p : PortPhase} (h : s.port.phase = some p) :
    s.serialClock = { s with port := s.port.clock } := by
  simp [State.serialClock, h]

/-- An SCK period changes the bit count, the position, the half of the offset and SDO only (R170). -/
theorem Port.clock_eq (p : Port) :
    p.clock = { p with
      bitCount := p.clock.bitCount, lowByte := p.clock.lowByte, position := p.clock.position
      sdo := p.clock.sdo } := by
  cases p
  unfold Port.clock
  split
  · rfl
  · split <;> (try split) <;> simp_all [Port.next]

/-- The phase stands through an SCK period (R170). -/
@[simp] theorem Port.clock_phase (p : Port) : p.clock.phase = p.phase := by rw [Port.clock_eq]

/-- The capture buffer stands through an SCK period (R174). -/
@[simp] theorem Port.clock_capture (p : Port) : p.clock.capture = p.capture := by rw [Port.clock_eq]

/-- The window code stands through an SCK period (R173). -/
@[simp] theorem Port.clock_window (p : Port) : p.clock.window = p.window := by rw [Port.clock_eq]

/-- An SCK period keeps the bit count 0 to 7 (R170). -/
theorem Port.clock_bitCount_le (p : Port) (h : p.bitCount ≤ 7) : p.clock.bitCount ≤ 7 := by
  unfold Port.clock
  split
  · simp; omega
  · split <;> (try split) <;> simp_all [Port.next]

/-- An SCK period drives SDO as long as it is driven (R170). -/
theorem Port.clock_sdo_isSome (p : Port) (h : p.sdo.isSome = p.phase.isSome) :
    p.clock.sdo.isSome = p.phase.isSome := by
  unfold Port.clock
  split
  · exact h
  · split <;> (try split) <;> simp_all [Port.next]

/-- A completed command byte is a command of the table (R172, R185). -/
theorem wellFormed_commandOfByte (b : Byte) : (commandOfByte b).wellFormed = true := by
  revert b; decide

/-- The bits of a byte gather into it (R1, R170). -/
theorem gatherBytes_bitsOfByte (b : Byte) : gatherBytes (bitsOfByte b) = [b] := by
  simpa [bitsOfBytes] using gatherBytes_bitsOfBytes [b]

/-! ## The I2C port -/

/-- Low readings of SDA are freeing clocks as long as there are at most nine (R163). -/
theorem freeBus_replicate (clocks low : Nat) (rest : List Bool) (h : clocks + low ≤ 9) :
    freeBus clocks (List.replicate low false ++ rest) = freeBus (clocks + low) rest := by
  induction low generalizing clocks with
  | zero => simp
  | succ n ih =>
    have h1 : clocks < freeingClockLimit := by unfold freeingClockLimit; omega
    rw [List.replicate_succ, List.cons_append, freeBus, if_pos h1, ih (clocks + 1) (by omega)]
    congr 1; omega

/-- The transaction's bytes take 351 periods (R162). -/
theorem length_transferBits : transferBits.length = 351 := by decide +kernel

/-! ## STAGE and the Draw Limiter -/

/-- The step follows the detector, or comes before a clearing of STAGE_FAULT (R157). -/
theorem State.stageAndLimiter_cases (s : State) (driveOff : Bool) : ∃ n : Nat,
    s.stageAndLimiter driveOff = (State.judgeStage { s with freeDraws := n } driveOff).limiterStep
      ∨ (s.stageClears driveOff = true
        ∧ s.stageAndLimiter driveOff
          = (State.limiterStep { s with freeDraws := n }).judgeStage driveOff) := by
  unfold State.stageAndLimiter
  split
  · rename_i h
    refine ⟨s.freeDraws + 1, ?_⟩
    simp only
    split
    · exact Or.inl rfl
    · exact Or.inr ⟨h, rfl⟩
  · exact ⟨s.freeDraws, Or.inl rfl⟩

end Sys2Proof.Machine
end

