-- ==== Sys2Proof/Laws/SharePasses.lean ====
section
/-! SUPPORT. The floor stage and the passes of the Allocator, in the words of the statements: floorGrant
and extraPass say what floorStage and extraStage do (R68 to R71). -/

namespace Sys2Proof.Machine

/-- An entry with its grants so far, as the Allocator holds it. -/
def asClaimant (x : Entry × Nat) : Claimant := { x.1.claimant with given := x.2 }

/-- The Allocator's want is the want left (R69). -/
@[simp] theorem want_asClaimant (x : Entry × Nat) : (asClaimant x).want = wantLeft x := rfl

/-- The weight of an entry with its grants. -/
@[simp] theorem weight_asClaimant (x : Entry × Nat) : (asClaimant x).weight = x.1.terms.weight := rfl

/-- The address of an entry with its grants. -/
@[simp] theorem addr_asClaimant (x : Entry × Nat) : (asClaimant x).addr = x.1.addr := rfl

/-- The fixed amount of the statements is the pinned amount, 0 where there is none (R64, R65). -/
theorem pinned_getD (budget : Nat) (e : Entry) : (e.pinned budget).getD 0 = e.fixedAmount budget := by
  unfold Entry.pinned Entry.fixedAmount Entry.reserve Entry.vals zeroValues
  cases e.state <;> cases e.values <;> simp
  split <;> rfl

/-! ## Floor stage -/

/-- The floor stage is one floor grant after the other (R68). -/
theorem foldl_floorGrant (es : List Entry) (r : Nat) (acc : List (Entry × Nat)) :
    (es.foldl floorGrant (r, acc)).1 = (floorStage r (es.map Entry.claimant)).2
      ∧ (es.foldl floorGrant (r, acc)).2.map asClaimant
        = acc.map asClaimant ++ (floorStage r (es.map Entry.claimant)).1 := by
  induction es generalizing r acc with
  | nil => simp [floorStage]
  | cons e es ih =>
    have h := ih (r - min (min e.vals.demand e.terms.floor) r)
      (acc ++ [(e, min (min e.vals.demand e.terms.floor) r)])
    simp only [List.foldl_cons, floorGrant, List.map_cons, floorStage, Claimant.floorGrant,
      Entry.claimant] at h ⊢
    refine ⟨h.1, h.2.trans ?_⟩
    simp [asClaimant, Entry.claimant]

/-- The floor grants keep the entries in their order (R68). -/
theorem map_fst_foldl_floorGrant (es : List Entry) (r : Nat) (acc : List (Entry × Nat)) :
    (es.foldl floorGrant (r, acc)).2.map Prod.fst = acc.map Prod.fst ++ es := by
  induction es generalizing r acc with
  | nil => simp
  | cons e es ih => simp [floorGrant, ih]

/-! ## The order of a unit pass -/

/-- Strictly earlier in the order of R71: the heavier, and among equal weights the lower address. -/
abbrev Claimant.Earlier (c d : Claimant) : Prop :=
  d.weight < c.weight ∨ (d.weight = c.weight ∧ c.addr < d.addr)

/-- Putting a claimant of another address in its place keeps the order of R71. -/
theorem insertClaimant_pairwise (c : Claimant) (cs : List Claimant)
    (h : cs.Pairwise Claimant.Earlier) (hc : ∀ d ∈ cs, d.addr ≠ c.addr) :
    (insertClaimant c cs).Pairwise Claimant.Earlier := by
  induction cs with
  | nil => simp [insertClaimant]
  | cons d ds ih =>
    have hd := hc d (by simp)
    rw [List.pairwise_cons] at h
    unfold insertClaimant
    split
    · rename_i hb
      have hcd : c.Earlier d := by
        simp only [Claimant.before, Bool.or_eq_true, decide_eq_true_eq, Bool.and_eq_true,
          beq_iff_eq] at hb
        omega
      refine List.pairwise_cons.2 ⟨?_, List.pairwise_cons.2 h⟩
      intro x hx
      rcases List.mem_cons.1 hx with rfl | hx
      · exact hcd
      · have := h.1 x hx; simp only [Claimant.Earlier] at *; omega
    · rename_i hb
      have hdc : d.Earlier c := by
        simp only [Claimant.before, Bool.or_eq_true, decide_eq_true_eq, Bool.and_eq_true,
          beq_iff_eq] at hb
        omega
      refine List.pairwise_cons.2 ⟨?_, ih h.2 (fun x hx => hc x (by simp [hx]))⟩
      intro x hx
      rcases List.mem_cons.1 ((insertClaimant_perm c ds).mem_iff.1 hx) with rfl | hx
      · exact hdc
      · exact h.1 x hx

/-- The order of R71 holds of the list put in it, where the addresses differ. -/
theorem inUnitOrder_pairwise (cs : List Claimant) (h : cs.Pairwise (fun c d => c.addr ≠ d.addr)) :
    (inUnitOrder cs).Pairwise Claimant.Earlier := by
  induction cs with
  | nil => exact List.Pairwise.nil
  | cons c cs ih =>
    rw [List.pairwise_cons] at h
    refine insertClaimant_pairwise c _ (ih h.2) ?_
    intro d hd
    exact (h.1 d ((inUnitOrder_perm cs).mem_iff.1 hd)).symm

/-! ## One pass -/

/-- The grant of one pass to a claimant among cs, from remainder r (R69 to R71). -/
def passGrant (r : Nat) (cs : List Claimant) (c : Claimant) : Nat :=
  if 1 ≤ r / weightSum cs then min (r / weightSum cs * c.weight) c.want
  else if 0 < c.want ∧ ((cs.filter (fun d => 0 < d.want)).filter
    (fun d => d.Earlier c)).length < r then 1 else 0

/-- One pass over claimants in any order (R69 to R71). -/
def passOver (r : Nat) (cs : List Claimant) : List Claimant :=
  cs.map (fun c => { c with given := c.given + passGrant r cs c })

/-- What one pass leaves (R70, R71). -/
def passLeft (r : Nat) (cs : List Claimant) : Nat := r - (cs.map (passGrant r cs)).sum

/-- A pass does not see the order in which the claimants are listed. -/
theorem passGrant_perm (r : Nat) {cs ds : List Claimant} (h : cs.Perm ds) :
    passGrant r cs = passGrant r ds := by
  have hw : weightSum cs = weightSum ds := ((h.filter _).map _).sum_nat
  funext c
  unfold passGrant
  rw [hw, (((h.filter _).filter _).length_eq)]

/-- A pass over a rearrangement is the rearranged pass, with the same remainder. -/
theorem passOver_perm (r : Nat) {cs ds : List Claimant} (h : cs.Perm ds) :
    (passOver r cs).Perm (passOver r ds) ∧ passLeft r cs = passLeft r ds := by
  unfold passOver passLeft
  rw [passGrant_perm r h]
  exact ⟨h.map _, by rw [(h.map _).sum_nat]⟩

/-- extraPass is that pass (R69 to R71). -/
theorem extraPass_eq (p : Nat × List (Entry × Nat)) :
    (extraPass p).1 = passLeft p.1 (p.2.map asClaimant)
      ∧ (extraPass p).2.map asClaimant = passOver p.1 (p.2.map asClaimant) := by
  have hw : weightSum (p.2.map asClaimant)
      = ((p.2.filter (fun x => 0 < wantLeft x)).map (fun x => x.1.terms.weight)).sum := by
    simp only [weightSum, List.filter_map, List.map_map, Function.comp_def, want_asClaimant,
      weight_asClaimant]
    rfl
  have hg : ∀ x, passGrant p.1 (p.2.map asClaimant) (asClaimant x)
      = (let q := p.1 / ((p.2.filter (fun x => 0 < wantLeft x)).map (fun x => x.1.terms.weight)).sum
        if 1 ≤ q then min (q * x.1.terms.weight) (wantLeft x)
        else if 0 < wantLeft x ∧ ((p.2.filter (fun x => 0 < wantLeft x)).filter (fun y =>
          x.1.terms.weight < y.1.terms.weight
            ∨ (x.1.terms.weight = y.1.terms.weight ∧ y.1.addr < x.1.addr))).length < p.1 then 1
        else 0) := by
    intro x
    simp only [passGrant, hw, List.filter_map, List.length_map, Function.comp_def, want_asClaimant,
      weight_asClaimant, addr_asClaimant, Claimant.Earlier]
    rfl
  unfold extraPass passLeft passOver
  constructor
  · simp only [List.map_map, Function.comp_def, hg]
  · simp only [List.map_map, Function.comp_def, hg]
    rfl

/-- A weighted pass is that pass, where q is at least 1 (R70). -/
theorem weightedPass_eq (r : Nat) (cs : List Claimant) (h : 1 ≤ r / weightSum cs) :
    weightedPass (r / weightSum cs) cs = passOver r cs
      ∧ r - weightedSum (r / weightSum cs) cs = passLeft r cs := by
  have hg : passGrant r cs = Claimant.weightedGrant (r / weightSum cs) := by
    funext c; simp [passGrant, h, Claimant.weightedGrant]
  simp [weightedPass, passOver, weightedSum, passLeft, hg]

/-- A unit pass over claimants in the order of R71 gives one unit to each unsatisfied one before which
fewer than r unsatisfied ones come (R71). -/
theorem unitPass_fst (r : Nat) (cs : List Claimant) (h : cs.Pairwise Claimant.Earlier) :
    (unitPass r cs).1 = cs.map (fun c => { c with given := c.given
      + if 0 < c.want ∧ ((cs.filter (fun d => 0 < d.want)).filter
          (fun d => d.Earlier c)).length < r then 1 else 0 }) := by
  induction cs generalizing r with
  | nil => cases r <;> simp [unitPass]
  | cons c cs ih =>
    rw [List.pairwise_cons] at h
    cases r with
    | zero => simp [unitPass]
    | succ r =>
      have hself : ¬ c.Earlier c := by simp [Claimant.Earlier]
      have hback : ((cs.filter (fun d => 0 < d.want)).filter (fun d => d.Earlier c)) = [] := by
        rw [List.filter_eq_nil_iff]
        intro d hd
        have := h.1 d (List.mem_filter.1 hd).1
        simp only [Claimant.Earlier, decide_eq_true_eq] at *
        omega
      unfold unitPass
      split
      · rename_i hw
        simp only [List.map_cons, ih r h.2]
        congr 1
        · rw [List.filter_cons_of_pos (by simpa using hw),
            List.filter_cons_of_neg (by simp), hback]
          simp [hw]
        · refine List.map_congr_left ?_
          intro d hd
          have hcd := h.1 d hd
          simp [hw, hcd]
      · rename_i hw
        simp only [List.map_cons, ih (r + 1) h.2]
        congr 1
        · simp [hw]
        · refine List.map_congr_left ?_
          intro d hd
          simp [hw]

/-- A unit pass over claimants in the order of R71 is that pass, where q is 0. -/
theorem unitPass_eq (r : Nat) (cs : List Claimant) (h : cs.Pairwise Claimant.Earlier)
    (hq : ¬ 1 ≤ r / weightSum cs) :
    (unitPass r cs).1 = passOver r cs ∧ (unitPass r cs).2 = passLeft r cs := by
  have h1 : (unitPass r cs).1 = passOver r cs := by
    rw [unitPass_fst r cs h]; simp [passOver, passGrant, hq]
  refine ⟨h1, ?_⟩
  have hs := unitPass_sum r cs
  have hg : givenSum (passOver r cs) = givenSum cs + (cs.map (passGrant r cs)).sum := by
    simp [givenSum, passOver, List.map_map, Function.comp_def, List.sum_map_add]
  rw [h1, hg] at hs
  unfold passLeft
  omega

/-- A pass keeps the order of R71, weights and addresses standing. -/
theorem passOver_pairwise (r : Nat) (cs : List Claimant) (h : cs.Pairwise Claimant.Earlier) :
    (passOver r cs).Pairwise Claimant.Earlier := by
  unfold passOver
  rw [List.pairwise_map]
  exact h

/-- A pass with nothing left, or with nobody unsatisfied, gives nothing (R69). -/
theorem passGrant_of_end (r : Nat) (cs : List Claimant)
    (h : r = 0 ∨ cs.all (fun c => decide (c.want = 0)) = true) : ∀ c ∈ cs, passGrant r cs c = 0 := by
  intro c hc
  rcases h with rfl | h
  · simp [passGrant]
  · have hw : c.want = 0 := by simpa using List.all_eq_true.1 h c hc
    simp [passGrant, hw]

/-- The end of the extra stage is a fixed point of a pass (R69). -/
theorem passOver_of_end (r : Nat) (cs : List Claimant)
    (h : r = 0 ∨ cs.all (fun c => decide (c.want = 0)) = true) :
    passOver r cs = cs ∧ passLeft r cs = r := by
  have hg := passGrant_of_end r cs h
  constructor
  · unfold passOver
    conv_rhs => rw [← List.map_id cs]
    refine List.map_congr_left ?_
    intro c hc
    simp [hg c hc]
  · have : cs.map (passGrant r cs) = cs.map (fun _ => 0) := List.map_congr_left hg
    simp [passLeft, this]

/-- A pass before the end gives at least one unit (R70, R71). -/
theorem passLeft_lt (r : Nat) (cs : List Claimant) (ho : cs.Pairwise Claimant.Earlier) (hr : r ≠ 0)
    (h : cs.all (fun c => decide (c.want = 0)) ≠ true) : passLeft r cs < r := by
  suffices hs : 0 < (cs.map (passGrant r cs)).sum by unfold passLeft; omega
  by_contra hc
  have hz : ∀ c ∈ cs, passGrant r cs c = 0 := by
    have := Nat.eq_zero_of_not_pos hc
    rw [List.sum_eq_zero_iff] at this
    intro c hc
    exact this _ (List.mem_map.2 ⟨c, hc, rfl⟩)
  by_cases hq : 1 ≤ r / weightSum cs
  · have hw : weightSum cs ≠ 0 := by intro h0; rw [h0] at hq; simp at hq
    apply hw
    unfold weightSum
    rw [List.sum_eq_zero_iff]
    intro n hn
    obtain ⟨c, hcm, rfl⟩ := List.mem_map.1 hn
    obtain ⟨hcs, hwant⟩ := List.mem_filter.1 hcm
    have h0 := hz c hcs
    simp only [passGrant, if_pos hq] at h0
    simp only [decide_eq_true_eq] at hwant
    by_contra hcw
    have : 1 ≤ r / weightSum cs * c.weight := Nat.mul_pos hq (Nat.pos_of_ne_zero hcw)
    omega
  · clear hc
    have hex : ∃ c ∈ cs, 0 < c.want := by
      by_contra hn
      apply h
      rw [List.all_eq_true]
      intro c hc
      have : ¬ 0 < c.want := fun hh => hn ⟨c, hc, hh⟩
      simp; omega
    have hne : cs.filter (fun d => 0 < d.want) ≠ [] := by
      obtain ⟨c, hc, hw⟩ := hex
      exact List.ne_nil_of_mem (List.mem_filter.2 ⟨hc, by simpa using hw⟩)
    obtain ⟨c, rest, hcr⟩ := List.exists_cons_of_ne_nil hne
    have hmem : c ∈ cs.filter (fun d => 0 < d.want) := by rw [hcr]; simp
    have hp : (cs.filter (fun d => 0 < d.want)).Pairwise Claimant.Earlier := ho.filter _
    rw [hcr, List.pairwise_cons] at hp
    have hnone : ((cs.filter (fun d => 0 < d.want)).filter (fun d => d.Earlier c)) = [] := by
      rw [List.filter_eq_nil_iff, hcr]
      intro d hd
      rcases List.mem_cons.1 hd with rfl | hd
      · simp [Claimant.Earlier]
      · have := hp.1 d hd
        simp only [Claimant.Earlier, decide_eq_true_eq] at *
        omega
    have h0 := hz c (List.mem_filter.1 hmem).1
    have hw : 0 < c.want := by simpa using (List.mem_filter.1 hmem).2
    simp only [passGrant, if_neg hq, hnone, List.length_nil] at h0
    have : 0 < r := Nat.pos_of_ne_zero hr
    simp [hw, this] at h0

/-! ## The extra stage -/

/-- After the end further passes give nothing (R69). -/
theorem iterate_extraPass_of_end (p : Nat × List (Entry × Nat)) {cs : List Claimant}
    (hp : cs.Perm (p.2.map asClaimant)) (m : Nat)
    (hend : p.1 = 0 ∨ cs.all (fun c => decide (c.want = 0)) = true) :
    ((extraPass^[m] p).2.map asClaimant).Perm (p.2.map asClaimant) ∧ (extraPass^[m] p).1 = p.1 := by
  induction m with
  | zero => exact ⟨List.Perm.refl _, rfl⟩
  | succ m ih =>
    rw [Function.iterate_succ_apply']
    generalize extraPass^[m] p = q at ih
    have hend' : q.1 = 0 ∨ (q.2.map asClaimant).all (fun c => decide (c.want = 0)) = true := by
      rw [ih.2]
      refine hend.imp_right (fun h => ?_)
      rw [List.all_eq_true] at h ⊢
      exact fun c hc => h c (hp.mem_iff.2 (ih.1.mem_iff.1 hc))
    have hx := extraPass_eq q
    have hy := passOver_of_end q.1 _ hend'
    rw [hx.1, hx.2, hy.1, hy.2]
    exact ih

/-- The extra stage is as many passes as the remainder has units, or more (R69 to R71). -/
theorem extraStage_eq (fuel n : Nat) (cs : List Claimant) (p : Nat × List (Entry × Nat))
    (ho : cs.Pairwise Claimant.Earlier) (hp : cs.Perm (p.2.map asClaimant)) (hf : p.1 ≤ fuel)
    (hn : p.1 ≤ n) : (extraStage fuel p.1 cs).Perm ((extraPass^[n] p).2.map asClaimant) := by
  induction fuel generalizing n cs p with
  | zero =>
    exact hp.trans (iterate_extraPass_of_end p hp n (Or.inl (Nat.le_zero.1 hf))).1.symm
  | succ fuel ih =>
    unfold extraStage
    split
    · rename_i hend
      exact hp.trans (iterate_extraPass_of_end p hp n hend).1.symm
    · rename_i hend
      rw [not_or] at hend
      have hx := extraPass_eq p
      have hpp := passOver_perm p.1 hp
      have hlt := passLeft_lt p.1 cs ho hend.1 hend.2
      have hnext : ∀ ds r', ds = passOver p.1 cs → r' = passLeft p.1 cs →
          (extraStage fuel r' ds).Perm ((extraPass^[n] p).2.map asClaimant) := by
        intro ds r' hd hr'
        obtain ⟨m, rfl⟩ : ∃ m, n = m + 1 := ⟨n - 1, by omega⟩
        rw [Function.iterate_succ_apply]
        have h1 : r' = (extraPass p).1 := by rw [hr', hx.1, hpp.2]
        rw [h1]
        have hds : ds.Pairwise Claimant.Earlier := hd ▸ passOver_pairwise p.1 cs ho
        have hperm : ds.Perm ((extraPass p).2.map asClaimant) := by rw [hd, hx.2]; exact hpp.1
        exact ih m ds (extraPass p) hds hperm (by rw [← h1]; omega) (by rw [← h1]; omega)
      simp only
      split
      · rename_i hq
        have hw := weightedPass_eq p.1 cs hq
        exact hnext _ _ hw.1 hw.2
      · rename_i hq
        have hu := unitPass_eq p.1 cs ho hq
        exact hnext _ _ hu.1 hu.2

/-! ## The whole share-out -/

/-- A pass keeps the entries in their order. -/
theorem map_fst_iterate_extraPass (n : Nat) (p : Nat × List (Entry × Nat)) :
    (extraPass^[n] p).2.map Prod.fst = p.2.map Prod.fst := by
  induction n with
  | zero => rfl
  | succ n ih =>
    rw [Function.iterate_succ_apply', ← ih]
    simp [extraPass, Function.comp_def]

/-- What the Allocator shares out is the floor grants and then the passes (R68 to R71). -/
theorem shareOut_perm (r n : Nat) (es : List Entry) (h : es.Pairwise (fun x y => x.addr < y.addr))
    (hn : r ≤ n) : (shareOut r (es.map Entry.claimant)).Perm
      ((extraPass^[n] (es.foldl floorGrant (r, []))).2.map asClaimant) := by
  have hf := foldl_floorGrant es r []
  have hs := floorStage_sum r (es.map Entry.claimant)
  have ha : (floorStage r (es.map Entry.claimant)).1.Pairwise (fun c d => c.addr ≠ d.addr) := by
    rw [← List.pairwise_map (f := fun c : Claimant => c.addr) (R := fun a b => a ≠ b),
      floorStage_addrs, List.map_map, List.pairwise_map]
    exact h.imp (fun hlt => Nat.ne_of_lt hlt)
  unfold shareOut
  simp only
  rw [← hf.1]
  refine extraStage_eq _ n _ _ (inUnitOrder_pairwise _ ha) ?_ (Nat.le_refl _) (by rw [hf.1]; omega)
  rw [hf.2]
  exact inUnitOrder_perm _

/-- One entry's share is its grants (R69): the addresses differ, so it is found. -/
theorem given_shareOut (r n : Nat) (es : List Entry) (h : es.Pairwise (fun x y => x.addr < y.addr))
    (hn : r ≤ n) (x : Entry × Nat) (hx : x ∈ (extraPass^[n] (es.foldl floorGrant (r, []))).2) :
    (shareOut r (es.map Entry.claimant)).find? (fun c => c.addr == x.1.addr) = some (asClaimant x) := by
  have hp := shareOut_perm r n es h hn
  have hmem : asClaimant x ∈ shareOut r (es.map Entry.claimant) :=
    hp.mem_iff.2 (List.mem_map.2 ⟨x, hx, rfl⟩)
  have hd : ((extraPass^[n] (es.foldl floorGrant (r, []))).2.map asClaimant).Pairwise
      (fun c d => c.addr ≠ d.addr) := by
    have hfst := (map_fst_iterate_extraPass n (es.foldl floorGrant (r, []))).trans
      (map_fst_foldl_floorGrant es r [])
    rw [List.pairwise_map]
    have : ((extraPass^[n] (es.foldl floorGrant (r, []))).2.map Prod.fst).Pairwise
        (fun e f => e.addr ≠ f.addr) := by
      rw [hfst]; simpa using h.imp (fun hlt => Nat.ne_of_lt hlt)
    exact (List.pairwise_map.1 this).imp (fun hab => hab)
  have hd' : (shareOut r (es.map Entry.claimant)).Pairwise (fun c d => c.addr ≠ d.addr) :=
    (hp.pairwise_iff (fun hab => hab.symm)).2 hd
  obtain ⟨pre, post, hsplit⟩ := List.append_of_mem hmem
  rw [hsplit] at hd' ⊢
  rw [List.find?_append]
  have hpre : pre.find? (fun c => c.addr == x.1.addr) = none := by
    rw [List.find?_eq_none]
    intro c hc
    have := (List.pairwise_append.1 hd').2.2 c hc (asClaimant x) (by simp)
    simpa using this
  simp [hpre]

end Sys2Proof.Machine
end

