-- ==== Sys2Proof/Tests/Slice0.lean ====
section
/-! SUPPORT. Tests: the smoke test of WellFormed, values the spec works out, and for every statement
with hypotheses a state and operands that meet them (theorems test_witness_<statement>). -/

set_option Elab.async false

namespace Sys2Proof.Machine.Tests

/-! ## Small states -/

/-- A block with its check sequence. -/
def sealed (bytes : List Byte) : List Byte := bytes ++ bytes2 (crc bytes).toNat

/-- A good block: B 100, 8 slots, floor 20, ceiling 60, weight 2, persistence 2, P 1000. -/
def goodBytes : List Byte :=
  [1, 0, 100, 0, 1, 3, 0, 4, 1, 0, 20, 0, 60, 2, 4, 4, 0, 0, 5, 2, 3, 232, 10, 40, 0]
    ++ [3, 232, 1, 244, 0, 50, 4, 0, 1]

/-- That block, sealed. -/
def goodBlock : List Byte := sealed goodBytes

/-- A configured, synced monitor station at address 1 in the state given, with EN settled high. -/
def base (st : Station) : State :=
  { State.reset with
    pins := ⟨true, false, true, true⟩
    loader := ⟨some ⟨1, .monitor⟩, .valid, 1, goodBlock, some 0x1234, .ended true⟩
    cfg := Settings.ofBlock goodBlock
    line := ⟨.idle, .quiet, []⟩
    rotation := ⟨true, 3, .window, none, 7⟩
    drive := ⟨some 0, 0, 0, false, false⟩
    ctl := { Controller.reset with station := st, settled := true, observed := 2 } }

/-- A table entry with terms 20, 60, 2 and zero values. -/
def entry (a : Nat) (st : EntryState) : Entry :=
  ⟨a, st, ⟨20, 60, 2, .load⟩, some ⟨40, 10, 10, 12, false⟩, some 0x7777, true, 0, true⟩

/-- The same station in ACTIVE, holding 20 with a limit of 20, and another member at address 3. -/
def active : State :=
  { base .active with
    table := ⟨[entry 1 .active, entry 3 .active], [], [(3, .agrees)]⟩
    share := ⟨20, some 40, 20⟩ }

/-- A state whose last slot ends: slot 7 of 8, its window running. -/
def lastSlot (s : State) : State := { s with rotation := { s.rotation with rot := 7 } }

/-- A state whose receiver is in the body of a frame, in slot 3. -/
def receiving (s : State) : State :=
  { s with
    line := { s.line with receiver := .decoding }
    rotation := { s.rotation with slot := .activity } }

/-- A state with a burst, at a phase. -/
def withBurst (s : State) (p : TxPhase) (b : List Frame) : State :=
  { s with line := { s.line with phase := p, burst := b } }

/-- A state with a scan running. -/
def scanning (s : State) (mark : Bool) : State :=
  { s with meas := { s.meas with scan := .running .feed mark } }

/-- A state with the port in a phase. -/
def inPhase (s : State) (p : PortPhase) : State :=
  { s with pins := { s.pins with scsN := false }, port := { s.port with phase := some p, sdo := some 0 } }

/-- The state a command leaves; the state itself where it is refused. -/
def after (c : Instr) (s : State) : State :=
  match exec c s with
  | .next t => t
  | _ => s

/-- Whether a command is refused as no command of the table. -/
def refuses (c : Instr) (s : State) : Bool :=
  match exec c s with
  | .refused .malformed => true
  | _ => false

/-- The terms of the frames below. -/
def terms3 : Terms := ⟨20, 60, 2, .load⟩

/-- Frames of the group from address 3. -/
def leave3 : Frame := .leave 3 0x1234
def join3 : Frame := .join 3 terms3 0x1234
def claim3 : Frame := .claim 3 ⟨40, 10, 20, 4095, false⟩ terms3 0x7777 0x1234 0x02
def shed3 : Frame := .shed 3 ⟨63, .zero⟩ 0x1234

/-! ## Commands that are not of the table -/

theorem test_block_of_35_bytes_is_refused :
    (Instr.configReadComplete (goodBlock.take 35)).wellFormed = false
      ∧ refuses (.configReadComplete (goodBlock.take 35)) State.reset = true := by decide +kernel

theorem test_block_of_37_bytes_is_refused :
    (Instr.configReadComplete (goodBlock ++ [0])).wellFormed = false
      ∧ refuses (.configReadComplete (goodBlock ++ [0])) State.reset = true := by decide +kernel

theorem test_command_codes_are_no_refused_commands :
    (∀ b ∈ ([1, 2, 3, 4] : List Byte), (Instr.refusedCommand b).wellFormed = false
      ∧ refuses (.refusedCommand b) State.reset = true)
    ∧ (Instr.refusedCommand 0).wellFormed = true ∧ (Instr.refusedCommand 5).wellFormed = true := by
  decide +kernel

theorem test_no_word_spells_a_command :
    decodeTableWord 8 1 = none ∧ State.reset.withFetchWord 8 1 = State.reset := by decide +kernel

theorem test_empty_queue_idles :
    step State.reset = .next State.reset ∧ step active = .next active := ⟨rfl, rfl⟩

theorem test_command_byte_codes :
    ([0, 1, 2, 3, 4, 5, 255] : List Byte).map commandOfByte
      = [.refusedCommand 0, .read, .snapshot, .snapshotClear, .historyClear, .refusedCommand 5,
        .refusedCommand 255] := by decide +kernel

/-- The wires of one READ (chapter 11): window 4 from offset 2, bit by bit on SDI. -/
theorem test_sdi_of_a_read :
    sdiCommand .command [false, false, false, false, false, false, false, true] = some .read
      ∧ sdiCommand .window (bitsOfByte 4) = some (.readWindowCode 4)
      ∧ sdiCommand .offset (bitsOfByte 0 ++ bitsOfByte 2) = some (.readCapture 2)
      ∧ sdiCommand .offset (bitsOfByte 0x12 ++ bitsOfByte 0x34) = some (.readCapture 0x1234)
      ∧ sdiCommand .command [true] = none ∧ sdiCommand .data (bitsOfByte 1) = none := by decide +kernel

theorem test_step_takes_the_front_of_the_queue :
    step { State.reset with pending := [.enLevelChange, .abort] }
      = exec .enLevelChange { State.reset with pending := [.abort] } := rfl

/-! ## Values the spec works out -/

theorem test_crc_check_values :
    crc [] = 0xFFFF ∧ crc [0x00] = 0xE1F0
      ∧ crc [0x31, 0x32, 0x33, 0x34, 0x35, 0x36, 0x37, 0x38, 0x39] = 0x29B1 := by decide +kernel

theorem test_bit_times :
    (bitTimeMicros 0, bitTimeMicros 1, bitTimeMicros 2) = (8, 4, 2)
      ∧ (frameBits 6, frameBits 25, frameBits 10) = (58, 210, 90) := by decide +kernel

theorem test_t_cold_of_the_sequences : (tCold 8 1, tCold 8 3, tCold 8 6) = (576, 640, 736) := by decide +kernel

/-- A LEAVE from address 3 with digest 0x1234, byte for byte (R182). -/
theorem test_leave_body :
    leave3.body.take 3 = [0x63, 0x12, 0x34] ∧ leave3.body.length = 5
      ∧ parseFrame leave3.body = some leave3 := by decide +kernel

/-- A JOIN and a SHED from address 3, byte for byte (R182, R183). -/
theorem test_join_and_shed_bodies :
    join3.payload = [0x43, 0, 20, 0, 60, 2, 0x12, 0x34] ∧ shed3.payload = [0x83, 0x7F, 0x12, 0x34] := by
  decide +kernel

/-- A CLAIM from address 3, byte for byte (R182, R183). -/
theorem test_claim_body :
    claim3.payload = [0x23, 0, 0, 40, 0, 10, 0, 20, 0x0F, 0xFF, 0, 20, 0, 60, 2, 0x77, 0x77, 0x12, 0x34,
      0, 0, 0, 2] := by decide +kernel

/-- An entry of 13.1 with a demand. -/
def member (a floor ceiling weight demand : Nat) : Entry :=
  ⟨a, .active, ⟨floor, ceiling, weight, .load⟩, some ⟨demand, 0, 0, 0, false⟩, none, true, 0, true⟩

/-- The group of 13.1: B 100, E 1. -/
def groupCfg : Settings := { Settings.undelivered with budget := 100, expected := 1, nSlots := 8 }

theorem test_allocation_of_boundary_2 :
    (allocate groupCfg [member 1 20 60 2 40] []).alloc.take 2 = [0, 40] := by decide +kernel

theorem test_allocation_of_boundary_4 :
    (allocate groupCfg [member 1 20 60 2 40, member 3 30 50 1 50, member 6 25 40 1 10] []).alloc.take 7
      = [0, 40, 0, 50, 0, 0, 10] := by decide +kernel

theorem test_allocation_of_boundary_6 :
    (allocate groupCfg [member 1 20 60 2 40, member 3 30 50 1 50, member 6 25 40 1 40] []).alloc.take 7
      = [0, 33, 0, 36, 0, 0, 31] := by decide +kernel

theorem test_start_and_reset :
    (after (.resetNRise 1 .monitor) State.reset).ctl.station = .config
      ∧ after .resetNFall (base .active) = { State.reset with pins := ⟨false, false, true, true⟩ } := by
  decide +kernel

theorem test_history_joins_equal_neighbours :
    addDiscard (addDiscard (addDiscard [] .code none none 7) .code none none 8) .crc (some 3) (some 1) 9
      = [⟨.code, none, none, 7, 8, 2⟩, ⟨.crc, some 3, some 1, 9, 9, 1⟩] := by decide +kernel

theorem test_history_read_back :
    ((base .active).recordDiscard .crc claim3.body).historyWindow.take 6
      = [0xE4, 3, 1, 7, 7, 1] := by decide +kernel

theorem test_first_step_of_the_limiter :
    steppedBuffer (base .active).cfg 40 40 20 5 = 15 ∧ steppedBuffer (base .active).cfg 10 40 20 35 = 0
      ∧ steppedBuffer (base .active).cfg 20 20 22 35 = 25
      ∧ steppedBuffer (base .active).cfg 20 20 18 35 = 35 := by decide +kernel

theorem test_dissent_needs_a_mismatch :
    dissents (some 4) [(3, .mismatch)] = true ∧ dissents none [(3, .mismatch)] = false
      ∧ dissents (some 4) [(3, .pending)] = false := by decide +kernel

/-! ## Hypotheses that are met -/

theorem test_witness_WellFormedCommandsAlwaysComplete :
    (Instr.configReadComplete goodBlock).wellFormed = true ∧ (Instr.refusedCommand 5).wellFormed = true
      ∧ (Instr.refusedCommand 255).wellFormed = true ∧ (Instr.refusedCommand 4).wellFormed = false := by
  decide +kernel

theorem test_witness_ConfigBeginsWhenResetIsOver :
    State.reset.ctl.station = .resetting ∧ State.reset.pins.resetN = false
      ∧ State.reset.pins.powerComingUp = false
      ∧ (after .powerOnReset (base .active)).ctl.station = .resetting
      ∧ (after .powerOnReset (base .active)).pins.powerComingUp = true
      ∧ (after .powerOnReset (base .active)).pins.resetN = true
      ∧ (after .powerOnReset State.reset).pins.powerComingUp = true
      ∧ (after .powerOnReset State.reset).pins.resetN = false := by decide +kernel

/-- A station in CONFIG with a number of failed attempts. -/
def loading (load : LoadStatus) (attempts : Nat) : State :=
  { base .config with loader := ⟨some ⟨1, .monitor⟩, load, attempts, [], none, .attempt⟩ }

theorem test_witness_FailedAttemptsWaitThenGiveUp :
    (loading .reading 0).ctl.station = .config ∧ (loading .reading 0).loader.load = .reading
      ∧ (loading .reading 1).loader.attempts + 1 < 3 ∧ (loading .reading 2).loader.attempts + 1 = 3
      ∧ (loading .waiting 1).loader.load = .waiting
      ∧ (Instr.overtime, true) ∈ [(Instr.notAcknowledged, true), (.lostLevel, true),
        (.busNotFree, false), (.clockHeld, false), (.overtime, true)] := by decide +kernel

/-- The whole read on the wires (R162): 351 periods, two STARTs and one STOP, and no other change of SDA
while SCL is high. -/
theorem test_levels_of_the_read_transaction :
    let w := readTransaction.flatMap I2cOp.levels
    let steps := w.zip (w.drop 1)
    (readTransaction.flatMap I2cOp.bits).length = 351
      ∧ (steps.filter (fun x => x.1.isStart x.2)).length = 2
      ∧ (steps.filter (fun x => x.1.isStop x.2)).length = 1
      ∧ w.head? = some .released ∧ w.getLast? = some .released
      ∧ steps.all (fun x => x.1.sda == x.2.sda || x.1.isStart x.2 || x.1.isStop x.2
        || (!x.1.scl || !x.2.scl)) = true := by decide +kernel

/-- The SCL and SDA of the state: released at reset, the freeing clocks and the START in an attempt, and
the STOP after one that sent it (R162, R163). -/
theorem test_levels_of_the_states :
    State.reset.i2cWires [] = [.released]
      ∧ ((loading .reading 0).i2cWires [false, true]).take 5
        = [⟨false, true⟩, ⟨true, true⟩, ⟨true, true⟩, ⟨true, false⟩, ⟨false, false⟩]
      ∧ ((loading .reading 0).i2cWires (List.replicate 12 false)).length = 18
      ∧ (after .notAcknowledged (loading .reading 0)).i2cWires []
        = [⟨false, false⟩, ⟨true, false⟩, ⟨true, true⟩, ⟨true, true⟩]
      ∧ (after .busNotFree (loading .reading 0)).i2cWires [] = [.released] := by decide +kernel

theorem test_witness_WiresOfAnAttemptGiveItsEvent :
    State.reset.loader.i2c = .idle ∧ (loading .reading 0).loader.i2c = .attempt
      ∧ (after .busNotFree (loading .reading 0)).loader.i2c = .ended false
      ∧ (after .overtime (loading .reading 0)).loader.i2c = .ended true
      ∧ goodBlock.length = 36 ∧ 8 ∈ [8, 17, 26] ∧ (bitsOfByte 0xA0)[0]? = some true
      ∧ attemptEvent (List.replicate 9 false ++ [true, false]) = some .lostLevel
      ∧ attemptEvent (List.replicate 10 false) = some .busNotFree
      ∧ attemptEvent (List.replicate 9 false) = none
      ∧ attemptEvent (true :: bitsOfByte 0xA0 ++ [true]) = some .notAcknowledged := by decide +kernel

/-- The good block with one byte changed and sealed again. -/
def changed (i : Nat) (b : Byte) : List Byte := sealed (goodBytes.set i b)

theorem test_value_check_at_the_ends_of_a_range :
    valuesInRange goodBlock ⟨3, .monitor⟩ = true ∧ valuesInRange goodBlock ⟨4, .monitor⟩ = false
      ∧ valuesInRange goodBlock ⟨7, .load⟩ = true ∧ valuesInRange goodBlock ⟨8, .load⟩ = false
      ∧ valuesInRange (changed 5 2) ⟨0, .load⟩ = true ∧ valuesInRange (changed 5 1) ⟨0, .load⟩ = false
      ∧ valuesInRange (changed 31 0) ⟨0, .load⟩ = true
      ∧ valuesInRange (changed 31 0) ⟨0, .monitor⟩ = false := by decide +kernel

theorem test_witness_FirstFailingBlockCheckGivesTheFaultCode :
    (goodBlock.set 35 0xEE).length = 36 ∧ (changed 0 2).length = 36 ∧ (changed 3 3).length = 36
      ∧ (crc ((goodBlock.set 35 0xEE).take 34)).toNat
        ≠ ((goodBlock.set 35 0xEE).getD 34 0).toNat * 256 + ((goodBlock.set 35 0xEE).getD 35 0).toNat
      ∧ (crc ((changed 0 2).take 34)).toNat
        = ((changed 0 2).getD 34 0).toNat * 256 + ((changed 0 2).getD 35 0).toNat
      ∧ ((changed 0 2).getD 0 0).toNat ≠ 1
      ∧ (crc ((changed 3 3).take 34)).toNat
        = ((changed 3 3).getD 34 0).toNat * 256 + ((changed 3 3).getD 35 0).toNat
      ∧ ((changed 3 3).getD 0 0).toNat = 1
      ∧ valuesInRange (changed 3 3) ⟨(loading .reading 0).ownAddr, (loading .reading 0).ownRole⟩ = false
    := by decide +kernel

theorem test_witness_ValidBlockStartsEveryBlock :
    goodBlock.length = 36 ∧ (loading .reading 2).ctl.station = .config
      ∧ (loading .reading 2).loader.load = .reading ∧ (loading .reading 2).meas.scan = .idle
      ∧ (crc (goodBlock.take 34)).toNat
        = (goodBlock.getD 34 0).toNat * 256 + (goodBlock.getD 35 0).toNat
      ∧ (goodBlock.getD 0 0).toNat = 1
      ∧ valuesInRange goodBlock ⟨(loading .reading 2).ownAddr, (loading .reading 2).ownRole⟩ = true
      ∧ (after (.configReadComplete goodBlock) (loading .reading 2)).ctl.station = .listen := by
  decide +kernel

/-- A state whose EN pin stands against its settled level. -/
def enAt (st : Station) (pin : Bool) (observed : Nat) (composed : Bool) : State :=
  { base st with
    pins := { (base st).pins with en := pin }
    ctl := { (base st).ctl with settled := !pin, observed := observed, joinComposed := composed } }

theorem test_witness_EnSettlingHighActsInOffline :
    (∀ s ∈ [enAt .offline true 2 false, enAt .offline true 1 false, enAt .active true 2 false],
      s.ctl.station ≠ .resetting ∧ s.pins.en = true ∧ s.ctl.settled = false)
    ∧ (enAt .offline true 2 false).ctl.observed = 2 ∧ (enAt .offline true 2 false).rotation.synced = true
    ∧ (enAt .offline true 1 false).ctl.observed ≠ 2 ∧ (enAt .active true 2 false).ctl.station ≠ .offline := by
  decide +kernel

theorem test_witness_EnSettlingLowStandsTheStationDown :
    (∀ s ∈ [enAt .listen false 2 false, enAt .joining false 2 false, enAt .joining false 2 true,
        enAt .deferred false 2 false, enAt .active false 2 false, enAt .isolated false 2 false],
      s.ctl.station ≠ .resetting ∧ s.pins.en = false ∧ s.ctl.settled = true)
    ∧ (enAt .joining false 2 true).ctl.joinComposed = true
    ∧ (enAt .isolated false 2 false).ctl.station ∉ [.listen, .joining, .deferred, .active] := by
  decide +kernel

/-- The last six preamble bits and the start mark, as levels (R1, R3). -/
def startLevels : List BitTime :=
  [(false, true), (true, false), (false, true), (true, false), (false, true), (true, false),
    (true, true), (false, false)]

/-- A start within 10 bit times, one a bit time too late, and neither yet (R3). -/
theorem test_start_and_bad_start :
    startEvent ((true, true) :: (false, true) :: startLevels) = some .startMark
      ∧ startEvent (startLevels ++ [(true, true)]) = some .startMark
      ∧ startEvent ((true, true) :: (false, true) :: (false, true) :: startLevels)
        = some .badStartMark
      ∧ startEvent ((true, true) :: (false, true) :: startLevels.take 7) = none := by decide +kernel

/-- Noise, a frame whose body the idle line ends, and a body with a bit missing (R2 to R4). -/
theorem test_activities_and_their_events :
    activityEvents [(false, true), (true, true), (true, true)]
        = some [.carrierBegins, .frameReport []]
      ∧ activityEvents ((lineLevels leave3.body).take 40) = none
      ∧ activityEvents (startLevels ++ [(false, true), (true, true), (true, false), (false, false),
        (false, false)]) = some [.carrierBegins, .startMark, .codingViolation, .frameReport [true]]
      := by decide +kernel

/-- A frame driven: read back whole, by a silent driver, and with a bit decoded in the start mark
(R13). -/
theorem test_read_back_of_a_frame :
    let s := withBurst active .sending [leave3]
    s.readBack (lineLevels leave3.body) = some .frameSent
      ∧ s.readBack [(true, true)] = some .abort
      ∧ s.readBack ((lineLevels leave3.body).take 8) = none
      ∧ s.readBack ((lineLevels leave3.body).take 8 ++ [(true, false)]) = some .abort
      ∧ active.readBack (lineLevels leave3.body) = none := by decide +kernel

theorem test_witness_ReceiverAndSenderMoves :
    (base .listen).ctl.station.configured = true ∧ (base .listen).line.receiver.attempting = false
      ∧ (base .listen).line.phase = .quiet
      ∧ (after .carrierBegins (base .listen)).line.receiver = .hunting
      ∧ (receiving (base .listen)).line.receiver = .decoding
      ∧ (withBurst active .startDelay [claim3]).line.phase = .startDelay
      ∧ active.ctl.station ∈ [.joining, .deferred, .active, .leaving]
      ∧ (withBurst active .frameGap [claim3]).line.phase = .frameGap
      ∧ (withBurst active .sending [leave3]).ltx = some (lineLevels leave3.body)
      ∧ active.ltx = none ∧ (lineLevels leave3.body)[0]? = some (false, true)
      ∧ startLevels.length + 2 = 10 := by decide +kernel

/-- LEAVING with a LEAVE held after a number of attempts. -/
def leavingAt (attempts : Nat) (settled : Bool) (p : TxPhase) : State :=
  { withBurst (base .leaving) p [.leave 1 0x1234] with
    ctl := { (base .leaving).ctl with settled := settled }
    sched := { Scheduler.reset with leaveAttempts := attempts } }

theorem test_witness_CarrierInTheStartDelayDefersTheBurst :
    (∀ s ∈ [withBurst active .startDelay [claim3], leavingAt 0 false .startDelay,
        leavingAt 1 true .startDelay, leavingAt 2 false .startDelay, leavingAt 2 true .startDelay],
      s.ctl.station.configured = true ∧ s.line.receiver.attempting = false
        ∧ s.line.phase = .startDelay)
    ∧ (withBurst active .startDelay [claim3]).ctl.station ≠ .leaving
    ∧ (leavingAt 1 true .startDelay).line.burst.any Frame.isLeave = true
    ∧ (leavingAt 1 true .startDelay).sched.leaveAttempts + 1 < 3
    ∧ 3 ≤ (leavingAt 2 true .startDelay).sched.leaveAttempts + 1 := by decide +kernel

/-- A station sending, with a run of collisions behind it. -/
def sendingAfter (st : Station) (run : Nat) (p : TxPhase) : State :=
  { withBurst (base st) p [claim3] with sched := { Scheduler.reset with collisionRun := run } }

theorem test_witness_CollisionCountsOnceAndTheThirdIsAConflict :
    (sendingAfter .active 1 .sending).line.phase = .sending
      ∧ (sendingAfter .active 1 .sending).sched.collisionRun + 1 < 3
      ∧ 3 ≤ (sendingAfter .active 2 .sending).sched.collisionRun + 1
      ∧ (sendingAfter .active 2 .frameGap).line.phase = .frameGap
      ∧ (sendingAfter .active 2 .frameGap).ctl.station.configured = true
      ∧ (sendingAfter .active 2 .frameGap).line.receiver.attempting = false
      ∧ (sendingAfter .isolated 5 .sending).ctl.station ∉ [.joining, .deferred, .active, .leaving]
      ∧ (leavingAt 1 true .sending).sched.leaveAttempts + 1 < 3
      ∧ 3 ≤ (leavingAt 2 true .sending).sched.leaveAttempts + 1 := by decide +kernel

theorem test_collision_in_leaving_without_a_leave :
    (sendingAfter .leaving 2 .sending).line.burst.any Frame.isLeave = false
      ∧ (after .abort (sendingAfter .leaving 2 .sending)).ctl = (base .leaving).ctl := by decide +kernel

theorem test_witness_EveryFrameReportCountsOneVerdict :
    (receiving active).ctl.station.configured = true
      ∧ (receiving active).line.receiver.attempting = true := by decide +kernel

/-- The report of a whole frame. -/
def report (f : Frame) : FrameReport := lineReport .decoding (bitsOfBytes f.body)

theorem test_witness_FirstFailingAcceptanceCheckIsTheVerdict :
    (lineReport .decoding [true]).status ≠ .good
      ∧ (report leave3).status = .good ∧ kindOf [0xA0] ∉ [1, 2, 3, 4] ∧ kindOf [0] ∉ [1, 2, 3, 4]
      ∧ (kindOf (report leave3).body, 5) ∈ [(1, 25), (2, 10), (3, 5), (4, 6)]
      ∧ parseFrame (report leave3).body = some leave3 ∧ (report leave3).length = some 5
      ∧ (report leave3).crcValid = true ∧ leave3.digest = (base .active).ownDigest
      ∧ formatOk (base .active).cfg leave3 = true ∧ leave3.sender ≠ (base .active).ownAddr
      ∧ formatOk (base .active).cfg (.leave 8 0x1234) = false
      ∧ (Frame.shed 4 ⟨1, .floor⟩ 0x1234).kind = 4 ∧ 4 ≤ (Frame.shed 4 ⟨1, .floor⟩ 0x1234).sender
      ∧ (base .groupMismatch).ctl.station.working = false := by decide +kernel

/-- The ends of the ranges of R28, with B 100 and 8 slots. -/
theorem test_format_ranges :
    let c := (base .active).cfg
    let claim := fun (v : Values) (t : Terms) (mask : Word32) => formatOk c (.claim 3 v t 0 0 mask)
    claim ⟨60, 60, 60, 4095, true⟩ ⟨60, 60, 15, .monitor⟩ 0xF7 = true
      ∧ claim ⟨60, 60, 60, 4096, true⟩ ⟨60, 60, 15, .monitor⟩ 0 = false
      ∧ claim ⟨61, 0, 0, 0, false⟩ ⟨60, 60, 1, .load⟩ 0 = false
      ∧ claim ⟨0, 2, 1, 0, false⟩ ⟨60, 60, 1, .load⟩ 0 = false
      ∧ claim ⟨0, 0, 61, 0, false⟩ ⟨60, 60, 1, .load⟩ 0 = false
      ∧ claim ⟨0, 0, 0, 0, false⟩ ⟨60, 60, 1, .load⟩ 0x08 = false
      ∧ claim ⟨0, 0, 0, 0, false⟩ ⟨60, 60, 1, .load⟩ 0x100 = false
      ∧ formatOk c (.join 4 ⟨0, 1, 1, .monitor⟩ 0) = false ∧ formatOk c (.join 7 ⟨0, 100, 1, .load⟩ 0) = true
      ∧ formatOk c (.join 7 ⟨0, 101, 1, .load⟩ 0) = false ∧ formatOk c (.join 7 ⟨2, 1, 1, .load⟩ 0) = false
      ∧ formatOk c (.join 7 ⟨0, 1, 16, .load⟩ 0) = false := by decide +kernel

theorem test_witness_ResyncFollowsTheSender :
    (receiving active).ctl.station.configured = true
      ∧ (receiving active).line.receiver.attempting = true
      ∧ (lineReport (receiving active).line.receiver (bitsOfBytes leave3.body)).crcValid = true
      ∧ senderOf leave3.body < active.cfg.nSlots
      ∧ senderOf leave3.body < (lastSlot (receiving active)).rotation.rot
      ∧ (receiving active).rotation.rot ≤ senderOf leave3.body
      ∧ (receiving active).rotation.synced = true
      ∧ (lineReport .decoding (bitsOfBytes [0x63, 0, 0, 0, 0])).crcValid = false
      ∧ active.cfg.nSlots ≤ senderOf (Frame.leave 8 0x1234).body := by decide +kernel

theorem test_witness_CodeDefectIsOnlyCountedAndRecorded :
    (lineReport (receiving active).line.receiver [true, false]).status = .notWholeBytes
      ∧ (lineReport (receiving active).line.receiver []).status = .truncatedBody
      ∧ (lineReport .hunting []).status = .badStartMark
      ∧ (lineReport .codingViolation []).status = .codingViolation := by decide +kernel

/-- Every reason but CODE has a frame that is discarded for it (R22). -/
theorem test_witness_a_discard_of_each_reason :
    let s := receiving active
    s.Judges (bitsOfBytes (sealed [0xA3, 0])) (.discarded .kind)
      ∧ s.Judges (bitsOfBytes (sealed leave3.body)) (.discarded .length)
      ∧ s.Judges (bitsOfBytes (leave3.body.set 2 0)) (.discarded .crc)
      ∧ s.Judges (bitsOfBytes (Frame.leave 3 0x4321).body) (.discarded .group)
      ∧ s.Judges (bitsOfBytes (Frame.leave 8 0x1234).body) (.discarded .format)
      ∧ s.Judges (bitsOfBytes (Frame.shed 4 ⟨3, .zero⟩ 0x1234).body) (.discarded .role)
      ∧ (receiving (base .isolated)).Judges (bitsOfBytes leave3.body) (.discarded .state)
      ∧ (Reason.group, Counter.groupDiscards) ∈ [(Reason.group, Counter.groupDiscards)] := by
  simp only [State.Judges]; decide +kernel

/-- A frame of another group in LISTEN: the flag, and one record with its sender and kind (R27, R36). -/
theorem test_group_discard_in_listen :
    let t := after (.frameReport (bitsOfBytes (Frame.leave 3 0x4321).body)) (receiving (base .listen))
    t.ctl.groupEvidence = true ∧ t.ctl.acceptedSeen = false
      ∧ t.checker.history = [⟨.group, some 3, some 3, 7, 7, 1⟩] := by decide +kernel

/-- The state in which a frame from address 3 is heard, in the slot expected and in a later one. -/
theorem test_witness_AcceptedLeave_and_Shed :
    (receiving active).Judges (bitsOfBytes leave3.body) (.accepted leave3)
      ∧ (lastSlot (receiving active)).Judges (bitsOfBytes leave3.body) (.accepted leave3)
      ∧ (receiving active).Judges (bitsOfBytes shed3.body) (.accepted (.shed (3 : Fin 4).val ⟨63, .zero⟩ 0x1234))
      ∧ (receiving (base .offline)).Judges (bitsOfBytes (Frame.shed 0 ⟨0, .floor⟩ 0x1234).body)
        (.accepted (.shed 0 ⟨0, .floor⟩ 0x1234)) := by
  simp only [State.Judges]; decide +kernel

theorem test_witness_AcceptedJoin_and_Claim :
    (receiving active).Judges (bitsOfBytes join3.body) (.accepted join3)
      ∧ (receiving active).Judges (bitsOfBytes claim3.body) (.accepted claim3)
      ∧ (receiving (base .listen)).Judges (bitsOfBytes claim3.body) (.accepted claim3) := by
  simp only [State.Judges]; decide +kernel

theorem test_accepted_frames_at_the_table :
    (after (.frameReport (bitsOfBytes leave3.body)) (receiving active)).table.entries = [entry 1 .active]
      ∧ ((after (.frameReport (bitsOfBytes join3.body)) (receiving active)).table.entries.map
        (fun e => e.state)) = [.active, .candidate]
      ∧ (after (.frameReport (bitsOfBytes claim3.body)) (receiving active)).table.confirm
        = [(3, .mismatch)]
      ∧ (after (.frameReport (bitsOfBytes shed3.body)) (receiving active)).share.limit = 0 := by
  decide +kernel

theorem test_witness_OwnAddressOnTheLineIsAConflict :
    (receiving active).Judges (bitsOfBytes (Frame.leave 1 0x1234).body) (.discarded .self)
      ∧ (receiving (base .offline)).Judges (bitsOfBytes (Frame.leave 1 0x1234).body) (.discarded .self)
      ∧ (after (.frameReport (bitsOfBytes (Frame.leave 1 0x1234).body)) (receiving active)).ctl.station
        = .addressConflict := by
  simp only [State.Judges]; decide +kernel

/-- The window of slot 0 runs: the own slot follows. -/
def beforeOwn (st : Station) : State :=
  { base st with rotation := { (base st).rotation with rot := 0 } }

theorem test_witness_SlotEndOpensTheNextSlot :
    (∀ st ∈ [Station.joining, .deferred, .active, .leaving, .listen],
      (beforeOwn st).SlotEnds .slotWindowEnd
        ∧ (beforeOwn st).rotation.rot + 1 = (beforeOwn st).ownAddr)
    ∧ (base .active).SlotEnds .slotWindowEnd ∧ (base .active).rotation.rot + 1 < 8
    ∧ (base .active).rotation.rot + 1 ≠ (base .active).ownAddr
    ∧ State.SlotEnds { base .active with rotation := ⟨true, 0, .releaseGap, none, 0⟩ } .releaseGapEnd
    := by
  simp only [State.SlotEnds]; decide +kernel

theorem test_witness_RoundBoundaryReturnsToSlotZero :
    ∀ st ∈ [Station.active, .addressConflict, .groupMismatch, .isolated, .offline],
      (lastSlot (base st)).SlotEnds .slotWindowEnd
        ∧ (lastSlot (base st)).rotation.rot + 1 = (lastSlot (base st)).cfg.nSlots := by
  simp only [State.SlotEnds]; decide +kernel

theorem test_witness_ShareRisesOnlyWhenConfirmed :
    (lastSlot active).SlotEnds .slotWindowEnd ∧ (lastSlot active).ctl.station = .active
      ∧ (lastSlot active).isolates = false
      ∧ findEntry (lastSlot active).ownAddr (lastSlot active).table.entries = some (entry 1 .active)
      ∧ (entry 1 .active).state = .active ∧ (entry 1 .active).heard = true
      ∧ (∀ x ∈ (lastSlot active).table.confirm, x.2 = .agrees)
      ∧ (lastSlot active).share.pending = some 40
      ∧ (∃ x ∈ [(3, Confirmation.mismatch)], x.2 = .mismatch) := by
  simp only [State.SlotEnds]; decide +kernel

theorem test_new_share_and_pending :
    newApplied true 50 ⟨20, some 40, 20⟩ = 40 ∧ newPending 50 40 = some 50
      ∧ newApplied true 30 ⟨20, some 40, 20⟩ = 30 ∧ newPending 30 30 = none
      ∧ newApplied false 50 ⟨20, some 40, 20⟩ = 20 ∧ newApplied true 50 ⟨20, none, 20⟩ = 20
      ∧ newApplied true 10 ⟨20, some 40, 20⟩ = 10 := by decide +kernel

/-- An isolation count (a) one round short of T_isolate when the boundary begins. -/
def countsAtStart (n : Nat) : State :=
  { lastSlot active with ctl := { active.ctl with isolationA := n } }

/-- A last slot with an entry of each state, the unheard ones one round from T_gone (5). -/
def crowded : State :=
  { lastSlot active with
    table := ⟨[entry 1 .active, { entry 2 .active with heard := false },
      { entry 3 .silent with heard := false, missed := 4 }, { entry 4 .deferred with heard := false },
      { entry 5 .candidate with values := none }, { entry 6 .outside with heard := false, missed := 4 }],
      [⟨7, 10, 1⟩], [(2, .agrees)]⟩ }

theorem test_witness_GroupTableAndAllocatorAtTheBoundary :
    crowded.SlotEnds .slotWindowEnd ∧ crowded.ctl.station.working = true ∧ crowded.isolates = false
      ∧ crowded.cfg.tIsolate + 2 = 5 ∧ (0 < crowded.cfg.tOrphan)
      ∧ (after .slotWindowEnd crowded).table.entries.map (fun e => (e.addr, e.state))
        = [(1, .active), (2, .silent), (4, .deferred), (5, .active)]
      ∧ (after .slotWindowEnd crowded).table.orphans = [⟨3, 10, 4⟩, ⟨6, 10, 4⟩]
      ∧ (after .slotWindowEnd crowded).table.confirm = [(5, .pending)] := by
  simp only [State.SlotEnds]; decide +kernel

theorem test_witness_LostBoundaryAgesNothingAndRaisesNoShare :
    let s := { crowded with line := { crowded.line with receiver := .decoding } }
    let bits := bitsOfBytes claim3.body
    s.ctl.station.working = true ∧ s.line.receiver.attempting = true
      ∧ (lineReport s.line.receiver bits).crcValid = true ∧ senderOf claim3.body < s.cfg.nSlots
      ∧ s.rotation.synced = true ∧ senderOf claim3.body < s.rotation.rot ∧ s.isolates = false
      ∧ ((s.atJudgement bits).table.entries.map (fun e => e.state))
        = [.active, .active, .silent, .deferred, .active, .active]
      ∧ (s.atJudgement bits).share.applied = 20 ∧ (s.atJudgement bits).table.orphans = []
      ∧ ({ countsAtStart 2 with rotation := s.rotation } : State).isolates = true := by decide +kernel

/-- The isolation counts before the last slot's end, and whether the round had its events. -/
def countsAt (n : Nat) (seen : Bool) : State :=
  { lastSlot active with
    ctl := { active.ctl with
      isolationA := n, isolationB := 0, heardMeRound := seen, acceptedRound := true } }

theorem test_witness_IsolationFollowsTheTwoCounts :
    (countsAt 2 false).SlotEnds .slotWindowEnd ∧ (countsAt 2 false).ctl.station = .active
      ∧ (∃ e ∈ (countsAt 2 false).table.entries, e.addr ≠ (countsAt 2 false).ownAddr
        ∧ (e.state = .active ∨ e.state = .silent))
      ∧ (countsAt 2 false).ctl.heardMeRound = false ∧ (countsAt 2 true).ctl.heardMeRound = true
      ∧ (countsAt 1 false).cfg.tIsolate = 3 ∧ 0 < (countsAt 2 false).cfg.tOrphan
      ∧ (countsAt 2 false).EntriesSafe ∧ (countsAt 2 false).OrphansSafe
      ∧ (after .slotWindowEnd (countsAt 2 false)).table.orphans = [⟨3, 10, 4⟩] := by
  simp only [State.SlotEnds, State.EntriesSafe, State.OrphansSafe]; decide +kernel

/-- A monitor in SHEDDING whose own entry stands as given. -/
def sheddingWith (o : Option ShedOrder) : State :=
  { lastSlot active with shed := ⟨(Vector.replicate 4 none).set 1 o, .shedding⟩ }

theorem test_witness_ShedOrdersCountDownAtTheBoundary :
    (sheddingWith none).SlotEnds .slotWindowEnd ∧ (sheddingWith none).ctl.station.working = true
      ∧ (sheddingWith none).ownRole = .monitor ∧ (sheddingWith none).shed.monitor = .shedding
      ∧ (1 : Fin 4).val = (sheddingWith none).ownAddr
      ∧ (after .slotWindowEnd (sheddingWith none)).sched.item = some ⟨4, .floor⟩
      ∧ (after .slotWindowEnd (sheddingWith (some ⟨2, .floor⟩))).sched.item = some ⟨4, .floor⟩
      ∧ (after .slotWindowEnd (sheddingWith (some ⟨3, .floor⟩))).sched.item = none
      ∧ (lastSlot active).shed.monitor = .calm := by
  simp only [State.SlotEnds]; decide +kernel

/-- A listening station before the last slot's end. -/
def listeningAt (observed : Nat) (group accepted : Bool) : State :=
  { lastSlot (base .listen) with
    ctl := { (base .listen).ctl with
      observed := observed, groupEvidence := group, acceptedSeen := accepted } }

/-- A station before it is a member, at the last slot's end, with its own entry. -/
def joiningAt (st : Station) (e : EntryState) (heard : Bool) (floor : Nat) : State :=
  { lastSlot (base st) with
    table := ⟨[{ entry 1 e with values := none, basis := none, heard := heard
                                terms := ⟨floor, 100, 2, .monitor⟩ }, entry 3 .active], [], []⟩ }

theorem test_witness_StationMovesAtTheBoundary :
    (listeningAt 1 true false).SlotEnds .slotWindowEnd
      ∧ (after .slotWindowEnd (listeningAt 1 true false)).ctl.station = .groupMismatch
      ∧ (after .slotWindowEnd (listeningAt 1 true true)).ctl.station = .joining
      ∧ (after .slotWindowEnd (listeningAt 0 true false)).ctl.station = .listen
      ∧ (after .slotWindowEnd (lastSlot (base .isolated))).ctl.station = .listen
      ∧ (findEntry 1 (joiningAt .joining .candidate true 80).table.entries).isSome = true
      ∧ (after .slotWindowEnd (joiningAt .joining .candidate true 80)).ctl.station = .active
      ∧ (after .slotWindowEnd (joiningAt .joining .candidate true 81)).ctl.station = .deferred
      ∧ (after .slotWindowEnd (joiningAt .joining .candidate false 80)).ctl.station = .joining
      ∧ (after .slotWindowEnd (joiningAt .deferred .deferred true 80)).ctl.station = .active
      ∧ (joiningAt .joining .candidate true 80).share = ⟨0, none, 0⟩ := by
  simp only [State.SlotEnds]; decide +kernel

theorem test_witness_joining_table_is_safe : (joiningAt .joining .candidate true 80).TableSafe := by
  unfold State.TableSafe State.EntriesSafe State.OrphansSafe; decide +kernel

theorem test_witness_AllocationsStayWithinTheBudget :
    [member 1 20 60 2 40, member 3 30 50 1 50].Pairwise (fun x y => x.addr < y.addr)
      ∧ [(⟨6, 31, 4⟩ : Orphan)].Pairwise (fun x y => x.addr < y.addr)
      ∧ (∀ e ∈ [member 1 20 60 2 40, member 3 30 50 1 50],
        e.addr < 32 ∧ e.terms.floor ≤ e.terms.ceiling ∧ e.addr ≠ 6 ∧ e.isNormal = true)
      ∧ (allocate groupCfg [member 1 20 60 2 40, member 3 30 50 1 50] [⟨6, 31, 4⟩]).overcommitted
        = false
      ∧ (allocate groupCfg [] [⟨6, 101, 4⟩]).overcommitted = true := by decide +kernel

/-- Computation 2 of chapter 4: quorum scaling, a stage fault, an orphan, and unit passes. -/
theorem test_allocation_of_computation_2 :
    let c := { groupCfg with budget := 120, expected := 6 }
    let es := [member 0 10 40 3 40, member 2 10 50 3 35, member 5 5 20 1 20,
      { member 6 0 60 1 0 with values := some ⟨0, 0, 0, 6, true⟩ }]
    let snap := allocate c es [⟨11, 9, 4⟩]
    let floors := (es.take 3).foldl floorGrant (65, [])
    ([0, 2, 5, 6, 11].map (fun a => snap.alloc.getD a 0)) = [27, 27, 11, 6, 9]
      ∧ (snap.bEff, snap.members, snap.overcommitted, snap.floorShortfall) = (80, 4, false, false)
      ∧ floors.1 = 40 ∧ (extraPass floors).1 = 5 ∧ (extraPass (extraPass floors)).1 = 2
      ∧ (extraPass^[3] floors).2.map Prod.snd = [27, 27, 11] := by decide +kernel

theorem test_witness_UnmetWantLeavesNoRemainder :
    (allocate groupCfg [member 1 20 60 2 40, member 3 30 50 1 50] [⟨6, 31, 4⟩]).alloc.getD 3 0
        < min (member 3 30 50 1 50).vals.demand (member 3 30 50 1 50).terms.ceiling
      ∧ (allocate groupCfg [member 1 20 60 2 40, member 3 30 50 1 50] [⟨6, 31, 4⟩]).alloc.sum
        = 100 := by decide +kernel

theorem test_witness_FrameSentActsByKind :
    (withBurst active .sending [.shed 1 ⟨4, .floor⟩ 0x1234, claim3]).line.phase = .sending
      ∧ (withBurst active .sending [claim3]).line.burst = claim3 :: []
      ∧ (leavingAt 0 false .sending).ctl.station = .leaving
      ∧ (leavingAt 0 false .sending).ctl.settled = false
      ∧ (leavingAt 0 true .sending).ctl.settled = true
      ∧ (1 : Fin 4).val = active.ownAddr ∧ active.ctl.station.working = true := by decide +kernel

/-- An unsynced LISTEN with its silence timer running. -/
def silent (group accepted : Bool) : State :=
  { base .listen with
    rotation := ⟨false, 0, .stopped, some 0, 0⟩
    ctl := { (base .listen).ctl with groupEvidence := group, acceptedSeen := accepted } }

theorem test_witness_SilenceEndsInAColdStartOrAMismatch :
    (silent true false).ctl.station = .listen ∧ (silent true false).rotation.synced = false
      ∧ (silent true false).rotation.silence.isSome = true
      ∧ (after .silenceTimerExpiry (silent true false)).ctl.station = .groupMismatch
      ∧ (after .silenceTimerExpiry (silent true true)).ctl.station = .joining
      ∧ (after .silenceTimerExpiry (silent false false)).rotation.slot = .window := by decide +kernel

/-- At address 0 the burst of slot 0 is composed as it opens (R9, R19, R113). -/
theorem test_own_slot_zero :
    let at0 := fun (s : State) => { s with loader := { s.loader with straps := some ⟨0, .load⟩ } }
    (after .silenceTimerExpiry (at0 (silent false false))).line.burst
        = [.join 0 ⟨20, 60, 2, .load⟩ 0x1234]
      ∧ (after .silenceTimerExpiry (at0 (silent false false))).ctl.joinComposed = true
      ∧ (after .slotWindowEnd (at0 (lastSlot (base .leaving)))).line.burst = [.leave 0 0x1234]
      ∧ (after .slotWindowEnd (at0 (lastSlot (base .offline)))).line.burst = [] := by decide +kernel

theorem test_witness_DriveFollowsTheDutyOfEachPeriod :
    active.drive.counter.isSome = true ∧ active.ctl.station.working = true
      ∧ active.meas.scan = .idle ∧ (scanning active true).meas.scan ≠ .idle
      ∧ (base .addressConflict).ctl.station.working = false
      ∧ (after .periodStart { active with drive := ⟨some 0, 0, 999, false, false⟩ }).drive.duty
        < active.cfg.period := by decide +kernel

theorem test_witness_ScanCompletions :
    (scanning active false).ctl.station.working = true
      ∧ (scanning active false).meas.scan = .running .feed false
      ∧ (scanning active false).ownRole = .monitor ∧ 1 < active.cfg.persistence
      ∧ State.ownRole { scanning active true with loader := { active.loader with straps := some ⟨5, .load⟩ } }
        = .load := by decide +kernel

/-- A scanning state whose OVERDRAW run lacks one sample. -/
def overdrawn : State :=
  { scanning active false with
    meas := { (scanning active false).meas with overdraw := ⟨false, some ⟨.excess, 1⟩⟩ } }

theorem test_witness_OverdrawTripCutsTheDrive :
    overdrawn.ctl.station = .active ∧ overdrawn.meas.scan = .running .feed false
      ∧ overdrawn.share.limit + overdrawn.cfg.margin
        < (1023 : BitVec 10).toNat * overdrawn.cfg.iScale / 1024
      ∧ overdrawn.cfg.persistence ≤ 1 + 1
      ∧ (after (.scanCompletion 1023 0 0) overdrawn).meas.overdraw = ⟨true, none⟩ := by decide +kernel

/-- A scan whose mark is set, one sample short of a change of STAGE_FAULT. -/
def stageAt (tripped : Bool) (c : SampleClass) : State :=
  { scanning active true with
    meas := { (scanning active true).meas with stage := ⟨tripped, some ⟨c, 1⟩⟩ } }

theorem test_witness_LimiterHoldsOrStepsByTheFirstCase :
    (∀ r ∈ (scanning active false).meas.overdraw.run, ¬ r.cls = .excess) ∧ ¬ active.cfg.persistence ≤ 1
      ∧ 0 < active.share.limit ∧ (base .listen).share.limit = 0
      ∧ (stageAt false .excess).meas.stage.judge 2 (some .excess) = ⟨true, none⟩
      ∧ (stageAt true .normal).meas.stage.judge 2 (some .normal) = ⟨false, none⟩
      ∧ (stageAt true .normal).stageClears true = true ∧ (stageAt false .excess).stageClears true = false
      ∧ (after (.scanCompletion 20 1023 0) (stageAt false .excess)).meas.stage.tripped = true
      ∧ (after (.scanCompletion 20 1023 0) (stageAt false .excess)).drive.buffer = 0 := by decide +kernel

/-- A scanning monitor whose FEED run lacks one sample. -/
def feeding (tripped : Bool) (c : SampleClass) (m : MonitorState) : State :=
  { scanning active false with
    meas := { (scanning active false).meas with feedDet := ⟨tripped, some ⟨c, 1⟩⟩ }
    shed := { active.shed with monitor := m } }

theorem test_witness_FeedTripsAndClearsWriteTheItem :
    (feeding false .excess .calm).meas.feedDet.tripped = false
      ∧ (after (.scanCompletion 0 0 1023) (feeding false .excess .calm)).meas.feedDet.tripped = true
      ∧ (after (.scanCompletion 0 0 1023) (feeding false .excess .calm)).sched.item
        = some ⟨4, .floor⟩
      ∧ (feeding true .normal .shedding).meas.feedDet.tripped = true
      ∧ (after (.scanCompletion 0 0 0) (feeding true .normal .shedding)).meas.feedDet.tripped = false
      ∧ (after (.scanCompletion 0 0 0) (feeding true .normal .shedding)).sched.item
        = some ⟨0, .floor⟩ := by decide +kernel

theorem test_witness_SelectLineBeginsAndEndsTransactions :
    active.pins.scsN = true ∧ active.ctl.station ≠ .resetting ∧ State.reset.pins.scsN = true
      ∧ State.reset.ctl.station = .resetting ∧ (inPhase active .window).pins.scsN = false
      ∧ (inPhase active .data).pins.scsN = false := by decide +kernel

/-- Eight SCK periods. -/
def eightClocks (s : State) : State :=
  s.serialClock.serialClock.serialClock.serialClock.serialClock.serialClock.serialClock.serialClock

/-- The wires of one READ on SDO (chapter 11): entries 1 to 3 of SHED from offset 2, byte by byte, then
0x00 past the window. -/
theorem test_sdo_of_a_read :
    let s := inPhase { active with
      shed := ⟨#v[none, some ⟨4, .zero⟩, none, some ⟨9, .floor⟩], .calm⟩ } .offset
    let d0 := after (.readCapture 2) { s with port := { s.port with window := 4 } }
    let d1 := eightClocks d0
    let d2 := eightClocks d1
    (d0.port.sdo, d1.port.sdo, d2.port.sdo) = (some 0x81, some 4, some 0)
      ∧ (d0.port.position, d1.port.position, d2.port.position) = (2, 3, 4)
      ∧ d0.sdoLevel = some true ∧ d0.serialClock.sdoLevel = some false
      ∧ d0.serialClock.port.bitCount = 1 ∧ d1.port.bitCount = 0
      ∧ (eightClocks (eightClocks d2)).port.sdo = some 0x80
      ∧ (eightClocks (eightClocks (eightClocks (eightClocks d2)))).port.sdo = some 0 := by decide +kernel

theorem test_witness_SerialClockMovesOneBit :
    (inPhase active .command).pending = [] ∧ (inPhase active .command).port.bitCount < 7
      ∧ (eightClocks (inPhase active .command)).port.bitCount = 7
      ∧ (eightClocks (inPhase active .window)).port.phase = some .window
      ∧ (eightClocks (inPhase active .offset)).port.lowByte = true
      ∧ (eightClocks (eightClocks (inPhase active .offset))).port.bitCount = 7
      ∧ (eightClocks (inPhase active .ignore)).port.bitCount = 0
      ∧ (inPhase active .data).port.phase = some .data := by decide +kernel

theorem test_witness_CommandByteActsAtItsEighthBit :
    (inPhase active .command).port.phase = some .command ∧ (5 : Byte).toNat = 5 ∧ 4 < (255 : Byte).toNat
      ∧ (0 : Byte).toNat = 0 := by decide +kernel

theorem test_witness_HistoryClearLowersAttn :
    (inPhase active .command).stats.attention = []
      ∧ (inPhase { active with stats := { active.stats with attention := [.rounds] } } .command).attn
        = true := by decide +kernel

theorem test_witness_ReadCapturesTheWindowAtOnce :
    (inPhase active .window).port.phase = some .window ∧ (7 : Byte).toNat < 8 ∧ 8 ≤ (8 : Byte).toNat
      ∧ (inPhase active .offset).port.phase = some .offset
      ∧ (inPhase active .offset).port.window < 8
      ∧ (after (.readCapture 15) (inPhase active .offset)).port.sdo = some 0
      ∧ (after (.readCapture 16) (inPhase active .offset)).port.sdo = some 0 := by decide +kernel

/-- The hypotheses of the window layouts, and a record of each window. -/
theorem test_witness_WindowsAndPinsShowTheState :
    crowded.ownAddr < 32 ∧ crowded.rotation.rot < 32 ∧ crowded.share.applied < 4096
      ∧ (∀ p ∈ crowded.share.pending, p < 4096)
      ∧ crowded.statusWindow.take 11 = [0x87, 0x61, 7, 0, 0, 7, 0, 0, 1, 0x40, 40]
      ∧ findEntry 1 crowded.table.entries = some (entry 1 .active)
      ∧ (crowded.tableWindow.drop 16).take 16
        = [0xFB, 2, 1, 0x40, 60, 0, 0, 40, 0, 10, 0, 10, 0, 12, 0x77, 0x77]
      ∧ findEntry 0 crowded.table.entries = none
      ∧ crowded.orphansWindow.take 5 = [0x87, 0, 0xA0, 1, 0]
      ∧ (sendingAfter .active 0 .sending).line.burst.head? = some claim3
      ∧ (sendingAfter .active 0 .sending).line.phase = .sending
      ∧ ((sendingAfter .active 0 .sending).ltx.map (fun w => w.length)) = some 210
      ∧ crowded.ready = true ∧ (base .configFault).faultLine = true := by decide +kernel

/-- The counter one below the attention threshold, and at its maximum (R176, R177). -/
theorem test_counter_boundaries :
    (Stats.bump { Stats.reset with live := Vector.replicate 20 0x7FFFFFFF } .rounds).attention
        = [.rounds]
      ∧ (Stats.bump { Stats.reset with live := Vector.replicate 20 0xFFFFFFFF } .rounds).get .rounds
        = 0xFFFFFFFF := by decide +kernel

theorem test_witness_CheckSequencesAndFramesAreReadBack :
    (Frame.claim 31 ⟨65535, 65535, 65535, 65535, true⟩ ⟨65535, 65535, 15, .monitor⟩ 0 0 0xFFFFFFFF).Fits
      ∧ shed3.Fits ∧ join3.Fits ∧ leave3.Fits := by
  simp only [Frame.Fits, Terms.Fits, shed3, join3, leave3, terms3]; decide +kernel

/-- The levels of a frame, with its first two bit times lost and whole, give its bits (R1, R3, R4). -/
theorem test_witness_levels_of_a_frame :
    ¬ (((false, true) : BitTime).1 = ((false, true) : BitTime).2
        ∧ ((true, false) : BitTime) = (false, true))
      ∧ activityEvents (lineLevels leave3.body ++ [(true, true), (true, true)])
        = some [.carrierBegins, .startMark, .frameReport (bitsOfBytes leave3.body)]
      ∧ activityEvents ((true, true) :: (false, false) :: (lineLevels leave3.body).drop 2
        ++ [(false, false), (false, false)])
        = some [.carrierBegins, .startMark, .frameReport (bitsOfBytes leave3.body)]
      ∧ ((true, false) : BitTime) ≠ (true, true) ∧ ([true] : List Bool) ≠ [] := by decide +kernel

/-! ## A state with every invariant, and a step from it -/

/-- ACTIVE at the last slot's end, with all of Safety.lean, and the command that ends the slot. -/
def running : State :=
  { lastSlot active with
    table := ⟨[entry 1 .active, entry 3 .active], [⟨6, 10, 2⟩], [(3, .agrees)]⟩
    pending := [.slotWindowEnd] }

theorem test_witness_EveryStepKeepsTheShareSafe : running.ShareSafe := by
  unfold State.ShareSafe; decide +kernel

theorem test_witness_EveryStepKeepsTheDriveSafe : running.DriveSafe := by
  unfold State.DriveSafe; decide +kernel

theorem test_witness_EveryStepKeepsTheTableSafe : running.TableSafe := by
  unfold State.TableSafe State.EntriesSafe State.OrphansSafe; decide +kernel

theorem test_witness_EveryStepKeepsTheRotationAndTheStationSafe :
    running.RotationSafe ∧ running.LineSafe ∧ running.StationSafe := by
  unfold State.RotationSafe State.LineSafe State.StationSafe; decide +kernel

theorem test_witness_EveryStepKeepsSheddingAndMeasurementSafe : running.ShedSafe ∧ running.MeasureSafe := by
  unfold State.ShedSafe State.MeasureSafe; decide +kernel

theorem test_witness_EveryStepKeepsHistoryLoaderAndPortSafe :
    running.HistorySafe ∧ running.AttentionSafe ∧ running.LoaderSafe ∧ running.PortSafe := by
  unfold State.HistorySafe State.AttentionSafe State.LoaderSafe State.PortSafe; decide +kernel

theorem test_witness_running_steps :
    step running = .next (after .slotWindowEnd { running with pending := [] }) := rfl

end Sys2Proof.Machine.Tests
end

section
/-! PROOFS. Discards of the Frame Checker: what a discard does to the counters, the history and the rest
of the state (R23, R27, R29, R35 to R37, R102). -/

namespace Sys2Proof.Machine

/-! ## The description a discard record takes -/

/-- Every record but a CODE, KIND or LENGTH one names the decoded sender (R36). -/
theorem recordSender_eq (reason : Reason) (body : List Byte) :
    recordSender reason body
      = if reason ∈ [.code, .kind, .length] then none else some ((body.getD 0 0).toNat % 32) := by
  cases reason <;> rfl

/-- Every record but a CODE one names the decoded kind (R36). -/
theorem recordKind_eq (reason : Reason) (body : List Byte) :
    recordKind reason body
      = if reason = .code then none else some ((body.getD 0 0).toNat / 32) := by
  cases reason <;> rfl

/-! ## The effect of a discard, block by block -/

/-- Conflict evidence moves no counter (R29, R111). -/
@[simp] theorem State.conflictEvidence_stats (s : State) : s.conflictEvidence.stats = s.stats := by
  unfold State.conflictEvidence
  split
  · exact s.enterFaultState_stats _ _
  · rfl

/-- A discard moves the counter of its reason and no other (R35). -/
@[simp] theorem State.discard_stats (s : State) (reason : Reason) (body : List Byte) :
    (s.discard reason body).stats = s.stats.bump reason.counter := by
  cases reason
  case self => exact (s.recordDiscard .self body).conflictEvidence_stats
  all_goals rfl

/-- Of the Frame Checker a discard changes the history only: the heard mask stands (R34, R37). -/
@[simp] theorem State.discard_checker (s : State) (reason : Reason) (body : List Byte) :
    (s.discard reason body).checker
      = { s.checker with
          history := addDiscard s.checker.history reason (recordSender reason body)
            (recordKind reason body) s.roundByte } := by
  cases reason
  case self =>
    obtain ⟨_, _, hchecker⟩ := (s.recordDiscard .self body).keeps_conflictEvidence
    exact hchecker
  all_goals rfl

/-- The record of a discard has the sender and the kind as R36 gives them, and the round as it stands. -/
theorem State.historyTakes_discard (s : State) (reason : Reason) (body : List Byte) :
    historyTakes s.checker.history (s.discard reason body).checker.history reason
      (if reason ∈ [.code, .kind, .length] then none else some ((body.getD 0 0).toNat % 32))
      (if reason = .code then none else some ((body.getD 0 0).toNat / 32))
      (s.rotation.roundCount.truncate 8) := by
  rw [← recordSender_eq, ← recordKind_eq, s.discard_checker]
  exact historyTakes_addDiscard _ _ _ _ _

/-- Beside the counter and the record, a discard that is no conflict evidence sets at most the
group-evidence flag, and that for GROUP only (R27, R102). -/
theorem State.discard_eq_of_ne_self (s : State) {reason : Reason} (body : List Byte)
    (h : reason ≠ .self) :
    s.discard reason body = { s with
      checker := (s.discard reason body).checker
      stats := (s.discard reason body).stats
      ctl := { s.ctl with
        groupEvidence := if reason = .group then true else s.ctl.groupEvidence } } := by
  cases reason
  case self => exact absurd rfl h
  all_goals rfl

/-! ## A report whose code status is not good -/

/-- The first check is the code status (R22, R23). -/
theorem State.judge_of_status (s : State) {r : FrameReport} (h : r.status ≠ .good) :
    s.judge r = .discarded .code := if_pos h

/-- A defective report is judged CODE, whatever the defect (R23). -/
theorem State.judges_code_of_status {s : State} {bits : List Bool}
    (hc : s.ctl.station.configured = true) (ha : s.line.receiver.attempting = true)
    (h : (lineReport s.line.receiver bits).status ≠ .good) : s.Judges bits (.discarded .code) :=
  ⟨hc, ha, State.judge_of_status _ h⟩

/-- A report discarded runs to its discard in the state of judgement (R35). -/
theorem exec_frameReport_of_discarded {s : State} {bits : List Bool} {reason : Reason}
    (h : s.Judges bits (.discarded reason)) :
    exec (.frameReport bits) s
      = .next ((s.atJudgement bits).discard reason (lineReport s.line.receiver bits).body) :=
  exec_frameReport_of_judges h

/-- A defective report resyncs nobody: it is one CODE discard in the state with the line idle (R5, R23). -/
theorem exec_frameReport_of_status {s : State} {bits : List Bool}
    (hc : s.ctl.station.configured = true) (ha : s.line.receiver.attempting = true)
    (h : (lineReport s.line.receiver bits).status ≠ .good) :
    exec (.frameReport bits) s
      = .next (s.lineIdle.discard .code (lineReport s.line.receiver bits).body) := by
  rw [exec_frameReport_of_discarded (State.judges_code_of_status hc ha h),
    State.atJudgement_of_invalid (crcValid_of_status h)]

/-! ## The counter of each reason -/

/-- Each reason is listed with the counter that its discard moves (R35). -/
theorem Reason.eq_counter_of_mem {reason : Reason} {c : Counter}
    (h : (reason, c) ∈ [(Reason.code, Counter.codeDiscards), (.kind, .kindDiscards),
      (.length, .lengthDiscards), (.crc, .crcDiscards), (.group, .groupDiscards),
      (.format, .formatDiscards), (.self, .selfDiscards), (.role, .roleDiscards),
      (.state, .stateDiscards)]) : c = reason.counter := by
  cases reason <;> simpa [Reason.counter] using h

/-- Settles O21: both halves are `State.discard` in the state of judgement, which for a defective report
is the state with the line idle. -/
theorem codeDefectIsOnlyCountedAndRecorded : Obligations.CodeDefectIsOnlyCountedAndRecorded := by
  intro s bits reason c hconf hatt
  constructor
  · intro hstatus
    exact ⟨_, exec_frameReport_of_status hconf hatt hstatus, s.lineIdle.historyTakes_discard .code _⟩
  · intro hjudged hcounter
    obtain rfl := Reason.eq_counter_of_mem hcounter
    refine ⟨_, exec_frameReport_of_discarded hjudged, State.historyTakes_discard _ _ _,
      State.discard_stats _ _ _, ?_, State.discard_eq_of_ne_self _ _⟩
    rw [State.discard_checker]

end Sys2Proof.Machine
end

section
/-! PROOFS. An accepted LEAVE: what the removal of an entry takes from the table and from the floor sum,
and the state the report comes to (R33, R41, R49). -/

namespace Sys2Proof.Machine

/-! ## The table and its floor sum without an entry -/

/-- The entries whose floors count are the ACTIVE and the SILENT ones (R41). -/
theorem Entry.counted_iff (e : Entry) :
    e.counted = true ↔ e.state = .active ∨ e.state = .silent := by
  simp [Entry.counted]

/-- Without an entry for the address there is nothing to remove. -/
theorem removeEntry_of_findEntry_eq_none {a : Nat} {es : List Entry} (h : findEntry a es = none) :
    removeEntry a es = es :=
  List.filter_eq_self.2 fun e he => bne_iff_ne.2 (findEntry_eq_none.1 h e he)

/-- In an ordered table the first entry's address is not found among the others (R39). -/
theorem findEntry_eq_none_of_sorted_cons {x : Entry} {xs : List Entry}
    (h : SortedEntries (x :: xs)) : findEntry x.addr xs = none :=
  findEntry_eq_none.2 fun y hy => ((List.pairwise_cons.1 h).1 y hy).ne'

/-- The entry found is the only one removed: its floor, where it counts, is all that leaves the floor
sum (R41, R49). -/
theorem floorSum_removeEntry_add {a : Nat} {e : Entry} {es : List Entry} (hs : SortedEntries es)
    (hf : findEntry a es = some e) :
    floorSum (removeEntry a es) + (if e.counted then e.terms.floor else 0) = floorSum es := by
  induction es with
  | nil => cases hf
  | cons x xs ih =>
    by_cases hx : x.addr = a
    · subst hx
      obtain rfl : x = e := by simpa [findEntry] using hf
      have hrest : removeEntry x.addr (x :: xs) = xs := calc
        removeEntry x.addr (x :: xs) = removeEntry x.addr xs := by simp [removeEntry]
        _ = xs := removeEntry_of_findEntry_eq_none (findEntry_eq_none_of_sorted_cons hs)
      rw [hrest, floorSum_cons, Nat.add_comm]
    · have hfound : findEntry a xs = some e := by simpa [findEntry, List.find?_cons, hx] using hf
      have hkept : removeEntry a (x :: xs) = x :: removeEntry a xs := by simp [removeEntry, hx]
      have hxs := ih (List.pairwise_cons.1 hs).2 hfound
      rw [hkept, floorSum_cons, floorSum_cons]
      omega

/-! ## The report of an accepted LEAVE -/

/-- An accepted LEAVE is counted and noticed, and takes its sender's entry from the table (R33, R49). -/
theorem State.settleVerdict_accepted_leave (u : State) (a : Nat) (d : Word16) (body : List Byte) :
    u.settleVerdict (.accepted (.leave a d)) body = { u with
      table := { u.table with entries := removeEntry a u.table.entries }
      ctl := u.noticed false
      stats := u.stats.bump .framesAccepted } := rfl

/-- Settles O23: the report comes to the removal of the sender's entry in the state of judgement, and the
removal takes that one entry and its floor. -/
theorem acceptedLeaveRemovesTheEntryOnly : Obligations.AcceptedLeaveRemovesTheEntryOnly := by
  intro s bits a d hjudged u
  have hrun := exec_frameReport_of_judges hjudged
  rw [State.settleVerdict_accepted_leave] at hrun
  refine ⟨_, hrun, findEntry_removeEntry_self a _, fun x hx => findEntry_removeEntry_of_ne _ hx,
    ?floor, ?absent, rfl, rfl, rfl⟩
  case floor =>
    rintro ⟨hsorted, -⟩
    cases hfound : findEntry a u.table.entries with
    | none => exact congrArg floorSum (removeEntry_of_findEntry_eq_none hfound)
    | some e => simpa only [Entry.counted_iff] using floorSum_removeEntry_add hsorted hfound
  case absent =>
    intro hnone
    exact congrArg (fun es => { u.table with entries := es })
      (removeEntry_of_findEntry_eq_none hnone)

end Sys2Proof.Machine
end

section
/-! PROOFS. The diagnostic port: HISTORY_CLEAR and the ATTN pin (R172, R177, R179). -/

namespace Sys2Proof.Machine

/-! ## ATTN -/

/-- ATTN is high exactly while the attention set or the discard history is non-empty (R177). -/
theorem State.attn_iff (s : State) :
    s.attn = true ↔ s.stats.attention ≠ [] ∨ s.checker.history ≠ [] := by
  simp [State.attn]

/-- With the history empty the attention set alone decides ATTN (R177, R179). -/
theorem State.attn_iff_of_history_eq_nil {s : State} (h : s.checker.history = []) :
    s.attn = true ↔ s.stats.attention ≠ [] :=
  s.attn_iff.trans (or_iff_left (not_not_intro h))

/-! ## HISTORY_CLEAR -/

/-- The port awaits a command byte exactly in phase COMMAND (R172). -/
theorem State.awaitsCommand_iff (s : State) :
    s.awaitsCommand = true ↔ s.port.phase = some .command := beq_iff_eq

/-- In phase COMMAND a HISTORY_CLEAR changes the port and the discard history only (R172, R179). -/
theorem exec_historyClear_of_phase {s : State} (h : s.port.phase = some .command) :
    exec .historyClear s = .next { s with
      port := s.port.acted .historyClear
      checker := { s.checker with history := [] } } :=
  congrArg Host.Outcome.next (if_pos (s.awaitsCommand_iff.2 h))

/-- Settles O49: the clear leaves the statistics as they stand, so that ATTN, with the history empty,
is what the attention set of before makes it. -/
theorem historyClearLowersAttn : Obligations.HistoryClearLowersAttn := by
  intro s hphase
  refine ⟨_, exec_historyClear_of_phase hphase, rfl, rfl, ?empty, ?nonempty⟩
  case empty =>
    intro hempty
    rw [Bool.eq_false_iff, ne_eq, State.attn_iff_of_history_eq_nil rfl]
    exact not_not_intro hempty
  case nonempty =>
    intro hnonempty
    exact (State.attn_iff_of_history_eq_nil rfl).2 hnonempty

end Sys2Proof.Machine
end

section
/-! PROOFS. The induction over a step, packaged once for every invariant: the moves that commands are
made of, and that a property kept by each move is kept by every step. -/

namespace Sys2Proof.Machine

/-! ## The moves of a step -/

/-- P is kept by every move that a command is made of, each with what its command knows of the state in
which it is made. A move that an invariant does not see needs no proof of its own: its default finds the
hypothesis again. -/
structure Kept (P : State → Prop) : Prop where
  queue : ∀ (s : State) (q : List Instr), P s → P { s with pending := q } := by
    intros; assumption
  reset : ∀ (s : State) (pins : Pins), P (s.resetBlocks pins)
  power : ∀ (s : State) (high up : Bool), P s →
      P { s with pins := { s.pins with resetN := high, powerComingUp := up } } := by
    intros; assumption
  startConfig : ∀ (s : State) (addr : BitVec 5) (role : Role), s.ctl.station = .resetting → P s →
      P (s.startConfig addr role) := by
    intros; assumption
  attemptWaits : ∀ (s : State) (stop : Bool), s.attempting = true → s.loader.attempts + 1 < 3 → P s →
      P { s with loader := { s.loader with
        load := .waiting, attempts := s.loader.attempts + 1, i2c := .ended stop } } := by
    intros; assumption
  attemptBegins : ∀ s : State, s.loader.load = .waiting → P s →
      P { s with loader := { s.loader with load := .reading, i2c := .attempt } } := by
    intros; assumption
  configFaulted : ∀ (s : State) (l : Loader) (code : FaultCode), s.attempting = true → code ≠ .none →
      l.straps = s.loader.straps → l.attempts = s.loader.attempts + 1 →
      l.image = s.loader.image ∨ l.image.length = blockLength → P s →
      P (State.endConfigFaulted { s with loader := l } code) := by
    intros; assumption
  deliver : ∀ (s : State) (block : List Byte), s.attempting = true → block.length = blockLength →
      checkBlock block s.strapsNow = none → P s → P ((s.takeImage block).deliver block) := by
    intros; assumption
  enLevel : ∀ (s : State) (high : Bool) (filter : Option Nat), P s →
      P { s with pins := { s.pins with en := high }, ctl := { s.ctl with enFilter := filter } } := by
    intros; assumption
  settle : ∀ (s : State) (level : Bool), P s → P (s.settle level) := by
    intros; assumption
  enterJoining : ∀ s : State, s.ctl.station = .offline ∨ s.ctl.station = .listen →
      s.rotation.synced = true → s.ctl.observed = 2 → P s → P s.enterJoining := by
    intros; assumption
  enterListen : ∀ s : State, s.ctl.station = .offline → P s → P s.enterListen := by
    intros; assumption
  enterOffline : ∀ s : State, s.ctl.station = .listen → P s → P s.enterOffline := by
    intros; assumption
  withdraw : ∀ s : State, s.ctl.station = .joining → P s → P s.removeOwnEntry.enterOffline := by
    intros; assumption
  enterLeaving : ∀ s : State, s.ctl.station.collisionMatters = true → P s → P s.enterLeaving := by
    intros; assumption
  leaveAttempt : ∀ s : State, s.ctl.station = .leaving → s.sched.leaveAttempts + 1 < 3 → P s →
      P { s with sched := { s.sched with leaveAttempts := s.sched.leaveAttempts + 1 } } := by
    intros; assumption
  endLeaving : ∀ (s : State) (n : Nat), s.ctl.station = .leaving → n ≤ s.sched.leaveAttempts + 1 →
      P s → P (State.endLeaving { s with sched := { s.sched with leaveAttempts := n } }) := by
    intros; assumption
  enterFaultState : ∀ (s : State) (st : Station) (code : FaultCode), s.ctl.station.working = true →
      st = .addressConflict ∨ st = .groupMismatch → code ≠ .none → P s →
      P (s.enterFaultState st code) := by
    intros; assumption
  receiver : ∀ (s : State) (r : Receiver), P s →
      P { s with line := { s.line with receiver := r } } := by
    intros; assumption
  slot : ∀ (s : State) (x : SlotPhase), s.rotation.slot ≠ .stopped ∨ s.line.phase ≠ .quiet → P s →
      P { s with rotation := { s.rotation with slot := x } } := by
    intros; assumption
  silence : ∀ (s : State) (n : Option Nat), P s →
      P { s with rotation := { s.rotation with silence := n } } := by
    intros; assumption
  dropBurst : ∀ s : State, P s → P s.dropBurst := by
    intros; assumption
  count : ∀ (s : State) (c : Counter), P s → P (s.count c) := by
    intros; assumption
  collisionRun : ∀ (s : State) (n : Nat), P s →
      P { s with sched := { s.sched with collisionRun := n } } := by
    intros; assumption
  beginFrame : ∀ s : State, s.line.phase ≠ .quiet → P s → P s.beginFrame := by
    intros; assumption
  frameEnded : ∀ (s : State) (f : Frame) (rest : List Frame), s.line.phase = .sending →
      s.line.burst = f :: rest → P s → P (s.frameEnded rest) := by
    intros; assumption
  ownJoinSent : ∀ s : State, P s → P (s.updateOwn Entry.ownJoinSent) := by
    intros; assumption
  ownClaimSent : ∀ (s : State) (v : Values) (basis : Word16), P s →
      P (s.updateOwn (fun e => e.ownClaimSent v basis)) := by
    intros; assumption
  shedSent : ∀ (s : State) (a : Nat) (o : ShedOrder) (d : Word16), .shed a o d ∈ s.line.burst → P s →
      P (s.shedSent o) := by
    intros; assumption
  startSlot : ∀ (s : State) (a : Nat), s.rotation.synced = true → a < s.cfg.nSlots ∨ a = 0 → P s →
      P { s with rotation := { s.rotation with rot := a, slot := .window } } := by
    intros; assumption
  openOwnSlot : ∀ s : State, s.rotation.synced = true → P s → P s.openOwnSlot := by
    intros; assumption
  boundary : ∀ (s : State) (kind : BoundaryKind), s.rotation.synced = true → P s →
      P (s.boundary kind) := by
    intros; assumption
  takeRot : ∀ (s : State) (a : Nat), s.rotation.synced = true → a < s.cfg.nSlots → P s →
      P (s.takeRot a) := by
    intros; assumption
  acquireSync : ∀ (s : State) (a : Nat), s.ctl.station.configured = true → s.rotation.synced = false →
      a < s.cfg.nSlots → P s → P (s.acquireSync a) := by
    intros; assumption
  coldSync : ∀ s : State, s.ctl.station = .listen → P s →
      P { s with
        rotation := { s.rotation with synced := true, rot := 0 }
        ctl := { s.ctl with observed := 2 } } := by
    intros; assumption
  notice : ∀ (s : State) (f : Frame), P s → P (s.notice f) := by
    intros; assumption
  dispatch : ∀ (s : State) (f : Frame), s.judgeFields f = .accepted f → f.overlongShed = false → P s →
      P (s.dispatch f) := by
    intros; assumption
  recordDiscard : ∀ (s : State) (reason : Reason) (body : List Byte), P s →
      P (s.recordDiscard reason body) := by
    intros; assumption
  groupNotice : ∀ s : State, P s → P { s with ctl := { s.ctl with groupEvidence := true } } := by
    intros; assumption
  nextPeriod : ∀ s : State, P s → P { s with drive := s.drive.nextPeriod } := by
    intros; assumption
  beginScan : ∀ (s : State) (mark : Bool), s.ctl.station.working = true → s.meas.scan = .idle →
      (mark = true → s.drive.duty = 0 ∧ s.drive.buffer = 0 ∧ s.drive.level = false) → P s →
      P { s with meas := { s.meas with scan := .running .isns mark } } := by
    intros; assumption
  dutyEnd : ∀ s : State, P s →
      P { s with drive := { s.drive with counter := some s.drive.duty, level := false } } := by
    intros; assumption
  completeScan : ∀ (s : State) (input : ScanInput) (mark : Bool) (isns dem feed : BitVec 10),
      s.ctl.station.working = true → s.meas.scan = .running input mark → P s →
      P (s.completeScan mark isns dem feed) := by
    intros; assumption
  select : ∀ (s : State) (low : Bool) (p : Port),
      (s.PortSafe → State.PortSafe { s with pins := { s.pins with scsN := low }, port := p }) → P s →
      P { s with pins := { s.pins with scsN := low }, port := p } := by
    intros; assumption
  stats : ∀ (s : State) (st : Stats), st.attention = s.stats.attention ∨ st.attention = [] → P s →
      P { s with stats := st } := by
    intros; assumption
  clearHistory : ∀ s : State, P s → P { s with checker := { s.checker with history := [] } } := by
    intros; assumption

/-! ## Every command is made of moves -/

/-- If the command completes, it completes in a state with P. -/
def Leads (P : State → Prop) (answer : Answer) : Prop := ∀ t, answer = .next t → P t

theorem leads_next {P : State → Prop} {s : State} (h : P s) : Leads P (.next s) := by
  rintro t ⟨⟩
  exact h

theorem leads_refused {P : State → Prop} (r : Refusal) : Leads P (.refused r) :=
  fun _ h => by simp at h

/-! ## What the commands' own cases come to -/

/-- A check that fails gives a code of a fault (R164). -/
theorem ne_none_of_checkBlock {block : List Byte} {p : Straps} {code : FaultCode}
    (h : checkBlock block p = some code) : code ≠ .none := by
  unfold checkBlock at h
  split_ifs at h <;> simp_all <;> simp [← h]

/-- Where a collision matters the blocks work (R50, R111). -/
theorem working_of_collisionMatters {st : Station} (h : st.collisionMatters = true) :
    st.working = true := by
  cases st <;> simp_all [Station.collisionMatters, Station.working]

/-- What a frame does by its kind comes to the same before the Line Controller's part of its end and
after it (R12, R115). -/
theorem State.frameEffect_frameEnded (s : State) (f : Frame) (rest : List Frame) :
    ((s.frameEnded rest).countSent).frameEffect f
      = ((s.countSent).frameEffect f).frameEnded rest := by
  cases f
  case claim => rfl
  case join => rfl
  case leave =>
    simp only [State.frameEffect, State.endLeaving, apply_ite (State.frameEnded · rest)]
    rfl
  case shed =>
    simp only [State.frameEffect, State.shedSent, apply_ite (State.frameEnded · rest)]
    rfl

/-- No frame sent moves the burst (R115). -/
theorem State.frameEffect_line (s : State) (f : Frame) : (s.frameEffect f).line = s.line :=
  (s.keeps_frameEffect f).2.1

/-- Where conflict evidence acts the blocks work (R29, R50). -/
theorem working_of_evidenceMatters {st : Station} (h : st.evidenceMatters = true) :
    st.working = true := by
  cases st <;> simp_all [Station.evidenceMatters, Station.collisionMatters, Station.working]

/-- A frame accepted is the frame judged (R22). -/
theorem State.eq_of_judgeFields (s : State) {f g : Frame} (h : s.judgeFields g = .accepted f) :
    g = f := by
  unfold State.judgeFields at h
  split_ifs at h
  exact Verdict.accepted.inj h

/-- A frame accepted was read from the body and has passed the checks on its fields (R22). -/
theorem State.judgeFields_of_accepted {s : State} {r : FrameReport} {f : Frame}
    (h : s.judge r = .accepted f) :
    parseFrame r.body = some f ∧ s.judgeFields f = .accepted f := by
  unfold State.judge at h
  split at h
  · cases h
  · split at h
    · next n g _ hparse =>
      split_ifs at h
      obtain rfl := s.eq_of_judgeFields h
      exact ⟨hparse, h⟩
    · cases h

/-- The rounds of a SHED read from a body fit their field (R182). -/
theorem overlongShed_of_parseFrame {body : List Byte} {f : Frame} (h : parseFrame body = some f) :
    f.overlongShed = false := by
  unfold parseFrame at h
  split at h <;> simp only [Option.some.injEq, reduceCtorEq] at h <;> subst h
  all_goals simp [Frame.overlongShed]
  omega

section Commands
variable {P : State → Prop} (hk : Kept P) {s : State}
include hk

/-! ### Reset, configuration and EN -/

theorem Kept.resetNRise (addr : BitVec 5) (role : Role) (h : P s) :
    Leads P (execResetNRise addr role s) := by
  refine leads_next ?_
  have hpins : P { s with pins := { s.pins with resetN := true } } :=
    hk.power s true s.pins.powerComingUp h
  split_ifs with _ hwait
  · exact h
  · exact hpins
  · exact hk.startConfig _ addr role (by simp_all) hpins

theorem Kept.powerOnResetEnd (addr : BitVec 5) (role : Role) (h : P s) :
    Leads P (execPowerOnResetEnd addr role s) := by
  refine leads_next ?_
  have hpins : P { s with pins := { s.pins with powerComingUp := false } } :=
    hk.power s s.pins.resetN false h
  split_ifs with _ hready
  · exact hk.startConfig _ addr role hready.2 hpins
  · exact hpins
  · exact h

theorem Kept.attemptFailure (stop : Bool) (h : P s) : P (s.attemptFailure stop) := by
  unfold State.attemptFailure
  split_ifs with hatt hfew
  · exact hk.attemptWaits s stop hatt hfew h
  · exact hk.configFaulted s _ .noMemory hatt (by decide) rfl rfl (.inl rfl) h
  · exact h

theorem Kept.retryGapEnd (h : P s) : Leads P (execRetryGapEnd s) := by
  refine leads_next ?_
  split_ifs with hwait
  · exact hk.attemptBegins s hwait.2 h
  · exact h

theorem Kept.configReadComplete (block : List Byte) (h : P s) :
    Leads P (execConfigReadComplete block s) := by
  unfold execConfigReadComplete
  by_cases hlen : block.length = blockLength
  · rw [if_pos hlen]
    refine leads_next ?_
    split
    · next hatt =>
      split
      · next hvalid => exact hk.deliver s block hatt hlen hvalid h
      · next code hbad =>
        exact hk.configFaulted s _ code hatt (ne_none_of_checkBlock hbad) rfl rfl (.inr hlen) h
    · exact h
  · rw [if_neg hlen]
    exact leads_refused _

theorem Kept.settledHigh (h : P s) : P s.settledHigh := by
  unfold State.settledHigh
  split
  · next hoff =>
    split_ifs with hjoin
    · exact hk.enterJoining s (.inl hoff) hjoin.1 hjoin.2 h
    · exact hk.enterListen s hoff h
  · exact h

theorem Kept.settledLow (h : P s) : P s.settledLow := by
  unfold State.settledLow
  split
  case h_1 hst => exact hk.enterOffline s hst h
  case h_2 hst =>
    split_ifs
    · exact hk.enterLeaving s (by rw [hst]; rfl) h
    · exact hk.withdraw s hst h
  case h_3 hst => exact hk.enterLeaving s (by rw [hst]; rfl) h
  case h_4 hst => exact hk.enterLeaving s (by rw [hst]; rfl) h
  case h_5 => exact h

theorem Kept.enSettlesHigh (h : P s) : Leads P (execEnSettlesHigh s) := by
  refine leads_next ?_
  split_ifs
  · exact hk.settledHigh (hk.settle s true h)
  · exact h

theorem Kept.enSettlesLow (h : P s) : Leads P (execEnSettlesLow s) := by
  refine leads_next ?_
  split_ifs
  · exact hk.settledLow (hk.settle s false h)
  · exact h

/-! ### The own burst -/

theorem Kept.framesNotSent (frames : List Frame) (h : P s) : P (s.framesNotSent frames) := by
  unfold State.framesNotSent
  dsimp only
  split_ifs with hleave hthird
  · exact hk.endLeaving s _ hleave.2 (Nat.le_refl _) h
  · exact hk.leaveAttempt s hleave.2 (by omega) h
  · exact h

theorem Kept.countCollision (h : P s) : P s.countCollision := by
  have hcount := hk.count _ .collisions (hk.collisionRun s (s.sched.collisionRun + 1) h)
  unfold State.countCollision
  dsimp only
  split_ifs with hthird
  · exact hk.enterFaultState _ _ _ (working_of_collisionMatters hthird.2) (.inl rfl) (by decide)
      hcount
  · exact hcount

theorem Kept.collide (h : P s) : P s.collide :=
  hk.framesNotSent _ (hk.countCollision (hk.dropBurst s h))

theorem Kept.defer (h : P s) : P s.defer := hk.framesNotSent _ (hk.dropBurst s h)

theorem Kept.startDelayEnd (h : P s) : Leads P (execStartDelayEnd s) := by
  refine leads_next ?_
  split_ifs with hdelay
  · exact hk.beginFrame s (by simp [hdelay]) h
  · exact hk.dropBurst s h
  · exact h

theorem Kept.interFrameGapEnd (h : P s) : Leads P (execInterFrameGapEnd s) := by
  refine leads_next ?_
  split_ifs with hgap
  · exact hk.beginFrame s (by simp [hgap]) h
  · exact h

theorem Kept.frameSent (h : P s) : Leads P (execFrameSent s) := by
  refine leads_next ?_
  split_ifs with hsend
  · split
    · next f rest hburst =>
      have hsent : P s.countSent := hk.count _ _ (hk.collisionRun s 0 h)
      rw [State.frameEffect_frameEnded]
      have hline : (s.countSent.frameEffect f).line = s.line := s.countSent.frameEffect_line f
      refine hk.frameEnded _ f rest (by rw [hline]; exact hsend) (by rw [hline]; exact hburst) ?_
      cases f
      case claim => exact hk.ownClaimSent _ _ _ hsent
      case join => exact hk.ownJoinSent _ hsent
      case leave =>
        unfold State.frameEffect
        dsimp only
        split_ifs with hst
        · exact hk.endLeaving s.countSent _ hst (Nat.le_succ _) hsent
        · exact hsent
      case shed a o d => exact hk.shedSent _ a o d (by simp [hburst]) hsent
    · exact h
  · exact h

theorem Kept.abort (h : P s) : Leads P (execAbort s) := by
  refine leads_next ?_
  split_ifs with hsend
  · exact hk.collide (hk.slot _ .releaseGap (.inr (by simp [hsend])) (hk.receiver s .ignoring h))
  · exact h

/-! ### The receiver and the rotation -/

/-- In an open slot the slot's phase moves, and otherwise it stands (R7, R8). -/
theorem Kept.slotIfOpen (x : SlotPhase) (h : P s) : P { s with rotation := { s.rotation with
    slot := if s.rotation.slot = .stopped then .stopped else x } } := by
  split_ifs with hslot
  · rw [← hslot]; exact h
  · exact hk.slot s x (.inl hslot) h

/-- The receiver moves from one state to another (R3, R4). -/
theorem Kept.receiverStep {r q : Receiver} (h : P s) : Leads P (.next (
    if s.line.receiver = r then { s with line := { s.line with receiver := q } } else s)) := by
  refine leads_next ?_
  split_ifs
  · exact hk.receiver s q h
  · exact h

theorem Kept.lineIdle (h : P s) : P s.lineIdle := hk.slotIfOpen .releaseGap (hk.receiver s .idle h)

theorem Kept.carrier (h : P s) : P s.carrier :=
  hk.silence _ _ (hk.slotIfOpen .activity (hk.receiver s .hunting h))

theorem Kept.carrierBegins (h : P s) : Leads P (execCarrierBegins s) := by
  refine leads_next ?_
  split_ifs
  · split
    · exact hk.defer (hk.carrier h)
    · exact hk.collide (hk.carrier h)
    · exact hk.carrier h
    · exact hk.carrier h
  · exact h

theorem Kept.openSlot (a : Nat) (hsync : s.rotation.synced = true)
    (ha : a < s.cfg.nSlots ∨ a = 0) (h : P s) : P (s.openSlot a) := by
  have hstart := hk.startSlot s a hsync ha h
  unfold State.openSlot
  dsimp only
  split_ifs
  · exact hk.openOwnSlot _ hsync hstart
  · exact hstart

theorem Kept.advance (hsync : s.rotation.synced = true) (h : P s) : P s.advance := by
  unfold State.advance
  split_ifs with hrot
  · exact hk.openSlot _ hsync (.inl hrot) h
  · exact hk.openSlot 0 ((s.rotation_boundary _).1.trans hsync) (.inr rfl)
      (hk.boundary s _ hsync h)

theorem Kept.slotWindowEnd (h : P s) : Leads P (execSlotWindowEnd s) := by
  refine leads_next ?_
  split_ifs with hrun
  · exact hk.advance (by simp_all [State.windowRunning]) h
  · exact h

theorem Kept.releaseGapEnd (h : P s) : Leads P (execReleaseGapEnd s) := by
  refine leads_next ?_
  split_ifs with hrun
  · exact hk.advance (by simp_all [State.releaseGapRunning]) h
  · exact h

theorem Kept.silenceTimerExpiry (h : P s) : Leads P (execSilenceTimerExpiry s) := by
  refine leads_next ?_
  split_ifs with hrun _
  · have hst : s.ctl.station = .listen := by simp_all [State.silenceRunning]
    exact hk.enterFaultState s _ _ (by rw [hst]; rfl) (.inr rfl) (by decide) h
  · have hst : s.ctl.station = .listen := by simp_all [State.silenceRunning]
    exact hk.openSlot 0 rfl (.inr rfl)
      (hk.enterJoining _ (.inr hst) rfl rfl (hk.coldSync s hst h))
  · exact h

/-! ### The end of a frame -/

theorem Kept.resync (a : Nat) (hconf : s.ctl.station.configured = true) (h : P s) :
    P (s.resync a) := by
  unfold State.resync
  split_ifs with ha hsync hback
  · obtain ⟨hsync', -⟩ := s.rotation_boundary .lost
    obtain ⟨⟨-, -, hcfg, -⟩, -⟩ := s.keeps_boundary .lost
    exact hk.takeRot _ a (hsync'.trans hsync) (by rwa [hcfg]) (hk.boundary s .lost hsync h)
  · exact hk.takeRot s a hsync ha h
  · exact h
  · exact hk.acquireSync s a hconf (by simpa using hsync) ha h
  · exact h

theorem Kept.discard (reason : Reason) (body : List Byte) (h : P s) :
    P (s.discard reason body) := by
  have hrecord := hk.recordDiscard s reason body h
  cases reason
  case group => exact hk.groupNotice _ hrecord
  case self =>
    change P (State.conflictEvidence _)
    unfold State.conflictEvidence
    split_ifs with hst
    · exact hk.enterFaultState _ _ _ (working_of_evidenceMatters hst) (.inl rfl) (by decide) hrecord
    · exact hrecord
  all_goals exact hrecord

theorem Kept.settleVerdict (r : FrameReport) (h : P s) :
    P (s.settleVerdict (s.judge r) r.body) := by
  cases hv : s.judge r with
  | accepted f =>
    obtain ⟨hf, hfields⟩ := State.judgeFields_of_accepted hv
    exact hk.dispatch _ f hfields (overlongShed_of_parseFrame hf)
      (hk.notice _ f (hk.count s .framesAccepted h))
  | discarded reason => exact hk.discard reason r.body h

theorem Kept.frameReport (bits : List Bool) (h : P s) : Leads P (execFrameReport bits s) := by
  refine leads_next ?_
  split_ifs with hatt
  · have hidle := hk.lineIdle h
    refine hk.settleVerdict _ ?_
    split_ifs
    · exact hk.resync _ hatt.1 hidle
    · exact hidle
  · exact h

/-! ### Drive and measurement -/

theorem Kept.trigger (mark : Bool) (hwork : s.ctl.station.working = true)
    (hmark : mark = true → s.drive.duty = 0 ∧ s.drive.buffer = 0 ∧ s.drive.level = false)
    (h : P s) : P (s.trigger mark) := by
  unfold State.trigger
  split
  · next hscan => exact hk.beginScan s mark hwork hscan hmark h
  · exact hk.count s _ h

/-- With the drive-off mark the buffer is 0, and so is the drive of the period that starts (R145,
R151). -/
theorem Kept.periodStart (h : P s) : Leads P (execPeriodStart s) := by
  refine leads_next ?_
  have hnext := hk.nextPeriod s h
  split_ifs with _ hwork
  · refine hk.trigger _ hwork ?_ hnext
    intro hmark
    have hbuffer : s.drive.buffer = 0 := by simp_all [Drive.driveOffMark]
    simp [Drive.nextPeriod, hbuffer]
  · exact hnext
  · exact h

theorem Kept.dutyEnds (h : P s) : Leads P (execDutyEnd s) := by
  refine leads_next ?_
  split_ifs
  · exact hk.dutyEnd s h
  · exact h

theorem Kept.scanCompletion (isns dem feed : BitVec 10) (h : P s) :
    Leads P (execScanCompletion isns dem feed s) := by
  refine leads_next ?_
  split_ifs with hwork
  · split
    · next input mark hscan => exact hk.completeScan s input mark isns dem feed hwork hscan h
    · exact h
  · exact h

/-! ### The diagnostic port -/

/-- A change of the port alone that keeps its own bounds. -/
theorem Kept.port (p : Port) (hp : s.PortSafe → State.PortSafe { s with port := p }) (h : P s) :
    P { s with port := p } := hk.select s s.pins.scsN p hp h

theorem Kept.scsNFall (h : P s) : Leads P (execScsNFall s) := by
  refine leads_next ?_
  split_ifs with _ hreset
  · refine hk.select s false s.port ?_ h
    rintro ⟨hcap, hphase, hsdo, hbits, hwin⟩
    exact ⟨hcap, fun hp => absurd hreset (hphase hp).2, hsdo, hbits, hwin⟩
  · refine hk.select s false (s.port.begin s.statusNow) ?_ h
    rintro ⟨hcap, -⟩
    exact ⟨hcap, fun _ => ⟨rfl, hreset⟩, rfl, Nat.zero_le _, Nat.succ_pos 7⟩
  · exact h

theorem Kept.scsNRise (h : P s) : Leads P (execScsNRise s) := by
  refine leads_next ?_
  split_ifs
  · exact h
  all_goals
    refine hk.select s true _ ?_ h
    rintro ⟨hcap, -, -, -, hwin⟩
    exact ⟨hcap, nofun, rfl, Nat.zero_le _, hwin⟩

/-- A byte that ends in an answered transaction and leaves the capture buffer leaves the port's bounds
(R170, R172, R173). -/
theorem Kept.portByte (p : Port) (phase : PortPhase) (hphase : s.port.phase = some phase)
    (hcap : p.capture = s.port.capture) (hnext : p.phase.isSome = true) (hsdo : p.sdo.isSome = true)
    (hbits : p.bitCount = 0) (hwin : p.window = s.port.window ∨ p.window < 8) (h : P s) :
    P { s with port := p } := by
  refine hk.port p ?_ h
  rintro ⟨hcap', hphase', -, -, hwin'⟩
  refine ⟨hcap ▸ hcap', fun _ => hphase' (by simp [hphase]), hsdo.trans hnext.symm,
    by simp [hbits], ?_⟩
  rcases hwin with hwin | hwin
  · exact hwin ▸ hwin'
  · exact hwin

theorem Kept.acted (c : PortCommand) (hphase : s.port.phase = some .command) (h : P s) :
    P { s with port := s.port.acted c } :=
  hk.portByte _ .command hphase rfl rfl rfl rfl (.inl rfl) h

theorem Kept.read (h : P s) : Leads P (execRead s) := by
  refine leads_next ?_
  split_ifs with hcmd
  · exact hk.portByte _ .command (s.awaitsCommand_iff.1 hcmd) rfl rfl rfl rfl (.inl rfl) h
  · exact h

theorem Kept.snapshot (h : P s) : Leads P (execSnapshot s) := by
  refine leads_next ?_
  split_ifs with hcmd
  · exact hk.stats { s with port := s.port.acted .snapshot }
      { s.stats with bank := s.stats.live } (.inl rfl) (hk.acted .snapshot (s.awaitsCommand_iff.1 hcmd) h)
  · exact h

theorem Kept.snapshotClear (h : P s) : Leads P (execSnapshotClear s) := by
  refine leads_next ?_
  split_ifs with hcmd
  · exact hk.stats { s with port := s.port.acted .snapshotClear }
      ⟨Vector.replicate 20 0, s.stats.live, []⟩ (.inr rfl) (hk.acted .snapshotClear (s.awaitsCommand_iff.1 hcmd) h)
  · exact h

theorem Kept.historyClear (h : P s) : Leads P (execHistoryClear s) := by
  refine leads_next ?_
  split_ifs with hcmd
  · exact hk.clearHistory { s with port := s.port.acted .historyClear }
      (hk.acted .historyClear (s.awaitsCommand_iff.1 hcmd) h)
  · exact h

theorem Kept.refusedCommand (b : Byte) (h : P s) : Leads P (execRefusedCommand b s) := by
  unfold execRefusedCommand
  by_cases hb : isCommandByte b
  · rw [if_pos hb]
    exact leads_refused _
  · rw [if_neg hb]
    refine leads_next ?_
    split_ifs with hcmd
    · exact hk.portByte _ .command (s.awaitsCommand_iff.1 hcmd) rfl rfl rfl rfl (.inl rfl) h
    · exact h

theorem Kept.readWindowCode (code : Byte) (h : P s) : Leads P (execReadWindowCode code s) := by
  refine leads_next ?_
  split_ifs with hphase hcode
  · exact hk.portByte _ .window hphase rfl rfl rfl rfl (.inr hcode) h
  · exact hk.portByte _ .window hphase rfl rfl rfl rfl (.inl rfl) h
  · exact h

theorem Kept.readCapture (offset : BitVec 16) (h : P s) : Leads P (execReadCapture offset s) := by
  refine leads_next ?_
  split_ifs with hphase
  · refine hk.port _ ?_ h
    rintro ⟨-, hphase', -, -, hwin⟩
    exact ⟨length_fitTo 512 _, fun _ => hphase' (by simp [hphase]), rfl, Nat.zero_le _, hwin⟩
  · exact h

theorem Kept.serialClock (h : P s) : P s.serialClock := by
  refine hk.port _ ?_ h
  intro hsafe
  split_ifs
  · obtain ⟨hcap, hphase, hsdo, hbits, hwin⟩ := hsafe
    refine ⟨?_, ?_, ?_, s.port.clock_bitCount_le hbits, ?_⟩
    · simpa using hcap
    · simpa using hphase
    · simpa using s.port.clock_sdo_isSome hsdo
    · simpa using hwin
  · exact hsafe

/-! ### Every step -/

/-- A property kept by the moves is kept by every command. -/
theorem Kept.exec (c : Instr) (h : P s) : Leads P (exec c s) := by
  cases c
  case powerOnReset => exact leads_next (hk.reset s _)
  case resetNFall => exact leads_next (hk.reset s _)
  case resetNRise addr role => exact hk.resetNRise addr role h
  case notAcknowledged => exact leads_next (hk.attemptFailure true h)
  case lostLevel => exact leads_next (hk.attemptFailure true h)
  case busNotFree => exact leads_next (hk.attemptFailure false h)
  case clockHeld => exact leads_next (hk.attemptFailure false h)
  case overtime => exact leads_next (hk.attemptFailure true h)
  case retryGapEnd => exact hk.retryGapEnd h
  case configReadComplete block => exact hk.configReadComplete block h
  case enLevelChange => exact leads_next (hk.enLevel s _ _ h)
  case enSettlesHigh => exact hk.enSettlesHigh h
  case enSettlesLow => exact hk.enSettlesLow h
  case carrierBegins => exact hk.carrierBegins h
  case badStartMark => exact hk.receiverStep h
  case frameReport bits => exact hk.frameReport bits h
  case slotWindowEnd => exact hk.slotWindowEnd h
  case releaseGapEnd => exact hk.releaseGapEnd h
  case startDelayEnd => exact hk.startDelayEnd h
  case interFrameGapEnd => exact hk.interFrameGapEnd h
  case frameSent => exact hk.frameSent h
  case abort => exact hk.abort h
  case silenceTimerExpiry => exact hk.silenceTimerExpiry h
  case periodStart => exact hk.periodStart h
  case dutyEnd => exact hk.dutyEnds h
  case scanCompletion isns dem feed => exact hk.scanCompletion isns dem feed h
  case scsNFall => exact hk.scsNFall h
  case scsNRise => exact hk.scsNRise h
  case read => exact hk.read h
  case readWindowCode code => exact hk.readWindowCode code h
  case readCapture offset => exact hk.readCapture offset h
  case snapshot => exact hk.snapshot h
  case snapshotClear => exact hk.snapshotClear h
  case historyClear => exact hk.historyClear h
  case refusedCommand b => exact hk.refusedCommand b h
  case powerOnResetEnd addr role => exact hk.powerOnResetEnd addr role h
  case startMark => exact hk.receiverStep h
  case codingViolation => exact hk.receiverStep h

/-- A property kept by the moves is kept by every step. -/
theorem Kept.step {t : State} (h : P s) (hstep : step s = .next t) : P t := by
  unfold Machine.step at hstep
  split at hstep
  · next c rest _ => exact hk.exec c (hk.queue s rest h) t hstep
  · exact Host.Outcome.next.inj hstep ▸ hk.serialClock h

end Commands

end Sys2Proof.Machine
end

section
/-! PROOFS. A scan completion, part by part: what the detectors, the Shed Unit and the Draw Limiter leave
standing, and what each detector comes to (R138 to R145, R153). -/

namespace Sys2Proof.Machine

/-! ## What a scan completion leaves standing -/

/-- What no part of a scan completion touches (R138). -/
structure State.KeepsGroup (s t : State) : Prop where
  pins : t.pins = s.pins := by rfl
  loader : t.loader = s.loader := by rfl
  cfg : t.cfg = s.cfg := by rfl
  line : t.line = s.line := by rfl
  rotation : t.rotation = s.rotation := by rfl
  checker : t.checker = s.checker := by rfl
  table : t.table = s.table := by rfl
  snap : t.snap = s.snap := by rfl
  share : t.share = s.share := by rfl
  shedTable : t.shed.table = s.shed.table := by rfl
  ctl : t.ctl = s.ctl := by rfl
  port : t.port = s.port := by rfl
  pending : t.pending = s.pending := by rfl
  leaveAttempts : t.sched.leaveAttempts = s.sched.leaveAttempts := by rfl
  counter : t.drive.counter = s.drive.counter := by rfl
  driven : t.drive.driven = s.drive.driven := by rfl
  attention : s.AttentionSafe → t.AttentionSafe := by exact id

theorem State.KeepsGroup.trans {s t u : State} (h : s.KeepsGroup t) (g : t.KeepsGroup u) :
    s.KeepsGroup u where
  pins := g.pins.trans h.pins
  loader := g.loader.trans h.loader
  cfg := g.cfg.trans h.cfg
  line := g.line.trans h.line
  rotation := g.rotation.trans h.rotation
  checker := g.checker.trans h.checker
  table := g.table.trans h.table
  snap := g.snap.trans h.snap
  share := g.share.trans h.share
  shedTable := g.shedTable.trans h.shedTable
  ctl := g.ctl.trans h.ctl
  port := g.port.trans h.port
  pending := g.pending.trans h.pending
  leaveAttempts := g.leaveAttempts.trans h.leaveAttempts
  counter := g.counter.trans h.counter
  driven := g.driven.trans h.driven
  attention := g.attention ∘ h.attention

/-- The own role stands where the loader does. -/
theorem State.KeepsGroup.ownRole {s t : State} (h : s.KeepsGroup t) : t.ownRole = s.ownRole := by
  unfold State.ownRole
  rw [h.loader]

/-- Nothing is left of the state that a scan completion could move, but what it may. -/
theorem State.KeepsGroup.eq {s t : State} (h : s.KeepsGroup t) : t = { s with
    meas := t.meas, drive := t.drive, shed := t.shed, sched := t.sched, stats := t.stats
    freeDraws := t.freeDraws } := by
  obtain ⟨hpins, hloader, hcfg, hline, hrot, hchecker, htable, hsnap, hshare, -, hctl, hport, hpending,
    -⟩ := h
  cases t
  simp_all

/-- An increment keeps the attention set free of repetition (R177). -/
theorem State.attentionSafe_count {s : State} (c : Counter) (h : s.AttentionSafe) :
    (s.count c).AttentionSafe := by
  change (Stats.bump s.stats c).attention.Nodup
  unfold Stats.bump
  dsimp only
  split_ifs with hnew
  · exact List.nodup_append.2 ⟨h, List.nodup_singleton c, by
      rintro d hd e he rfl; exact hnew.2 (List.mem_singleton.1 he ▸ hd)⟩
  · exact h

theorem State.keepsGroup_formValues (s : State) (isns dem feed : BitVec 10) :
    s.KeepsGroup (s.formValues isns dem feed) := {}

theorem State.keepsGroup_judgeOverdraw (s : State) : s.KeepsGroup s.judgeOverdraw := by
  unfold State.judgeOverdraw
  dsimp only
  split_ifs
  · exact { attention := State.attentionSafe_count .overdrawTrips }
  · exact {}
  · exact {}

theorem State.keepsGroup_feedTrip (s : State) : s.KeepsGroup s.feedTrip := by
  unfold State.feedTrip
  split_ifs
  · exact {}
  · exact {}

theorem State.keepsGroup_feedClear (s : State) : s.KeepsGroup s.feedClear := by
  unfold State.feedClear
  dsimp only
  split_ifs
  · exact {}
  · exact {}
  · exact {}

theorem State.keepsGroup_judgeFeed (s : State) : s.KeepsGroup s.judgeFeed := by
  unfold State.judgeFeed
  dsimp only
  split_ifs
  · exact .trans (t := {s with meas := _}) {} (State.keepsGroup_feedTrip _)
  · exact .trans (t := {s with meas := _}) {} (State.keepsGroup_feedClear _)
  · exact {}
  · exact {}

theorem State.keepsGroup_stageAndLimiter (s : State) (mark : Bool) :
    s.KeepsGroup (s.stageAndLimiter mark) := by
  obtain ⟨n, h | ⟨-, h⟩⟩ := s.stageAndLimiter_cases mark
  · rw [h]; exact {}
  · rw [h]; exact {}

/-- A completed scan leaves everything outside the measurement, the drive, the monitor's own SHED and
the counters (R138). -/
theorem State.keepsGroup_completeScan (s : State) (mark : Bool) (isns dem feed : BitVec 10) :
    s.KeepsGroup (s.completeScan mark isns dem feed) := by
  unfold State.completeScan
  exact (s.keepsGroup_formValues isns dem feed).trans ((State.keepsGroup_judgeOverdraw _).trans
    ((State.keepsGroup_judgeFeed _).trans (State.keepsGroup_stageAndLimiter _ mark)))

/-! ## The values and the detectors after a scan completion -/

/-- The values of a completion's codes (R138 to R140). -/
theorem State.formValues_meas (s : State) (isns dem feed : BitVec 10) :
    (s.formValues isns dem feed).meas = { s.meas with
      scan := .idle
      draw := drawOf s.cfg isns
      rawDemand := rawDemandOf s.cfg dem
      reported := nextReported s.cfg (rawDemandOf s.cfg dem) s.meas.reported
      feed := if s.ownRole = .monitor then feedOf s.cfg feed else s.meas.feed } := rfl

theorem State.ownRole_formValues (s : State) (isns dem feed : BitVec 10) :
    (s.formValues isns dem feed).ownRole = s.ownRole := rfl

/-- In ACTIVE the OVERDRAW detector takes the sample (R142, R143). -/
theorem State.judgeOverdraw_meas (s : State) : s.judgeOverdraw.meas = { s.meas with
    overdraw :=
      if s.ctl.station = .active then
        s.meas.overdraw.judge s.cfg.persistence
          (overdrawClass s.cfg.margin s.share.limit s.meas.draw)
      else s.meas.overdraw } := by
  unfold State.judgeOverdraw
  dsimp only
  split_ifs <;> rfl

@[simp] theorem State.feedTrip_meas (s : State) : s.feedTrip.meas = s.meas := by
  unfold State.feedTrip
  split_ifs <;> rfl

@[simp] theorem State.feedClear_meas (s : State) : s.feedClear.meas = s.meas := by
  unfold State.feedClear
  dsimp only
  split_ifs <;> rfl

/-- At a monitor the FEED detector takes the sample (R144). -/
theorem State.judgeFeed_meas (s : State) : s.judgeFeed.meas = { s.meas with
    feedDet :=
      if s.ownRole = .monitor then
        s.meas.feedDet.judge s.cfg.persistence (feedClass s.cfg s.meas.feed)
      else s.meas.feedDet } := by
  unfold State.judgeFeed
  dsimp only
  split_ifs <;> simp

/-- The STAGE detector takes the sample with the mark of its scan (R145). -/
theorem State.stageAndLimiter_meas (s : State) (mark : Bool) :
    (s.stageAndLimiter mark).meas = { s.meas with
      stage := s.meas.stage.judge s.cfg.persistence
        (stageClass s.cfg.margin mark s.meas.draw) } := by
  obtain ⟨n, h | ⟨-, h⟩⟩ := s.stageAndLimiter_cases mark
  · rw [h]; rfl
  · rw [h]; rfl

/-- What a completion makes of the Measurement Unit: the values of its codes, and one sample to each
detector that takes one (R138 to R145). -/
theorem State.completeScan_meas (s : State) (mark : Bool) (isns dem feed : BitVec 10) :
    (s.completeScan mark isns dem feed).meas =
      { scan := .idle
        draw := drawOf s.cfg isns
        rawDemand := rawDemandOf s.cfg dem
        reported := nextReported s.cfg (rawDemandOf s.cfg dem) s.meas.reported
        feed := if s.ownRole = .monitor then feedOf s.cfg feed else s.meas.feed
        overdraw :=
          if s.ctl.station = .active then
            s.meas.overdraw.judge s.cfg.persistence
              (overdrawClass s.cfg.margin s.share.limit (drawOf s.cfg isns))
          else s.meas.overdraw
        feedDet :=
          if s.ownRole = .monitor then
            s.meas.feedDet.judge s.cfg.persistence (feedClass s.cfg (feedOf s.cfg feed))
          else s.meas.feedDet
        stage := s.meas.stage.judge s.cfg.persistence
          (stageClass s.cfg.margin mark (drawOf s.cfg isns)) } := by
  have hover := (s.formValues isns dem feed).keepsGroup_judgeOverdraw
  have hfeed := (s.formValues isns dem feed).judgeOverdraw.keepsGroup_judgeFeed
  unfold State.completeScan
  rw [State.stageAndLimiter_meas, State.judgeFeed_meas, State.judgeOverdraw_meas, hfeed.cfg,
    hover.cfg, hover.ownRole, s.formValues_meas, s.ownRole_formValues]
  by_cases hrole : s.ownRole = .monitor <;> simp [hrole] <;> rfl

end Sys2Proof.Machine
end

section
/-! PROOFS. The stages of a boundary, said once per stage: what a stage moves, and what the boundary
comes to by the state in which it begins (R9, R50, R58, R101, R108 to R110). -/

namespace Sys2Proof.Machine

/-! ## The blocks a stage moves -/

/-- The monitor's look moves the Transmit Scheduler only (R125). -/
theorem State.monitorLook_eq (s : State) : s.monitorLook = { s with sched := s.monitorLook.sched } := by
  unfold State.monitorLook
  split_ifs
  · split
    · split_ifs <;> rfl
    · rfl
  · rfl

/-- The countdown moves the shed table, the limit with the drive, and the item (R91, R121, R125). -/
theorem State.shedCountdown_eq (s : State) : s.shedCountdown = { s with
    shed := s.shedCountdown.shed, share := s.shedCountdown.share, drive := s.shedCountdown.drive
    sched := s.shedCountdown.sched } := by
  unfold State.shedCountdown
  rw [State.monitorLook_eq]
  rfl

@[simp] theorem State.shedCountdown_ctl (s : State) : s.shedCountdown.ctl = s.ctl := by
  rw [State.shedCountdown_eq]
@[simp] theorem State.shedCountdown_table (s : State) : s.shedCountdown.table = s.table := by
  rw [State.shedCountdown_eq]
@[simp] theorem State.shedCountdown_snap (s : State) : s.shedCountdown.snap = s.snap := by
  rw [State.shedCountdown_eq]
@[simp] theorem State.shedCountdown_meas (s : State) : s.shedCountdown.meas = s.meas := by
  rw [State.shedCountdown_eq]
@[simp] theorem State.shedCountdown_stats (s : State) : s.shedCountdown.stats = s.stats := by
  rw [State.shedCountdown_eq]
@[simp] theorem State.shedCountdown_rotation (s : State) :
    s.shedCountdown.rotation = s.rotation := by
  rw [State.shedCountdown_eq]
@[simp] theorem State.shedCountdown_cfg (s : State) : s.shedCountdown.cfg = s.cfg := by
  rw [State.shedCountdown_eq]
@[simp] theorem State.shedCountdown_loader (s : State) : s.shedCountdown.loader = s.loader := by
  rw [State.shedCountdown_eq]

/-- The countdown forms the limit anew (R91). -/
@[simp] theorem State.shedCountdown_share (s : State) : s.shedCountdown.share = { s.share with
    limit := limitOf s.ctl.station s.share.applied
      (shedCap (s.shed.table.map countDown) s.cfg.floor) } := by
  unfold State.shedCountdown
  rw [State.monitorLook_eq]
  rfl

/-- The countdown takes a round from every entry (R121). -/
@[simp] theorem State.shedCountdown_shed (s : State) :
    s.shedCountdown.shed = { s.shed with table := s.shed.table.map countDown } := by
  unfold State.shedCountdown
  rw [State.monitorLook_eq]
  rfl

/-- The station's own admission moves the station, and where it becomes a member the limit and the
OVERDRAW detector (R54, R104). -/
theorem State.ownAdmission_eq (s : State) (d : Option Bool) : s.ownAdmission d = { s with
    ctl := (s.ownAdmission d).ctl, meas := (s.ownAdmission d).meas
    share := (s.ownAdmission d).share, drive := (s.ownAdmission d).drive } := by
  unfold State.ownAdmission
  split
  · split_ifs <;> rfl
  · split_ifs <;> rfl
  · rfl

@[simp] theorem State.ownAdmission_table (s : State) (d : Option Bool) :
    (s.ownAdmission d).table = s.table := by rw [State.ownAdmission_eq]
@[simp] theorem State.ownAdmission_shed (s : State) (d : Option Bool) :
    (s.ownAdmission d).shed = s.shed := by rw [State.ownAdmission_eq]
@[simp] theorem State.ownAdmission_sched (s : State) (d : Option Bool) :
    (s.ownAdmission d).sched = s.sched := by rw [State.ownAdmission_eq]
@[simp] theorem State.ownAdmission_snap (s : State) (d : Option Bool) :
    (s.ownAdmission d).snap = s.snap := by rw [State.ownAdmission_eq]
@[simp] theorem State.ownAdmission_stats (s : State) (d : Option Bool) :
    (s.ownAdmission d).stats = s.stats := by rw [State.ownAdmission_eq]
@[simp] theorem State.ownAdmission_rotation (s : State) (d : Option Bool) :
    (s.ownAdmission d).rotation = s.rotation := by rw [State.ownAdmission_eq]
@[simp] theorem State.ownAdmission_loader (s : State) (d : Option Bool) :
    (s.ownAdmission d).loader = s.loader := by rw [State.ownAdmission_eq]
@[simp] theorem State.ownAdmission_cfg (s : State) (d : Option Bool) :
    (s.ownAdmission d).cfg = s.cfg := by rw [State.ownAdmission_eq]

/-- No report concerns a station that waits for no admission (R54). -/
theorem State.ownAdmission_of_other {s : State} (hj : s.ctl.station ≠ .joining)
    (hd : s.ctl.station ≠ .deferred) (d : Option Bool) : s.ownAdmission d = s := by
  unfold State.ownAdmission
  split
  · rw [if_neg (by simp [hj, hd])]
  · rw [if_neg hj]
  · rfl

@[simp] theorem State.tableStages_table (s : State) (kind : BoundaryKind) :
    (s.tableStages kind).table
      = s.table.stages s.cfg kind s.ownAddr (s.ctl.station == .isolated) := by
  simp [State.tableStages]

/-- The Share Regulator's stage moves the shares, the drive and the counters (R78 to R81). -/
theorem State.shareStage_eq (s : State) (kind : BoundaryKind) (own : Bool)
    (set : List (Nat × Confirmation)) : s.shareStage kind own set = { s with
      share := (s.shareStage kind own set).share, drive := (s.shareStage kind own set).drive
      stats := (s.shareStage kind own set).stats } := by
  unfold State.shareStage
  dsimp only
  split_ifs <;> rfl

section ShareStage
variable (s : State) (kind : BoundaryKind) (own : Bool) (set : List (Nat × Confirmation))

@[simp] theorem State.shareStage_ctl : (s.shareStage kind own set).ctl = s.ctl := by
  rw [State.shareStage_eq]
@[simp] theorem State.shareStage_table : (s.shareStage kind own set).table = s.table := by
  rw [State.shareStage_eq]
@[simp] theorem State.shareStage_snap : (s.shareStage kind own set).snap = s.snap := by
  rw [State.shareStage_eq]
@[simp] theorem State.shareStage_shed : (s.shareStage kind own set).shed = s.shed := by
  rw [State.shareStage_eq]
@[simp] theorem State.shareStage_sched : (s.shareStage kind own set).sched = s.sched := by
  rw [State.shareStage_eq]
@[simp] theorem State.shareStage_meas : (s.shareStage kind own set).meas = s.meas := by
  rw [State.shareStage_eq]
@[simp] theorem State.shareStage_loader : (s.shareStage kind own set).loader = s.loader := by
  rw [State.shareStage_eq]
@[simp] theorem State.shareStage_cfg : (s.shareStage kind own set).cfg = s.cfg := by
  rw [State.shareStage_eq]
@[simp] theorem State.shareStage_rotation :
    (s.shareStage kind own set).rotation = s.rotation := by
  rw [State.shareStage_eq]

end ShareStage

/-- Outside ACTIVE the Share Regulator has no stage (R78). -/
theorem State.shareStage_of_ne_active {s : State} (h : s.ctl.station ≠ .active)
    (kind : BoundaryKind) (own : Bool) (set : List (Nat × Confirmation)) :
    s.shareStage kind own set = s := if_neg h

/-- The counters as the Share Regulator's stage leaves them (R79, R81). -/
def State.shareStats (s : State) (kind : BoundaryKind) (own : Bool)
    (set : List (Nat × Confirmation)) : Stats :=
  let ok := confirms s.share.pending kind own set
  let rises := ok && decide (s.share.applied < newApplied ok s.boundaryAllocation s.share)
  let stats := if rises then s.stats.bump .confirmedIncreases else s.stats
  if dissents s.share.pending set then stats.bump .dissentRounds else stats

/-- In ACTIVE the Share Regulator takes the new applied share and pending increase and forms the limit
(R79 to R81, R90). -/
theorem State.shareStage_of_active {s : State} (h : s.ctl.station = .active) (kind : BoundaryKind)
    (own : Bool) (set : List (Nat × Confirmation)) :
    s.shareStage kind own set = State.formLimit { s with
      stats := s.shareStats kind own set
      share :=
        let ok := confirms s.share.pending kind own set
        let applied := newApplied ok s.boundaryAllocation s.share
        { s.share with applied := applied, pending := newPending s.boundaryAllocation applied } } := by
  unfold State.shareStage State.shareStats
  rw [if_pos h]
  dsimp only
  split_ifs <;> rfl

/-! ## The isolation evaluation -/

/-- Only an ACTIVE station is isolated (R109). -/
theorem State.station_of_isolates {s : State} (h : s.isolates = true) : s.ctl.station = .active := by
  simp_all [State.isolates]

theorem State.isolates_of_ne_active {s : State} (h : s.ctl.station ≠ .active) :
    s.isolates = false := by
  simp [State.isolates, h]

theorem State.evaluateIsolation_of_isolates {s : State} (h : s.isolates = true) :
    s.evaluateIsolation = s.enterIsolated := if_pos h

theorem State.evaluateIsolation_of_ne_active {s : State} (h : s.ctl.station ≠ .active) :
    s.evaluateIsolation = s := by
  unfold State.evaluateIsolation
  rw [if_neg (by simp [State.isolates_of_ne_active h]), if_neg h]

/-- Below T_isolate an ACTIVE station takes the counts and clears the round flags (R108). -/
theorem State.evaluateIsolation_of_active {s : State} (h : s.isolates = false)
    (hst : s.ctl.station = .active) : s.evaluateIsolation = { s with ctl := { s.ctl with
      isolationA := s.nextIsolationA, isolationB := s.nextIsolationB
      heardMeRound := false, acceptedRound := false } } := by
  unfold State.evaluateIsolation
  rw [if_neg (by simp [h]), if_pos hst]

/-- Short of an isolation the evaluation moves the counts and flags only (R108). -/
theorem State.evaluateIsolation_eq_of_not_isolates {s : State} (h : s.isolates = false) :
    s.evaluateIsolation = { s with ctl := s.evaluateIsolation.ctl } := by
  by_cases hst : s.ctl.station = .active
  · rw [State.evaluateIsolation_of_active h hst]
  · rw [State.evaluateIsolation_of_ne_active hst]

/-- Short of an isolation the station stands (R108). -/
theorem State.station_evaluateIsolation {s : State} (h : s.isolates = false) :
    s.evaluateIsolation.ctl.station = s.ctl.station := by
  by_cases hst : s.ctl.station = .active
  · rw [State.evaluateIsolation_of_active h hst]
  · rw [State.evaluateIsolation_of_ne_active hst]

/-! ## The boundary by the state in which it begins -/

/-- The boundary's work up to the changes of state as it completes (R50, R63, R78, R108, R121). -/
def State.boundaryStages (s : State) (kind : BoundaryKind) : State :=
  let silent := ownSilent s.ownAddr s.table.entries
  let u := (s.evaluateIsolation.shedCountdown.tablePart kind s.isolates).allocateStage silent
  u.shareStage kind (u.ownTakesPartActive silent) s.table.confirm

theorem State.boundaryWork_eq (s : State) (kind : BoundaryKind) :
    s.boundaryWork kind = (s.boundaryStages kind).completeBoundary s.ctl.station := rfl

/-- An isolation boundary: no stage of a member, the isolation move, and the Allocator over the orphans
alone (R58, R63, R109). -/
theorem State.boundaryStages_of_isolates {s : State} (h : s.isolates = true) (kind : BoundaryKind) :
    s.boundaryStages kind
      = s.enterIsolated.shedCountdown.tableIsolation.allocateStage
          (ownSilent s.ownAddr s.table.entries) := by
  unfold State.boundaryStages State.tablePart
  dsimp only
  rw [if_pos h, State.evaluateIsolation_of_isolates h]
  refine State.shareStage_of_ne_active ?_ kind _ _
  simp

/-- The station as the stages leave it: where the table's own part leaves it (R54, R108). -/
theorem State.boundaryStages_ctl (s : State) (kind : BoundaryKind) :
    (s.boundaryStages kind).ctl
      = (s.evaluateIsolation.shedCountdown.tablePart kind s.isolates).ctl := by
  simp [State.boundaryStages]

/-- A station that is no member and waits for no admission stands through the stages. -/
theorem State.boundaryStages_ctl_of_other {s : State} (ha : s.ctl.station ≠ .active)
    (hj : s.ctl.station ≠ .joining) (hd : s.ctl.station ≠ .deferred) (kind : BoundaryKind) :
    (s.boundaryStages kind).ctl = s.ctl := by
  rw [State.boundaryStages_ctl, State.evaluateIsolation_of_ne_active ha,
    State.isolates_of_ne_active ha]
  simp only [State.tablePart, Bool.false_eq_true, if_false, State.tableStages]
  rw [State.ownAdmission_of_other (by simpa using hj) (by simpa using hd)]
  simp

/-- The changes of state as a boundary completes concern OFFLINE, LISTEN and ISOLATED only (R101, R102,
R110). -/
theorem State.completeBoundary_of_other (s : State) {began : Station} (ho : began ≠ .offline)
    (hl : began ≠ .listen) (hi : began ≠ .isolated) : s.completeBoundary began = s := by
  cases began
  case offline => exact absurd rfl ho
  case listen => exact absurd rfl hl
  case isolated => exact absurd rfl hi
  all_goals rfl

end Sys2Proof.Machine
end

section
/-! PROOFS. The delivery of a valid configuration, block by block (R20, R97, R149, R167), and an own
SHED sent (R129, R131). -/

namespace Sys2Proof.Machine

/-- A trigger moves the converter or a counter (R136, R137). -/
theorem State.trigger_eq (s : State) (mark : Bool) : s.trigger mark = { s with
    meas := { s.meas with scan := (s.trigger mark).meas.scan }, stats := (s.trigger mark).stats } := by
  unfold State.trigger
  split <;> rfl

/-- A trigger finds the converter IDLE and starts a scan, or it is dropped and counted (R136, R137). -/
theorem State.trigger_cases (s : State) (mark : Bool) :
    (s.meas.scan = .idle
      ∧ s.trigger mark = { s with meas := { s.meas with scan := .running .isns mark } })
    ∨ (s.meas.scan ≠ .idle ∧ s.trigger mark = s.count .triggerOverruns) := by
  unfold State.trigger
  split
  · next h => exact .inl ⟨h, rfl⟩
  · next h => exact .inr ⟨by simp [h], rfl⟩

/-- The settings and the digest of a block handed to every block of the part, the receiver ready (R20,
R167). -/
def State.configure (s : State) (block : List Byte) : State := { s with
  loader := { s.loader with load := .valid, digest := some (groupDigest block) }
  cfg := Settings.ofBlock block
  line := { s.line with receiver := .idle } }

/-- The first period of a configuration: the drive at 0, then its trigger (R149, R151). -/
theorem State.firstPeriod_eq (s : State) :
    s.firstPeriod = State.trigger { s with drive := ⟨some 0, 0, 0, false, false⟩ } false := rfl

/-- A delivery is the configuration, its first period, and LISTEN or OFFLINE by the settled level of EN
(R97, R102, R167). -/
theorem State.deliver_eq (s : State) (block : List Byte) :
    s.deliver block = { (s.configure block).firstPeriod with
      ctl :=
        if s.ctl.settled then
          { s.ctl with station := .listen, groupEvidence := false, acceptedSeen := false }
        else { s.ctl with station := .offline }
      rotation := { s.rotation with
        silence := if s.ctl.settled = true ∧ s.rotation.synced = false then some 0 else none } } := by
  change (if (s.configure block).firstPeriod.ctl.settled then
    (s.configure block).firstPeriod.enterListen else (s.configure block).firstPeriod.enterOffline) = _
  rw [State.firstPeriod_eq, State.trigger_eq]
  cases hset : s.ctl.settled <;> cases hsync : s.rotation.synced <;>
    simp [State.configure, State.enterListen, State.enterOffline, hset, hsync]

/-- A valid configuration puts the station in LISTEN or OFFLINE (R97). -/
theorem State.station_deliver (s : State) (block : List Byte) :
    (s.deliver block).ctl.station = .listen ∨ (s.deliver block).ctl.station = .offline := by
  rw [State.deliver_eq]
  dsimp only
  split_ifs
  · exact .inl rfl
  · exact .inr rfl

/-- The delivery leaves the shares, the table, the shed unit, the port and the counts of the station as
they stand, and the drive at 0 (R149, R167). -/
structure State.Delivered (s t : State) (block : List Byte) : Prop where
  pins : t.pins = s.pins := by rfl
  loader : t.loader = { s.loader with load := .valid, digest := some (groupDigest block) } := by rfl
  cfg : t.cfg = Settings.ofBlock block := by rfl
  line : t.line = { s.line with receiver := .idle } := by rfl
  rotation : t.rotation = { s.rotation with silence := t.rotation.silence } := by rfl
  checker : t.checker = s.checker := by rfl
  sched : t.sched = s.sched := by rfl
  table : t.table = s.table := by rfl
  share : t.share = s.share := by rfl
  shed : t.shed = s.shed := by rfl
  meas : t.meas = { s.meas with scan := t.meas.scan } := by rfl
  drive : t.drive = ⟨some 0, 0, 0, false, false⟩ := by rfl
  ctl : t.ctl = { s.ctl with
    station := t.ctl.station, groupEvidence := t.ctl.groupEvidence
    acceptedSeen := t.ctl.acceptedSeen }
  port : t.port = s.port := by rfl
  attention : s.AttentionSafe → t.AttentionSafe

theorem State.delivered (s : State) (block : List Byte) : s.Delivered (s.deliver block) block := by
  have hctl : (s.deliver block).ctl = { s.ctl with
      station := (s.deliver block).ctl.station
      groupEvidence := (s.deliver block).ctl.groupEvidence
      acceptedSeen := (s.deliver block).ctl.acceptedSeen } := by
    rw [State.deliver_eq]
    dsimp only
    split_ifs <;> rfl
  rw [State.deliver_eq, State.firstPeriod_eq] at hctl ⊢
  obtain ⟨-, h⟩ | ⟨-, h⟩ := State.trigger_cases
    { s.configure block with drive := ⟨some 0, 0, 0, false, false⟩ } false
  · rw [h] at hctl ⊢
    exact { ctl := hctl, attention := id }
  · rw [h] at hctl ⊢
    exact { ctl := hctl, attention := State.attentionSafe_count .triggerOverruns }

/-! ## An own SHED sent -/

/-- Where the blocks work an own SHED sent is counted, consumes the item unless it was written since, and
writes the own entry (R129, R131). -/
theorem State.shedSent_of_working {s : State} (h : s.ctl.station.working = true) (o : ShedOrder) :
    s.shedSent o = State.writeShed { s with
      stats := s.stats.bump .shedsSent
      sched := { s.sched with
        item := if s.sched.writtenSince then s.sched.item else none } } s.ownAddr o := if_pos h

/-- In a fault state an own SHED sent is counted only (R133; log 18). -/
theorem State.shedSent_of_not_working {s : State} (h : ¬ s.ctl.station.working = true)
    (o : ShedOrder) : s.shedSent o = s.count .shedsSent := if_neg h

end Sys2Proof.Machine
end

section
/-! PROOFS. The shares: every step keeps the applied share, the pending increase and the effective limit
as they must be (R76, R87, R90). -/

namespace Sys2Proof.Machine

/-! ## Where the share values are 0 -/

/-- The share values outside membership (R87). -/
def Share.none : Share := { applied := 0, pending := .none, limit := 0 }

/-- Outside ACTIVE the shares are as they must be exactly where all are 0 (R87, R90). -/
theorem State.shareSafe_iff_of_ne_active {s : State} (hst : s.ctl.station ≠ .active) :
    s.ShareSafe ↔ s.share = .none := by
  have hlimit : s.limitNow = 0 := limitOf_of_ne_active hst _ _
  constructor
  · rintro ⟨-, -, hzero, hnow⟩
    obtain ⟨happlied, hpending⟩ := hzero hst
    rw [hlimit] at hnow
    cases hshare : s.share
    simp_all [Share.none]
  · intro hshare
    simp [State.ShareSafe, hlimit, hshare, Share.none]

/-- From one state outside ACTIVE to another with the same shares. -/
theorem State.ShareSafe.outside {s t : State} (h : s.ShareSafe) (hs : s.ctl.station ≠ .active)
    (ht : t.ctl.station ≠ .active) (hshare : t.share = s.share) : t.ShareSafe :=
  (State.shareSafe_iff_of_ne_active ht).2
    (hshare.trans ((State.shareSafe_iff_of_ne_active hs).1 h))

/-- Forming the limit anew is all the limit needs (R90). -/
theorem State.shareSafe_formLimit {s : State} (happlied : s.share.applied ≤ s.cfg.ceiling)
    (hpending : ∀ p ∈ s.share.pending, s.share.applied < p ∧ p ≤ s.cfg.ceiling)
    (hzero : s.ctl.station ≠ .active → s.share.applied = 0 ∧ s.share.pending = .none) :
    s.formLimit.ShareSafe := ⟨happlied, hpending, hzero, rfl⟩

/-- Leaving membership leaves the shares 0 (R87). -/
theorem State.shareSafe_leaveMembership (s : State) {st : Station} (hst : st ≠ .active) :
    (s.leaveMembership st).ShareSafe :=
  (State.shareSafe_iff_of_ne_active hst).2 (s.share_leaveMembership hst)

/-- Where an attempt runs the station is in CONFIG (R161). -/
theorem State.station_of_attempting {s : State} (h : s.attempting = true) :
    s.ctl.station = .config := by
  simp_all [State.attempting]

/-- The end of LEAVING is OFFLINE or JOINING (R107). -/
theorem State.station_endLeaving (s : State) :
    s.endLeaving.ctl.station = if s.ctl.settled then .joining else .offline := by
  unfold State.endLeaving
  split_ifs <;> rfl

/-- The end of LEAVING moves no share (R107). -/
theorem State.share_endLeaving (s : State) : s.endLeaving.share = s.share := by
  unfold State.endLeaving
  split_ifs <;> rfl

/-! ## The boundary -/

section Boundary
variable {s : State}

theorem State.ShareSafe.countBoundary (h : s.ShareSafe) (kind : BoundaryKind) :
    (s.countBoundary kind).ShareSafe := by
  cases kind <;> exact h

theorem State.ShareSafe.evaluateIsolation (h : s.ShareSafe) : s.evaluateIsolation.ShareSafe := by
  unfold State.evaluateIsolation
  split_ifs
  · exact State.shareSafe_leaveMembership (st := .isolated) s nofun
  · exact h
  · exact h

theorem State.ShareSafe.shedCountdown (h : s.ShareSafe) : s.shedCountdown.ShareSafe := by
  obtain ⟨happlied, hpending, hzero, -⟩ := h
  have hformed : (State.formLimit { s with
      shed := { s.shed with table := s.shed.table.map countDown } }).ShareSafe :=
    State.shareSafe_formLimit happlied hpending hzero
  unfold State.shedCountdown State.monitorLook
  split_ifs
  · split
    · split_ifs <;> exact hformed
    · exact hformed
  · exact hformed

theorem State.ShareSafe.ownAdmission (h : s.ShareSafe) (decision : Option Bool) :
    (s.ownAdmission decision).ShareSafe := by
  obtain ⟨happlied, hpending, hzero, hlimit⟩ := id h
  unfold State.ownAdmission
  split
  · split_ifs
    · exact State.shareSafe_formLimit happlied hpending (fun hne => absurd rfl hne)
    · exact h
  · split_ifs with hst
    · exact h.outside (by simp [hst]) nofun rfl
    · exact h
  · exact h

theorem State.ShareSafe.tablePart (h : s.ShareSafe) (kind : BoundaryKind) (isolating : Bool) :
    (s.tablePart kind isolating).ShareSafe := by
  unfold State.tablePart
  split_ifs
  · exact h
  · unfold State.tableStages
    have hstages : State.ShareSafe { s with
        table := s.table.stages s.cfg kind s.ownAddr (s.ctl.station == .isolated) } := h
    exact hstages.ownAdmission _

theorem State.ShareSafe.allocateStage (h : s.ShareSafe) (silent : Bool) :
    (s.allocateStage silent).ShareSafe := h

/-- The new applied share is at most the allocation, capped at the ceiling (R80). -/
theorem newApplied_le (confirmed : Bool) (a : Nat) (sh : Share) : newApplied confirmed a sh ≤ a := by
  unfold newApplied
  split <;> exact Nat.min_le_left _ _

/-- A pending increase is the allocation, above the applied share (R80). -/
theorem eq_of_mem_newPending {a applied p : Nat} (h : p ∈ newPending a applied) :
    applied < p ∧ p = a := by
  unfold newPending at h
  split_ifs at h with hlt
  · obtain rfl := Option.mem_some_iff.1 h
    exact ⟨hlt, rfl⟩
  · cases h

theorem State.ShareSafe.shareStage (h : s.ShareSafe) (kind : BoundaryKind) (ownSent : Bool)
    (set : List (Nat × Confirmation)) : (s.shareStage kind ownSent set).ShareSafe := by
  have hceil : s.boundaryAllocation ≤ s.cfg.ceiling := Nat.min_le_right _ _
  by_cases hst : s.ctl.station = .active
  · rw [State.shareStage_of_active hst]
    refine State.shareSafe_formLimit ((newApplied_le _ _ _).trans hceil) ?_
      (fun hne => absurd hst hne)
    intro p hp
    obtain ⟨hlt, rfl⟩ := eq_of_mem_newPending hp
    exact ⟨hlt, hceil⟩
  · rw [State.shareStage_of_ne_active hst]
    exact h

theorem State.ShareSafe.completeBoundary (h : s.ShareSafe) {began : Station}
    (hlisten : began = .listen → s.ctl.station ≠ .active)
    (hisolated : began = .isolated → s.ctl.station ≠ .active) :
    (s.completeBoundary began).ShareSafe := by
  unfold State.completeBoundary
  split
  · exact h
  · dsimp only
    split_ifs
    · unfold State.endListen
      split_ifs
      · exact State.shareSafe_leaveMembership (st := .groupMismatch) _ nofun
      · exact h.outside (hlisten rfl) nofun rfl
    · exact h
  · unfold State.endIsolated
    dsimp only
    split_ifs
    · exact h.outside (hisolated rfl) nofun rfl
    · exact h.outside (hisolated rfl) nofun rfl
  · exact h

/-- The stages of a boundary, one after the other, keep the shares. -/
theorem State.ShareSafe.boundary (h : s.ShareSafe) (kind : BoundaryKind) :
    (s.boundary kind).ShareSafe := by
  have hcount := h.countBoundary kind
  have hstages : ∀ {u : State}, u.ShareSafe → (u.boundaryStages kind).ShareSafe := fun hu =>
    ((hu.evaluateIsolation.shedCountdown.tablePart kind _).allocateStage _).shareStage kind _ _
  have hstation : ∀ {u : State} {st : Station}, u.ctl.station = st → st = .listen ∨ st = .isolated →
      (u.boundaryStages kind).ctl.station ≠ .active := by
    rintro u st rfl hst
    rw [State.boundaryStages_ctl_of_other] <;> rcases hst with hst | hst <;> simp [hst]
  unfold State.boundary
  split_ifs
  · rw [State.boundaryWork_eq]
    exact (hstages hcount).completeBoundary (fun hl => hstation hl (.inl rfl))
      (fun hi => hstation hi (.inr rfl))
  · exact hcount

end Boundary

/-! ## Every step -/

/-- An accepted frame moves the shares where it is a SHED, by the limit alone (R91). -/
theorem State.ShareSafe.dispatch {s : State} (h : s.ShareSafe) (f : Frame) :
    (s.dispatch f).ShareSafe := by
  obtain ⟨happlied, hpending, hzero, -⟩ := id h
  cases f
  case shed => exact State.shareSafe_formLimit happlied hpending hzero
  all_goals exact h

/-- An own SHED sent moves the limit alone (R131). -/
theorem State.ShareSafe.shedSent {s : State} (h : s.ShareSafe) (o : ShedOrder) :
    (s.shedSent o).ShareSafe := by
  obtain ⟨happlied, hpending, hzero, -⟩ := id h
  by_cases hwork : s.ctl.station.working = true
  · rw [State.shedSent_of_working hwork]
    exact State.shareSafe_formLimit happlied hpending hzero
  · rw [State.shedSent_of_not_working hwork]
    exact h

/-- Every move keeps the shares. -/
theorem kept_shareSafe : Kept State.ShareSafe where
  reset s pins := (State.shareSafe_iff_of_ne_active (s := s.resetBlocks pins) nofun).2 rfl
  startConfig _ _ _ hst h := h.outside (by simp [hst]) nofun rfl
  configFaulted _ _ _ hatt _ _ _ _ h :=
    h.outside (by simp [State.station_of_attempting hatt]) nofun rfl
  deliver s block hatt _ _ h :=
    h.outside (by simp [State.station_of_attempting hatt])
      (by rcases (s.takeImage block).station_deliver block with hst | hst <;> simp [hst])
      (State.delivered _ block).share
  enterJoining _ hst _ _ h := h.outside (by rcases hst with hst | hst <;> simp [hst]) nofun rfl
  enterListen _ hst h := h.outside (by simp [hst]) nofun rfl
  enterOffline _ hst h := h.outside (by simp [hst]) nofun rfl
  withdraw _ hst h := h.outside (by simp [hst]) nofun rfl
  enterLeaving s _ _ := State.shareSafe_leaveMembership (st := .leaving) s nofun
  endLeaving s n hst _ h :=
    h.outside (by simp [hst]) (by rw [State.station_endLeaving]; split_ifs <;> nofun)
      (State.share_endLeaving _)
  enterFaultState s st code _ hst _ _ :=
    State.shareSafe_leaveMembership (st := st) s (by rcases hst with hst | hst <;> simp [hst])
  shedSent _ _ o _ _ h := h.shedSent o
  openOwnSlot s _ h := by unfold State.openOwnSlot; split_ifs <;> exact h
  boundary _ kind _ h := h.boundary kind
  dispatch _ f _ _ h := h.dispatch f
  completeScan s _ mark isns dem feed _ _ h := by
    have hkept := s.keepsGroup_completeScan mark isns dem feed
    unfold State.ShareSafe State.limitNow
    rw [hkept.share, hkept.cfg, hkept.ctl, hkept.shedTable]
    exact h

/-- Settles O54: the moves keep ShareSafe, and so does every step. -/
theorem everyStepKeepsTheShareSafe : Obligations.EveryStepKeepsTheShareSafe :=
  fun _ _ hsafe hstep => kept_shareSafe.step hsafe hstep

end Sys2Proof.Machine
end

section
/-! PROOFS. The drive: every step keeps duty and buffer within the period, and the drive at 0 and low
while the limit is 0, while STAGE_FAULT is set and while a marked scan runs (R145, R149 to R158). -/

namespace Sys2Proof.Machine

/-! ## The drive at rest -/

/-- Duty and buffer 0, and DRIVE low (R152). -/
def Drive.Off (d : Drive) : Prop := d.duty = 0 ∧ d.buffer = 0 ∧ d.level = false

/-- Duty and buffer within the period, and DRIVE high only under a duty (R149, R150). -/
def Drive.Within (d : Drive) (period : Nat) : Prop :=
  d.duty ≤ period ∧ d.buffer ≤ period ∧ (d.level = true → 0 < d.duty ∧ d.driven = true)

/-- The drive within its period, and off while the limit is 0, while STAGE_FAULT is set, and under a mark
(R145, R154, R158). -/
def State.DriveHeld (s : State) (mark : Bool) : Prop :=
  s.drive.Within s.cfg.period
    ∧ (s.share.limit = 0 ∨ s.meas.stage.tripped = true ∨ mark = true → s.drive.Off)

/-- DriveSafe is that under the mark of the scan that runs. -/
theorem State.driveSafe_iff (s : State) : s.DriveSafe ↔ s.DriveHeld s.markedScan := by
  simp [State.DriveSafe, State.DriveHeld, Drive.Within, Drive.Off, and_assoc]

theorem Drive.Off.within {d : Drive} (h : d.Off) (period : Nat) : d.Within period := by
  obtain ⟨hduty, hbuffer, hlevel⟩ := h
  exact ⟨by simp [hduty], by simp [hbuffer], by simp [hlevel]⟩

theorem Drive.off_cut (d : Drive) : d.cut.Off := ⟨rfl, rfl, rfl⟩

/-- With the drive off the state is safe, whatever stands. -/
theorem State.driveSafe_of_off {s : State} (h : s.drive.Off) : s.DriveSafe :=
  s.driveSafe_iff.2 ⟨h.within _, fun _ => h⟩

section Moves
variable {s : State} {mark : Bool}

/-- A limit that falls to 0 cuts the drive (R92, R152). -/
theorem State.DriveHeld.formLimit (h : s.DriveHeld mark) : s.formLimit.DriveHeld mark := by
  obtain ⟨hwithin, hoff⟩ := h
  obtain ⟨hcut, -, -⟩ | ⟨hstands, hlimit⟩ := s.drive_formLimit
  · have hdrive : s.formLimit.drive.Off := hcut ▸ s.drive.off_cut
    exact ⟨hdrive.within _, fun _ => hdrive⟩
  · unfold State.DriveHeld
    rw [hstands]
    refine ⟨hwithin, fun hheld => hoff (hheld.imp_left ?_)⟩
    intro hzero
    by_contra hne
    exact hlimit ⟨Nat.pos_of_ne_zero hne, hzero⟩

theorem State.DriveSafe.formLimit (h : s.DriveSafe) : s.formLimit.DriveSafe :=
  (State.driveSafe_iff _).2 (State.DriveHeld.formLimit (s.driveSafe_iff.1 h))

/-- Without a scan there is no mark (R136). -/
theorem State.DriveHeld.of_idle (h : s.DriveHeld mark) (hscan : s.meas.scan = .idle) :
    s.DriveSafe := by
  obtain ⟨hwithin, hoff⟩ := h
  have hmark : s.markedScan = false := by simp [State.markedScan, hscan]
  rw [State.driveSafe_iff, hmark]
  exact ⟨hwithin, fun hheld => hoff (hheld.imp_right (Or.imp_right fun hf => nomatch hf))⟩

theorem State.DriveSafe.leaveMembership (h : s.DriveSafe) (st : Station) :
    (s.leaveMembership st).DriveSafe := by
  have hzero : State.DriveSafe { s with
      ctl := { s.ctl with
        station := st, isolationA := 0, isolationB := 0, heardMeRound := false
        acceptedRound := false }
      share := { s.share with applied := 0, pending := none }
      meas := { s.meas with overdraw := .clear } } := h
  exact hzero.formLimit

theorem State.DriveSafe.enterFaultState (h : s.DriveSafe) (st : Station) (code : FaultCode) :
    (s.enterFaultState st code).DriveSafe := by
  have hleft : (s.enterFaultState st code).DriveHeld (s.leaveMembership st).markedScan :=
    (State.driveSafe_iff _).1 (h.leaveMembership st)
  exact hleft.of_idle rfl

theorem State.DriveSafe.writeShed (h : s.DriveSafe) (m : Nat) (o : ShedOrder) :
    (s.writeShed m o).DriveSafe := by
  have hwritten : State.DriveSafe { s with
      shed := { s.shed with table := s.shed.table.setIfInBounds m (shedEntryOf o) } } := h
  exact hwritten.formLimit

theorem State.DriveSafe.shedSent (h : s.DriveSafe) (o : ShedOrder) : (s.shedSent o).DriveSafe := by
  by_cases hwork : s.ctl.station.working = true
  · rw [State.shedSent_of_working hwork]
    have hcounted : State.DriveSafe { s with
        stats := s.stats.bump .shedsSent
        sched := { s.sched with
          item := if s.sched.writtenSince then s.sched.item else none } } := h
    exact hcounted.writeShed _ o
  · rw [State.shedSent_of_not_working hwork]
    exact h

theorem State.DriveSafe.dispatch (h : s.DriveSafe) (f : Frame) : (s.dispatch f).DriveSafe := by
  cases f
  case shed m o _ =>
    have hcounted : (s.count .shedsAccepted).DriveSafe := h
    exact hcounted.writeShed m o
  all_goals exact h

/-! ## The boundary -/

theorem State.DriveSafe.evaluateIsolation (h : s.DriveSafe) : s.evaluateIsolation.DriveSafe := by
  unfold State.evaluateIsolation
  split_ifs
  · exact h.leaveMembership .isolated
  · exact h
  · exact h

theorem State.DriveSafe.shedCountdown (h : s.DriveSafe) : s.shedCountdown.DriveSafe := by
  have hcounted : State.DriveSafe { s with
      shed := { s.shed with table := s.shed.table.map countDown } } := h
  unfold State.shedCountdown
  rw [State.monitorLook_eq]
  exact hcounted.formLimit

theorem State.DriveSafe.ownAdmission (h : s.DriveSafe) (d : Option Bool) :
    (s.ownAdmission d).DriveSafe := by
  unfold State.ownAdmission
  split
  · split_ifs
    · have hadmitted : State.DriveSafe { s with
          ctl := { s.ctl with
            station := .active, joinComposed := false, isolationA := 0, isolationB := 0
            heardMeRound := false, acceptedRound := false }
          meas := { s.meas with overdraw := .clear } } := h
      exact hadmitted.formLimit
    · exact h
  · split_ifs <;> exact h
  · exact h

theorem State.DriveSafe.tablePart (h : s.DriveSafe) (kind : BoundaryKind) (isolating : Bool) :
    (s.tablePart kind isolating).DriveSafe := by
  unfold State.tablePart State.tableStages
  split_ifs
  · exact h
  · have hstages : State.DriveSafe { s with
        table := s.table.stages s.cfg kind s.ownAddr (s.ctl.station == .isolated) } := h
    exact hstages.ownAdmission _

theorem State.DriveSafe.allocateStage (h : s.DriveSafe) (silent : Bool) :
    (s.allocateStage silent).DriveSafe := h

theorem State.DriveSafe.shareStage (h : s.DriveSafe) (kind : BoundaryKind) (own : Bool)
    (set : List (Nat × Confirmation)) : (s.shareStage kind own set).DriveSafe := by
  by_cases hst : s.ctl.station = .active
  · rw [State.shareStage_of_active hst]
    refine State.DriveSafe.formLimit ?_
    exact h
  · rw [State.shareStage_of_ne_active hst]
    exact h

theorem State.DriveSafe.completeBoundary (h : s.DriveSafe) (began : Station) :
    (s.completeBoundary began).DriveSafe := by
  unfold State.completeBoundary State.endListen State.endIsolated
  split
  · exact h
  · dsimp only
    split_ifs
    · have hcounted : State.DriveSafe { s with
          ctl := { s.ctl with observed := min (s.ctl.observed + 1) 2 } } := h
      exact hcounted.enterFaultState _ _
    · exact h
    · exact h
  · dsimp only
    split_ifs <;> exact h
  · exact h

/-- The stages of a boundary, one after the other, keep the drive. -/
theorem State.DriveSafe.boundary (h : s.DriveSafe) (kind : BoundaryKind) :
    (s.boundary kind).DriveSafe := by
  have hcount : (s.countBoundary kind).DriveSafe := by cases kind <;> exact h
  unfold State.boundary
  split_ifs
  · rw [State.boundaryWork_eq]
    refine State.DriveSafe.completeBoundary ?_ _
    exact ((hcount.evaluateIsolation.shedCountdown.tablePart kind _).allocateStage _).shareStage
      kind _ _
  · exact hcount

/-! ## A scan completion -/

theorem State.DriveHeld.judgeOverdraw (h : s.DriveHeld mark) : s.judgeOverdraw.DriveHeld mark := by
  unfold State.judgeOverdraw
  dsimp only
  split_ifs
  · exact ⟨(Drive.off_cut _).within _, fun _ => Drive.off_cut _⟩
  · exact h
  · exact h

theorem State.DriveHeld.judgeFeed (h : s.DriveHeld mark) : s.judgeFeed.DriveHeld mark := by
  unfold State.judgeFeed State.feedTrip State.feedClear
  dsimp only
  split_ifs <;> exact h

/-- A detector TRIPPED after a sample was TRIPPED before or took a sample of excess (R141). -/
theorem Detector.tripped_of_judge {d : Detector} {persistence : Nat} {cls : Option SampleClass}
    (h : (d.judge persistence cls).tripped = true) : d.tripped = true ∨ cls = some .excess := by
  unfold Detector.judge at h
  split at h
  · next hcompletes =>
    refine .inr ?_
    unfold Detector.completes at hcompletes
    split at hcompletes
    · split_ifs at hcompletes
      exact hcompletes
    · cases hcompletes
  · cases h
  · exact .inl h

/-- A sample that clears a detector leaves it CLEAR (R145). -/
theorem Detector.tripped_of_clears {d : Detector} {persistence : Nat} {cls : Option SampleClass}
    (h : d.clears persistence cls = true) : (d.judge persistence cls).tripped = false := by
  have hcompletes : d.completes persistence cls = some .normal := by simp_all [Detector.clears]
  simp [Detector.judge, hcompletes]

/-- STAGE_FAULT is set under the mark only (R145). -/
theorem State.DriveHeld.judgeStage (h : s.DriveHeld mark) : (s.judgeStage mark).DriveHeld mark := by
  obtain ⟨hwithin, hoff⟩ := h
  refine ⟨hwithin, fun hheld => hoff ?_⟩
  obtain hzero | htrip | hmark := hheld
  · exact .inl hzero
  · obtain htrip | hfaulty := Detector.tripped_of_judge htrip
    · exact .inr (.inl htrip)
    · by_cases hmark : mark = true
      · exact .inr (.inr hmark)
      · simp [stageClass, hmark] at hfaulty
  · exact .inr (.inr hmark)

/-- A step of the Draw Limiter stays within the period (R153). -/
theorem steppedBuffer_le (c : Settings) (limit reported draw : Nat) {buffer : Nat}
    (h : buffer ≤ c.period) : steppedBuffer c limit reported draw buffer ≤ c.period := by
  unfold steppedBuffer
  dsimp only
  split_ifs
  · exact Nat.min_le_right _ _
  · exact Nat.min_le_right _ _
  · exact Nat.min_le_right _ _
  · exact h

/-- The Draw Limiter writes 0 while the limit is 0 and while STAGE_FAULT is set (R154). -/
theorem State.DriveHeld.limiterStep (h : s.DriveHeld mark) : s.limiterStep.DriveHeld false := by
  obtain ⟨⟨hduty, hbuffer, hlevel⟩, hoff⟩ := h
  refine ⟨⟨hduty, ?_, hlevel⟩, fun hheld => ?_⟩
  · dsimp only [State.limiterStep]
    split_ifs
    · exact Nat.zero_le _
    · exact steppedBuffer_le _ _ _ _ hbuffer
  · have hheld' : s.share.limit = 0 ∨ s.stageFault = true :=
      hheld.imp_right (Or.resolve_right · nofun)
    obtain ⟨hduty0, -, hlow⟩ := hoff (hheld'.imp_right .inl)
    exact ⟨hduty0, if_pos hheld', hlow⟩

theorem State.DriveHeld.stageAndLimiter (h : s.DriveHeld mark) :
    (s.stageAndLimiter mark).DriveHeld false := by
  obtain ⟨n, heq | ⟨hclears, heq⟩⟩ := s.stageAndLimiter_cases mark
  · rw [heq]
    have hjudged : (State.judgeStage { s with freeDraws := n } mark).DriveHeld mark := h.judgeStage
    exact hjudged.limiterStep
  · rw [heq]
    have hstepped : (State.limiterStep { s with freeDraws := n }).DriveHeld false := h.limiterStep
    obtain ⟨hwithin, hoff⟩ := hstepped
    refine ⟨hwithin, fun hheld => hoff (hheld.imp_right ?_)⟩
    rintro (htrip | hf)
    · have hclear := Detector.tripped_of_clears hclears
      exact absurd (htrip.symm.trans hclear) nofun
    · cases hf

/-- A completed scan keeps the drive, with the mark its scan had. -/
theorem State.DriveSafe.completeScan (h : s.DriveSafe) {input : ScanInput}
    (hscan : s.meas.scan = .running input mark) (isns dem feed : BitVec 10) :
    (s.completeScan mark isns dem feed).DriveSafe := by
  have hmark : s.markedScan = mark := by simp [State.markedScan, hscan]
  rw [State.driveSafe_iff, hmark] at h
  have hvalues : (s.formValues isns dem feed).DriveHeld mark := h
  have hidle : (s.completeScan mark isns dem feed).meas.scan = .idle := by
    rw [State.completeScan_meas]
  exact hvalues.judgeOverdraw.judgeFeed.stageAndLimiter.of_idle hidle

end Moves

/-! ## Every step -/

/-- Every move keeps the drive. -/
theorem kept_driveSafe : Kept State.DriveSafe where
  reset s pins := State.driveSafe_of_off (s := s.resetBlocks pins) ⟨rfl, rfl, rfl⟩
  deliver s block _ _ _ _ := by
    refine State.driveSafe_of_off ?_
    rw [(State.delivered _ block).drive]
    exact ⟨rfl, rfl, rfl⟩
  enterLeaving _ _ h := h.leaveMembership .leaving
  endLeaving s n _ _ h := by unfold State.endLeaving; split_ifs <;> exact h
  enterFaultState _ st code _ _ _ h := h.enterFaultState st code
  shedSent _ _ o _ _ h := h.shedSent o
  openOwnSlot s _ h := by unfold State.openOwnSlot; split_ifs <;> exact h
  boundary _ kind _ h := h.boundary kind
  dispatch _ f _ _ h := h.dispatch f
  nextPeriod s h := by
    obtain ⟨⟨-, hbuffer, -⟩, hoff⟩ := s.driveSafe_iff.1 h
    refine (State.driveSafe_iff _).2 ⟨⟨hbuffer, hbuffer, by simp [Drive.nextPeriod]⟩, fun hheld => ?_⟩
    obtain ⟨-, hzero, -⟩ := hoff hheld
    exact ⟨hzero, hzero, by simp [Drive.nextPeriod, hzero]⟩
  beginScan s mark _ _ hmark h := by
    obtain ⟨hwithin, hoff⟩ := s.driveSafe_iff.1 h
    refine (State.driveSafe_iff _).2 ⟨hwithin, ?_⟩
    rintro (hzero | htrip | hset)
    · exact hoff (.inl hzero)
    · exact hoff (.inr (.inl htrip))
    · exact hmark hset
  dutyEnd s h := by
    obtain ⟨⟨hduty, hbuffer, -⟩, hoff⟩ := s.driveSafe_iff.1 h
    refine (State.driveSafe_iff _).2 ⟨⟨hduty, hbuffer, nofun⟩, fun hheld => ?_⟩
    obtain ⟨hduty0, hbuffer0, -⟩ := hoff hheld
    exact ⟨hduty0, hbuffer0, rfl⟩
  completeScan _ _ _ isns dem feed _ hscan h := h.completeScan hscan isns dem feed

/-- Settles O55: the moves keep DriveSafe, and so does every step. -/
theorem everyStepKeepsTheDriveSafe : Obligations.EveryStepKeepsTheDriveSafe :=
  fun _ _ hsafe hstep => kept_driveSafe.step hsafe hstep

end Sys2Proof.Machine
end

section
/-! PROOFS. The Group Table through the stages of a boundary: what becomes of the entry of one address,
and what each operation keeps of the bounds of the table (R39 to R42, R50 to R58). -/

namespace Sys2Proof.Machine

/-! ## The entry of one address through the stages -/

/-- Ageing, in the words of R51: the own entry and a CANDIDATE stand, what was heard is not missed, an
unheard ACTIVE entry becomes SILENT, and any other misses a round and goes at T_gone. -/
theorem ageEntry_eq (own gone : Nat) (e : Entry) : ageEntry own gone e =
    if e.addr = own ∨ e.state = .candidate then some e
    else if e.heard = true then some (if e.state = .silent then e else { e with missed := 0 })
    else if e.state = .active then some { e with state := .silent, missed := 1 }
    else if gone ≤ e.missed + 1 then none
    else some { e with missed := e.missed + 1 } := by
  unfold ageEntry
  by_cases hown : e.addr = own
  · simp [hown]
  · cases e.state <;> cases e.heard <;> simp [hown]

/-- Stage 5 clears the heard flag of the entry found (R50). -/
theorem findEntry_clearHeard (a : Nat) (es : List Entry) :
    findEntry a (clearHeard es) = (findEntry a es).map (fun e => { e with heard := false }) := by
  unfold findEntry clearHeard
  rw [List.find?_map]
  rfl

/-- What stage 3 makes of an entry, by whether its floor fits where it is taken up (R53). -/
def Entry.decided (own : Nat) (fits : Bool) (e : Entry) : Entry :=
  if eligible own e then if fits then e.admitted else e.notAdmitted else e

@[simp] theorem Entry.decided_addr (own : Nat) (fits : Bool) (e : Entry) :
    (e.decided own fits).addr = e.addr := by
  unfold Entry.decided
  split_ifs <;> simp

/-- Stage 3 decides one entry after the other (R53). -/
theorem admission_cons (budget own sum : Nat) (e : Entry) (es : List Entry) :
    ∃ sum', admission budget own sum (e :: es)
      = e.decided own (decide (sum + e.terms.floor ≤ budget)) :: admission budget own sum' es := by
  by_cases he : eligible own e = true
  · by_cases hfits : sum + e.terms.floor ≤ budget
    · exact ⟨sum + e.terms.floor, by simp [admission, Entry.decided, he, hfits]⟩
    · exact ⟨sum, by simp [admission, Entry.decided, he, hfits]⟩
  · exact ⟨sum, by simp [admission, Entry.decided, he]⟩

/-- Every entry after stage 3 is one that stood before it, as decided (R53). -/
theorem exists_of_mem_admission {budget own sum : Nat} {es : List Entry} {x : Entry}
    (h : x ∈ admission budget own sum es) : ∃ e ∈ es, ∃ fits, x = e.decided own fits := by
  induction es generalizing sum with
  | nil => simp [admission] at h
  | cons e es ih =>
    obtain ⟨sum', heq⟩ := admission_cons budget own sum e es
    rw [heq] at h
    rcases List.mem_cons.1 h with rfl | h
    · exact ⟨e, by simp, _, rfl⟩
    · obtain ⟨y, hy, hx⟩ := ih h
      exact ⟨y, List.mem_cons_of_mem _ hy, hx⟩

/-- Through stage 3 the entry of an address is decided (R53). -/
theorem findEntry_admission (budget own sum a : Nat) (es : List Entry) :
    ∃ fits, findEntry a (admission budget own sum es)
      = (findEntry a es).map (Entry.decided own fits) := by
  induction es generalizing sum with
  | nil => exact ⟨false, rfl⟩
  | cons e es ih =>
    obtain ⟨sum', heq⟩ := admission_cons budget own sum e es
    rw [heq]
    by_cases he : e.addr = a
    · exact ⟨decide (sum + e.terms.floor ≤ budget), by simp [findEntry, he]⟩
    · obtain ⟨fits, hfits⟩ := ih sum'
      exact ⟨fits, by simpa [findEntry, he] using hfits⟩

/-- The own entry stands through stage 1, in a table of any order (R43). -/
theorem findEntry_stageOne_own (kind : BoundaryKind) (own gone : Nat) (es : List Entry) :
    findEntry own (stageOne kind own gone es) = findEntry own es := by
  cases kind
  · induction es with
    | nil => rfl
    | cons x xs ih =>
      have ih : findEntry own (xs.filterMap (ageEntry own gone)) = findEntry own xs := ih
      change findEntry own ((x :: xs).filterMap (ageEntry own gone)) = _
      by_cases hx : x.addr = own
      · have hage : ageEntry own gone x = some x := by rw [ageEntry_eq, if_pos (.inl hx)]
        rw [List.filterMap_cons_some hage]
        simp [findEntry, hx]
      · have hskip : findEntry own (x :: xs) = findEntry own xs := by simp [findEntry, hx]
        rw [hskip, ← ih]
        cases hage : ageEntry own gone x with
        | none => rw [List.filterMap_cons_none hage]
        | some y =>
          have hy : y.addr ≠ own := by rw [(ageEntry_keeps hage).1]; exact hx
          rw [List.filterMap_cons_some hage]
          simp [findEntry, hy]
  · rfl

/-- Every entry after stage 1 is one that stood before it, aged or as it was (R51, R52). -/
theorem exists_of_mem_stageOne {kind : BoundaryKind} {own gone : Nat} {es : List Entry} {x : Entry}
    (h : x ∈ stageOne kind own gone es) :
    ∃ e ∈ es, x = e ∨ (kind = .ordinary ∧ ageEntry own gone e = some x) := by
  cases kind
  · obtain ⟨e, he, hx⟩ := List.mem_filterMap.1 h
    exact ⟨e, he, .inr ⟨rfl, hx⟩⟩
  · exact ⟨x, h, .inl rfl⟩

/-- The entries of stage 1 that are GONE are not among those it leaves (R51). -/
theorem addr_ne_of_stageOneGone {kind : BoundaryKind} {own gone : Nat} {es : List Entry}
    (hs : SortedEntries es) {e x : Entry} (he : e ∈ stageOneGone kind own gone es)
    (hx : x ∈ stageOne kind own gone es) : x.addr ≠ e.addr := by
  cases kind
  · obtain ⟨hmem, hgone⟩ := List.mem_filter.1 he
    have hnone : ageEntry own gone e = none := by
      simp only [isGone, Bool.and_eq_true] at hgone
      simpa using hgone.1
    obtain ⟨y, hy, hxy⟩ := List.mem_filterMap.1 hx
    intro haddr
    have hye : y.addr = e.addr := (ageEntry_keeps hxy).1.symm.trans haddr
    have hsame : y = e := Option.some.inj <|
      (findEntry_of_mem hs hy).symm.trans (hye ▸ findEntry_of_mem hs hmem)
    rw [hsame, hnone] at hxy
    cases hxy
  · cases he

/-- No GONE entry is the own one (R43). -/
theorem mem_of_stageOneGone {kind : BoundaryKind} {own gone : Nat} {es : List Entry} {e : Entry}
    (he : e ∈ stageOneGone kind own gone es) : e ∈ es ∧ e.addr ≠ own := by
  cases kind
  · obtain ⟨hmem, hgone⟩ := List.mem_filter.1 he
    refine ⟨hmem, fun hown => ?_⟩
    simp [isGone, ageEntry, hown] at hgone
  · cases he

end Sys2Proof.Machine
end

section
/-! PROOFS. The Group Table: every step keeps entries and orphans in their order and bounds, the floor
sum within the budget, and the own entry in the form of the station state (R39 to R42, R54, R55). -/

namespace Sys2Proof.Machine

/-! ## The bounds of a table -/

/-- The bounds of one entry (R39, R40). -/
def Entry.Ok (c : Settings) (e : Entry) : Prop :=
  e.addr < c.nSlots ∧ e.missed ≤ tGone c.tIsolate
    ∧ (e.state = .active ∨ e.state = .silent ∨ e.state = .outside → e.values.isSome = true)

/-- The bounds of one orphan (R55). -/
def Orphan.Ok (c : Settings) (own : Nat) (o : Orphan) : Prop :=
  o.addr < c.nSlots ∧ 1 ≤ o.remaining ∧ o.remaining ≤ c.tOrphan ∧ o.addr ≠ own

/-- The bounds of a table, with the own entry in the state given (R39 to R42, R55). -/
structure GroupTable.Ok (g : GroupTable) (c : Settings) (own : Nat) (st : Option EntryState) :
    Prop where
  sorted : SortedEntries g.entries
  entry : ∀ e ∈ g.entries, e.Ok c
  sortedOrphans : SortedOrphans g.orphans
  orphan : ∀ o ∈ g.orphans, o.Ok c own
  apart : ∀ o ∈ g.orphans, ∀ e ∈ g.entries, e.addr ≠ o.addr
  floors : floorSum g.entries ≤ c.budget
  ownEntry : (findEntry own g.entries).map (fun e => e.state) = st

/-- TableSafe is that, nothing held before a valid configuration and the own address a slot after it. -/
theorem State.tableSafe_iff (s : State) : s.TableSafe
    ↔ s.table.Ok s.cfg s.ownAddr (ownEntryState s.ctl.station)
      ∧ (s.ctl.station.configured = false → s.table.entries = [] ∧ s.table.orphans = [])
      ∧ (s.ctl.station.configured = true → s.ownAddr < s.cfg.nSlots) := by
  constructor
  · rintro ⟨⟨hsorted, hentry⟩, ⟨hsortedO, horphan⟩, hfloors, hown, hrest⟩
    refine ⟨⟨hsorted, hentry, hsortedO, fun o ho => ?_, fun o ho => (horphan o ho).2.2.2.2, hfloors,
      hown⟩, hrest⟩
    obtain ⟨haddr, hpos, hrem, hne, -⟩ := horphan o ho
    exact ⟨haddr, hpos, hrem, hne⟩
  · rintro ⟨⟨hsorted, hentry, hsortedO, horphan, hapart, hfloors, hown⟩, hrest⟩
    refine ⟨⟨hsorted, hentry⟩, ⟨hsortedO, fun o ho => ?_⟩, hfloors, hown, hrest⟩
    obtain ⟨haddr, hpos, hrem, hne⟩ := horphan o ho
    exact ⟨haddr, hpos, hrem, hne, hapart o ho⟩

section Table
variable {g : GroupTable} {c : Settings} {own : Nat} {st : Option EntryState}

/-- A table with nothing in it. -/
theorem GroupTable.ok_of_empty (he : g.entries = []) (ho : g.orphans = []) : g.Ok c own none where
  sorted := by simp [he, SortedEntries]
  entry := by simp [he]
  sortedOrphans := by simp [ho, SortedOrphans]
  orphan := by simp [ho]
  apart := by simp [ho]
  floors := by simp [he]
  ownEntry := by simp [he, findEntry]

/-- An entry taken out (R42, R49). -/
theorem GroupTable.Ok.remove (h : g.Ok c own st) (a : Nat) (confirm : List (Nat × Confirmation)) :
    GroupTable.Ok { g with entries := removeEntry a g.entries, confirm := confirm } c own
      (if own = a then none else st) where
  sorted := sorted_removeEntry a h.sorted
  entry e he := h.entry e (mem_removeEntry.1 he).1
  sortedOrphans := h.sortedOrphans
  orphan := h.orphan
  apart o ho e he := h.apart o ho e (mem_removeEntry.1 he).1
  floors := (floorSum_removeEntry_le a _).trans h.floors
  ownEntry := by
    split_ifs with ha
    · subst ha
      simp [findEntry_removeEntry_self]
    · rw [findEntry_removeEntry_of_ne _ ha]
      exact h.ownEntry

/-- An entry put in its place, within the budget, and no orphan left for its address (R45 to R48). -/
theorem GroupTable.Ok.put (h : g.Ok c own st) {e : Entry} (he : e.Ok c) {os : List Orphan}
    (hos : SortedOrphans os) (hmem : ∀ o ∈ os, o ∈ g.orphans ∧ o.addr ≠ e.addr)
    (hfits : (if e.counted then e.terms.floor else 0) + floorSum (removeEntry e.addr g.entries)
      ≤ c.budget) (confirm : List (Nat × Confirmation)) :
    GroupTable.Ok ⟨putEntry e g.entries, os, confirm⟩ c own
      (if own = e.addr then some e.state else st) where
  sorted := sorted_putEntry e h.sorted
  entry x hx := by
    rcases mem_putEntry hx with rfl | hx
    · exact he
    · exact h.entry x hx
  sortedOrphans := hos
  orphan o ho := h.orphan o (hmem o ho).1
  apart o ho x hx := by
    obtain ⟨hold, hne⟩ := hmem o ho
    rcases mem_putEntry hx with rfl | hx
    · exact hne.symm
    · exact h.apart o hold x hx
  floors := (floorSum_putEntry e h.sorted).trans_le hfits
  ownEntry := by
    split_ifs with ha
    · subst ha
      simp [findEntry_putEntry_self]
    · rw [findEntry_putEntry_of_ne _ _ ha]
      exact h.ownEntry

/-- An entry that does not count fits (R41). -/
theorem GroupTable.Ok.fits_of_not_counted (h : g.Ok c own st) {e : Entry} (he : e.counted = false) :
    (if e.counted then e.terms.floor else 0) + floorSum (removeEntry e.addr g.entries)
      ≤ c.budget := by
  simpa [he] using (floorSum_removeEntry_le e.addr g.entries).trans h.floors

/-- The own entry made as the station enters JOINING (R42). -/
theorem GroupTable.Ok.putOwn (h : g.Ok c own st) (hslot : own < c.nSlots) (terms : Terms) :
    GroupTable.Ok { g with entries := putEntry (ownCandidate own terms) g.entries } c own
      (some .candidate) := by
  have hput := h.put (e := ownCandidate own terms) ⟨hslot, Nat.zero_le _, nofun⟩ h.sortedOrphans
    (fun o ho => ⟨ho, (h.orphan o ho).2.2.2⟩) (h.fits_of_not_counted rfl) g.confirm
  rwa [if_pos (show own = (ownCandidate own terms).addr from rfl)] at hput

/-- A change of the own entry's report flags and values (R43). -/
theorem GroupTable.Ok.update (h : g.Ok c own st) {f : Entry → Entry}
    (haddr : ∀ e, (f e).addr = e.addr) (hstate : ∀ e, (f e).state = e.state)
    (hterms : ∀ e, (f e).terms = e.terms) (hmissed : ∀ e, (f e).missed = e.missed)
    (hvalues : ∀ e, e.values.isSome = true → (f e).values.isSome = true) :
    GroupTable.Ok { g with entries := updateEntry own f g.entries } c own st := by
  have hmem : ∀ x ∈ updateEntry own f g.entries, ∃ e ∈ g.entries, x = f e ∨ x = e := by
    intro x hx
    obtain ⟨e, he, rfl⟩ := List.mem_map.1 hx
    refine ⟨e, he, ?_⟩
    split_ifs <;> simp
  refine ⟨sorted_updateEntry own haddr h.sorted, ?entry, h.sortedOrphans, h.orphan, ?apart, ?floors,
    ?ownEntry⟩
  case entry =>
    intro x hx
    obtain ⟨e, he, rfl | rfl⟩ := hmem x hx
    · obtain ⟨hslot, hmiss, hval⟩ := h.entry e he
      exact ⟨(haddr e).symm ▸ hslot, (hmissed e).symm ▸ hmiss,
        fun hs => hvalues e (hval ((hstate e) ▸ hs))⟩
    · exact h.entry x he
  case apart =>
    intro o ho x hx
    obtain ⟨e, he, rfl | rfl⟩ := hmem x hx
    · exact haddr e ▸ h.apart o ho e he
    · exact h.apart o ho x he
  case floors =>
    have hsum : floorSum (updateEntry own f g.entries) = floorSum g.entries := by
      induction g.entries with
      | nil => rfl
      | cons e es ih =>
        have hhead : ∀ x, x = f e ∨ x = e → x.counted = e.counted ∧ x.terms = e.terms := by
          rintro x (rfl | rfl)
          · exact ⟨by simp [Entry.counted, hstate], hterms e⟩
          · exact ⟨rfl, rfl⟩
        obtain ⟨hcount, hterm⟩ := hhead (if e.addr = own then f e else e) (by split_ifs <;> simp)
        simp only [updateEntry, List.map_cons, floorSum_cons, hcount, hterm] at ih ⊢
        rw [ih]
    exact hsum.trans_le h.floors
  case ownEntry =>
    rw [← h.ownEntry]
    unfold findEntry updateEntry
    rw [List.find?_map, Option.map_map]
    have hsame : ((fun e : Entry => e.addr == own) ∘ fun e => if e.addr = own then f e else e)
        = fun e => e.addr == own := by
      funext e
      dsimp only [Function.comp_apply]
      split_ifs <;> simp [haddr]
    rw [hsame]
    congr 1
    funext e
    dsimp only [Function.comp_apply]
    split_ifs <;> simp [hstate]

/-! ## Accepted frames -/

/-- An accepted JOIN of another station (R45). -/
theorem GroupTable.Ok.acceptJoin (h : g.Ok c own st) {a : Nat} (hslot : a < c.nSlots) (hne : own ≠ a)
    (t : Terms) : (g.acceptJoin a t).Ok c own st := by
  obtain ⟨heq, -⟩ | ⟨e, hfound, hstate, heq⟩ := g.acceptJoin_cases a t
  · rw [heq]
    have hput := h.put (e := joinedEntry a t) ⟨hslot, Nat.zero_le _, nofun⟩
      (sorted_removeOrphan a h.sortedOrphans) (fun o ho => mem_removeOrphan.1 ho)
      (h.fits_of_not_counted rfl) g.confirm
    rwa [if_neg (show ¬ own = (joinedEntry a t).addr from hne)] at hput
  · rw [heq]
    have haddr : (e.rejoin t).addr = a := (addr_of_findEntry hfound : e.addr = a)
    have hmem := mem_of_findEntry hfound
    have hcount : (e.rejoin t).counted = false := by
      unfold Entry.counted
      rcases hstate with hs | hs | hs <;> simp [Entry.rejoin, hs]
    have hput := h.put (e := e.rejoin t)
      ⟨haddr.symm ▸ hslot, Nat.zero_le _, (h.entry e hmem).2.2⟩ h.sortedOrphans
      (fun o ho => ⟨ho, (h.apart o ho e hmem).symm⟩) (h.fits_of_not_counted hcount) g.confirm
    rwa [haddr, if_neg hne] at hput

/-- A CLAIM that makes its sender ACTIVE fits: its floor is no higher than before, or the floor test holds
(R46, R48). -/
theorem fits_of_claimState {l : Bool} {es : List Entry} {a floor budget : Nat} {x : EntryState}
    (hs : SortedEntries es) (hsum : floorSum es ≤ budget) (h : claimState l budget es a floor = some x) :
    x = .active → floor + floorSum (removeEntry a es) ≤ budget := by
  rintro rfl
  have hfit : floorFits budget es a floor = true → floor + floorSum (removeEntry a es) ≤ budget := by
    intro hf
    have := of_decide_eq_true hf
    omega
  by_cases hf : floorFits budget es a floor = true
  · exact hfit hf
  · unfold claimState at h
    simp only [hf, Bool.false_eq_true, if_false] at h
    cases hfound : findEntry a es with
    | none => cases l <;> simp [hfound] at h
    | some e =>
      have hremove := floorSum_removeEntry_add hs hfound
      cases hstate : e.state <;> simp only [hfound, hstate] at h
      case active | silent =>
        rw [if_pos (e.counted_iff.2 (by simp [hstate]))] at hremove
        split_ifs at h with hle
        · omega
        · cases h
      all_goals cases l <;> simp at h

/-- An accepted CLAIM of another station (R46 to R48). -/
theorem GroupTable.Ok.acceptClaim (h : g.Ok c own st) {a : Nat} (hslot : a < c.nSlots) (hne : own ≠ a)
    (l : Bool) (v : Values) (t : Terms) (basis : Word16) (mask : Word32) (snap : Option Word16) :
    (g.acceptClaim l c.budget own a v t basis mask snap).Ok c own st := by
  obtain ⟨x, hx, heq⟩ | ⟨-, heq⟩ := g.acceptClaim_cases l c.budget own a v t basis mask snap
  · rw [heq]
    have hfits : (if (claimEntry own a v t basis mask x).counted then t.floor else 0)
        + floorSum (removeEntry a g.entries) ≤ c.budget := by
      rcases claimState_active_or_outside hx with rfl | rfl
      · exact fits_of_claimState h.sorted h.floors hx rfl
      · exact h.fits_of_not_counted (e := claimEntry own a v t basis mask .outside) rfl
    have hput := h.put (e := claimEntry own a v t basis mask x) ⟨hslot, Nat.zero_le _, fun _ => rfl⟩
      (sorted_removeOrphan a h.sortedOrphans) (fun o ho => mem_removeOrphan.1 ho) hfits
      (setConfirmation snap a basis g.confirm)
    rwa [show (claimEntry own a v t basis mask x).addr = a from rfl, if_neg hne] at hput
  · rw [heq]
    exact h

end Table
end Sys2Proof.Machine
end

section
/-! PROOFS. The Group Table at a boundary, and through every step (R50 to R58). -/

namespace Sys2Proof.Machine

/-! ## The stages -/

section Stages
variable {g : GroupTable} {c : Settings} {own : Nat} {st : Option EntryState}

/-- Ageing keeps the bounds of an entry (R40, R51). -/
theorem Entry.Ok.age {gone : Nat} {e x : Entry} (h : e.Ok c) (hgone : gone = tGone c.tIsolate)
    (hx : ageEntry own gone e = some x) : x.Ok c := by
  obtain ⟨haddr, -, hvalues, -⟩ := ageEntry_keeps hx
  obtain ⟨hslot, hmissed, hval⟩ := h
  have hstate : x.missed ≤ tGone c.tIsolate
      ∧ (x.state = e.state ∨ (x.state = .silent ∧ e.state = .active)) := by
    rw [ageEntry_eq] at hx
    split_ifs at hx with hstands hheard hsil hact hlast <;> obtain rfl := Option.some.inj hx
    · exact ⟨hmissed, .inl rfl⟩
    · exact ⟨hmissed, .inl rfl⟩
    · exact ⟨Nat.zero_le _, .inl rfl⟩
    · exact ⟨Nat.succ_pos _, .inr ⟨rfl, hact⟩⟩
    · exact ⟨by dsimp only; omega, .inl rfl⟩
  refine ⟨haddr ▸ hslot, hstate.1, fun hs => hvalues ▸ hval ?_⟩
  obtain hsame | ⟨-, hact⟩ := hstate.2
  · exact hsame ▸ hs
  · exact .inl hact

/-- Admission keeps the bounds of an entry (R40, R53). -/
theorem Entry.Ok.decided {e : Entry} (h : e.Ok c) (fits : Bool) : (e.decided own fits).Ok c := by
  obtain ⟨hslot, hmissed, hval⟩ := h
  unfold Entry.decided
  split_ifs
  · refine ⟨hslot, Nat.zero_le _, fun _ => ?_⟩
    dsimp only [Entry.admitted]
    split_ifs with hout
    · exact hval (.inr (.inr hout))
    · rfl
  · unfold Entry.notAdmitted
    split_ifs
    · exact ⟨hslot, Nat.zero_le _, nofun⟩
    · exact ⟨hslot, hmissed, hval⟩
  · exact ⟨hslot, hmissed, hval⟩

/-- Every entry of the table after stage 3 comes from one of stage 1, of the same address and within the
bounds (R50). -/
theorem GroupTable.Ok.of_mem_admitted (h : g.Ok c own st) {kind : BoundaryKind} {x : Entry}
    (hx : x ∈ admittedEntries c kind own g.entries) :
    x.Ok c ∧ ∃ y ∈ stageOne kind own (tGone c.tIsolate) g.entries, x.addr = y.addr := by
  obtain ⟨y, hy, fits, rfl⟩ := exists_of_mem_admission hx
  refine ⟨Entry.Ok.decided ?_ fits, y, hy, y.decided_addr own fits⟩
  obtain ⟨e, he, rfl | ⟨-, hage⟩⟩ := exists_of_mem_stageOne hy
  · exact h.entry _ he
  · exact (h.entry e he).age rfl hage

/-- Every address of the table after stage 1 was in it before (R50). -/
theorem exists_addr_of_mem_stageOne {kind : BoundaryKind} {gone : Nat} {es : List Entry} {y : Entry}
    (hy : y ∈ stageOne kind own gone es) : ∃ e ∈ es, y.addr = e.addr := by
  obtain ⟨e, he, rfl | ⟨-, hage⟩⟩ := exists_of_mem_stageOne hy
  · exact ⟨y, he, rfl⟩
  · exact ⟨e, he, (ageEntry_keeps hage).1⟩

/-- The orphans of a boundary are within their bounds, if the entries given up are entries of other
stations (R55 to R57). -/
theorem GroupTable.Ok.orphan_of_mem (h : g.Ok c own st) {gone : List Entry}
    (hgone : ∀ e ∈ gone, e ∈ g.entries ∧ e.addr ≠ own) {o : Orphan}
    (ho : o ∈ addOrphans c.tOrphan gone (ageOrphans g.orphans)) :
    o.Ok c own ∧ ((∃ p ∈ g.orphans, o.addr = p.addr) ∨ ∃ e ∈ gone, o.addr = e.addr) := by
  have haged : o ∈ ageOrphans g.orphans → o.Ok c own
      ∧ ((∃ p ∈ g.orphans, o.addr = p.addr) ∨ ∃ e ∈ gone, o.addr = e.addr) := by
    intro hmem
    obtain ⟨hpos, hold⟩ := mem_ageOrphans.1 hmem
    obtain ⟨hslot, -, hrem, hne⟩ := h.orphan _ hold
    exact ⟨⟨hslot, hpos, (Nat.le_succ _).trans hrem, hne⟩, .inl ⟨_, hold, rfl⟩⟩
  by_cases hzero : c.tOrphan = 0
  · rw [addOrphans, if_pos hzero] at ho
    exact haged ho
  · obtain hmem | ⟨e, he, rfl⟩ := mem_addOrphans ho
    · exact haged hmem
    · obtain ⟨hmem, hne⟩ := hgone e he
      exact ⟨⟨(h.entry e hmem).1, Nat.one_le_iff_ne_zero.2 hzero, Nat.le_refl _, hne⟩,
        .inr ⟨e, he, rfl⟩⟩

/-- The own entry after the stages is the one before, decided (R43, R53). -/
theorem findEntry_own_stages (kind : BoundaryKind) (isolated : Bool) :
    ∃ fits, findEntry own (g.stages c kind own isolated).entries
      = (findEntry own g.entries).map
        (fun e => { e.decided own fits with heard := false })
      ∧ findEntry own (admittedEntries c kind own g.entries)
        = (findEntry own g.entries).map (Entry.decided own fits) := by
  have hone := findEntry_stageOne_own kind own (tGone c.tIsolate) g.entries
  obtain ⟨fits, hfits⟩ := findEntry_admission c.budget own
    (floorSum (stageOne kind own (tGone c.tIsolate) g.entries)) own
    (stageOne kind own (tGone c.tIsolate) g.entries)
  rw [hone] at hfits
  refine ⟨fits, ?_, hfits⟩
  change findEntry own (clearHeard (admittedEntries c kind own g.entries)) = _
  rw [findEntry_clearHeard, show findEntry own (admittedEntries c kind own g.entries) = _ from hfits,
    Option.map_map]
  rfl

/-- The stages keep the bounds of the table, the own entry as they leave it (R50). -/
theorem GroupTable.Ok.stages (h : g.Ok c own st) (kind : BoundaryKind) (isolated : Bool) :
    (g.stages c kind own isolated).Ok c own
      ((findEntry own (g.stages c kind own isolated).entries).map (fun e => e.state)) := by
  obtain ⟨hsorted, hsortedO⟩ := g.sorted_stages c kind own isolated h.sorted h.sortedOrphans
  have hmem : ∀ x ∈ (g.stages c kind own isolated).entries, x.Ok c
      ∧ ∃ y ∈ stageOne kind own (tGone c.tIsolate) g.entries, x.addr = y.addr := by
    intro x hx
    obtain ⟨y, hy, rfl⟩ := List.mem_map.1 hx
    have hyok := h.of_mem_admitted hy
    exact hyok
  have horphan : ∀ o ∈ (g.stages c kind own isolated).orphans, o.Ok c own
      ∧ ((∃ p ∈ g.orphans, o.addr = p.addr)
        ∨ ∃ e ∈ stageOneGone kind own (tGone c.tIsolate) g.entries, o.addr = e.addr) :=
    fun o ho => h.orphan_of_mem (fun _ he => mem_of_stageOneGone he) ho
  refine ⟨hsorted, fun x hx => (hmem x hx).1, hsortedO, fun o ho => (horphan o ho).1, ?_, ?_, rfl⟩
  · intro o ho x hx
    obtain ⟨y, hy, hxy⟩ := (hmem x hx).2
    obtain ⟨p, hp, hop⟩ | ⟨e, he, hoe⟩ := (horphan o ho).2
    · obtain ⟨z, hz, hyz⟩ := exists_addr_of_mem_stageOne hy
      rw [hop, hxy, hyz]
      exact h.apart p hp z hz
    · rw [hoe, hxy]
      exact addr_ne_of_stageOneGone h.sorted he hy
  · exact (floorSum_clearHeard _).trans_le (floorSum_admittedEntries_le c kind own _ h.floors)

/-- The isolation move leaves a table of orphans (R58). -/
theorem GroupTable.Ok.isolationMove (h : g.Ok c own st) : (g.isolationMove c own).Ok c own none where
  sorted := List.Pairwise.nil
  entry := nofun
  sortedOrphans := (g.sorted_isolationMove c own h.sortedOrphans).2
  orphan o ho := (h.orphan_of_mem (fun e he => by
    obtain ⟨hmem, hother⟩ := List.mem_filter.1 he
    exact ⟨hmem, by simpa using (Bool.and_eq_true_iff.1 hother).1⟩) ho).1
  apart := nofun
  floors := Nat.zero_le _
  ownEntry := rfl

end Stages

/-! ## The station's own admission -/

section Boundary
variable {s : State}

/-- A decided own entry that is taken up becomes ACTIVE where its floor fits, and else DEFERRED (R53). -/
theorem Entry.state_decided {own : Nat} {fits : Bool} {e : Entry} (he : e.addr = own)
    (hs : e.state = .candidate ∨ e.state = .deferred) :
    (eligible own e = e.heard) ∧ (e.decided own fits).state
      = if e.heard then if fits then .active else .deferred else e.state := by
  have hel : eligible own e = e.heard := by
    rcases hs with hs | hs <;> simp [eligible, hs, he]
  refine ⟨hel, ?_⟩
  unfold Entry.decided Entry.notAdmitted
  rw [hel]
  rcases hs with hs | hs <;> split_ifs <;> simp_all

/-- The stages decide the own entry and report on it where it is taken up (R53, R54). -/
theorem State.own_stages (s : State) (kind : BoundaryKind) :
    ∃ fits, findEntry s.ownAddr
        (s.table.stages s.cfg kind s.ownAddr (s.ctl.station == .isolated)).entries
          = (findEntry s.ownAddr s.table.entries).map
            (fun e => { e.decided s.ownAddr fits with heard := false })
      ∧ s.ownReport kind = (findEntry s.ownAddr s.table.entries).bind (fun e =>
        if eligible s.ownAddr e then some ((e.decided s.ownAddr fits).state == .active)
        else none) := by
  obtain ⟨fits, hfound, hadmitted⟩ := findEntry_own_stages (g := s.table) (c := s.cfg)
    (own := s.ownAddr) kind (s.ctl.station == .isolated)
  refine ⟨fits, hfound, ?_⟩
  unfold State.ownReport ownDecision
  rw [findEntry_stageOne_own, hadmitted]
  cases findEntry s.ownAddr s.table.entries <;> rfl

/-- The station that the own entry's admission leaves is the one the own entry requires (R54). -/
theorem State.tableStages_own (hown : (findEntry s.ownAddr s.table.entries).map (fun e => e.state)
      = ownEntryState s.ctl.station) (kind : BoundaryKind) :
    (findEntry s.ownAddr (s.tableStages kind).table.entries).map (fun e => e.state)
      = ownEntryState (s.tableStages kind).ctl.station := by
  obtain ⟨fits, hfound, hreport⟩ := s.own_stages kind
  rw [State.tableStages_table, hfound, Option.map_map]
  unfold State.tableStages
  rw [hreport]
  cases he : findEntry s.ownAddr s.table.entries with
  | none =>
    rw [he] at hown
    simpa [State.ownAdmission] using hown
  | some e =>
    rw [he] at hown
    have haddr := addr_of_findEntry he
    cases hst : s.ctl.station <;> rw [hst] at hown <;> simp only [Option.map_some, ownEntryState,
      Option.some.injEq, reduceCtorEq] at hown
    case active =>
      simp [Entry.decided, eligible, hown, State.ownAdmission, hst, ownEntryState]
    all_goals
      obtain ⟨hel, hstate⟩ := Entry.state_decided (fits := fits) haddr (by simp [hown])
      cases hh : e.heard <;> cases hf : fits <;> subst hf <;>
        simp [hel, hh, hstate, hown, hst, State.ownAdmission, ownEntryState,
          show (EntryState.deferred == EntryState.active) = false from rfl]

/-! ## The boundary -/

/-- A step that leaves the table, the configuration and the loader, and the form of the own entry. -/
theorem State.TableSafe.of_same {t : State} (h : s.TableSafe) (htable : t.table = s.table)
    (hcfg : t.cfg = s.cfg) (hloader : t.loader = s.loader)
    (hown : ownEntryState t.ctl.station = ownEntryState s.ctl.station)
    (hconf : t.ctl.station.configured = s.ctl.station.configured) : t.TableSafe := by
  have haddr : t.ownAddr = s.ownAddr := by
    unfold State.ownAddr
    rw [hloader]
  rw [State.tableSafe_iff] at h ⊢
  rwa [htable, hcfg, haddr, hown, hconf]

/-- The bounds of a table of a station with a valid configuration. -/
theorem State.tableSafe_of_configured (hconf : s.ctl.station.configured = true)
    (hok : s.table.Ok s.cfg s.ownAddr (ownEntryState s.ctl.station))
    (hslot : s.ownAddr < s.cfg.nSlots) : s.TableSafe :=
  s.tableSafe_iff.2 ⟨hok, fun hn => by simp [hconf] at hn, fun _ => hslot⟩

/-- Where the blocks work there is a valid configuration (R50). -/
theorem configured_of_working {st : Station} (h : st.working = true) : st.configured = true := by
  revert h
  cases st <;> decide

/-- The entry to ADDRESS_CONFLICT or GROUP_MISMATCH takes the own entry out (R62). -/
theorem State.TableSafe.enterFaultState (h : s.TableSafe) (hwork : s.ctl.station.working = true)
    {st : Station} (hst : st = .addressConflict ∨ st = .groupMismatch) (code : FaultCode) :
    (s.enterFaultState st code).TableSafe := by
  obtain ⟨hok, -, hslot⟩ := s.tableSafe_iff.1 h
  have hremove := hok.remove s.ownAddr []
  rw [if_pos rfl] at hremove
  refine State.tableSafe_of_configured ?_ ?_ (hslot (configured_of_working hwork))
  · rcases hst with rfl | rfl <;> rfl
  · rcases hst with rfl | rfl <;> exact hremove

/-- The entry to JOINING makes the own entry (R42). -/
theorem State.TableSafe.enterJoining (h : s.TableSafe) (hconf : s.ctl.station.configured = true) :
    s.enterJoining.TableSafe := by
  obtain ⟨hok, -, hslot⟩ := s.tableSafe_iff.1 h
  exact State.tableSafe_of_configured rfl (hok.putOwn (hslot hconf) (s.cfg.terms s.ownRole))
    (hslot hconf)

/-- The end of LISTEN at a boundary (R101, R102). -/
theorem State.TableSafe.endListen (h : s.TableSafe) (hst : s.ctl.station = .listen) :
    s.endListen.TableSafe := by
  unfold State.endListen
  split_ifs
  · exact h.enterFaultState (by rw [hst]; rfl) (.inr rfl) _
  · exact h.enterJoining (by rw [hst]; rfl)

theorem State.TableSafe.completeBoundary (h : s.TableSafe) {began : Station}
    (hbegan : began = .listen ∨ began = .isolated → s.ctl.station = began) :
    (s.completeBoundary began).TableSafe := by
  unfold State.completeBoundary
  split
  · exact h
  · have hst := hbegan (.inl rfl)
    dsimp only
    split_ifs
    · have hobserved : State.TableSafe { s with
          ctl := { s.ctl with observed := min (s.ctl.observed + 1) 2 } } := h
      exact hobserved.endListen hst
    · exact h
  · have hst := hbegan (.inr rfl)
    unfold State.endIsolated
    dsimp only
    split_ifs
    · exact h.of_same rfl rfl rfl (by rw [hst]; rfl) (by rw [hst]; rfl)
    · exact h.of_same rfl rfl rfl (by rw [hst]; rfl) (by rw [hst]; rfl)
  · exact h

/-- Short of an isolation the stages leave the table that the Group Table's part does. -/
theorem State.boundaryStages_table (hstays : s.isolates = false) (kind : BoundaryKind) :
    (s.boundaryStages kind).table
      = s.table.stages s.cfg kind s.ownAddr (s.ctl.station == .isolated) := by
  have hevaluate := State.evaluateIsolation_eq_of_not_isolates hstays
  have hstation := State.station_evaluateIsolation hstays
  have hkeeps := (s.keeps_evaluateIsolation.trans (State.keeps_shedCountdown _)).1
  simp only [State.boundaryStages, State.shareStage_table, State.allocateStage_table,
    State.tablePart, hstays, Bool.false_eq_true, if_false, State.tableStages_table,
    State.shedCountdown_table, State.shedCountdown_cfg, hkeeps.ownAddr, State.shedCountdown_ctl,
    hstation]
  rw [hevaluate]

end Boundary
end Sys2Proof.Machine
end

section
/-! PROOFS. The Group Table through every step (R39 to R42, R54, R55). -/

namespace Sys2Proof.Machine

section Boundary
variable {s : State}

/-- Short of an isolation the stages leave the station where the Group Table's part does (R54). -/
theorem State.boundaryStages_ctl_of_stays (hstays : s.isolates = false) (kind : BoundaryKind) :
    (s.boundaryStages kind).ctl = (s.evaluateIsolation.shedCountdown.tableStages kind).ctl := by
  rw [State.boundaryStages_ctl, hstays]
  rfl

/-- A station of a configuration has one through the stages (R54). -/
theorem State.configured_ownAdmission (h : s.ctl.station.configured = true) (d : Option Bool) :
    (s.ownAdmission d).ctl.station.configured = true := by
  unfold State.ownAdmission
  split
  · split_ifs
    · rfl
    · exact h
  · split_ifs
    · rfl
    · exact h
  · exact h

/-- The stages of a boundary keep the bounds of the table, and the own entry in the form of the station
state (R50, R54, R58). -/
theorem State.TableSafe.boundaryStages (h : s.TableSafe) (hconf : s.ctl.station.configured = true)
    (kind : BoundaryKind) : (s.boundaryStages kind).TableSafe := by
  obtain ⟨hok, -, hslot⟩ := s.tableSafe_iff.1 h
  by_cases hstays : s.isolates = true
  · rw [State.boundaryStages_of_isolates hstays]
    have hmoved := hok.isolationMove
    refine State.tableSafe_of_configured ?_ ?_ ?_
    · simp [Station.configured]
    · simpa [State.ownAddr, ownEntryState] using hmoved
    · simpa [State.ownAddr] using hslot hconf
  · have hstays : s.isolates = false := by simpa using hstays
    have hkeeps := (s.keeps_evaluateIsolation.trans (State.keeps_shedCountdown _)).1
    have hstation : s.evaluateIsolation.shedCountdown.ctl.station = s.ctl.station := by
      rw [State.shedCountdown_ctl, State.station_evaluateIsolation hstays]
    have htable : s.evaluateIsolation.shedCountdown.table = s.table := by
      rw [State.shedCountdown_table, State.evaluateIsolation_eq_of_not_isolates hstays]
    have hbefore : s.evaluateIsolation.shedCountdown.TableSafe :=
      h.of_same htable hkeeps.2.2.1 hkeeps.2.1 (by rw [hstation]) (by rw [hstation])
    generalize hv : s.evaluateIsolation.shedCountdown = v at *
    obtain ⟨hokv, -, hslotv⟩ := v.tableSafe_iff.1 hbefore
    have hown := State.tableStages_own hokv.ownEntry kind
    have hconfv : v.ctl.station.configured = true := by rw [hstation]; exact hconf
    have hafter : (v.tableStages kind).TableSafe := by
      refine State.tableSafe_of_configured ?_ ?_ ?_
      · unfold State.tableStages
        exact State.configured_ownAdmission (by exact hconfv) _
      · rw [← hown]
        have hstages := hokv.stages kind (v.ctl.station == .isolated)
        have haddr : (v.tableStages kind).ownAddr = v.ownAddr := by
          simp [State.ownAddr, State.tableStages]
        rw [haddr, State.tableStages_table]
        simpa [State.tableStages] using hstages
      · simpa [State.ownAddr, State.tableStages] using hslotv hconfv
    have hstages : s.boundaryStages kind
        = State.shareStage ((v.tableStages kind).allocateStage (ownSilent s.ownAddr s.table.entries))
          kind (State.ownTakesPartActive
            ((v.tableStages kind).allocateStage (ownSilent s.ownAddr s.table.entries))
            (ownSilent s.ownAddr s.table.entries)) s.table.confirm := by
      rw [State.boundaryStages, hv, hstays]
      rfl
    rw [hstages]
    exact hafter.of_same (by simp) (by simp) (by simp) (by simp) (by simp)

/-- A boundary keeps the Group Table (R50). -/
theorem State.TableSafe.boundary (h : s.TableSafe) (kind : BoundaryKind) :
    (s.boundary kind).TableSafe := by
  have hcount : (s.countBoundary kind).TableSafe := by cases kind <;> exact h
  have hctl : (s.countBoundary kind).ctl = s.ctl := by cases kind <;> rfl
  unfold State.boundary
  split_ifs with hwork
  · have hconf : (s.countBoundary kind).ctl.station.configured = true := by
      rw [hctl]
      exact configured_of_working hwork
    rw [State.boundaryWork_eq]
    refine (hcount.boundaryStages hconf kind).completeBoundary ?_
    rintro (hl | hi)
    · rw [State.boundaryStages_ctl_of_other] <;> simp [hl]
    · rw [State.boundaryStages_ctl_of_other] <;> simp [hi]
  · exact hcount

end Boundary

/-! ## Every step -/

section Moves
variable {s : State}

/-- A station of which nothing is configured holds no table. -/
theorem State.tableSafe_of_empty (he : s.table.entries = []) (ho : s.table.orphans = [])
    (hown : ownEntryState s.ctl.station = none)
    (hslot : s.ctl.station.configured = true → s.ownAddr < s.cfg.nSlots) : s.TableSafe :=
  s.tableSafe_iff.2 ⟨hown ▸ GroupTable.ok_of_empty he ho, fun _ => ⟨he, ho⟩, hslot⟩

/-- Before a valid configuration there is no table (R62). -/
theorem State.TableSafe.empty (h : s.TableSafe) (hconf : s.ctl.station.configured = false) :
    s.table.entries = [] ∧ s.table.orphans = [] := (s.tableSafe_iff.1 h).2.1 hconf

/-- A change of the own entry by the outcome of a frame (R43). -/
theorem State.TableSafe.updateOwn (h : s.TableSafe) {f : Entry → Entry}
    (haddr : ∀ e, (f e).addr = e.addr) (hstate : ∀ e, (f e).state = e.state)
    (hterms : ∀ e, (f e).terms = e.terms) (hmissed : ∀ e, (f e).missed = e.missed)
    (hvalues : ∀ e, e.values.isSome = true → (f e).values.isSome = true) :
    (s.updateOwn f).TableSafe := by
  obtain ⟨hok, hempty, hslot⟩ := s.tableSafe_iff.1 h
  refine (State.tableSafe_iff _).2 ⟨hok.update haddr hstate hterms hmissed hvalues, ?_, hslot⟩
  intro hconf
  obtain ⟨he, ho⟩ := hempty hconf
  exact ⟨by simp [he, updateEntry], ho⟩

/-- A frame accepted comes from another station, at a slot of the group, and finds the Group Table at
work (R28, R29, R31). -/
theorem State.of_judgeFields {f : Frame} (h : s.judgeFields f = .accepted f) :
    f.sender < s.cfg.nSlots ∧ s.ownAddr ≠ f.sender ∧ s.ctl.station.working = true := by
  unfold State.judgeFields at h
  split_ifs at h with _ hformat hself _ hstate
  refine ⟨?_, Ne.symm hself, ?_⟩
  · have := hformat
    unfold formatOk at this
    simp only [Bool.and_eq_true, decide_eq_true_eq] at this
    exact this.1
  · by_contra hwork
    exact hstate (by simp [failsState, hwork])

/-- An accepted frame keeps the Group Table (R45 to R49). -/
theorem State.TableSafe.dispatch (h : s.TableSafe) {f : Frame} (hf : s.judgeFields f = .accepted f) :
    (s.dispatch f).TableSafe := by
  obtain ⟨hslot, hne, hwork⟩ := s.of_judgeFields hf
  obtain ⟨hok, -, hown⟩ := s.tableSafe_iff.1 h
  have hconf := configured_of_working hwork
  cases f
  case claim a v t basis d mask =>
    exact State.tableSafe_of_configured hconf (hok.acceptClaim hslot hne _ v t basis mask _) (hown hconf)
  case join a t d =>
    exact State.tableSafe_of_configured hconf (hok.acceptJoin hslot hne t) (hown hconf)
  case leave a d =>
    have hremove := hok.remove a s.table.confirm
    rw [if_neg (show ¬ s.ownAddr = a from hne)] at hremove
    exact State.tableSafe_of_configured hconf hremove (hown hconf)
  case shed => exact h

/-- The own entry taken out as the station leaves membership (R42). -/
theorem State.TableSafe.enterLeaving (h : s.TableSafe) (hconf : s.ctl.station.configured = true) :
    s.enterLeaving.TableSafe := by
  obtain ⟨hok, -, hslot⟩ := s.tableSafe_iff.1 h
  have hremove := hok.remove s.ownAddr s.table.confirm
  rw [if_pos rfl] at hremove
  exact State.tableSafe_of_configured rfl hremove (hslot hconf)

/-- A JOINING withdrawn takes its entry with it (R99). -/
theorem State.TableSafe.withdraw (h : s.TableSafe) (hconf : s.ctl.station.configured = true) :
    s.removeOwnEntry.enterOffline.TableSafe := by
  obtain ⟨hok, -, hslot⟩ := s.tableSafe_iff.1 h
  have hremove := hok.remove s.ownAddr s.table.confirm
  rw [if_pos rfl] at hremove
  exact State.tableSafe_of_configured rfl hremove (hslot hconf)

/-- The end of LEAVING (R107). -/
theorem State.TableSafe.endLeaving (h : s.TableSafe) (hst : s.ctl.station = .leaving) :
    s.endLeaving.TableSafe := by
  have hoffline : s.enterOffline.TableSafe :=
    h.of_same rfl rfl rfl (by rw [hst]; rfl) (by rw [hst]; rfl)
  unfold State.endLeaving
  split_ifs
  · exact hoffline.enterJoining rfl
  · exact hoffline

/-- A valid configuration has the own address below N_slots (R166). -/
theorem ownAddr_lt_of_checkBlock {block : List Byte} {p : Straps} (h : checkBlock block p = none) :
    p.addr < (Settings.ofBlock block).nSlots := by
  unfold checkBlock at h
  split_ifs at h with _ _ hvalues
  simp only [valuesInRange, strapsAgree, Bool.and_eq_true, decide_eq_true_eq] at hvalues
  exact hvalues.1.2.1

/-- The delivery begins with an empty table (R62, R167). -/
theorem State.TableSafe.deliver (h : s.TableSafe) {block : List Byte}
    (hatt : s.attempting = true) (hcheck : checkBlock block s.strapsNow = none) :
    ((s.takeImage block).deliver block).TableSafe := by
  obtain ⟨he, ho⟩ := h.empty (by rw [State.station_of_attempting hatt]; rfl)
  have hdelivered := State.delivered (s.takeImage block) block
  have haddr : ((s.takeImage block).deliver block).ownAddr = s.ownAddr := by
    unfold State.ownAddr
    rw [hdelivered.loader]
    rfl
  refine State.tableSafe_of_empty ?_ ?_ ?_ ?_
  · rw [hdelivered.table]
    exact he
  · rw [hdelivered.table]
    exact ho
  · rcases (s.takeImage block).station_deliver block with hst | hst <;> rw [hst] <;> rfl
  · intro _
    rw [haddr, hdelivered.cfg]
    exact ownAddr_lt_of_checkBlock hcheck

end Moves

/-- Every move keeps the Group Table. -/
theorem kept_tableSafe : Kept State.TableSafe where
  reset s pins := State.tableSafe_of_empty (s := s.resetBlocks pins) rfl rfl rfl nofun
  startConfig s addr role hst h := by
    obtain ⟨he, ho⟩ := h.empty (by rw [hst]; rfl)
    exact State.tableSafe_of_empty (s := s.startConfig addr role) he ho rfl nofun
  configFaulted s l code hatt _ hstraps _ _ h := by
    obtain ⟨he, ho⟩ := h.empty (by rw [State.station_of_attempting hatt]; rfl)
    exact State.tableSafe_of_empty (s := State.endConfigFaulted { s with loader := l } code) he ho rfl
      nofun
  deliver _ _ hatt _ hcheck h := h.deliver hatt hcheck
  enterJoining _ hst _ _ h := h.enterJoining (by rcases hst with hst | hst <;> rw [hst] <;> rfl)
  enterListen _ hst h := h.of_same rfl rfl rfl (by rw [hst]; rfl) (by rw [hst]; rfl)
  enterOffline _ hst h := h.of_same rfl rfl rfl (by rw [hst]; rfl) (by rw [hst]; rfl)
  withdraw _ hst h := h.withdraw (by rw [hst]; rfl)
  enterLeaving _ hst h := h.enterLeaving (configured_of_working (working_of_collisionMatters hst))
  endLeaving s n hst _ h := by
    have hcounted : State.TableSafe { s with sched := { s.sched with leaveAttempts := n } } := h
    exact hcounted.endLeaving hst
  enterFaultState _ _ code hwork hst _ h := h.enterFaultState hwork hst code
  ownJoinSent _ h := h.updateOwn (fun _ => rfl) (fun _ => rfl) (fun _ => rfl) (fun _ => rfl)
    (fun _ => id)
  ownClaimSent _ _ _ h := h.updateOwn (fun _ => rfl) (fun _ => rfl) (fun _ => rfl) (fun _ => rfl)
    (fun _ _ => rfl)
  shedSent s _ o _ _ h := by
    by_cases hwork : s.ctl.station.working = true
    · rw [State.shedSent_of_working hwork]
      exact h
    · rw [State.shedSent_of_not_working hwork]
      exact h
  openOwnSlot s _ h := by unfold State.openOwnSlot; split_ifs <;> exact h
  boundary _ kind _ h := h.boundary kind
  dispatch _ _ hf _ h := h.dispatch hf
  completeScan s _ mark isns dem feed _ _ h := by
    have hkept := s.keepsGroup_completeScan mark isns dem feed
    exact h.of_same hkept.table hkept.cfg hkept.loader (by rw [hkept.ctl]) (by rw [hkept.ctl])

/-- Settles O56: the moves keep TableSafe, and so does every step. -/
theorem everyStepKeepsTheTableSafe : Obligations.EveryStepKeepsTheTableSafe :=
  fun _ _ hsafe hstep => kept_tableSafe.step hsafe hstep

end Sys2Proof.Machine
end

section
/-! PROOFS. The discard history, the attention set, the loader and the port: every step keeps their
bounds (R36, R37, R161, R163, R170, R174, R177). -/

namespace Sys2Proof.Machine

/-! ## The station and the counters through a boundary -/

section Boundary
variable {s : State}

theorem State.configured_completeBoundary (h : s.ctl.station.configured = true) (began : Station) :
    (s.completeBoundary began).ctl.station.configured = true := by
  unfold State.completeBoundary State.endListen State.endIsolated
  split
  · exact h
  · dsimp only
    split_ifs
    · rfl
    · rfl
    · exact h
  · dsimp only
    split_ifs <;> rfl
  · exact h

/-- A station of a configuration has one after a boundary. -/
theorem State.configured_boundary (h : s.ctl.station.configured = true) (kind : BoundaryKind) :
    (s.boundary kind).ctl.station.configured = true := by
  have hcount : (s.countBoundary kind).ctl.station.configured = true := by cases kind <;> exact h
  unfold State.boundary
  split_ifs
  · rw [State.boundaryWork_eq]
    refine State.configured_completeBoundary ?_ _
    generalize s.countBoundary kind = u at hcount
    rw [State.boundaryStages_ctl]
    unfold State.tablePart
    split_ifs with hiso
    · rw [State.evaluateIsolation_of_isolates hiso]
      simp [Station.configured]
    · unfold State.tableStages
      refine State.configured_ownAdmission ?_ _
      simpa [State.station_evaluateIsolation (by simpa using hiso)] using hcount
  · exact hcount

/-- Without a valid configuration a boundary leaves the station. -/
theorem State.station_boundary_of_not_configured (h : s.ctl.station.configured = false)
    (kind : BoundaryKind) : (s.boundary kind).ctl = s.ctl := by
  have hwork : ¬ s.ctl.station.working = true := fun hw => by simp [configured_of_working hw] at h
  unfold State.boundary
  rw [if_neg hwork]
  cases kind <;> rfl

theorem State.stats_completeBoundary (s : State) (began : Station) :
    (s.completeBoundary began).stats = s.stats := by
  unfold State.completeBoundary State.endListen State.endIsolated
  split
  · rfl
  · dsimp only
    split_ifs <;> rfl
  · dsimp only
    split_ifs <;> rfl
  · rfl

theorem State.stats_evaluateIsolation (s : State) : s.evaluateIsolation.stats = s.stats := by
  unfold State.evaluateIsolation
  split_ifs <;> rfl

theorem State.stats_tablePart (s : State) (kind : BoundaryKind) (isolating : Bool) :
    (s.tablePart kind isolating).stats = s.stats := by
  unfold State.tablePart
  split_ifs
  · rfl
  · simp [State.tableStages]

/-- The increments of the Share Regulator keep the attention set (R177). -/
theorem State.AttentionSafe.shareStage (h : s.AttentionSafe) (kind : BoundaryKind) (own : Bool)
    (set : List (Nat × Confirmation)) : (s.shareStage kind own set).AttentionSafe := by
  unfold State.shareStage
  dsimp only
  split_ifs
  · exact State.attentionSafe_count .dissentRounds (State.attentionSafe_count .confirmedIncreases h)
  · exact State.attentionSafe_count .dissentRounds h
  · exact State.attentionSafe_count .confirmedIncreases h
  · exact h
  · exact h

/-- A boundary keeps the attention set (R177). -/
theorem State.AttentionSafe.boundary (h : s.AttentionSafe) (kind : BoundaryKind) :
    (s.boundary kind).AttentionSafe := by
  have hcount : (s.countBoundary kind).AttentionSafe := by
    cases kind
    · exact State.attentionSafe_count .rounds h
    · exact State.attentionSafe_count .lostRounds (State.attentionSafe_count .rounds h)
  unfold State.boundary
  split_ifs
  · generalize s.countBoundary kind = u at hcount
    rw [State.boundaryWork_eq]
    unfold State.AttentionSafe
    rw [State.stats_completeBoundary]
    refine State.AttentionSafe.shareStage ?_ kind _ _
    unfold State.AttentionSafe
    rw [State.allocateStage_stats, State.stats_tablePart, State.shedCountdown_stats,
      State.stats_evaluateIsolation]
    exact hcount
  · exact hcount

end Boundary

/-! ## History and attention set -/

/-- A record that takes one more discard keeps its description (R37). -/
theorem DiscardRecord.sameAs_again (r q : DiscardRecord) (round : Byte) :
    r.sameAs (q.again round) = r.sameAs q := rfl

/-- A list grows by a record that is not of its last one's description. -/
theorem noEqualNeighbours_append {h : List DiscardRecord} {q : DiscardRecord}
    (hh : noEqualNeighbours h = true) (hq : ∀ r, h.getLast? = some r → r.sameAs q = false) :
    noEqualNeighbours (h ++ [q]) = true := by
  induction h with
  | nil => rfl
  | cons r rest ih =>
    cases rest with
    | nil => simp [noEqualNeighbours, hq r rfl]
    | cons p rest =>
      simp only [noEqualNeighbours, Bool.and_eq_true, List.cons_append] at hh ⊢
      exact ⟨hh.1, ih hh.2 (fun x hx => hq x (by simpa using hx))⟩

/-- A list without its newest or its oldest record has no equal neighbours either. -/
theorem noEqualNeighbours_tail {h : List DiscardRecord} (hh : noEqualNeighbours h = true) :
    noEqualNeighbours (h.drop 1) = true := by
  cases h with
  | nil => rfl
  | cons r rest =>
    cases rest with
    | nil => rfl
    | cons p rest =>
      simp only [noEqualNeighbours, Bool.and_eq_true] at hh
      exact hh.2

theorem noEqualNeighbours_of_append {h rest : List DiscardRecord}
    (hh : noEqualNeighbours (h ++ rest) = true) : noEqualNeighbours h = true := by
  induction h with
  | nil => rfl
  | cons r h ih =>
    cases h with
    | nil => rfl
    | cons p h =>
      simp only [List.cons_append, noEqualNeighbours, Bool.and_eq_true] at hh ⊢
      exact ⟨hh.1, ih hh.2⟩

/-- The last two records of a history differ (R37). -/
theorem sameAs_of_getLast?_dropLast {h : List DiscardRecord} {q : DiscardRecord}
    (hh : noEqualNeighbours (h ++ [q]) = true) :
    ∀ r, h.getLast? = some r → r.sameAs q = false := by
  induction h with
  | nil => nofun
  | cons p h ih =>
    intro r hr
    cases h with
    | nil =>
      obtain rfl : p = r := by simpa using hr
      simpa [noEqualNeighbours] using hh
    | cons x h =>
      simp only [List.cons_append, noEqualNeighbours, Bool.and_eq_true] at hh
      exact ih hh.2 r (by simpa using hr)

section Moves
variable {s : State}

/-- A discard keeps the bounds of the history (R36, R37). -/
theorem State.HistorySafe.recordDiscard (h : s.HistorySafe) (reason : Reason) (body : List Byte) :
    (s.recordDiscard reason body).HistorySafe := by
  obtain ⟨hlen, hdiff, hcount⟩ := h
  refine ⟨addDiscard_length_le _ _ _ _ _ hlen, ?_⟩
  change noEqualNeighbours (addDiscard s.checker.history reason (recordSender reason body)
      (recordKind reason body) s.roundByte) = true
    ∧ ∀ r ∈ addDiscard s.checker.history reason (recordSender reason body)
      (recordKind reason body) s.roundByte, 1 ≤ r.repeats ∧ r.repeats ≤ 255
  generalize s.checker.history = hist at hdiff hcount
  unfold addDiscard
  split
  · next r hlast =>
    obtain ⟨front, rfl⟩ : ∃ front, hist = front ++ [r] :=
      ⟨hist.dropLast, (List.dropLast_append_getLast? r hlast).symm⟩
    split_ifs with hsame hfull
    · rw [List.dropLast_concat]
      refine ⟨noEqualNeighbours_append (noEqualNeighbours_of_append hdiff)
        (fun q hq => (q.sameAs_again r _).trans (sameAs_of_getLast?_dropLast hdiff q hq)), ?_⟩
      intro q hq
      rcases List.mem_append.1 hq with hq | hq
      · exact hcount q (List.mem_append_left _ hq)
      · obtain rfl := List.mem_singleton.1 hq
        have := hcount r (by simp)
        simp only [DiscardRecord.again]
        omega
    · refine ⟨noEqualNeighbours_append hdiff ?_, ?_⟩
      · intro q hq
        obtain rfl : r = q := by simpa using hq
        simpa [DiscardRecord.sameAs] using hsame
      · intro q hq
        rcases List.mem_append.1 hq with hq | hq
        · exact hcount q hq
        · obtain rfl := List.mem_singleton.1 hq
          simp
    · refine ⟨noEqualNeighbours_append (noEqualNeighbours_tail hdiff) ?_, ?_⟩
      · intro q hq
        obtain rfl : r = q := by
          have hmem : q ∈ ((front ++ [r]).drop 1).getLast? := hq
          rw [List.getLast?_drop] at hmem
          split_ifs at hmem <;> simp at hmem
          exact hmem
        simpa [DiscardRecord.sameAs] using hsame
      · intro q hq
        rcases List.mem_append.1 hq with hq | hq
        · exact hcount q (List.mem_of_mem_drop hq)
        · obtain rfl := List.mem_singleton.1 hq
          simp
  · exact ⟨rfl, by simp⟩

/-! ## Every step -/

/-- A move that leaves the history keeps its bounds. -/
theorem State.HistorySafe.of_same {t : State} (h : s.HistorySafe)
    (hsame : t.checker.history = s.checker.history) : t.HistorySafe := by
  unfold State.HistorySafe
  rw [hsame]
  exact h

/-- A move that leaves the attention set keeps it. -/
theorem State.AttentionSafe.of_same {t : State} (h : s.AttentionSafe) (hsame : t.stats = s.stats) :
    t.AttentionSafe := by
  unfold State.AttentionSafe
  rw [hsame]
  exact h

/-- A move that leaves the loader keeps its bounds. -/
theorem State.LoaderSafe.of_same {t : State} (h : s.LoaderSafe) (hsame : t.loader = s.loader) :
    t.LoaderSafe := by
  unfold State.LoaderSafe
  rw [hsame]
  exact h

/-- A move that leaves the port and the pins, and does not end in RESETTING, keeps the port. -/
theorem State.PortSafe.of_same {t : State} (h : s.PortSafe) (hport : t.port = s.port)
    (hpins : t.pins = s.pins) (hst : t.ctl.station = .resetting → s.ctl.station = .resetting) :
    t.PortSafe := by
  obtain ⟨hcap, hphase, hrest⟩ := h
  unfold State.PortSafe
  rw [hport, hpins]
  exact ⟨hcap, fun hp => ⟨(hphase hp).1, fun hr => (hphase hp).2 (hst hr)⟩, hrest⟩

/-- Outside the fault states an own SHED sent leaves history, loader and port. -/
theorem State.shedSent_keeps (s : State) (o : ShedOrder) : s.KeepsLine (s.shedSent o)
    ∧ (s.shedSent o).ctl = s.ctl ∧ (s.shedSent o).stats = s.stats.bump .shedsSent := by
  refine ⟨s.keeps_frameEffect (.shed 0 o 0), ?_⟩
  by_cases hwork : s.ctl.station.working = true
  · rw [State.shedSent_of_working hwork]
    exact ⟨rfl, rfl⟩
  · rw [State.shedSent_of_not_working hwork]
    exact ⟨rfl, rfl⟩

/-- The opening of the own slot moves the mask only of the Frame Checker (R34). -/
theorem State.openOwnSlot_history (s : State) :
    s.openOwnSlot.checker.history = s.checker.history ∧ s.openOwnSlot.stats = s.stats
      ∧ s.openOwnSlot.ctl.station = s.ctl.station := by
  unfold State.openOwnSlot
  split_ifs <;> exact ⟨rfl, rfl, rfl⟩

theorem State.stats_endLeaving (s : State) : s.endLeaving.stats = s.stats := by
  unfold State.endLeaving
  split_ifs <;> rfl

end Moves

/-- Every move keeps the discard history. -/
theorem kept_historySafe : Kept State.HistorySafe where
  reset _ _ := ⟨Nat.zero_le _, rfl, nofun⟩
  deliver _ block _ _ _ h := h.of_same (by rw [(State.delivered _ block).checker]; rfl)
  endLeaving _ _ _ _ h := h.of_same (by rw [(State.keeps_endLeaving _).2.2])
  shedSent s _ o _ _ h := h.of_same (by rw [(s.shedSent_keeps o).1.2.2])
  openOwnSlot s _ h := h.of_same s.openOwnSlot_history.1
  boundary s kind _ h := h.of_same (by rw [(s.keeps_boundary kind).2.2])
  dispatch s f _ _ h := h.of_same (by cases f <;> rfl)
  recordDiscard _ reason body h := h.recordDiscard reason body
  completeScan s _ mark isns dem feed _ _ h :=
    h.of_same (by rw [(s.keepsGroup_completeScan mark isns dem feed).checker])
  clearHistory _ _ := ⟨Nat.zero_le _, rfl, nofun⟩

/-- Every move keeps the attention set. -/
theorem kept_attentionSafe : Kept State.AttentionSafe where
  reset _ _ := List.nodup_nil
  deliver _ block _ _ _ h := (State.delivered _ block).attention h
  endLeaving _ _ _ _ h := h.of_same (State.stats_endLeaving _)
  count _ c h := State.attentionSafe_count c h
  shedSent s _ o _ _ h := by
    unfold State.AttentionSafe
    rw [(s.shedSent_keeps o).2.2]
    exact State.attentionSafe_count .shedsSent h
  openOwnSlot s _ h := h.of_same s.openOwnSlot_history.2.1
  boundary _ kind _ h := h.boundary kind
  dispatch _ f _ _ h := by
    cases f
    case shed => exact State.attentionSafe_count .shedsAccepted h
    all_goals exact h
  recordDiscard _ reason _ h := State.attentionSafe_count reason.counter h
  completeScan s _ mark isns dem feed _ _ h :=
    (s.keepsGroup_completeScan mark isns dem feed).attention h
  stats s st hst h := by
    change st.attention.Nodup
    rcases hst with hst | hst <;> rw [hst]
    · exact h
    · exact List.nodup_nil

/-- While an attempt runs fewer than three have ended (R163). -/
theorem State.LoaderSafe.attempts_lt {s : State} (h : s.LoaderSafe) (hatt : s.attempting = true) :
    s.loader.attempts < 3 := by
  obtain ⟨-, -, hfew⟩ := h
  exact hfew (.inl (by simp_all [State.attempting]))

/-- Every move keeps the loader. -/
theorem kept_loaderSafe : Kept State.LoaderSafe where
  reset _ _ := ⟨.inl rfl, Nat.zero_le _, nofun⟩
  startConfig _ _ _ _ _ := ⟨.inl rfl, Nat.zero_le _, fun _ => Nat.succ_pos 2⟩
  attemptWaits s _ _ hfew h := ⟨h.1, hfew.le, fun _ => hfew⟩
  attemptBegins s hwait h := ⟨h.1, h.2.1, fun _ => h.2.2 (.inr hwait)⟩
  configFaulted s l code hatt _ _ hcount himage h := by
    have hfew := h.attempts_lt hatt
    refine ⟨?_, ?_, nofun⟩
    · obtain hsame | hwhole := himage
      · exact (congrArg (fun x => x = [] ∨ x.length = blockLength) hsame).mpr h.1
      · exact .inr hwhole
    · change l.attempts ≤ 3
      omega
  deliver s block hatt hlen _ h := by
    have hfew := h.attempts_lt hatt
    unfold State.LoaderSafe
    rw [(State.delivered _ block).loader]
    exact ⟨.inr hlen, hfew, nofun⟩
  endLeaving s _ _ _ h := h.of_same (by rw [(State.keeps_endLeaving _).1.2.1])
  shedSent s _ o _ _ h := h.of_same (by rw [(s.shedSent_keeps o).1.1.2.1])
  openOwnSlot s _ h := h.of_same (by rw [s.keeps_openOwnSlot.2.1])
  boundary s kind _ h := h.of_same (by rw [(s.keeps_boundary kind).1.2.1])
  dispatch s f _ _ h := h.of_same (by cases f <;> rfl)
  completeScan s _ mark isns dem feed _ _ h :=
    h.of_same (by rw [(s.keepsGroup_completeScan mark isns dem feed).loader])

/-- Every move keeps the port. -/
theorem kept_portSafe : Kept State.PortSafe where
  reset _ _ := ⟨List.length_replicate, nofun, rfl, Nat.zero_le _,
    Nat.succ_pos 7⟩
  startConfig _ _ _ _ h := h.of_same rfl rfl nofun
  configFaulted _ _ _ _ _ _ _ _ h := h.of_same rfl rfl nofun
  deliver s block _ _ _ h := by
    have hdelivered := State.delivered (s.takeImage block) block
    refine h.of_same hdelivered.port hdelivered.pins ?_
    rcases (s.takeImage block).station_deliver block with hst | hst <;> rw [hst] <;> exact nofun
  enterJoining _ _ _ _ h := h.of_same rfl rfl nofun
  enterListen _ _ h := h.of_same rfl rfl nofun
  enterOffline _ _ h := h.of_same rfl rfl nofun
  withdraw _ _ h := h.of_same rfl rfl nofun
  enterLeaving _ _ h := h.of_same rfl rfl nofun
  endLeaving _ _ _ _ h := by
    refine h.of_same (State.keeps_endLeaving _).1.2.2.2.1 (State.keeps_endLeaving _).1.1 ?_
    rw [State.station_endLeaving]
    split_ifs <;> exact nofun
  enterFaultState _ _ _ _ hst _ h := h.of_same rfl rfl (by rcases hst with rfl | rfl <;> exact nofun)
  shedSent s _ o _ _ h := by
    obtain ⟨⟨⟨hpins, -, -, hport, -⟩, -⟩, hctl, -⟩ := s.shedSent_keeps o
    exact h.of_same hport hpins (by rw [hctl]; exact id)
  openOwnSlot s _ h := by
    obtain ⟨hpins, -, -, hport, -⟩ := s.keeps_openOwnSlot
    exact h.of_same hport hpins (by rw [s.openOwnSlot_history.2.2]; exact id)
  boundary s kind _ h := by
    obtain ⟨⟨hpins, -, -, hport, -⟩, -⟩ := s.keeps_boundary kind
    refine h.of_same hport hpins (fun hr => ?_)
    cases hconf : s.ctl.station.configured
    · rwa [State.station_boundary_of_not_configured hconf] at hr
    · have hafter := State.configured_boundary hconf kind
      rw [hr] at hafter
      cases hafter
  dispatch s f _ _ h := h.of_same (by cases f <;> rfl) (by cases f <;> rfl) (by cases f <;> exact id)
  completeScan s _ mark isns dem feed _ _ h := by
    have hkept := s.keepsGroup_completeScan mark isns dem feed
    exact h.of_same hkept.port hkept.pins (by rw [hkept.ctl]; exact id)
  select _ _ _ hport h := hport h

/-- Settles O59: each of the four is kept by the moves, and so by every step. -/
theorem everyStepKeepsHistoryLoaderAndPortSafe :
    Obligations.EveryStepKeepsHistoryLoaderAndPortSafe :=
  fun _ _ hhistory hattention hloader hport hstep =>
    ⟨kept_historySafe.step hhistory hstep, kept_attentionSafe.step hattention hstep,
      kept_loaderSafe.step hloader hstep, kept_portSafe.step hport hstep⟩

end Sys2Proof.Machine
end

section
/-! PROOFS. The rotation, the Line Controller and the Station Controller: every step keeps their bounds
(R6, R10, R20, R101, R107 to R109, R112, R113). -/

namespace Sys2Proof.Machine

/-! ## Rotation and Line Controller -/

/-- RotationSafe with LineSafe, which the steps keep together. -/
def State.BusSafe (s : State) : Prop := s.RotationSafe ∧ s.LineSafe

section Bus
variable {s t : State}

/-- A move that leaves the rotation but for its timer and counts, and the own burst. -/
theorem State.BusSafe.of_same (h : s.BusSafe) (hline : t.line.phase = s.line.phase
      ∧ t.line.burst = s.line.burst) (hrot : s.SameRotation t) (hcfg : t.cfg = s.cfg)
    (hconf : t.ctl.station.configured = s.ctl.station.configured) : t.BusSafe := by
  obtain ⟨⟨hslot, hunsynced, hnone⟩, hlen, hquiet⟩ := h
  obtain ⟨hsync, hrot, hphase, -⟩ := hrot
  obtain ⟨htx, hburst⟩ := hline
  unfold State.BusSafe State.RotationSafe State.LineSafe
  rw [htx, hburst, hsync, hrot, hphase, hcfg, hconf]
  exact ⟨⟨hslot, hunsynced, hnone⟩, hlen, hquiet⟩

/-- A configured station that is synced at a slot of the group. -/
theorem State.busSafe_of_synced (hconf : s.ctl.station.configured = true)
    (hsync : s.rotation.synced = true) (hrot : s.rotation.rot < s.cfg.nSlots) (hline : s.LineSafe) :
    s.BusSafe :=
  ⟨⟨fun _ => hrot, fun hn => by simp [hsync] at hn, fun hn => by simp [hconf] at hn⟩, hline⟩

/-- A synced station has a valid configuration (R20). -/
theorem State.BusSafe.configured (h : s.BusSafe) (hsync : s.rotation.synced = true) :
    s.ctl.station.configured = true := by
  obtain ⟨⟨-, -, hnone⟩, -⟩ := h
  cases hconf : s.ctl.station.configured
  · have := hnone hconf
    simp [hsync] at this
  · rfl

/-- A station under way with its burst is synced (R10). -/
theorem State.BusSafe.synced (h : s.BusSafe) (hphase : s.line.phase ≠ .quiet) :
    s.rotation.synced = true := by
  obtain ⟨⟨-, hunsynced, -⟩, -⟩ := h
  cases hsync : s.rotation.synced
  · exact absurd (hunsynced hsync).2.2 hphase
  · rfl

/-- A configured station stands at a slot of the group. -/
theorem State.BusSafe.rot_lt (h : s.BusSafe) (hconf : s.ctl.station.configured = true) :
    s.rotation.rot < s.cfg.nSlots := h.1.1 hconf

/-- At most two frames are composed, and one at least in a state that transmits (R113). -/
theorem State.composeBurst_length (s : State) : s.composeBurst.length ≤ 2
    ∧ (s.ctl.station.transmitting = true → s.composeBurst ≠ []) := by
  unfold State.composeBurst State.stateFrame
  cases s.ctl.station <;> cases s.sched.item <;> simp [Station.transmitting]

/-- The opening of the own slot begins a burst where the station transmits (R10). -/
theorem State.BusSafe.openOwnSlot (h : s.BusSafe) (hsync : s.rotation.synced = true) :
    s.openOwnSlot.BusSafe := by
  have hconf := h.configured hsync
  unfold State.openOwnSlot
  by_cases htransmit : s.ctl.station.transmitting = true
  · rw [if_pos htransmit]
    obtain ⟨hlen, hsome⟩ := s.composeBurst_length
    exact State.busSafe_of_synced hconf hsync (h.rot_lt hconf)
      ⟨hlen, iff_of_false nofun (hsome htransmit)⟩
  · rw [if_neg htransmit]
    exact h

/-- A configuration has at least eight slots (R165, R184). -/
theorem nSlots_ofBlock_pos (block : List Byte) : 0 < (Settings.ofBlock block).nSlots :=
  Nat.mul_pos (by decide) (Nat.pow_pos (by decide))

/-- Before a valid configuration ROT is 0 (R20, R21), so it is a slot of any. -/
theorem State.BusSafe.deliver (h : s.BusSafe) (hconf : s.ctl.station.configured = false)
    (block : List Byte) : (s.deliver block).BusSafe := by
  obtain ⟨⟨-, hunsynced, hnone⟩, hline⟩ := h
  have hsync := hnone hconf
  obtain ⟨hrot, hslot, hquiet⟩ := hunsynced hsync
  have hdelivered := State.delivered s block
  unfold State.BusSafe State.RotationSafe State.LineSafe
  rw [hdelivered.cfg, hdelivered.line, hdelivered.rotation]
  refine ⟨⟨fun _ => ?_, fun _ => ⟨hrot, hslot, hquiet⟩, fun _ => hsync⟩, hline⟩
  dsimp only
  rw [hrot]
  exact nSlots_ofBlock_pos block

end Bus

/-- An own SHED sent leaves the rotation and the LEAVE attempts. -/
theorem State.rotation_shedSent (s : State) (o : ShedOrder) :
    (s.shedSent o).rotation = s.rotation
      ∧ (s.shedSent o).sched.leaveAttempts = s.sched.leaveAttempts := by
  by_cases hwork : s.ctl.station.working = true
  · rw [State.shedSent_of_working hwork]
    exact ⟨rfl, rfl⟩
  · rw [State.shedSent_of_not_working hwork]
    exact ⟨rfl, rfl⟩

/-- Every move keeps the rotation and the Line Controller. -/
theorem kept_busSafe : Kept State.BusSafe where
  reset _ _ := ⟨⟨nofun, fun _ => ⟨rfl, rfl, rfl⟩, fun _ => rfl⟩, Nat.zero_le _, iff_of_true rfl rfl⟩
  startConfig _ _ _ hst h := h.of_same ⟨rfl, rfl⟩ (.refl _) rfl (by rw [hst]; rfl)
  configFaulted _ _ _ hatt _ _ _ _ h :=
    h.of_same ⟨rfl, rfl⟩ (.refl _) rfl (by rw [State.station_of_attempting hatt]; rfl)
  deliver s block hatt _ _ h := by
    have himage : (s.takeImage block).BusSafe := h
    exact himage.deliver (congrArg Station.configured (State.station_of_attempting hatt)) block
  enterJoining _ hst _ _ h :=
    h.of_same ⟨rfl, rfl⟩ (.refl _) rfl (by rcases hst with hst | hst <;> rw [hst] <;> rfl)
  enterListen _ hst h := h.of_same ⟨rfl, rfl⟩ (.refl _) rfl (by rw [hst]; rfl)
  enterOffline _ hst h := h.of_same ⟨rfl, rfl⟩ (.refl _) rfl (by rw [hst]; rfl)
  withdraw _ hst h := h.of_same ⟨rfl, rfl⟩ (.refl _) rfl (by rw [hst]; rfl)
  enterLeaving _ hst h := h.of_same ⟨rfl, rfl⟩ (.refl _) rfl
    (configured_of_working (working_of_collisionMatters hst)).symm
  endLeaving s n hst _ h := by
    have hleaving : s.ctl.station.configured = true := by rw [hst]; rfl
    unfold State.endLeaving
    split_ifs <;> exact h.of_same ⟨rfl, rfl⟩ (.refl _) rfl hleaving.symm
  enterFaultState _ _ _ hwork hst _ h := h.of_same ⟨rfl, rfl⟩ (.refl _) rfl
    ((by rcases hst with rfl | rfl <;> rfl : _ = true).trans (configured_of_working hwork).symm)
  slot s x hopen h := by
    obtain ⟨⟨hslot, hunsynced, hnone⟩, hline⟩ := h
    refine ⟨⟨hslot, fun hsync => ?_, hnone⟩, hline⟩
    obtain ⟨-, hstopped, hquiet⟩ := hunsynced hsync
    rcases hopen with hopen | hopen
    · exact absurd hstopped hopen
    · exact absurd hquiet hopen
  dropBurst s h := by
    obtain ⟨⟨hslot, hunsynced, hnone⟩, -⟩ := h
    exact ⟨⟨hslot, fun hsync => ⟨(hunsynced hsync).1, (hunsynced hsync).2.1, rfl⟩, hnone⟩,
      Nat.zero_le _, iff_of_true rfl rfl⟩
  beginFrame s hphase h := by
    have hsync := h.synced hphase
    have hconf := h.configured hsync
    obtain ⟨hlen, hquiet⟩ := h.2
    exact State.busSafe_of_synced hconf hsync (h.rot_lt hconf)
      ⟨hlen, iff_of_false nofun (fun hnil => hphase (hquiet.2 hnil))⟩
  frameEnded s f rest hphase hburst h := by
    have hsync := h.synced (by simp [hphase])
    have hconf := h.configured hsync
    have hlen := h.2.1
    rw [hburst] at hlen
    refine State.busSafe_of_synced hconf hsync (h.rot_lt hconf) ⟨(Nat.le_succ _).trans hlen, ?_⟩
    cases rest <;> simp [State.frameEnded]
  shedSent s _ o _ _ h := by
    obtain ⟨⟨⟨-, -, hcfg, -⟩, hline, -⟩, hctl, -⟩ := s.shedSent_keeps o
    refine h.of_same ⟨by rw [hline], by rw [hline]⟩ ?_ hcfg (by rw [hctl])
    unfold State.SameRotation
    rw [(s.rotation_shedSent o).1]
    exact ⟨rfl, rfl, rfl, rfl⟩
  startSlot s a hsync ha h := by
    have hconf := h.configured hsync
    refine State.busSafe_of_synced hconf hsync ?_ h.2
    rcases ha with ha | rfl
    · exact ha
    · exact (Nat.zero_le _).trans_lt (h.rot_lt hconf)
  openOwnSlot _ hsync h := h.openOwnSlot hsync
  boundary s kind hsync h := by
    obtain ⟨⟨-, -, hcfg, -⟩, hline, -⟩ := s.keeps_boundary kind
    obtain ⟨hsync', hrot, -⟩ := s.rotation_boundary kind
    have hconf := h.configured hsync
    refine State.busSafe_of_synced (State.configured_boundary hconf kind) (hsync'.trans hsync) ?_ ?_
    · rw [hrot, hcfg]
      exact h.rot_lt hconf
    · unfold State.LineSafe
      rw [hline]
      exact h.2
  takeRot s a hsync ha h := State.busSafe_of_synced (h.configured hsync) hsync ha h.2
  acquireSync s a hconf _ ha h := State.busSafe_of_synced hconf rfl ha h.2
  coldSync s hst h := by
    have hconf : s.ctl.station.configured = true := by rw [hst]; rfl
    exact State.busSafe_of_synced hconf rfl ((Nat.zero_le _).trans_lt (h.rot_lt hconf)) h.2
  dispatch s f _ _ h := by cases f <;> exact h
  completeScan s _ mark isns dem feed _ _ h := by
    have hkept := s.keepsGroup_completeScan mark isns dem feed
    exact h.of_same ⟨by rw [hkept.line], by rw [hkept.line]⟩
      (by unfold State.SameRotation; rw [hkept.rotation]; exact ⟨rfl, rfl, rfl, rfl⟩) hkept.cfg
      (by rw [hkept.ctl])

/-! ## Station Controller -/

/-- What StationSafe says of the counts and flags outside the isolation evaluation. -/
structure State.StationOk (s : State) : Prop where
  transmits : s.ctl.station.transmitting = true → s.rotation.synced = true ∧ s.ctl.observed = 2
  observed : s.ctl.observed ≤ 2
  isolations : s.ctl.isolations ≤ 255
  attempts : s.sched.leaveAttempts ≤ 3
  leaving : s.ctl.station = .leaving → s.sched.leaveAttempts < 3
  countA : s.ctl.isolationA ≤ s.cfg.tIsolate
  countB : s.ctl.isolationB ≤ s.cfg.tIsolate
  clear : s.ctl.station ≠ .active → s.ctl.isolationA = 0 ∧ s.ctl.isolationB = 0
    ∧ s.ctl.heardMeRound = false ∧ s.ctl.acceptedRound = false
  fault : s.ctl.faultCode = .none ↔ s.ctl.station.isFaultState = false

theorem State.stationSafe_iff (s : State) : s.StationSafe ↔ s.StationOk :=
  ⟨fun ⟨h1, h2, h3, h4, h5, h6, h7, h8, h9⟩ => ⟨h1, h2, h3, h4, h5, h6, h7, h8, h9⟩,
    fun ⟨h1, h2, h3, h4, h5, h6, h7, h8, h9⟩ => ⟨h1, h2, h3, h4, h5, h6, h7, h8, h9⟩⟩

section Station
variable {s t : State}

/-- A move that leaves the Station Controller, the LEAVE attempts and whether the station is synced. -/
theorem State.StationOk.of_same (h : s.StationOk) (hctl : t.ctl = s.ctl)
    (hatt : t.sched.leaveAttempts = s.sched.leaveAttempts)
    (hsync : t.rotation.synced = s.rotation.synced) (hcfg : t.cfg = s.cfg) : t.StationOk := by
  obtain ⟨htransmits, hobs, hiso, hatts, hleaving, ha, hb, hclear, hfault⟩ := h
  constructor <;> simpa only [hctl, hatt, hsync, hcfg]

/-- A non-transmitting station enters a state that neither transmits nor is a fault state. -/
theorem State.StationOk.enterQuiet (h : s.StationOk) (hout : s.ctl.station ≠ .active)
    (hfault : s.ctl.station.isFaultState = false) (hatt : t.sched = s.sched)
    (hctl : t.ctl = { s.ctl with
      station := t.ctl.station, groupEvidence := t.ctl.groupEvidence
      acceptedSeen := t.ctl.acceptedSeen })
    (hst : t.ctl.station = .listen ∨ t.ctl.station = .offline) : t.StationOk := by
  have hquiet : t.ctl.station.transmitting = false := by rcases hst with hst | hst <;> rw [hst] <;> rfl
  have hleave : t.ctl.station ≠ .leaving := by rcases hst with hst | hst <;> rw [hst] <;> nofun
  have hnormal : t.ctl.station.isFaultState = false := by
    rcases hst with hst | hst <;> rw [hst] <;> rfl
  constructor
  · simp [hquiet]
  · rw [hctl]; exact h.observed
  · rw [hctl]; exact h.isolations
  · rw [hatt]; exact h.attempts
  · exact fun hl => absurd hl hleave
  · rw [hctl]; exact (h.clear hout).1.trans_le (Nat.zero_le _)
  · rw [hctl]; exact (h.clear hout).2.1.trans_le (Nat.zero_le _)
  · intro _
    rw [hctl]
    exact h.clear hout
  · rw [hnormal, hctl]
    exact iff_of_true (h.fault.2 hfault) rfl

/-- A station without a burst state enters JOINING synced and with a whole round observed (R102). -/
theorem State.StationOk.enterJoining (h : s.StationOk) (hst : s.ctl.station = .offline
      ∨ s.ctl.station = .listen) (hsync : s.rotation.synced = true) (hobs : s.ctl.observed = 2) :
    s.enterJoining.StationOk where
  transmits _ := ⟨hsync, hobs⟩
  observed := h.observed
  isolations := h.isolations
  attempts := h.attempts
  leaving := nofun
  countA := h.countA
  countB := h.countB
  clear _ := h.clear (by rcases hst with hst | hst <;> rw [hst] <;> nofun)
  fault := iff_of_true (h.fault.2 (by rcases hst with hst | hst <;> rw [hst] <;> rfl)) rfl

/-- A fault state holds its code and clears the member's part (R112). -/
theorem State.StationOk.enterFaultState (h : s.StationOk) {st : Station} {code : FaultCode}
    (hst : st = .addressConflict ∨ st = .groupMismatch) (hcode : code ≠ .none) :
    (s.enterFaultState st code).StationOk where
  transmits ht := by rcases hst with rfl | rfl <;> cases ht
  observed := h.observed
  isolations := h.isolations
  attempts := h.attempts
  leaving hl := by rcases hst with rfl | rfl <;> cases hl
  countA := Nat.zero_le _
  countB := Nat.zero_le _
  clear _ := ⟨rfl, rfl, rfl, rfl⟩
  fault := iff_of_false hcode (by rcases hst with rfl | rfl <;> nofun)

/-- The isolation evaluation: a count at T_isolate isolates, so that what stands is below it (R108,
R109). -/
theorem State.StationOk.evaluateIsolation (h : s.StationOk) : s.evaluateIsolation.StationOk := by
  by_cases hiso : s.isolates = true
  · rw [State.evaluateIsolation_of_isolates hiso]
    have hcode := h.fault.2 (by rw [State.station_of_isolates hiso]; rfl)
    exact {
      transmits := nofun, observed := h.observed, isolations := Nat.min_le_right _ _
      attempts := h.attempts, leaving := nofun, countA := Nat.zero_le _, countB := Nat.zero_le _
      clear := fun _ => ⟨rfl, rfl, rfl, rfl⟩, fault := iff_of_true hcode rfl }
  · by_cases hst : s.ctl.station = .active
    · rw [State.evaluateIsolation_of_active (by simpa using hiso) hst]
      have hbelow : s.nextIsolationA < s.cfg.tIsolate ∧ s.nextIsolationB < s.cfg.tIsolate := by
        simpa [State.isolates, hst] using hiso
      exact {
        transmits := h.transmits, observed := h.observed, isolations := h.isolations
        attempts := h.attempts, leaving := h.leaving, countA := hbelow.1.le, countB := hbelow.2.le
        clear := fun hne => absurd hst hne, fault := h.fault }
    · rw [State.evaluateIsolation_of_ne_active hst]
      exact h

/-- The countdown writes the item only (R125). -/
theorem State.leaveAttempts_shedCountdown (s : State) :
    s.shedCountdown.sched.leaveAttempts = s.sched.leaveAttempts := by
  unfold State.shedCountdown State.monitorLook
  dsimp only
  split_ifs
  · split
    · split_ifs <;> rfl
    · rfl
  · rfl

/-- An admitted station was JOINING or DEFERRED, and so transmitted already (R104). -/
theorem State.StationOk.ownAdmission (h : s.StationOk) (decision : Option Bool) :
    (s.ownAdmission decision).StationOk := by
  unfold State.ownAdmission
  split
  · split_ifs with hst
    · have htransmits := h.transmits (by rcases hst with hst | hst <;> rw [hst] <;> rfl)
      have hcode := h.fault.2 (by rcases hst with hst | hst <;> rw [hst] <;> rfl)
      exact {
        transmits := fun _ => htransmits, observed := h.observed, isolations := h.isolations
        attempts := h.attempts, leaving := nofun, countA := Nat.zero_le _, countB := Nat.zero_le _
        clear := fun _ => ⟨rfl, rfl, rfl, rfl⟩, fault := iff_of_true hcode rfl }
    · exact h
  · split_ifs with hst
    · have htransmits := h.transmits (by rw [hst]; rfl)
      have hcode := h.fault.2 (by rw [hst]; rfl)
      exact {
        transmits := fun _ => htransmits, observed := h.observed, isolations := h.isolations
        attempts := h.attempts, leaving := nofun, countA := h.countA, countB := h.countB
        clear := fun _ => h.clear (by rw [hst]; nofun), fault := iff_of_true hcode rfl }
    · exact h
  · exact h

/-- The stages of a boundary (R50, R108, R121). -/
theorem State.StationOk.boundaryStages (h : s.StationOk) (kind : BoundaryKind) :
    (s.boundaryStages kind).StationOk := by
  have hcount : s.evaluateIsolation.shedCountdown.StationOk :=
    h.evaluateIsolation.of_same (by simp) (State.leaveAttempts_shedCountdown _) (by simp) (by simp)
  have htable : (s.evaluateIsolation.shedCountdown.tablePart kind s.isolates).StationOk := by
    unfold State.tablePart
    split_ifs
    · exact hcount.of_same rfl rfl rfl rfl
    · refine State.StationOk.ownAdmission (s := { s.evaluateIsolation.shedCountdown with
        table := _ }) ?_ _
      exact hcount.of_same rfl rfl rfl rfl
  unfold State.boundaryStages
  exact htable.of_same (by simp) (by simp) (by simp) (by simp)

/-- The changes of state as a boundary completes (R101, R102, R110). -/
theorem State.StationOk.completeBoundary (h : s.StationOk) {began : Station}
    (hbegan : began = .offline ∨ began = .listen ∨ began = .isolated → s.ctl.station = began)
    (hsync : s.rotation.synced = true) : (s.completeBoundary began).StationOk := by
  have hobserved : began = .offline ∨ began = .listen → State.StationOk { s with
      ctl := { s.ctl with observed := min (s.ctl.observed + 1) 2 } } := fun hb => {
    transmits := by
      intro ht
      have hst := hbegan (by tauto)
      rcases hb with rfl | rfl <;> simp [hst, Station.transmitting] at ht
    observed := Nat.min_le_right _ _, isolations := h.isolations, attempts := h.attempts
    leaving := h.leaving, countA := h.countA, countB := h.countB, clear := h.clear, fault := h.fault }
  unfold State.completeBoundary
  split
  · exact hobserved (.inl rfl)
  · have hst := hbegan (by simp)
    dsimp only
    split_ifs with hone
    · unfold State.endListen
      split_ifs
      · exact (hobserved (.inr rfl)).enterFaultState (.inr rfl) nofun
      · exact (hobserved (.inr rfl)).enterJoining (.inr hst) hsync (by simp [hone])
    · exact hobserved (.inr rfl)
  · have hst := hbegan (by simp)
    have hjustOne : State.StationOk { s with snap := .empty, ctl := { s.ctl with observed := 1 } } :=
      { transmits := by simp [hst, Station.transmitting], observed := Nat.le_succ 1
        isolations := h.isolations, attempts := h.attempts, leaving := h.leaving, countA := h.countA
        countB := h.countB, clear := h.clear, fault := h.fault }
    unfold State.endIsolated
    dsimp only
    split_ifs
    · exact hjustOne.enterQuiet (by simp [hst]) (by simp [hst, Station.isFaultState]) rfl rfl
        (.inl rfl)
    · exact hjustOne.enterQuiet (by simp [hst]) (by simp [hst, Station.isFaultState]) rfl rfl
        (.inr rfl)
  · exact h

/-- The stages leave the rotation (R9). -/
theorem State.sameRotation_boundaryStages (s : State) (kind : BoundaryKind) :
    s.SameRotation (s.boundaryStages kind) := by
  unfold State.boundaryStages
  refine .trans ?_ (State.sameRotation_shareStage _ _ _ _)
  refine .trans ?_ (State.sameRotation_allocateStage _ _)
  refine .trans ?_ (State.sameRotation_tablePart _ _ _)
  exact .trans s.sameRotation_evaluateIsolation (State.sameRotation_shedCountdown _)

/-- A boundary of a synced station (R50). -/
theorem State.StationOk.boundary (h : s.StationOk) (kind : BoundaryKind)
    (hsync : s.rotation.synced = true) : (s.boundary kind).StationOk := by
  have hcount : (s.countBoundary kind).StationOk := by
    cases kind <;> exact h.of_same rfl rfl rfl rfl
  have hsynced : (s.countBoundary kind).rotation.synced = true := by cases kind <;> exact hsync
  unfold State.boundary
  split_ifs
  · generalize s.countBoundary kind = u at hcount hsynced
    rw [State.boundaryWork_eq]
    refine (hcount.boundaryStages kind).completeBoundary (fun hst => ?_) ?_
    · rw [State.boundaryStages_ctl_of_other] <;> rcases hst with hst | hst | hst <;> rw [hst] <;> nofun
    · rw [(u.sameRotation_boundaryStages kind).1]
      exact hsynced
  · exact hcount

/-- An accepted frame raises a round flag in ACTIVE only (R108). -/
theorem State.StationOk.notice (h : s.StationOk) (f : Frame) : (s.notice f).StationOk where
  transmits := h.transmits
  observed := h.observed
  isolations := h.isolations
  attempts := h.attempts
  leaving := h.leaving
  countA := h.countA
  countB := h.countB
  clear hne := by
    obtain ⟨ha, hb, hme, hround⟩ := h.clear hne
    have hne : s.ctl.station ≠ .active := hne
    exact ⟨ha, hb, by simp [State.notice, hne, hme], by simp [State.notice, hne, hround]⟩
  fault := h.fault

/-- LEAVING ends in JOINING, synced as LEAVING was, or in OFFLINE (R107). -/
theorem State.StationOk.endLeaving (h : s.StationOk) (hst : s.ctl.station = .leaving) {n : Nat}
    (hn : n ≤ 3) :
    (State.endLeaving { s with sched := { s.sched with leaveAttempts := n } }).StationOk := by
  have htransmits := h.transmits (by rw [hst]; rfl)
  have hclear := h.clear (by rw [hst]; nofun)
  have hcode := h.fault.2 (by rw [hst]; rfl)
  have hoffline : State.StationOk (State.enterOffline { s with
      sched := { s.sched with leaveAttempts := n } }) :=
    { transmits := nofun, observed := h.observed, isolations := h.isolations, attempts := hn
      leaving := nofun, countA := h.countA, countB := h.countB, clear := fun _ => hclear
      fault := iff_of_true hcode rfl }
  unfold State.endLeaving
  split_ifs
  · exact hoffline.enterJoining (.inl rfl) htransmits.1 htransmits.2
  · exact hoffline

end Station

/-- Where a collision matters the station transmits (R10, R111). -/
theorem transmitting_of_collisionMatters {st : Station} (h : st.collisionMatters = true) :
    st.transmitting = true := by
  revert h
  cases st <;> decide

/-- A fault state stops the blocks (R50, R112). -/
theorem not_isFaultState_of_working {st : Station} (h : st.working = true) :
    st.isFaultState = false := by
  revert h
  cases st <;> decide

/-- Every move keeps the Station Controller. -/
theorem kept_stationSafe : Kept State.StationSafe where
  reset _ _ := ⟨nofun, Nat.zero_le _, Nat.zero_le _, Nat.zero_le _, nofun, Nat.zero_le _,
    Nat.zero_le _, fun _ => ⟨rfl, rfl, rfl, rfl⟩, iff_of_true rfl rfl⟩
  startConfig s _ _ hst h := by
    rw [State.stationSafe_iff] at h ⊢
    exact {
      transmits := nofun, observed := h.observed, isolations := h.isolations, attempts := h.attempts
      leaving := nofun, countA := h.countA, countB := h.countB
      clear := fun _ => h.clear (by rw [hst]; nofun)
      fault := iff_of_true (h.fault.2 (by rw [hst]; rfl)) rfl }
  configFaulted s l code hatt hcode _ _ _ h := by
    rw [State.stationSafe_iff] at h ⊢
    exact {
      transmits := nofun, observed := h.observed, isolations := h.isolations, attempts := h.attempts
      leaving := nofun, countA := h.countA, countB := h.countB
      clear := fun _ => h.clear (by rw [State.station_of_attempting hatt]; nofun)
      fault := iff_of_false hcode nofun }
  deliver s block hatt _ _ h := by
    rw [State.stationSafe_iff] at h ⊢
    have hst := State.station_of_attempting hatt
    have hdelivered := (s.takeImage block).delivered block
    exact h.enterQuiet (by simp [hst]) (by simp [hst, Station.isFaultState]) hdelivered.sched
      hdelivered.ctl ((s.takeImage block).station_deliver block)
  enterJoining s hst hsync hobs h := by
    rw [State.stationSafe_iff] at h ⊢
    exact h.enterJoining hst hsync hobs
  enterListen s hst h := by
    rw [State.stationSafe_iff] at h ⊢
    exact h.enterQuiet (by simp [hst]) (by simp [hst, Station.isFaultState]) rfl rfl (.inl rfl)
  enterOffline s hst h := by
    rw [State.stationSafe_iff] at h ⊢
    exact h.enterQuiet (by simp [hst]) (by simp [hst, Station.isFaultState]) rfl rfl (.inr rfl)
  withdraw s hst h := by
    rw [State.stationSafe_iff] at h ⊢
    exact h.enterQuiet (by simp [hst]) (by simp [hst, Station.isFaultState]) rfl rfl (.inr rfl)
  enterLeaving s hst h := by
    rw [State.stationSafe_iff] at h ⊢
    exact {
      transmits := fun _ => h.transmits (transmitting_of_collisionMatters hst)
      observed := h.observed, isolations := h.isolations, attempts := Nat.zero_le _
      leaving := fun _ => Nat.succ_pos 2, countA := Nat.zero_le _, countB := Nat.zero_le _
      clear := fun _ => ⟨rfl, rfl, rfl, rfl⟩
      fault := iff_of_true (h.fault.2 (not_isFaultState_of_working
        (working_of_collisionMatters hst))) rfl }
  leaveAttempt s hst hfew h := by
    rw [State.stationSafe_iff] at h ⊢
    exact { h with attempts := hfew.le, leaving := fun _ => hfew }
  endLeaving s n hst hn h := by
    rw [State.stationSafe_iff] at h ⊢
    have hfew := h.leaving hst
    exact h.endLeaving hst (by omega)
  enterFaultState s st code _ hst hcode h := by
    rw [State.stationSafe_iff] at h ⊢
    exact h.enterFaultState hst hcode
  shedSent s _ o _ _ h := by
    rw [State.stationSafe_iff] at h ⊢
    obtain ⟨⟨⟨-, -, hcfg, -⟩, -⟩, hctl, -⟩ := s.shedSent_keeps o
    obtain ⟨hrot, hatt⟩ := s.rotation_shedSent o
    exact h.of_same hctl hatt (congrArg _ hrot) hcfg
  openOwnSlot s _ h := by
    rw [State.stationSafe_iff] at h ⊢
    unfold State.openOwnSlot
    by_cases htransmit : s.ctl.station.transmitting = true
    · rw [if_pos htransmit]
      exact { h with }
    · rw [if_neg htransmit]
      exact h.of_same rfl rfl rfl rfl
  boundary s kind hsync h := by
    rw [State.stationSafe_iff] at h ⊢
    exact h.boundary kind hsync
  acquireSync s a _ hsync _ h := by
    rw [State.stationSafe_iff] at h ⊢
    have hquiet : ¬ s.ctl.station.transmitting = true := fun ht => by
      simp [(h.transmits ht).1] at hsync
    exact { h with transmits := fun ht => absurd ht hquiet, observed := Nat.zero_le _ }
  coldSync s hst h := by
    rw [State.stationSafe_iff] at h ⊢
    exact { h with transmits := fun _ => ⟨rfl, rfl⟩, observed := le_rfl }
  notice s f h := by
    rw [State.stationSafe_iff] at h ⊢
    exact h.notice f
  dispatch s f _ _ h := by
    rw [State.stationSafe_iff] at h ⊢
    cases f <;> exact h.of_same rfl rfl rfl rfl
  completeScan s _ mark isns dem feed _ _ h := by
    rw [State.stationSafe_iff] at h ⊢
    have hkept := s.keepsGroup_completeScan mark isns dem feed
    exact h.of_same hkept.ctl hkept.leaveAttempts (by rw [hkept.rotation]) hkept.cfg

/-- Settles O57: the rotation with the Line Controller, and the station, are kept by the moves, and so by
every step. -/
theorem everyStepKeepsTheRotationAndTheStationSafe :
    Obligations.EveryStepKeepsTheRotationAndTheStationSafe :=
  ⟨fun _ _ hrot hline hstep => kept_busSafe.step ⟨hrot, hline⟩ hstep,
    fun _ _ h hstep => kept_stationSafe.step h hstep⟩

end Sys2Proof.Machine
end

section
/-! PROOFS. The Shed Unit and the Measurement Unit: every step keeps their bounds (R119, R123, R127,
R135, R143, R144, R147). -/

namespace Sys2Proof.Machine

/-- ShedSafe with MeasureSafe, which the steps keep together. -/
def State.LimitsSafe (s : State) : Prop := s.ShedSafe ∧ s.MeasureSafe

section Moves
variable {s t : State}

/-- A move that leaves the shed orders, the feed and whether the station has a configuration. -/
theorem State.LimitsSafe.of_same (h : s.LimitsSafe) (hshed : t.shed = s.shed)
    (hitem : t.sched.item = s.sched.item) (hburst : t.line.burst = s.line.burst)
    (hcfg : t.cfg = s.cfg) (hrole : t.ownRole = s.ownRole)
    (hfeed : t.meas.feedDet = s.meas.feedDet ∧ t.meas.feed = s.meas.feed)
    (hconf : t.ctl.station.configured = s.ctl.station.configured)
    (hscan : t.ctl.station.working = false → t.meas.scan = .idle)
    (hover : t.ctl.station ≠ .active → t.meas.overdraw = .clear) : t.LimitsSafe := by
  obtain ⟨⟨htable, hlen, hframes, horder⟩, -, -, hclear⟩ := h
  obtain ⟨hdet, hfeed⟩ := hfeed
  unfold State.LimitsSafe State.ShedSafe State.MeasureSafe
  rw [hshed, hitem, hburst, hcfg, hrole, hdet, hfeed, hconf]
  exact ⟨⟨htable, hlen, hframes, horder⟩, hscan, hover, hclear⟩

/-- Where the Measurement Unit does not run, the converter is IDLE (R135). -/
theorem State.LimitsSafe.scan (h : s.LimitsSafe) (hw : s.ctl.station.working = false) :
    s.meas.scan = .idle := h.2.1 hw

/-- Outside ACTIVE the OVERDRAW detector is CLEAR (R143). -/
theorem State.LimitsSafe.overdraw (h : s.LimitsSafe) (hst : s.ctl.station ≠ .active) :
    s.meas.overdraw = .clear := h.2.2.1 hst

/-- The entry a SHED writes has 1 to 63 rounds, or there is none (R119, R120). -/
theorem State.LimitsSafe.writeShed (h : s.LimitsSafe) (m : Nat) {o : ShedOrder}
    (ho : o.rounds ≤ 63) : (s.writeShed m o).LimitsSafe := by
  obtain ⟨⟨htable, hrest⟩, hmeas⟩ := h
  refine ⟨⟨fun x hx y hy => ?_, hrest⟩, hmeas⟩
  have hx : x ∈ (s.shed.table.setIfInBounds m (shedEntryOf o)).toList := hx
  rw [Vector.mem_toList_iff, Vector.mem_iff_getElem] at hx
  obtain ⟨i, hi, rfl⟩ := hx
  rw [Vector.getElem_setIfInBounds] at hy
  split_ifs at hy
  · obtain ⟨rfl, hpos⟩ := rounds_of_shedEntryOf hy
    exact ⟨hpos, ho⟩
  · exact htable _ (Vector.mem_toList_iff.2 (Vector.getElem_mem _)) y hy

/-- A round taken from 1 to 63 rounds leaves 1 to 63 rounds or no entry (R121). -/
theorem rounds_of_countDown {o : Option ShedOrder} (ho : ∀ x ∈ o, 1 ≤ x.rounds ∧ x.rounds ≤ 63) :
    ∀ x ∈ countDown o, 1 ≤ x.rounds ∧ x.rounds ≤ 63 := by
  unfold countDown
  cases o with
  | none => nofun
  | some y =>
    have hy := ho y rfl
    dsimp only
    split_ifs
    · nofun
    · intro x hx
      obtain rfl : { y with rounds := y.rounds - 1 } = x := by simpa using hx
      dsimp only
      omega

/-- The monitor writes an item of the configured length at a monitor only (R123, R125, R165). -/
theorem State.LimitsSafe.writeItem (h : s.LimitsSafe) (hconf : s.ctl.station.configured = true)
    (hrole : s.ownRole = .monitor) {item : Option ShedOrder} (hitem : ∀ o ∈ item, o.rounds ≤ 63)
    (m : MonitorState) (b : Bool) : State.LimitsSafe { s with
      shed := { s.shed with monitor := m }
      sched := { s.sched with item := item, writtenSince := b } } := by
  obtain ⟨⟨htable, -, hframes, horder⟩, hscan, hover, -⟩ := h
  refine ⟨⟨htable, hitem, hframes, horder⟩, hscan, hover, fun hload => ?_⟩
  rcases hload with hload | hload
  · exact absurd (hconf.symm.trans hload) nofun
  · exact absurd (hrole.symm.trans hload) nofun

/-- The order of a configured monitor fits its field (R165). -/
theorem State.LimitsSafe.order (h : s.LimitsSafe) (hconf : s.ctl.station.configured = true)
    (hrole : s.ownRole = .monitor) : ∀ o ∈ some s.cfg.order, o.rounds ≤ 63 := by
  rintro _ ⟨⟩
  exact h.1.2.2.2 hconf hrole

/-! ## The boundary -/

theorem State.LimitsSafe.evaluateIsolation (h : s.LimitsSafe) :
    s.evaluateIsolation.LimitsSafe := by
  by_cases hiso : s.isolates = true
  · rw [State.evaluateIsolation_of_isolates hiso]
    exact h.of_same rfl rfl rfl rfl rfl ⟨rfl, rfl⟩ (by rw [State.station_of_isolates hiso]; rfl)
      nofun (fun _ => rfl)
  · rw [State.evaluateIsolation_eq_of_not_isolates (by simpa using hiso)]
    have hst := State.station_evaluateIsolation (s := s) (by simpa using hiso)
    exact h.of_same rfl rfl rfl rfl rfl ⟨rfl, rfl⟩ (congrArg _ hst)
      (fun hw => h.scan (by rwa [← hst])) (fun hne => h.overdraw (by rwa [← hst]))

theorem State.LimitsSafe.monitorLook (h : s.LimitsSafe) (hconf : s.ctl.station.configured = true) :
    s.monitorLook.LimitsSafe := by
  unfold State.monitorLook
  split_ifs with hmon
  · have hwrite : (s.writeItem (some s.cfg.order)).LimitsSafe :=
      h.writeItem hconf hmon.1 (h.order hconf hmon.1) s.shed.monitor true
    split
    · split_ifs
      · exact hwrite
      · exact h
    · exact hwrite
  · exact h

/-- The countdown and the monitor's look (R121, R125). -/
theorem State.LimitsSafe.shedCountdown (h : s.LimitsSafe)
    (hconf : s.ctl.station.configured = true) : s.shedCountdown.LimitsSafe := by
  obtain ⟨⟨htable, hrest⟩, hmeas⟩ := h
  refine State.LimitsSafe.monitorLook (s := State.formLimit { s with
    shed := { s.shed with table := s.shed.table.map countDown } })
    ⟨⟨fun o ho => ?_, hrest⟩, hmeas⟩ hconf
  have ho : o ∈ (s.shed.table.map countDown).toList := ho
  rw [Vector.mem_toList_iff, Vector.mem_map] at ho
  obtain ⟨x, hx, rfl⟩ := ho
  exact rounds_of_countDown (htable x (Vector.mem_toList_iff.2 hx))

/-- A station becomes a member with OVERDRAW CLEAR (R143). -/
theorem State.LimitsSafe.ownAdmission (h : s.LimitsSafe) (decision : Option Bool) :
    (s.ownAdmission decision).LimitsSafe := by
  unfold State.ownAdmission
  split
  · split_ifs with hst
    · exact h.of_same rfl rfl rfl rfl rfl ⟨rfl, rfl⟩ (by rcases hst with hst | hst <;> rw [hst] <;> rfl)
        nofun (fun _ => rfl)
    · exact h
  · split_ifs with hst
    · exact h.of_same rfl rfl rfl rfl rfl ⟨rfl, rfl⟩ (by rw [hst]; rfl) nofun
        (fun _ => h.overdraw (by rw [hst]; nofun))
    · exact h
  · exact h

theorem State.LimitsSafe.boundaryStages (h : s.LimitsSafe)
    (hconf : s.ctl.station.configured = true) (kind : BoundaryKind) :
    (s.boundaryStages kind).LimitsSafe := by
  have hconf' : s.evaluateIsolation.ctl.station.configured = true := by
    by_cases hiso : s.isolates = true
    · rw [State.evaluateIsolation_of_isolates hiso]
      rfl
    · rwa [State.station_evaluateIsolation (by simpa using hiso)]
  have hcount := h.evaluateIsolation.shedCountdown hconf'
  have htable : (s.evaluateIsolation.shedCountdown.tablePart kind s.isolates).LimitsSafe := by
    unfold State.tablePart
    split_ifs
    · exact hcount
    · unfold State.tableStages
      exact State.LimitsSafe.ownAdmission (by exact hcount) _
  unfold State.boundaryStages
  generalize s.evaluateIsolation.shedCountdown.tablePart kind s.isolates = u at htable
  rw [State.shareStage_eq]
  exact htable

/-- A fault state stops the converter and clears OVERDRAW (R135, R143). -/
theorem State.LimitsSafe.enterFaultState (h : s.LimitsSafe) {st : Station} (code : FaultCode)
    (hwork : s.ctl.station.working = true) (hst : st = .addressConflict ∨ st = .groupMismatch) :
    (s.enterFaultState st code).LimitsSafe :=
  h.of_same rfl rfl rfl rfl rfl ⟨rfl, rfl⟩
    ((by rcases hst with rfl | rfl <;> rfl : _ = true).trans (configured_of_working hwork).symm)
    (fun _ => rfl) (fun _ => rfl)

/-- A working station outside ACTIVE enters another working state outside ACTIVE. -/
theorem State.LimitsSafe.enterWorking (h : s.LimitsSafe) (hwork : s.ctl.station.working = true)
    (hst : s.ctl.station ≠ .active) (hwork' : t.ctl.station.working = true) (hshed : t.shed = s.shed)
    (hitem : t.sched.item = s.sched.item) (hline : t.line = s.line) (hcfg : t.cfg = s.cfg)
    (hrole : t.ownRole = s.ownRole) (hmeas : t.meas = s.meas) : t.LimitsSafe :=
  h.of_same hshed hitem (by rw [hline]) hcfg hrole ⟨by rw [hmeas], by rw [hmeas]⟩
    ((configured_of_working hwork').trans (configured_of_working hwork).symm)
    (fun hn => absurd (hwork'.symm.trans hn) nofun) (fun _ => by rw [hmeas, h.overdraw hst])

/-- The changes of state as a boundary completes (R101, R102, R110). -/
theorem State.LimitsSafe.completeBoundary (h : s.LimitsSafe) {began : Station}
    (hbegan : began = .offline ∨ began = .listen ∨ began = .isolated → s.ctl.station = began) :
    (s.completeBoundary began).LimitsSafe := by
  unfold State.completeBoundary State.endListen State.endIsolated
  split
  · exact h
  · have hst := hbegan (by simp)
    dsimp only
    split_ifs
    · exact State.LimitsSafe.enterFaultState (s := { s with ctl := { s.ctl with
        observed := min (s.ctl.observed + 1) 2 } }) h _ (by dsimp only; rw [hst]; rfl) (.inr rfl)
    · exact h.enterWorking (by rw [hst]; rfl) (by simp [hst]) rfl rfl rfl rfl rfl rfl rfl
    · exact h
  · have hst := hbegan (by simp)
    dsimp only
    split_ifs <;>
      exact h.enterWorking (by rw [hst]; rfl) (by simp [hst]) rfl rfl rfl rfl rfl rfl rfl
  · exact h

theorem State.LimitsSafe.boundary (h : s.LimitsSafe) (kind : BoundaryKind) :
    (s.boundary kind).LimitsSafe := by
  have hcount : (s.countBoundary kind).LimitsSafe := by cases kind <;> exact h
  unfold State.boundary
  split_ifs with hwork
  · have hwork : (s.countBoundary kind).ctl.station.working = true := by cases kind <;> exact hwork
    generalize s.countBoundary kind = u at hcount hwork
    rw [State.boundaryWork_eq]
    refine (hcount.boundaryStages (configured_of_working hwork) kind).completeBoundary (fun hst => ?_)
    rw [State.boundaryStages_ctl_of_other] <;> rcases hst with hst | hst | hst <;> rw [hst] <;> nofun
  · exact hcount

/-! ## The scan -/

/-- The OVERDRAW detector takes a sample in ACTIVE only (R143). -/
theorem State.LimitsSafe.judgeOverdraw (h : s.LimitsSafe) : s.judgeOverdraw.LimitsSafe := by
  unfold State.judgeOverdraw
  by_cases hst : s.ctl.station = .active
  · rw [if_pos hst]
    have hjudged (d : Detector) :
        State.LimitsSafe { s with meas := { s.meas with overdraw := d } } := by
      obtain ⟨hshed, hscan, -, hclear⟩ := h
      exact ⟨hshed, hscan, fun hne => absurd hst hne, hclear⟩
    dsimp only
    split_ifs
    · exact hjudged _
    · exact hjudged _
  · rw [if_neg hst]
    exact h

/-- A trip or a clear of the FEED detector acts at a configured monitor (R123, R125, R126). -/
theorem State.LimitsSafe.judgeFeed (h : s.LimitsSafe) (hconf : s.ctl.station.configured = true) :
    s.judgeFeed.LimitsSafe := by
  unfold State.judgeFeed
  split_ifs with hrole
  · have hjudged : State.LimitsSafe { s with meas := { s.meas with
        feedDet := s.meas.feedDet.judge s.cfg.persistence (feedClass s.cfg s.meas.feed) } } := by
      obtain ⟨hshed, hscan, hover, -⟩ := h
      refine ⟨hshed, hscan, hover, fun hload => ?_⟩
      rcases hload with hload | hload
      · exact absurd (hconf.symm.trans hload) nofun
      · exact absurd (hrole.symm.trans hload) nofun
    dsimp only
    split_ifs
    · unfold State.feedTrip
      split_ifs
      · exact hjudged.writeItem hconf hrole (h.order hconf hrole) .shedding true
      · exact hjudged
    · unfold State.feedClear
      dsimp only
      split_ifs
      · exact hjudged.writeItem hconf hrole (by simp) .calm true
      · exact hjudged.writeItem hconf hrole (by simp) .calm s.sched.writtenSince
      · exact hjudged
    · exact hjudged
  · exact h

/-- A completed scan (R138 to R145). -/
theorem State.LimitsSafe.completeScan (h : s.LimitsSafe) (hwork : s.ctl.station.working = true)
    (mark : Bool) (isns dem feed : BitVec 10) :
    (s.completeScan mark isns dem feed).LimitsSafe := by
  have hconf := configured_of_working hwork
  have hvalues : (s.formValues isns dem feed).LimitsSafe := by
    obtain ⟨hshed, -, hover, hclear⟩ := h
    refine ⟨hshed, fun _ => rfl, hover, fun hload => ?_⟩
    have hnot : ¬ s.ownRole = .monitor := by
      rcases hload with hload | hload
      · exact absurd (hconf.symm.trans hload) nofun
      · rw [show s.ownRole = .load from hload]
        nofun
    rw [State.formValues_meas, if_neg hnot]
    exact hclear hload
  have hover := hvalues.judgeOverdraw
  have hconf' : (s.formValues isns dem feed).judgeOverdraw.ctl.station.configured = true := by
    rwa [(s.formValues isns dem feed).keepsGroup_judgeOverdraw.ctl]
  have hfeed := hover.judgeFeed hconf'
  unfold State.completeScan
  clear hover hvalues
  generalize (s.formValues isns dem feed).judgeOverdraw.judgeFeed = u at hfeed
  obtain ⟨n, hn | ⟨-, hn⟩⟩ := u.stageAndLimiter_cases mark
  · rw [hn]
    exact hfeed
  · rw [hn]
    exact hfeed

end Moves

/-- A burst carries the item and the frame of its state (R127). -/
theorem overlongShed_composeBurst {s : State} (hitem : ∀ x ∈ s.sched.item, x.rounds ≤ 63) :
    ∀ f ∈ s.composeBurst, f.overlongShed = false := by
  have hstate : ∀ f ∈ s.stateFrame, f.overlongShed = false := by
    unfold State.stateFrame
    cases s.ctl.station <;> simp [State.ownClaim, Frame.overlongShed]
  unfold State.composeBurst
  cases hframe : s.stateFrame with
  | none => nofun
  | some f =>
    have hf := hstate f hframe
    cases horder : s.sched.item with
    | none => simpa using hf
    | some o =>
      have ho : Frame.overlongShed (.shed s.ownAddr o s.ownDigest) = false := by
        simpa [Frame.overlongShed] using hitem o horder
      simp [hf, ho]

/-- A configuration of a monitor has a shed length that fits its field (R165). -/
theorem shedLen_le_of_checkBlock {block : List Byte} {p : Straps} (h : checkBlock block p = none)
    (hrole : p.role = .monitor) : (Settings.ofBlock block).shedLen ≤ 63 := by
  unfold checkBlock at h
  split_ifs at h with _ _ hvalues
  simp only [valuesInRange, hrole, Bool.and_eq_true, monitorInRange, Bool.or_eq_true,
    decide_eq_true_eq] at hvalues
  simp_all

/-- Every move keeps the Shed Unit and the Measurement Unit. -/
theorem kept_limitsSafe : Kept State.LimitsSafe where
  reset _ _ := ⟨⟨by simp [State.resetBlocks, State.resetWith, ShedUnit.reset], nofun, nofun, nofun⟩,
    fun _ => rfl, fun _ => rfl, fun _ => ⟨rfl, rfl, rfl, rfl⟩⟩
  startConfig s addr role hst h := by
    obtain ⟨⟨htable, hitem, hframes, -⟩, hscan, hover, hclear⟩ := h
    exact ⟨⟨htable, hitem, hframes, nofun⟩, fun _ => hscan (by rw [hst]; rfl),
      fun _ => hover (by rw [hst]; nofun), fun _ => hclear (.inl (by rw [hst]; rfl))⟩
  configFaulted s l code hatt _ _ _ _ h := by
    have hst := State.station_of_attempting hatt
    obtain ⟨⟨htable, hitem, hframes, -⟩, hscan, hover, hclear⟩ := h
    exact ⟨⟨htable, hitem, hframes, nofun⟩, fun _ => hscan (by rw [hst]; rfl),
      fun _ => hover (by rw [hst]; nofun), fun _ => hclear (.inl (by rw [hst]; rfl))⟩
  deliver s block hatt _ hcheck h := by
    have hst := State.station_of_attempting hatt
    obtain ⟨⟨htable, hitem, hframes, -⟩, -, hover, hclear⟩ := h
    have hdelivered := (s.takeImage block).delivered block
    have hwork : ((s.takeImage block).deliver block).ctl.station.working = true := by
      rcases (s.takeImage block).station_deliver block with hst | hst <;> rw [hst] <;> rfl
    have hrole : ((s.takeImage block).deliver block).ownRole = s.ownRole := by
      unfold State.ownRole
      rw [hdelivered.loader]
      rfl
    unfold State.LimitsSafe State.ShedSafe State.MeasureSafe
    rw [hdelivered.shed, hdelivered.sched, hdelivered.line, hdelivered.cfg, hdelivered.meas, hrole]
    exact ⟨⟨htable, hitem, hframes, fun _ hmonitor => shedLen_le_of_checkBlock hcheck hmonitor⟩,
      fun hn => absurd (hwork.symm.trans hn) nofun, fun _ => hover (by rw [hst]; nofun),
      fun _ => hclear (.inl (by rw [hst]; rfl))⟩
  enterJoining _ hst _ _ h := h.enterWorking (by rcases hst with hst | hst <;> rw [hst] <;> rfl)
    (by rcases hst with hst | hst <;> rw [hst] <;> nofun) rfl rfl rfl rfl rfl rfl rfl
  enterListen _ hst h :=
    h.enterWorking (by rw [hst]; rfl) (by rw [hst]; nofun) rfl rfl rfl rfl rfl rfl rfl
  enterOffline _ hst h :=
    h.enterWorking (by rw [hst]; rfl) (by rw [hst]; nofun) rfl rfl rfl rfl rfl rfl rfl
  withdraw _ hst h :=
    h.enterWorking (by rw [hst]; rfl) (by rw [hst]; nofun) rfl rfl rfl rfl rfl rfl rfl
  enterLeaving _ hst h := h.of_same rfl rfl rfl rfl rfl ⟨rfl, rfl⟩
    (configured_of_working (working_of_collisionMatters hst)).symm nofun (fun _ => rfl)
  endLeaving s n hst _ h := by
    unfold State.endLeaving
    split_ifs <;>
      exact h.enterWorking (by rw [hst]; rfl) (by rw [hst]; nofun) rfl rfl rfl rfl rfl rfl rfl
  enterFaultState _ _ code hwork hst _ h := h.enterFaultState code hwork hst
  dropBurst _ h := by
    obtain ⟨⟨htable, hitem, -, horder⟩, hmeas⟩ := h
    exact ⟨⟨htable, hitem, nofun, horder⟩, hmeas⟩
  frameEnded s f rest _ hburst h := by
    obtain ⟨⟨htable, hitem, hframes, horder⟩, hmeas⟩ := h
    exact ⟨⟨htable, hitem, fun g hg => hframes g (by rw [hburst]; exact List.mem_cons_of_mem f hg),
      horder⟩, hmeas⟩
  shedSent s a o d hmem h := by
    obtain ⟨⟨htable, hitem, hframes, horder⟩, hscan, hover, hclear⟩ := h
    have hrounds : o.rounds ≤ 63 := by simpa [Frame.overlongShed] using hframes _ hmem
    by_cases hwork : s.ctl.station.working = true
    · rw [State.shedSent_of_working hwork]
      refine State.LimitsSafe.writeShed (s := { s with
        stats := s.stats.bump .shedsSent
        sched := { s.sched with item := if s.sched.writtenSince then s.sched.item else none } })
        ⟨⟨htable, ?_, hframes, horder⟩, hscan, hover, ?_⟩ _ hrounds
      · dsimp only
        split_ifs
        · exact hitem
        · nofun
      · intro hload
        obtain ⟨hdet, hfeed, hmonitor, hnone⟩ := hclear hload
        refine ⟨hdet, hfeed, hmonitor, ?_⟩
        dsimp only
        rw [hnone, ite_self]
    · rw [State.shedSent_of_not_working hwork]
      exact ⟨⟨htable, hitem, hframes, horder⟩, hscan, hover, hclear⟩
  openOwnSlot s _ h := by
    unfold State.openOwnSlot
    by_cases htransmit : s.ctl.station.transmitting = true
    · rw [if_pos htransmit]
      obtain ⟨⟨htable, hitem, -, horder⟩, hmeas⟩ := h
      exact ⟨⟨htable, hitem, overlongShed_composeBurst hitem, horder⟩, hmeas⟩
    · rw [if_neg htransmit]
      exact h
  boundary _ kind _ h := h.boundary kind
  dispatch s f _ hfits h := by
    cases f with
    | shed a o d =>
      have hcounted : (s.count .shedsAccepted).LimitsSafe := h
      exact hcounted.writeShed a (by simpa [Frame.overlongShed] using hfits)
    | _ => exact h
  beginScan s mark hwork _ _ h := by
    obtain ⟨hshed, -, hmeas⟩ := h
    exact ⟨hshed, fun hn => absurd (hwork.symm.trans hn) nofun, hmeas⟩
  completeScan _ _ mark isns dem feed hwork _ h := h.completeScan hwork mark isns dem feed

/-- Settles O58: the two together are kept by the moves, and so by every step. -/
theorem everyStepKeepsSheddingAndMeasurementSafe :
    Obligations.EveryStepKeepsSheddingAndMeasurementSafe :=
  fun _ _ hshed hmeas hstep => kept_limitsSafe.step ⟨hshed, hmeas⟩ hstep

end Sys2Proof.Machine
end

section
/-! PROOFS. The state after reset has every invariant (R158). -/

namespace Sys2Proof.Machine

/-- The state after reset is what a reset of the blocks leaves, so it has what every move keeps. -/
theorem Kept.of_reset {P : State → Prop} (h : Kept P) : P State.reset :=
  h.reset State.reset State.reset.pins

/-- Settles O60, block by block. -/
theorem resetStateIsSafe : Obligations.ResetStateIsSafe := by
  obtain ⟨hrotation, hline⟩ := kept_busSafe.of_reset
  obtain ⟨hshed, hmeasure⟩ := kept_limitsSafe.of_reset
  exact ⟨kept_shareSafe.of_reset, kept_driveSafe.of_reset, kept_tableSafe.of_reset, hrotation,
    kept_stationSafe.of_reset, hline, kept_historySafe.of_reset, hshed, kept_loaderSafe.of_reset,
    kept_portSafe.of_reset, hmeasure, kept_attentionSafe.of_reset⟩

end Sys2Proof.Machine
end

section
/-! PROOFS. Reset, the start of CONFIG, the attempts, EN, the waveform, the detectors and the port's
transactions: what one command does (R96 to R99, R141, R150, R151, R161 to R168, R170 to R172). -/

namespace Sys2Proof.Machine

/-! ## Queue and reset -/

/-- Settles O1: with a command at the front the step runs it, and with none it is one SCK period at the
port (R170). -/
theorem stepRunsTheFrontCommand : Obligations.StepRunsTheFrontCommand := by
  intro c rest s
  refine ⟨rfl, fun hidle => ?_, fun hphase => ?_⟩
  · change Host.Outcome.next (State.serialClock { s with pending := [] }) = _
    rw [State.serialClock_of_none { s with pending := [] } hidle]
  · change Host.Outcome.next (State.serialClock { s with pending := [] }) = _
    simp [State.serialClock, Option.isSome_iff_ne_none.2 hphase]

/-- Settles O4: the reset values, block by block. -/
theorem resetValuesOfEveryBlock : Obligations.ResetValuesOfEveryBlock :=
  ⟨rfl, rfl, rfl, rfl, rfl, rfl, rfl, rfl, rfl, rfl, rfl, rfl, rfl, rfl, rfl, rfl, rfl⟩

/-- Settles O5: both reset events are the reset of the blocks, with the pin that rose or fell. -/
theorem resetEventsPutEveryBlockInReset : Obligations.ResetEventsPutEveryBlockInReset :=
  fun _ => ⟨rfl, rfl⟩

/-! ## The start of CONFIG and the attempts -/

/-- Settles O6: RESETTING ends at the event that finds RESET_N high and power up (R97). -/
theorem configBeginsWhenResetIsOver : Obligations.ConfigBeginsWhenResetIsOver := by
  intro s addr role hst
  refine ⟨fun hlow hup => ?_, fun hcoming hhigh => ?_, fun hlow hcoming => ⟨?_, ?_⟩⟩
  · change execResetNRise addr role s = _
    simp [execResetNRise, hlow, hup, hst, State.startConfig, Loader.start, enFilterFor]
  · change execPowerOnResetEnd addr role s = _
    simp [execPowerOnResetEnd, hcoming, hhigh, hst, State.startConfig, Loader.start, enFilterFor]
  · change execResetNRise addr role s = _
    simp [execResetNRise, hlow, hcoming]
  · change execPowerOnResetEnd addr role s = _
    simp [execPowerOnResetEnd, hcoming, hlow]

/-- A failed attempt waits for its next one, or is the third and ends CONFIG (R163). -/
theorem State.attemptFailure_of_attempting {s : State} (h : s.attempting = true) (stop : Bool) :
    s.attemptFailure stop =
      if s.loader.attempts + 1 < 3 then { s with loader := { s.loader with
        load := .waiting, attempts := s.loader.attempts + 1, i2c := .ended stop } }
      else { s with
        loader := { s.loader with
          load := .faulted, attempts := s.loader.attempts + 1, i2c := .ended stop }
        ctl := { s.ctl with station := .configFault, faultCode := .noMemory } } := if_pos h

/-- Settles O7: the five failures are one, with a STOP or without (R163). -/
theorem failedAttemptsWaitThenGiveUp : Obligations.FailedAttemptsWaitThenGiveUp := by
  intro s c stop hst
  refine ⟨fun hc hload => ?_, fun hload => ?_⟩
  · have hatt : s.attempting = true := by simp [State.attempting, hst, hload]
    have hexec : exec c s = .next (s.attemptFailure stop) := by
      simp only [List.mem_cons, Prod.mk.injEq, List.not_mem_nil, or_false] at hc
      rcases hc with ⟨rfl, rfl⟩ | ⟨rfl, rfl⟩ | ⟨rfl, rfl⟩ | ⟨rfl, rfl⟩ | ⟨rfl, rfl⟩ <;> rfl
    rw [hexec, State.attemptFailure_of_attempting hatt]
    refine ⟨fun hfew => by rw [if_pos hfew], fun hthird => ?_⟩
    rw [if_neg (by omega), hthird]
  · change execRetryGapEnd s = _
    simp [execRetryGapEnd, hst, hload]

/-- A completed read in an attempt that fails a check ends CONFIG with the check's code (R164, R168). -/
theorem exec_configReadComplete_of_fault {s : State} {block : List Byte} {code : FaultCode}
    (hlen : block.length = 36) (hatt : s.attempting = true)
    (hcheck : checkBlock block s.strapsNow = some code) :
    exec (.configReadComplete block) s = .next ((s.takeImage block).endConfigFaulted code) := by
  change execConfigReadComplete block s = _
  unfold execConfigReadComplete
  rw [if_pos (show block.length = blockLength from hlen), if_pos hatt, hcheck]

/-- A completed read in an attempt that passes the checks is delivered (R164, R167). -/
theorem exec_configReadComplete_of_valid {s : State} {block : List Byte}
    (hlen : block.length = 36) (hatt : s.attempting = true)
    (hcheck : checkBlock block s.strapsNow = none) :
    exec (.configReadComplete block) s = .next ((s.takeImage block).deliver block) := by
  change execConfigReadComplete block s = _
  unfold execConfigReadComplete
  rw [if_pos (show block.length = blockLength from hlen), if_pos hatt, hcheck]

/-- Settles O10: the first check that fails gives the code (R164 to R168). -/
theorem firstFailingBlockCheckGivesTheFaultCode :
    Obligations.FirstFailingBlockCheckGivesTheFaultCode := by
  intro s block code hlen hst hload goodCrc goodVersion hfirst
  have hcheck : checkBlock block s.strapsNow = some code := by
    have hcrc : (crc (block.take 34)).toNat = blockWord block 35 ↔ goodCrc := Iff.rfl
    have hversion : blockByte block 1 = 1 ↔ goodVersion := Iff.rfl
    unfold checkBlock
    rcases hfirst with ⟨rfl, hbad⟩ | ⟨rfl, hgood, hbad⟩ | ⟨rfl, hgood, hgood', hbad⟩
    · rw [if_pos (mt hcrc.1 hbad)]
    · rw [if_neg (not_not.2 (hcrc.2 hgood)), if_pos (mt hversion.1 hbad)]
    · rw [if_neg (not_not.2 (hcrc.2 hgood)), if_neg (not_not.2 (hversion.2 hgood'))]
      exact if_neg (ne_true_of_eq_false hbad)
  rw [exec_configReadComplete_of_fault hlen (by simp [State.attempting, hst, hload]) hcheck]
  rfl

/-! ## EN -/

/-- Settles O12: an edge of EN begins or ends its filter (R98). -/
theorem enLevelChangeStartsOrEndsTheFilter : Obligations.EnLevelChangeStartsOrEndsTheFilter :=
  fun _ => rfl

/-- Outside RESETTING a pin level against the settled one can settle (R98). -/
theorem exec_enSettlesHigh {s : State} (hst : s.ctl.station ≠ .resetting) (hpin : s.pins.en = true)
    (hset : s.ctl.settled = false) :
    exec .enSettlesHigh s = .next (s.settle true).settledHigh := by
  change execEnSettlesHigh s = _
  simp [execEnSettlesHigh, State.canSettle, hst, hpin, hset]

theorem State.settledHigh_of_offline {s : State} (h : s.ctl.station = .offline) :
    s.settledHigh = if s.rotation.synced ∧ s.ctl.observed = 2 then s.enterJoining
      else s.enterListen := by
  unfold State.settledHigh
  rw [h]

theorem State.settledHigh_of_ne_offline {s : State} (h : s.ctl.station ≠ .offline) :
    s.settledHigh = s := by
  unfold State.settledHigh
  split
  · contradiction
  · rfl

/-- Settles O13: EN settling high acts in OFFLINE, by what has been observed (R99, R102). -/
theorem enSettlingHighActsInOffline : Obligations.EnSettlingHighActsInOffline := by
  intro s hst hpin hset
  dsimp only
  rw [exec_enSettlesHigh hst hpin hset]
  refine ⟨fun hoff hsync hobs => ?_, fun hoff hnot => ?_, fun hoff => ?_⟩
  · rw [State.settledHigh_of_offline (s := s.settle true) hoff, if_pos ⟨hsync, hobs⟩]
    rfl
  · rw [State.settledHigh_of_offline (s := s.settle true) hoff, if_neg ?_]
    · rfl
    · rintro ⟨hsync, hobs⟩
      rcases hnot with hnot | hnot
      · exact absurd (hnot.symm.trans hsync) nofun
      · exact hnot hobs
  · rw [State.settledHigh_of_ne_offline (s := s.settle true) hoff]
    rfl

/-! ## Waveform and detectors -/

/-- A trigger that finds the converter IDLE starts a scan (R136). -/
theorem State.trigger_of_idle {s : State} (h : s.meas.scan = .idle) (mark : Bool) :
    s.trigger mark = { s with meas := { s.meas with scan := .running .isns mark } } := by
  obtain ⟨-, ht⟩ | ⟨hn, -⟩ := s.trigger_cases mark
  · exact ht
  · exact absurd h hn

/-- A trigger that finds a scan running is dropped and counted (R137). -/
theorem State.trigger_of_running {s : State} (h : s.meas.scan ≠ .idle) (mark : Bool) :
    s.trigger mark = s.count .triggerOverruns := by
  obtain ⟨hi, -⟩ | ⟨-, ht⟩ := s.trigger_cases mark
  · exact absurd hi h
  · exact ht

/-- Settles O39: the duty of a period is the buffer at its start (R150, R151), with the trigger of a
working Measurement Unit (R136, R137, R147). -/
theorem driveFollowsTheDutyOfEachPeriod : Obligations.DriveFollowsTheDutyOfEachPeriod := by
  intro s hrun
  have hperiod : exec .periodStart s = .next (
      if s.ctl.station.working then State.trigger { s with drive := s.drive.nextPeriod }
        s.drive.driveOffMark
      else { s with drive := s.drive.nextPeriod }) := by
    change execPeriodStart s = _
    simp [execPeriodStart, State.periodRunning, hrun]
  have hmark : s.drive.driveOffMark = decide (s.drive.driven = false ∧ s.drive.buffer = 0) := by
    rw [Bool.eq_iff_iff]
    simp [Drive.driveOffMark]
  refine ⟨fun hwork hidle => ?_, fun hwork hscan => ?_, fun hwork => ?_, fun hpos hlt => ?_⟩
  · rw [hperiod, if_pos hwork, State.trigger_of_idle (s := { s with drive := s.drive.nextPeriod }) hidle, hmark]
    rfl
  · rw [hperiod, if_pos hwork, State.trigger_of_running (s := { s with drive := s.drive.nextPeriod }) hscan]
    rfl
  · rw [hperiod, if_neg (by simp [hwork])]
    rfl
  · change execDutyEnd s = _
    simp [execDutyEnd, State.periodRunning, hrun, hpos, hlt]

/-- Settles O41: a sample of a class makes the run one longer or begins it, and a run of the persistence
acts and is emptied (R141). -/
theorem detectorsActOnWholeRuns : Obligations.DetectorsActOnWholeRuns := by
  intro d persistence k n
  have hrun : extendRun d.run k = ⟨k, n⟩ := by
    unfold extendRun
    cases hr : d.run with
    | none => simp [n, hr]
    | some r => by_cases hk : r.cls = k <;> simp [n, hr, hk]
  refine ⟨rfl, fun hshort => ?_, fun hwhole => ?_⟩
  · simp [Detector.judge, Detector.completes, hrun, Nat.not_le.2 hshort]
  · cases k <;> simp [Detector.judge, Detector.completes, hrun, hwhole]

/-! ## The diagnostic port -/

/-- Settles O46: the fall of SCS_N begins a transaction and its rise ends it (R170, R171, R173). -/
theorem selectLineBeginsAndEndsTransactions : Obligations.SelectLineBeginsAndEndsTransactions := by
  intro s
  refine ⟨fun hhigh hst => ?_, fun hhigh hst => ?_, fun hlow => ?_⟩
  · change execScsNFall s = _
    unfold execScsNFall
    rw [if_pos hhigh]
    dsimp only
    rw [if_neg hst]
    rfl
  · change execScsNFall s = _
    simp [execScsNFall, hhigh, hst]
  · change execScsNRise s = _
    unfold execScsNRise
    rw [if_neg (by simp [hlow])]
    dsimp only
    have hunread : s.port.readUnfinished = true ↔
        s.port.phase = some .window ∨ s.port.phase = some .offset := by simp [Port.readUnfinished]
    by_cases hread : s.port.readUnfinished = true
    · rw [if_pos hread, if_pos (hunread.1 hread), if_pos (hunread.1 hread)]
      rfl
    · rw [if_neg hread, if_neg (mt hunread.2 hread), if_neg (mt hunread.2 hread)]

/-- Settles O48: the eighth bit of a command byte acts (R172, R178, R179). -/
theorem commandByteActsAtItsEighthBit : Obligations.CommandByteActsAtItsEighthBit := by
  intro s b hphase
  have hawaits : s.awaitsCommand = true := by simp [State.awaitsCommand, hphase]
  refine ⟨?_, ?_, ?_, ?_, ?_, fun hcode => ?_⟩
  · unfold commandOfByte
    split <;> simp_all
  · exact congrArg Host.Outcome.next (if_pos hawaits)
  · exact congrArg Host.Outcome.next (if_pos hawaits)
  · exact congrArg Host.Outcome.next (if_pos hawaits)
  · exact congrArg Host.Outcome.next (if_pos hawaits)
  · change execRefusedCommand b s = _
    have hno : isCommandByte b = false := by
      simp [isCommandByte]
      omega
    simp [execRefusedCommand, hno, hawaits, Port.next, Port.record]

end Sys2Proof.Machine
end

section
/-! PROOFS. What a scan completion comes to: the values, the detectors, the FEED detector at the Shed Unit
and the Draw Limiter (R124, R126, R138 to R145, R153, R154, R157). -/

namespace Sys2Proof.Machine

/-! ## Detectors -/

/-- A sample trips a detector exactly where it changes from CLEAR to TRIPPED (R144). -/
theorem Detector.trips_iff (d : Detector) (n : Nat) (cls : Option SampleClass) :
    d.trips n cls = true ↔ d.tripped = false ∧ (d.judge n cls).tripped = true := by
  unfold Detector.trips Detector.judge
  cases htrip : d.tripped <;> rcases d.completes n cls with - | - | - <;> simp

/-- A sample clears a detector exactly where it changes from TRIPPED to CLEAR (R144). -/
theorem Detector.clears_iff (d : Detector) (n : Nat) (cls : Option SampleClass) :
    d.clears n cls = true ↔ d.tripped = true ∧ (d.judge n cls).tripped = false := by
  unfold Detector.clears Detector.judge
  cases htrip : d.tripped <;> rcases d.completes n cls with - | - | - <;> simp

/-- A sample of excess completes a run of the persistence, an earlier run with it or alone (R141). -/
theorem Detector.excessCompletes_iff (d : Detector) (n margin limit draw : Nat) :
    d.excessCompletes n (overdrawClass margin limit draw) = true ↔
      limit + margin < draw ∧ (n ≤ 1 ∨ ∃ r ∈ d.run, r.cls = .excess ∧ n ≤ r.length + 1) := by
  unfold Detector.excessCompletes Detector.completes overdrawClass
  by_cases hover : limit + margin < draw
  · have hrun : n ≤ (extendRun d.run .excess).length
        ↔ n ≤ 1 ∨ ∃ r ∈ d.run, r.cls = .excess ∧ n ≤ r.length + 1 := by
      unfold extendRun
      cases d.run with
      | none => simp
      | some r =>
        by_cases hcls : r.cls = .excess
        · simp [hcls]
          omega
        · simp [hcls]
    rw [← hrun]
    simp [hover]
  · by_cases hlong : n ≤ (extendRun d.run .normal).length <;> simp [hover, hlong]

/-- A completed run of excess leaves the detector TRIPPED with an empty run (R141, R142). -/
theorem Detector.judge_of_excessCompletes {d : Detector} {n : Nat} {cls : Option SampleClass}
    (h : d.excessCompletes n cls = true) : d.judge n cls = ⟨true, none⟩ := by
  have hdone : d.completes n cls = some .excess := by simpa [Detector.excessCompletes] using h
  unfold Detector.judge
  rw [hdone]

/-! ## The drive, the counters and the Shed Unit through a completion -/

/-- A trip of OVERDRAW cuts the drive and counts; nothing else of the drive or counters moves (R142,
R143). -/
theorem State.judgeOverdraw_drive (s : State) :
    (s.judgeOverdraw.drive, s.judgeOverdraw.stats) =
      if s.ctl.station = .active ∧ s.meas.overdraw.excessCompletes s.cfg.persistence
          (overdrawClass s.cfg.margin s.share.limit s.meas.draw) = true then
        (s.drive.cut, s.stats.bump .overdrawTrips)
      else (s.drive, s.stats) := by
  unfold State.judgeOverdraw
  by_cases hst : s.ctl.station = .active
  · rw [if_pos hst]
    dsimp only
    split_ifs with htrip hboth hboth
    · rfl
    · exact absurd ⟨hst, htrip⟩ hboth
    · exact absurd hboth.2 htrip
    · rfl
  · rw [if_neg hst, if_neg (fun h => hst h.1)]

/-- OVERDRAW leaves the Shed Unit and the Transmit Scheduler. -/
theorem State.judgeOverdraw_shed (s : State) :
    s.judgeOverdraw.shed = s.shed ∧ s.judgeOverdraw.sched = s.sched := by
  unfold State.judgeOverdraw
  dsimp only
  split_ifs <;> exact ⟨rfl, rfl⟩

/-- A trip of FEED begins shedding with the order in the item, and a clear ends it with a release or an
empty item (R124, R126). -/
theorem State.judgeFeed_eq (s : State) (h : s.ownRole = .monitor) : s.judgeFeed =
    let t := { s with meas := { s.meas with
      feedDet := s.meas.feedDet.judge s.cfg.persistence (feedClass s.cfg s.meas.feed) } }
    if s.meas.feedDet.trips s.cfg.persistence (feedClass s.cfg s.meas.feed) then t.feedTrip
    else if s.meas.feedDet.clears s.cfg.persistence (feedClass s.cfg s.meas.feed) then t.feedClear
    else t := if_pos h

theorem State.judgeFeed_of_load {s : State} (h : s.ownRole ≠ .monitor) : s.judgeFeed = s := if_neg h

/-- FEED leaves the drive and the counters. -/
theorem State.judgeFeed_drive (s : State) :
    s.judgeFeed.drive = s.drive ∧ s.judgeFeed.stats = s.stats := by
  unfold State.judgeFeed State.feedTrip State.feedClear
  dsimp only
  split_ifs <;> exact ⟨rfl, rfl⟩

/-- STAGE and the Draw Limiter move STAGE, the buffer and the free order only (R145, R153). -/
theorem State.stageAndLimiter_eq (s : State) (mark : Bool) : s.stageAndLimiter mark = { s with
    meas := (s.stageAndLimiter mark).meas
    drive := { s.drive with buffer := (s.stageAndLimiter mark).drive.buffer }
    freeDraws := (s.stageAndLimiter mark).freeDraws } := by
  obtain ⟨n, h | ⟨-, h⟩⟩ := s.stageAndLimiter_cases mark
  · rw [h]; rfl
  · rw [h]; rfl

/-- The buffer after a completion: 0 under a limit of 0 or under STAGE_FAULT, and else the step, which a
clearing of STAGE_FAULT may come before or after (R154, R157). -/
theorem State.stageAndLimiter_buffer (s : State) (mark : Bool) :
    let stage := (s.stageAndLimiter mark).meas.stage.tripped
    let buffer := (s.stageAndLimiter mark).drive.buffer
    let stepped := steppedBuffer s.cfg s.share.limit s.meas.reported s.meas.draw s.drive.buffer
    (s.share.limit = 0 ∨ stage = true → buffer = 0)
      ∧ (0 < s.share.limit → stage = false →
        (s.meas.stage.tripped = false → buffer = stepped)
        ∧ (s.meas.stage.tripped = true → buffer = stepped ∨ buffer = 0)) := by
  obtain ⟨n, h | ⟨hclears, h⟩⟩ := s.stageAndLimiter_cases mark
  · rw [h]
    refine ⟨fun hheld => if_pos hheld, fun hlimit hstage => ?_⟩
    have hstep : (State.limiterStep (State.judgeStage { s with freeDraws := n } mark)).drive.buffer
        = steppedBuffer s.cfg s.share.limit s.meas.reported s.meas.draw s.drive.buffer :=
      if_neg (not_or.2 ⟨Nat.pos_iff_ne_zero.1 hlimit, ne_true_of_eq_false hstage⟩)
    exact ⟨fun _ => hstep, fun _ => .inl hstep⟩
  · rw [h]
    have htripped : s.meas.stage.tripped = true := ((Detector.clears_iff _ _ _).1 hclears).1
    have hzero : (State.judgeStage (State.limiterStep { s with freeDraws := n }) mark).drive.buffer
        = 0 := if_pos (.inr htripped)
    exact ⟨fun _ => hzero, fun _ _ => ⟨fun hn => absurd (htripped.symm.trans hn) nofun,
      fun _ => .inr hzero⟩⟩

/-! ## The completion -/

/-- A working Measurement Unit takes the completion of the scan that runs (R135, R138). -/
theorem exec_scanCompletion {s : State} {input : ScanInput} {mark : Bool}
    (hwork : s.ctl.station.working = true) (hscan : s.meas.scan = .running input mark)
    (isns dem feed : BitVec 10) :
    exec (.scanCompletion isns dem feed) s = .next (s.completeScan mark isns dem feed) := by
  change execScanCompletion isns dem feed s = _
  unfold execScanCompletion
  rw [if_pos hwork, hscan]

/-- The state in which STAGE and the Draw Limiter take the completion. -/
def State.judgedScan (s : State) (isns dem feed : BitVec 10) : State :=
  (s.formValues isns dem feed).judgeOverdraw.judgeFeed

section Completion
variable (s : State) (mark : Bool) (isns dem feed : BitVec 10)

theorem State.completeScan_eq :
    s.completeScan mark isns dem feed = (s.judgedScan isns dem feed).stageAndLimiter mark := rfl

theorem State.keepsGroup_judgedScan : s.KeepsGroup (s.judgedScan isns dem feed) :=
  (s.keepsGroup_formValues isns dem feed).trans ((State.keepsGroup_judgeOverdraw _).trans
    (State.keepsGroup_judgeFeed _))

/-- The drive and the counters are those that OVERDRAW leaves. -/
theorem State.judgedScan_drive :
    ((s.judgedScan isns dem feed).drive, (s.judgedScan isns dem feed).stats) =
      if s.ctl.station = .active ∧ s.meas.overdraw.excessCompletes s.cfg.persistence
          (overdrawClass s.cfg.margin s.share.limit (drawOf s.cfg isns)) = true then
        (s.drive.cut, s.stats.bump .overdrawTrips)
      else (s.drive, s.stats) := by
  obtain ⟨hdrive, hstats⟩ := (s.formValues isns dem feed).judgeOverdraw.judgeFeed_drive
  unfold State.judgedScan
  rw [hdrive, hstats]
  exact (s.formValues isns dem feed).judgeOverdraw_drive

theorem State.judgedScan_meas : (s.judgedScan isns dem feed).meas.draw = drawOf s.cfg isns
    ∧ (s.judgedScan isns dem feed).meas.reported
      = nextReported s.cfg (rawDemandOf s.cfg dem) s.meas.reported
    ∧ (s.judgedScan isns dem feed).meas.stage = s.meas.stage := by
  unfold State.judgedScan
  rw [State.judgeFeed_meas, State.judgeOverdraw_meas, State.formValues_meas]
  exact ⟨rfl, rfl, rfl⟩

/-- Of the drive a completion moves what a trip of OVERDRAW cuts, and the buffer. -/
theorem State.completeScan_drive : (s.completeScan mark isns dem feed).drive
    = { (s.judgedScan isns dem feed).drive with
      buffer := (s.completeScan mark isns dem feed).drive.buffer } := by
  rw [State.completeScan_eq, State.stageAndLimiter_eq]

/-- The buffer after a completion, by its values (R153, R154, R157). -/
theorem State.completeScan_buffer :
    let t := s.completeScan mark isns dem feed
    let stepped := steppedBuffer s.cfg s.share.limit t.meas.reported t.meas.draw
      (s.judgedScan isns dem feed).drive.buffer
    (s.share.limit = 0 ∨ t.meas.stage.tripped = true → t.drive.buffer = 0)
      ∧ (0 < s.share.limit → t.meas.stage.tripped = false →
        (s.meas.stage.tripped = false → t.drive.buffer = stepped)
        ∧ (s.meas.stage.tripped = true → t.drive.buffer = stepped ∨ t.drive.buffer = 0)) := by
  have hkept := s.keepsGroup_judgedScan isns dem feed
  obtain ⟨hdraw, hreported, hstage⟩ := s.judgedScan_meas isns dem feed
  have hbuffer := (s.judgedScan isns dem feed).stageAndLimiter_buffer mark
  rw [hkept.share, hkept.cfg, hdraw, hreported, hstage] at hbuffer
  have hdraw' : (s.completeScan mark isns dem feed).meas.draw = drawOf s.cfg isns := by
    rw [State.completeScan_meas]
  have hreported' : (s.completeScan mark isns dem feed).meas.reported
      = nextReported s.cfg (rawDemandOf s.cfg dem) s.meas.reported := by rw [State.completeScan_meas]
  dsimp only
  rw [hdraw', hreported']
  exact hbuffer

/-- The Shed Unit and the item are those that FEED leaves. -/
theorem State.completeScan_shed :
    (s.completeScan mark isns dem feed).shed = (s.judgedScan isns dem feed).shed
      ∧ (s.completeScan mark isns dem feed).sched = (s.judgedScan isns dem feed).sched
      ∧ (s.completeScan mark isns dem feed).stats = (s.judgedScan isns dem feed).stats := by
  rw [State.completeScan_eq, State.stageAndLimiter_eq]
  exact ⟨rfl, rfl, rfl⟩

end Completion

/-- Settles O40: the values are those of the codes, and what a completion does not touch stands (R138 to
R140). -/
theorem scanCompletionFormsTheValues : Obligations.ScanCompletionFormsTheValues := by
  intro s isns dem feed input mark hwork hscan raw moved
  have hkept := s.keepsGroup_completeScan mark isns dem feed
  refine ⟨_, exec_scanCompletion hwork hscan isns dem feed, ?_⟩
  have hreported : (s.completeScan mark isns dem feed).meas.reported
      = nextReported s.cfg raw s.meas.reported := by rw [State.completeScan_meas]; rfl
  have hcases : (moved ∨ raw = 0 ∨ raw = s.cfg.ceiling) ↔
      (s.meas.reported + s.cfg.demandStep ≤ raw ∨ raw + s.cfg.demandStep ≤ s.meas.reported
        ∨ raw = 0 ∨ raw = s.cfg.ceiling) := or_assoc
  refine ⟨by rw [State.completeScan_meas], by rw [State.completeScan_meas]; rfl,
    by rw [State.completeScan_meas]; rfl, fun h => ?_, fun h => ?_, fun hmonitor => ?_,
    fun hload => ?_, hkept.shedTable, hkept.counter, hkept.driven, hkept.eq⟩
  · rw [hreported]
    exact if_pos (hcases.1 h)
  · rw [hreported]
    exact if_neg (mt hcases.2 h)
  · rw [State.completeScan_meas]
    exact if_pos hmonitor
  · have hnot : s.ownRole ≠ .monitor := by rw [hload]; nofun
    have hnot' : (s.formValues isns dem feed).judgeOverdraw.ownRole ≠ .monitor := by
      rwa [(State.keepsGroup_judgeOverdraw _).ownRole, s.ownRole_formValues]
    obtain ⟨hshed, hsched, -⟩ := s.completeScan_shed mark isns dem feed
    obtain ⟨hover, hover'⟩ := (s.formValues isns dem feed).judgeOverdraw_shed
    rw [hshed, hsched, State.judgedScan, State.judgeFeed_of_load hnot', hover, hover',
      State.completeScan_meas]
    exact ⟨if_neg hnot, if_neg hnot, rfl, rfl⟩

/-- Settles O42: each detector that takes a sample judges it by its class (R142, R144, R145). -/
theorem eachDetectorJudgesItsSample : Obligations.EachDetectorJudgesItsSample := by
  intro s isns dem feed input mark hwork hscan n
  refine ⟨_, exec_scanCompletion hwork hscan isns dem feed, ?_⟩
  rw [State.completeScan_meas]
  dsimp only
  refine ⟨fun hst => if_pos hst, fun hst => if_neg hst, fun hmonitor => ?_, rfl⟩
  rw [if_pos hmonitor, if_pos hmonitor]
  rfl

/-- Settles O43: a completed run of excess in ACTIVE cuts and counts, and the Draw Limiter leaves the
buffer at 0 (R142, R143, R154). -/
theorem overdrawTripCutsTheDrive : Obligations.OverdrawTripCutsTheDrive := by
  intro s isns dem feed input mark hst hscan hover hrun
  have hwork : s.ctl.station.working = true := by rw [hst]; rfl
  have htrip : s.meas.overdraw.excessCompletes s.cfg.persistence
      (overdrawClass s.cfg.margin s.share.limit (drawOf s.cfg isns)) = true :=
    (Detector.excessCompletes_iff _ _ _ _ _).2 ⟨hover, hrun⟩
  obtain ⟨hdrive, hstats⟩ := Prod.mk.inj ((s.judgedScan_drive isns dem feed).trans (if_pos ⟨hst, htrip⟩))
  have hkept := s.keepsGroup_completeScan mark isns dem feed
  refine ⟨_, exec_scanCompletion hwork hscan isns dem feed, ?_,
    (s.completeScan_shed mark isns dem feed).2.2.trans hstats, ?_, hkept.share⟩
  · rw [State.completeScan_meas]
    exact (if_pos hst).trans (Detector.judge_of_excessCompletes htrip)
  · have hbuffer : (s.completeScan mark isns dem feed).drive.buffer = 0 := by
      obtain ⟨hheld, hsteps⟩ := s.completeScan_buffer mark isns dem feed
      have hstepped : steppedBuffer s.cfg s.share.limit
          (s.completeScan mark isns dem feed).meas.reported
          (s.completeScan mark isns dem feed).meas.draw (s.judgedScan isns dem feed).drive.buffer
          = 0 := by
        rw [hdrive, State.completeScan_meas]
        unfold steppedBuffer
        dsimp only
        rw [if_pos (by exact hover)]
        simp [Drive.cut]
      rcases Nat.eq_zero_or_pos s.share.limit with hlimit | hlimit
      · exact hheld (.inl hlimit)
      · cases hstage : (s.completeScan mark isns dem feed).meas.stage.tripped
        · obtain ⟨hclear, hfault⟩ := hsteps hlimit hstage
          cases hbefore : s.meas.stage.tripped
          · exact (hclear hbefore).trans hstepped
          · exact (hfault hbefore).elim (·.trans hstepped) id
        · exact hheld (.inr hstage)
    rw [State.completeScan_drive, hbuffer, hdrive]
    rfl

/-- Settles O44: the holds, and the first case that applies (R153, R154, R157). -/
theorem limiterHoldsOrStepsByTheFirstCase : Obligations.LimiterHoldsOrStepsByTheFirstCase := by
  intro s isns dem feed input mark hwork hscan excess trips
  obtain ⟨hheld, hsteps⟩ := s.completeScan_buffer mark isns dem feed
  refine ⟨_, exec_scanCompletion hwork hscan isns dem feed, hheld, fun hno => ?_⟩
  have hnot : ¬ (s.ctl.station = .active ∧ s.meas.overdraw.excessCompletes s.cfg.persistence
      (overdrawClass s.cfg.margin s.share.limit (drawOf s.cfg isns)) = true) :=
    fun ⟨hst, htrip⟩ => hno ⟨hst, (Detector.excessCompletes_iff _ _ _ _ _).1 htrip⟩
  obtain ⟨hdrive, -⟩ := Prod.mk.inj ((s.judgedScan_drive isns dem feed).trans (if_neg hnot))
  rw [hdrive] at hsteps
  refine ⟨?_, ?_, hsteps⟩
  · rw [State.completeScan_drive, hdrive]
  · rw [State.completeScan_drive, hdrive]

/-- Settles O45: a change of FEED acts at the Shed Unit and the item (R124, R126). -/
theorem feedTripsAndClearsWriteTheItem : Obligations.FeedTripsAndClearsWriteTheItem := by
  intro s isns dem feed input mark hwork hmonitor hscan
  refine ⟨_, exec_scanCompletion hwork hscan isns dem feed, ?_⟩
  obtain ⟨hshed, hsched, -⟩ := s.completeScan_shed mark isns dem feed
  have hfeedDet : (s.completeScan mark isns dem feed).meas.feedDet
      = s.meas.feedDet.judge s.cfg.persistence (feedClass s.cfg (feedOf s.cfg feed)) := by
    rw [State.completeScan_meas]
    exact if_pos hmonitor
  rw [hshed, hsched, hfeedDet, State.judgedScan]
  have hjudged : (s.formValues isns dem feed).judgeOverdraw.meas.feedDet = s.meas.feedDet
      ∧ (s.formValues isns dem feed).judgeOverdraw.meas.feed = feedOf s.cfg feed := by
    rw [State.judgeOverdraw_meas, State.formValues_meas]
    exact ⟨rfl, if_pos hmonitor⟩
  have hkept := (s.formValues isns dem feed).keepsGroup_judgeOverdraw
  have hcfg : (s.formValues isns dem feed).judgeOverdraw.cfg = s.cfg := hkept.cfg
  obtain ⟨hdet, hfeed⟩ := hjudged
  have hroleu : (s.formValues isns dem feed).judgeOverdraw.ownRole = .monitor :=
    hkept.ownRole.trans hmonitor
  obtain ⟨hshedu, hschedu⟩ := (s.formValues isns dem feed).judgeOverdraw_shed
  have hshedu : (s.formValues isns dem feed).judgeOverdraw.shed = s.shed := hshedu
  have hschedu : (s.formValues isns dem feed).judgeOverdraw.sched = s.sched := hschedu
  generalize (s.formValues isns dem feed).judgeOverdraw = u at *
  rw [u.judgeFeed_eq hroleu, hdet, hcfg, hfeed]
  dsimp only
  have htrips := s.meas.feedDet.trips_iff s.cfg.persistence (feedClass s.cfg (feedOf s.cfg feed))
  have hclears := s.meas.feedDet.clears_iff s.cfg.persistence (feedClass s.cfg (feedOf s.cfg feed))
  refine ⟨fun hbefore hafter hcalm => ?_, fun hbefore hafter hshedding => ?_, fun hstands => ?_⟩
  · rw [if_pos (htrips.2 ⟨hbefore, hafter⟩)]
    unfold State.feedTrip
    rw [if_pos (by rw [← hshedu] at hcalm; exact hcalm)]
    exact ⟨rfl, by rw [← hcfg]; rfl, rfl⟩
  · rw [if_neg (fun h => by simp [(htrips.1 h).1] at hbefore), if_pos (hclears.2 ⟨hbefore, hafter⟩)]
    unfold State.feedClear
    rw [if_pos (by rw [← hshedu] at hshedding; exact hshedding), ← hcfg]
    dsimp only
    split_ifs <;> exact ⟨rfl, rfl⟩
  · rw [if_neg (fun h => by simp [(htrips.1 h)] at hstands),
      if_neg (fun h => by simp [(hclears.1 h)] at hstands)]
    exact ⟨hshedu, hschedu⟩

end Sys2Proof.Machine
end

section
/-! PROOFS. The diagnostic port bit by bit and the bytes of its windows (R170 to R174, R176, R177, R185). -/

namespace Sys2Proof.Machine

/-! ## Counters -/

/-- Settles O52: an increment saturates, touches its own counter only, and raises attention at the middle
of the range (R176, R177). -/
theorem countersSaturateAndRaiseAttention : Obligations.CountersSaturateAndRaiseAttention := by
  intro st c
  refine ⟨?_, fun d hd => st.get_bump_of_ne hd, rfl, fun d => ?_⟩
  · rw [Stats.get_bump_self, saturatingSucc_toNat]
  · have hmiddle : st.get c = 0x7FFFFFFF ↔ (st.get c).toNat = 2147483647 := by
      rw [← BitVec.toNat_inj]
      rfl
    unfold Stats.bump
    dsimp only
    split_ifs with hnew
    · simp [hmiddle.1 hnew.1]
    · constructor
      · exact .inl
      · rintro (hd | ⟨rfl, hd⟩)
        · exact hd
        · exact not_not.1 (fun hn => hnew ⟨hmiddle.2 hd, hn⟩)

/-! ## SCK -/

/-- The sizes of the eight windows, in the order of their codes (R185). -/
theorem windowSize_eq :
    ∀ code, windowSize code = [16, 512, 128, 70, 8, 48, 80, 36].getD code 0
  | 0 | 1 | 2 | 3 | 4 | 5 | 6 | 7 => rfl
  | _ + 8 => rfl

/-- Two bytes of an offset, high byte first (R173). -/
theorem append_eq_ofNat (high low : Byte) :
    high ++ low = BitVec.ofNat 16 (high.toNat * 256 + low.toNat) := by
  apply BitVec.eq_of_toNat_eq
  have hlow := low.isLt
  have hhigh := high.isLt
  rw [BitVec.toNat_append, BitVec.toNat_ofNat, Nat.mod_eq_of_lt (by omega),
    ← Nat.shiftLeft_add_eq_or_of_lt (by omega), Nat.shiftLeft_eq]

/-- With the queue empty a step is one SCK period (R170). -/
theorem step_of_empty {s : State} (h : s.pending = []) : step s = .next s.serialClock := by
  unfold step
  rw [h]

/-- In a transaction a step with an empty queue is the port's SCK period (R170). -/
theorem step_of_phase {s : State} (h : s.pending = []) {p : PortPhase} (hp : s.port.phase = some p) :
    step s = .next { s with port := s.port.clock } := by
  rw [step_of_empty h, s.serialClock_of_some hp]

section Clock
variable {p : Port}

/-- Inside a byte the bit count goes up by one (R170). -/
theorem Port.clock_of_lt (h : p.bitCount < 7) : p.clock = { p with bitCount := p.bitCount + 1 } :=
  if_pos h

/-- The eighth bit of a byte sent puts the next byte of the capture on SDO (R173). -/
theorem Port.clock_of_data (hbit : p.bitCount = 7) (h : p.phase = some .data) : p.clock = { p with
    bitCount := 0, position := p.position + 1, sdo := some (p.dataByte (p.position + 1)) } := by
  unfold Port.clock
  rw [if_neg (by omega), h]

/-- In IGNORE another 0x00 follows (R172). -/
theorem Port.clock_of_ignore (hbit : p.bitCount = 7) (h : p.phase = some .ignore) :
    p.clock = { p with bitCount := 0, sdo := some 0 } := by
  unfold Port.clock
  rw [if_neg (by omega), h]
  cases p
  simp_all [Port.next]

/-- The low byte of an offset follows its high byte, and completes the command that takes it (R173). -/
theorem Port.clock_of_offset (hbit : p.bitCount = 7) (h : p.phase = some .offset) :
    p.clock = if p.lowByte then p else { p with bitCount := 0, lowByte := true, sdo := some 0 } := by
  unfold Port.clock
  rw [if_neg (by omega), h]
  cases p
  simp_all [Port.next]

/-- The eighth bit of a command byte or of a window code is the command's that it completes (R172,
R173). -/
theorem Port.clock_of_waits (hbit : p.bitCount = 7)
    (h : p.phase = some .command ∨ p.phase = some .window) : p.clock = p := by
  unfold Port.clock
  rw [if_neg (by omega)]
  rcases h with h | h <;> rw [h]

end Clock

/-- Settles O47: an SCK period moves one bit, and the eighth of a byte by the phase (R170, R172, R173). -/
theorem serialClockMovesOneBit : Obligations.SerialClockMovesOneBit := by
  intro s b b2 hempty p size sent
  refine ⟨rfl, fun hphase hfew => ?_, fun hdata heighth => ?_, fun hignore heighth => ?_,
    fun hoffset heighth => ?_, fun hwaits heighth => ?_, ?_, ?_, ?_⟩
  · obtain ⟨x, hx⟩ := Option.ne_none_iff_exists'.1 hphase
    rw [step_of_phase hempty hx, Port.clock_of_lt hfew]
  · rw [step_of_phase hempty hdata, Port.clock_of_data heighth hdata, Port.dataByte, windowSize_eq]
  · rw [step_of_phase hempty hignore, Port.clock_of_ignore heighth hignore]
  · rw [step_of_phase hempty hoffset, Port.clock_of_offset heighth hoffset]
    change _ = Host.Outcome.next (if s.port.lowByte then s else _)
    split_ifs <;> rfl
  · have hclock : s.port.clock = s.port := Port.clock_of_waits heighth hwaits
    rcases hwaits with hwaits | hwaits
    · rw [step_of_phase hempty hwaits, hclock]
    · rw [step_of_phase hempty hwaits, hclock]
  · unfold sdiCommand
    rw [gatherBytes_bitsOfByte, if_neg (by simp [bitsOfByte])]
  · unfold sdiCommand
    rw [gatherBytes_bitsOfByte, if_neg (by simp [bitsOfByte])]
  · have hbits : bitsOfByte b ++ bitsOfByte b2 = bitsOfBytes [b, b2] := by simp [bitsOfBytes]
    rw [hbits]
    unfold sdiCommand
    rw [gatherBytes_bitsOfBytes, ← append_eq_ofNat, if_neg (by simp [length_bitsOfBytes])]

/-! ## Bytes of windows -/

/-- Records of one size stand one after another. -/
theorem getD_flatMap_record {α : Type} {f : α → List Byte} {k : Nat} {l : List α}
    (hf : ∀ x ∈ l, (f x).length = k) {a i : Nat} (hi : i < k) :
    (l.flatMap f).getD (k * a + i) 0 = (l[a]?.elim [] f).getD i 0 := by
  induction l generalizing a with
  | nil => simp
  | cons x l ih =>
    have hx : (f x).length = k := hf x (by simp)
    cases a with
    | zero =>
      rw [List.flatMap_cons, List.getD_append _ _ _ _ (by omega)]
      simp
    | succ a =>
      rw [List.flatMap_cons, List.getD_append_right _ _ _ _ (by rw [hx]; nlinarith), hx,
        show k * (a + 1) + i - k = k * a + i by rw [Nat.mul_succ]; omega,
        ih (fun y hy => hf y (by simp [hy]))]
      simp

theorem length_flatMap_record {α : Type} {f : α → List Byte} {k : Nat} {l : List α}
    (hf : ∀ x ∈ l, (f x).length = k) : (l.flatMap f).length = k * l.length := by
  induction l with
  | nil => rfl
  | cons x l ih =>
    rw [List.flatMap_cons, List.length_append, hf x (by simp), ih (fun y hy => hf y (by simp [hy])),
      List.length_cons]
    ring

/-- Filling up with zeros changes no byte of a size. -/
theorem getD_fitTo {size n : Nat} (bytes : List Byte) (h : n < size) :
    (fitTo size bytes).getD n 0 = bytes.getD n 0 := by
  unfold fitTo
  rw [List.getD_eq_getElem?_getD, List.getElem?_take_of_lt h, List.getD_eq_getElem?_getD]
  rcases Nat.lt_or_ge n bytes.length with hn | hn
  · rw [List.getElem?_append_left hn]
  · rw [List.getElem?_append_right hn, List.getElem?_eq_none hn, List.getElem?_replicate]
    split_ifs <;> rfl

section Lengths
variable (s : State)

theorem length_tableRecord (e : Entry) : (tableRecord e).length = 16 := by simp [tableRecord]

theorem State.length_statusWindow : s.statusWindow.length = 16 := by simp [State.statusWindow]

/-- The record of an address in the TABLE window (R185). -/
def State.tableRecordAt (s : State) (a : Nat) : List Byte :=
  match findEntry a s.table.entries with
  | some e => tableRecord e
  | none => List.replicate 16 0

theorem State.tableWindow_eq : s.tableWindow = (List.range 32).flatMap s.tableRecordAt := rfl

theorem State.length_tableRecordAt (a : Nat) : (s.tableRecordAt a).length = 16 := by
  unfold State.tableRecordAt
  split
  · exact length_tableRecord _
  · exact List.length_replicate

theorem State.length_tableWindow : s.tableWindow.length = 512 := by
  rw [State.tableWindow_eq, length_flatMap_record (fun a _ => s.length_tableRecordAt a),
    List.length_range]

theorem State.length_allocationWindow : s.allocationWindow.length = 70 := by
  have hshares := length_flatMap_record (f := fun a => bytes2 (s.snap.alloc.getD a 0)) (k := 2)
    (l := List.range 32) (fun _ _ => rfl)
  unfold State.allocationWindow
  rw [List.length_append, List.length_append, List.length_append, hshares, List.length_range]
  rfl

theorem State.length_shedWindow : s.shedWindow.length = 8 := by
  have hrecord (o : Option ShedOrder) : (shedRecord o).length = 2 := by cases o <;> rfl
  unfold State.shedWindow
  rw [length_flatMap_record (fun o _ => hrecord o), Vector.length_toList]

theorem State.length_countersWindow : s.countersWindow.length = 80 := by
  unfold State.countersWindow
  rw [length_flatMap_record (k := 4) (fun _ _ => rfl), Vector.length_toList]

/-- Every window has its size (R185). -/
theorem State.length_window (code : Nat) : (s.window code).length = windowSize code := by
  unfold State.window windowSize
  split
  · exact s.length_statusWindow
  · exact s.length_tableWindow
  · exact length_fitTo _ _
  · exact s.length_allocationWindow
  · exact s.length_shedWindow
  · exact length_fitTo _ _
  · exact s.length_countersWindow
  · exact length_fitTo _ _
  · rfl

end Lengths

theorem windowSize_le (code : Nat) : windowSize code ≤ 512 := by
  unfold windowSize
  split <;> decide

/-- Settles O50: the window code and the offset, and the capture taken at its last bit (R173, R174). -/
theorem readCapturesTheWindowAtOnce : Obligations.ReadCapturesTheWindowAtOnce := by
  intro s code offset
  refine ⟨fun hphase hcode => ?_, fun hphase hcode => ?_, fun hphase hwindow => ?_⟩
  · change execReadWindowCode code s = _
    simp [execReadWindowCode, hphase, hcode, Port.next]
  · change execReadWindowCode code s = _
    simp [execReadWindowCode, hphase, Nat.not_lt.2 hcode, Port.next, Port.record]
  · have hexec : exec (.readCapture offset) s = .next { s with port :=
        let p := (s.port.record .accepted true).take (s.window s.port.window) offset.toNat
        { p with phase := some .data, bitCount := 0, lowByte := false
                 sdo := some (p.dataByte offset.toNat) } } :=
      congrArg Host.Outcome.next (if_pos hphase)
    refine ⟨_, hexec, rfl, rfl, rfl, rfl, rfl, rfl, ?_, ?_, rfl⟩
    · exact take_fitTo ((s.length_window _).trans_le (windowSize_le _))
    · change some (if offset.toNat < windowSize s.port.window then
        (fitTo 512 (s.window s.port.window)).getD offset.toNat 0 else 0) = _
      split_ifs with hinside
      · rw [getD_fitTo _ (hinside.trans_le (windowSize_le _))]
      · rw [List.getD_eq_default _ _ (by rw [s.length_window]; omega)]

end Sys2Proof.Machine
end

section
/-! PROOFS. Every field of the eight windows reads back, and the pins show the state (R1, R116, R117, R169,
R175, R185). -/

namespace Sys2Proof.Machine

/-! ## Fields of bytes -/

/-- Bytes that stand in w from place n on. -/
def StandsAt (r w : List Byte) (n : Nat) : Prop := ∀ i < r.length, w.getD (n + i) 0 = r.getD i 0

theorem StandsAt.toNat {r w : List Byte} {n i : Nat} (h : StandsAt r w n) (hi : i < r.length) :
    (w.getD (n + i) 0).toNat = (r.getD i 0).toNat := congrArg BitVec.toNat (h i hi)

theorem standsAt_flatMap {α : Type} {f : α → List Byte} {k : Nat} {l : List α}
    (hf : ∀ x ∈ l, (f x).length = k) {a : Nat} {x : α} (hx : l[a]? = some x) :
    StandsAt (f x) (l.flatMap f) (k * a) := by
  intro i hi
  rw [hf x (List.mem_of_getElem? hx)] at hi
  rw [getD_flatMap_record hf hi, hx]
  rfl

theorem StandsAt.fitTo {r w : List Byte} {n size : Nat} (h : StandsAt r w n)
    (hsize : n + r.length ≤ size) : StandsAt r (fitTo size w) n := by
  intro i hi
  rw [getD_fitTo _ (by omega)]
  exact h i hi

/-- Past the records a window is 0 (R185). -/
theorem getD_fitTo_of_length_le {size n : Nat} {bytes : List Byte} (h : bytes.length ≤ n)
    (hn : n < size) : (fitTo size bytes).getD n 0 = 0 := by
  rw [getD_fitTo _ hn, List.getD_eq_default _ _ h]

/-- A flag as 0 or 1. -/
theorem toNat_beq_role (r : Role) : (r == Role.monitor).toNat = if r = .monitor then 1 else 0 := by
  cases r <;> rfl

theorem Station.toCode_lt (st : Station) : st.toCode < 12 := by cases st <;> decide
theorem FaultCode.toCode_lt (c : FaultCode) : c.toCode < 8 := by cases c <;> decide
theorem EntryState.toCode_lt (st : EntryState) : 1 ≤ st.toCode ∧ st.toCode < 6 := by
  cases st <;> decide
theorem Reason.toCode_lt (r : Reason) : 1 ≤ r.toCode ∧ r.toCode < 10 := by cases r <;> decide

/-! ## STATUS -/

section Status
variable {s : State}

/-- The states, faults and flags of STATUS (R185). -/
theorem State.status_flags (haddr : s.ownAddr < 32) (hrot : s.rotation.rot < 32)
    (hisolations : s.ctl.isolations < 256) :
    let b := fun n => (s.statusWindow.getD n 0).toNat
    b 0 % 16 = s.ctl.station.toCode ∧ b 0 / 16 % 8 = s.ctl.faultCode.toCode
      ∧ b 0 / 128 = (if s.ownRole = .monitor then 1 else 0)
      ∧ b 1 = s.ownAddr + 32 * s.rotation.synced.toNat + 64 * s.ctl.settled.toNat
        + 128 * s.attn.toNat
      ∧ b 2 = s.rotation.rot + 32 * s.drive.level.toNat ∧ b 3 = s.ctl.isolations := by
  have hstation := s.ctl.station.toCode_lt
  have hfault := s.ctl.faultCode.toCode_lt
  have hrole := toNat_beq_role s.ownRole
  have hrole' := Bool.toNat_le (s.ownRole == .monitor)
  have hsynced := Bool.toNat_le s.rotation.synced
  have hsettled := Bool.toNat_le s.ctl.settled
  have hattn := Bool.toNat_le s.attn
  have hlevel := Bool.toNat_le s.drive.level
  rw [← hrole]
  simp only [State.statusWindow, List.cons_append, List.getD_cons_zero, List.getD_cons_succ,
    byte_toNat, bitAt]
  omega

/-- The counts and the quantities of STATUS (R185). -/
theorem State.status_values (hduty : s.drive.duty < 8192) (happlied : s.share.applied < 4096)
    (hpending : s.share.pending.getD s.share.applied < 4096) (hlimit : s.share.limit < 4096)
    (hreported : s.meas.reported < 4096) (hdraw : s.meas.draw < 4096) :
    let b := fun n => (s.statusWindow.getD n 0).toNat
    let two := fun n => b n * 256 + b (n + 1)
    let high := fun n => b n * 16 + b (n + 1) / 16
    let low := fun n => b (n + 1) % 16 * 256 + b (n + 2)
    two 4 = s.rotation.roundCount.toNat % 65536
      ∧ two 6 = s.drive.duty + 8192 * s.meas.stage.tripped.toNat
        + 16384 * s.meas.overdraw.tripped.toNat + 32768 * s.meas.feedDet.tripped.toNat
      ∧ high 8 = s.share.applied ∧ low 8 = s.share.pending.getD s.share.applied
      ∧ high 11 = s.share.limit ∧ low 11 = s.meas.reported
      ∧ two 14 = s.meas.draw + (if s.shed.monitor = .shedding then 4096 else 0)
        + 8192 * s.sched.item.isSome.toNat := by
  have hstage := Bool.toNat_le s.meas.stage.tripped
  have hoverdraw := Bool.toNat_le s.meas.overdraw.tripped
  have hfeed := Bool.toNat_le s.meas.feedDet.tripped
  have hitem := Bool.toNat_le s.sched.item.isSome
  have hshedding : (s.shed.monitor == MonitorState.shedding).toNat * 4096
      = if s.shed.monitor = .shedding then 4096 else 0 := by cases s.shed.monitor <;> rfl
  have hshedding' := Bool.toNat_le (s.shed.monitor == .shedding)
  rw [← hshedding]
  simp only [State.statusWindow, bytes2, packed, List.cons_append, List.nil_append,
    List.getD_cons_zero, List.getD_cons_succ, byte_toNat, bitAt, State.stageFault]
  omega

end Status

/-! ## TABLE -/

section Table
variable {e : Entry} {w : List Byte} {n : Nat}

/-- The state, the flags and the terms of a TABLE record (R185). -/
theorem tableRecord_terms (hw : StandsAt (tableRecord e) w n)
    (hweight : e.terms.weight < 16) (hfloor : e.terms.floor < 4096)
    (hceiling : e.terms.ceiling < 4096) (hmissed : e.missed < 256) :
    let b := fun n => (w.getD n 0).toNat
    let high := fun n => b n * 16 + b (n + 1) / 16
    let low := fun n => b (n + 1) % 16 * 256 + b (n + 2)
    b n / 8 = 16 + 8 * e.heard.toNat + 4 * e.heardMe.toNat
        + 2 * e.values.isSome.toNat + e.basis.isSome.toNat
      ∧ b n % 8 = e.state.toCode
      ∧ b (n + 1) = e.terms.weight + (if e.terms.role = .monitor then 16 else 0)
        + (if e.values.any (fun v => v.stageFault) then 32 else 0)
      ∧ high (n + 2) = e.terms.floor ∧ low (n + 2) = e.terms.ceiling ∧ b (n + 5) = e.missed := by
  have hlen := length_tableRecord e
  have h0 := hw.toNat (i := 0) (by omega)
  have h1 := hw.toNat (i := 1) (by omega)
  have h2 := hw.toNat (i := 2) (by omega)
  have h3 := hw.toNat (i := 3) (by omega)
  have h4 := hw.toNat (i := 4) (by omega)
  have h5 := hw.toNat (i := 5) (by omega)
  simp only [tableRecord, packed, List.cons_append, List.nil_append, List.getD_cons_zero,
    List.getD_cons_succ, byte_toNat, bitAt] at h0 h1 h2 h3 h4 h5
  have hrole : roleBit e.terms.role * 16 = if e.terms.role = .monitor then 16 else 0 := by
    cases e.terms.role <;> rfl
  have hstage : (e.values.getD ⟨0, 0, 0, 0, false⟩).stageFault.toNat * 32
      = if e.values.any (fun v => v.stageFault) then 32 else 0 := by
    cases e.values with
    | none => rfl
    | some v => cases hv : v.stageFault <;> simp [hv]
  have hstate := e.state.toCode_lt
  have hheard := Bool.toNat_le e.heard
  have hheardMe := Bool.toNat_le e.heardMe
  have hvalues := Bool.toNat_le e.values.isSome
  have hbasis := Bool.toNat_le e.basis.isSome
  have htrue : true.toNat = 1 := rfl
  have hrole' : roleBit e.terms.role ≤ 1 := by cases e.terms.role <;> decide
  have hstage' := Bool.toNat_le (e.values.getD ⟨0, 0, 0, 0, false⟩).stageFault
  rw [← hrole, ← hstage]
  simp only [Nat.add_assoc, Nat.reduceAdd, Nat.add_zero] at *
  omega

/-- The values of a TABLE record (R185). -/
theorem tableRecord_values (hw : StandsAt (tableRecord e) w n)
    (hv : ∀ v ∈ e.values, v.demand < 65536 ∧ v.held < 65536 ∧ v.pending < 65536 ∧ v.draw < 65536) :
    let b := fun n => (w.getD n 0).toNat
    let two := fun n => b n * 256 + b (n + 1)
    two (n + 6) = (e.values.map (fun v => v.demand)).getD 0
      ∧ two (n + 8) = (e.values.map (fun v => v.held)).getD 0
      ∧ two (n + 10) = (e.values.map (fun v => v.pending)).getD 0
      ∧ two (n + 12) = (e.values.map (fun v => v.draw)).getD 0
      ∧ two (n + 14) = (e.basis.getD 0).toNat := by
  have hlen := length_tableRecord e
  have hword (i v : Nat) (hi : i + 1 < 16) (hbytes : (tableRecord e).getD i 0 = byte (v / 256)
      ∧ (tableRecord e).getD (i + 1) 0 = byte v) (hfits : v < 65536) :
      (w.getD (n + i) 0).toNat * 256 + (w.getD (n + i + 1) 0).toNat = v := by
    rw [hw.toNat (by omega), Nat.add_assoc, hw.toNat (by omega), hbytes.1, hbytes.2]
    exact bytes2_value hfits
  have hbasis := (e.basis.getD 0).isLt
  cases hvalues : e.values with
  | none =>
    refine ⟨hword 6 0 ?_ ?_ ?_, hword 8 0 ?_ ?_ ?_, hword 10 0 ?_ ?_ ?_, hword 12 0 ?_ ?_ ?_,
      hword 14 _ ?_ ?_ hbasis⟩
    all_goals simp [tableRecord, packed, bytes2, hvalues]
  | some v =>
    obtain ⟨hdemand, hheld, hpending, hdraw⟩ := hv v hvalues
    refine ⟨hword 6 v.demand ?_ ?_ hdemand, hword 8 v.held ?_ ?_ hheld,
      hword 10 v.pending ?_ ?_ hpending, hword 12 v.draw ?_ ?_ hdraw, hword 14 _ ?_ ?_ hbasis⟩
    all_goals simp [tableRecord, packed, bytes2, hvalues]

theorem State.tableRecordAt_of_some {s : State} {a : Nat}
    (he : findEntry a s.table.entries = some e) : s.tableRecordAt a = tableRecord e := by
  unfold State.tableRecordAt
  rw [he]

/-- The record of an address stands at its place in TABLE (R185). -/
theorem State.standsAt_table (s : State) {a : Nat} (ha : a < 32) :
    StandsAt (s.tableRecordAt a) s.tableWindow (16 * a) :=
  standsAt_flatMap (l := List.range 32) (fun a _ => s.length_tableRecordAt a)
    (List.getElem?_range ha)

end Table

/-! ## ORPHANS, ALLOCATION and SHED -/

/-- An ORPHANS record reads back (R185). -/
theorem orphanRecord_shown {o : Orphan} {w : List Byte} {n : Nat}
    (hw : StandsAt (orphanRecord o) w n) (haddr : o.addr < 32) (hreserve : o.reserve < 4096)
    (hremaining : o.remaining < 4096) :
    let b := fun n => (w.getD n 0).toNat
    b n = 128 + o.addr ∧ b (n + 1) * 16 + b (n + 1 + 1) / 16 = o.reserve
      ∧ b (n + 1 + 1) % 16 * 256 + b (n + 1 + 2) = o.remaining := by
  have hlen : (orphanRecord o).length = 4 := rfl
  have h0 := hw.toNat (i := 0) (by omega)
  have h1 := hw.toNat (i := 1) (by omega)
  have h2 := hw.toNat (i := 2) (by omega)
  have h3 := hw.toNat (i := 3) (by omega)
  simp only [orphanRecord, packed, List.getD_cons_zero, List.getD_cons_succ, byte_toNat,
    bitAt] at h0 h1 h2 h3
  have htrue : true.toNat = 1 := rfl
  simp only [Nat.add_assoc, Nat.reduceAdd, Nat.add_zero] at *
  omega

/-- Past the last record of a list of records of one size the window is 0 (R185). -/
theorem getD_fitTo_flatMap_of_none {α : Type} {f : α → List Byte} {k : Nat} {l : List α}
    (hf : ∀ x ∈ l, (f x).length = k) {i j size : Nat} (hi : l[i]? = none)
    (hj : k * i + j < size) : (fitTo size (l.flatMap f)).getD (k * i + j) 0 = 0 := by
  refine getD_fitTo_of_length_le ?_ hj
  rw [length_flatMap_record hf]
  exact (Nat.mul_le_mul_left k (List.getElem?_eq_none_iff.1 hi)).trans (Nat.le_add_right _ _)

/-- The shares and the record of the snapshot in ALLOCATION (R175, R185). -/
theorem State.allocation_shown (s : State) :
    let b := fun n => (s.allocationWindow.getD n 0).toNat
    let two := fun n => b n * 256 + b (n + 1)
    (∀ a < 32, s.snap.alloc.getD a 0 < 65536 → two (2 * a) = s.snap.alloc.getD a 0)
      ∧ two 64 = (s.snap.basis.getD 0).toNat
      ∧ b 66 = 128 * s.snap.overcommitted.toNat + 64 * s.snap.floorShortfall.toNat
      ∧ (s.snap.members < 256 → b 67 = s.snap.members)
      ∧ (s.snap.bEff < 65536 → two 68 = s.snap.bEff) := by
  let shares := (List.range 32).flatMap (fun a => bytes2 (s.snap.alloc.getD a 0))
  let rest := bytes2 (s.snap.basis.getD 0).toNat
    ++ [byte (bitAt s.snap.overcommitted 7 + bitAt s.snap.floorShortfall 6), byte s.snap.members]
    ++ bytes2 s.snap.bEff
  have hwindow : s.allocationWindow = shares ++ rest := by
    simp only [State.allocationWindow, shares, rest, List.append_assoc]
  have hshares : shares.length = 64 := by
    rw [length_flatMap_record (k := 2) (fun _ _ => rfl), List.length_range]
  have hover := Bool.toNat_le s.snap.overcommitted
  have hshort := Bool.toNat_le s.snap.floorShortfall
  have hbasis := (s.snap.basis.getD 0).isLt
  have hrest (i : Nat) : s.allocationWindow.getD (64 + i) 0 = rest.getD i 0 := by
    rw [hwindow, List.getD_append_right _ _ _ _ (by omega), hshares, Nat.add_sub_cancel_left]
  refine ⟨fun a ha hfits => ?_, ?_, ?_, fun hfits => ?_, fun hfits => ?_⟩
  · have hshare (i : Nat) (hi : i < 2) : s.allocationWindow.getD (2 * a + i) 0
        = (bytes2 (s.snap.alloc.getD a 0)).getD i 0 := by
      rw [hwindow, List.getD_append _ _ _ _ (by omega), getD_flatMap_record (k := 2) (fun _ _ => rfl) hi,
        List.getElem?_range ha]
      rfl
    have h0 := hshare 0 (by omega)
    have h1 := hshare 1 (by omega)
    dsimp only
    rw [Nat.add_zero] at h0
    rw [h0, h1]
    exact bytes2_value hfits
  · dsimp only
    rw [hrest 0, hrest 1]
    exact bytes2_value hbasis
  · dsimp only
    rw [hrest 2]
    change (byte _).toNat = _
    rw [byte_toNat, bitAt, bitAt]
    omega
  · dsimp only
    rw [hrest 3]
    change (byte _).toNat = _
    rw [byte_toNat]
    omega
  · dsimp only
    rw [hrest 4, hrest 5]
    exact bytes2_value hfits

theorem length_shedRecord (o : Option ShedOrder) : (shedRecord o).length = 2 := by cases o <;> rfl

/-- The record of an address stands at its place in SHED (R185). -/
theorem State.standsAt_shed (s : State) (m : Fin 4) :
    StandsAt (shedRecord s.shed.table[m]) s.shedWindow (2 * m) :=
  standsAt_flatMap (l := s.shed.table.toList) (x := s.shed.table[m])
    (fun o _ => length_shedRecord o) (by simp)

/-! ## HISTORY and COUNTERS -/

/-- A HISTORY record reads back (R185). -/
theorem historyRecord_shown {r : DiscardRecord} {w : List Byte} {n : Nat}
    (hw : StandsAt (historyRecord r) w n) (hsender : ∀ a ∈ r.sender, a < 256)
    (hkind : ∀ k ∈ r.kind, k < 256) (hrepeats : r.repeats < 256) :
    let b := fun n => (w.getD n 0).toNat
    b n / 16 = 8 + 4 * r.sender.isSome.toNat + 2 * r.kind.isSome.toNat
      ∧ b n % 16 = r.reason.toCode
      ∧ b (n + 1) = r.sender.getD 0 ∧ b (n + 2) = r.kind.getD 0
      ∧ b (n + 3) = r.firstRound.toNat ∧ b (n + 4) = r.latestRound.toNat
      ∧ b (n + 5) = r.repeats := by
  have hlen : (historyRecord r).length = 6 := rfl
  have h0 := hw.toNat (i := 0) (by omega)
  have h1 := hw.toNat (i := 1) (by omega)
  have h2 := hw.toNat (i := 2) (by omega)
  have h3 := hw.toNat (i := 3) (by omega)
  have h4 := hw.toNat (i := 4) (by omega)
  have h5 := hw.toNat (i := 5) (by omega)
  simp only [historyRecord, List.getD_cons_zero, List.getD_cons_succ, byte_toNat,
    bitAt, Nat.add_zero] at h0 h1 h2 h3 h4 h5
  have htrue : true.toNat = 1 := rfl
  have hreason := r.reason.toCode_lt
  have hsome := Bool.toNat_le r.sender.isSome
  have hsome' := Bool.toNat_le r.kind.isSome
  have hsender' : r.sender.getD 0 < 256 := by
    cases hs : r.sender with
    | none => decide
    | some a => exact hsender a hs
  have hkind' : r.kind.getD 0 < 256 := by
    cases hk : r.kind with
    | none => decide
    | some k => exact hkind k hk
  dsimp only
  refine ⟨?_, ?_, ?_, ?_, h3, h4, ?_⟩ <;> omega

/-- A counter of the bank reads back in COUNTERS (R178, R185). -/
theorem State.counters_shown (s : State) (n : Fin 20) :
    let b := fun n => (s.countersWindow.getD n 0).toNat
    (b (4 * n) * 256 + b (4 * n + 1)) * 65536 + (b (4 * n + 2) * 256 + b (4 * n + 2 + 1))
      = s.stats.bank[n].toNat := by
  have hstands : StandsAt (bytes4 s.stats.bank[n].toNat) s.countersWindow (4 * n) :=
    standsAt_flatMap (f := fun x : Word32 => bytes4 x.toNat) (l := s.stats.bank.toList)
      (fun _ _ => rfl) (by simp)
  have hlen := length_bytes4 s.stats.bank[n].toNat
  have h0 := hstands.toNat (i := 0) (by omega)
  have h1 := hstands.toNat (i := 1) (by omega)
  have h2 := hstands.toNat (i := 2) (by omega)
  have h3 := hstands.toNat (i := 3) (by omega)
  have hlt := s.stats.bank[n].isLt
  simp only [bytes4, bytes2, List.cons_append, List.nil_append, List.getD_cons_zero,
    List.getD_cons_succ, byte_toNat, Nat.add_zero] at h0 h1 h2 h3
  dsimp only
  rw [Nat.add_assoc (4 * n.val) 2 1, h0, h1, h2, h3]
  omega

/-! ## The pins -/

/-- FAULT (R117). -/
theorem State.faultLine_iff (s : State) : s.faultLine = true ↔
    s.ctl.station ∈ [.configFault, .addressConflict, .groupMismatch]
      ∨ (s.ctl.station ∉ [.resetting, .config] ∧ s.meas.stage.tripped = true) := by
  unfold State.faultLine State.stageFault
  cases s.ctl.station <;> simp [Station.isFaultState, Station.working]

/-- Settles O51: the windows field by field, and the pins. -/
theorem windowsAndPinsShowTheState : Obligations.WindowsAndPinsShowTheState := by
  intro s b two high low stations faults entryStates reasons
  refine ⟨⟨s.length_statusWindow, s.length_tableWindow, length_fitTo _ _, s.length_allocationWindow,
    s.length_shedWindow, length_fitTo _ _, s.length_countersWindow, length_fitTo _ _⟩, ?_, ?_, ?_,
    s.allocation_shown, ?_, ?_, s.counters_shown, ?_, ?_, ?_, s.faultLine_iff, ?_, ?_, ?_⟩
  · intro haddr hrot hisolations hduty happlied hpending hlimit hreported hdraw w
    have hpending' : s.share.pending.getD s.share.applied < 4096 := by
      cases hp : s.share.pending with
      | none => exact happlied
      | some p => exact hpending p hp
    obtain ⟨hstation, hfault, hflags⟩ := State.status_flags haddr hrot hisolations
    refine ⟨?_, ?_, hflags.1, hflags.2.1, hflags.2.2.1, hflags.2.2.2,
      State.status_values hduty happlied hpending' hlimit hreported hdraw⟩
    · rw [show b w 0 % 16 = s.ctl.station.toCode from hstation]
      cases s.ctl.station <;> rfl
    · rw [show b w 0 / 16 % 8 = s.ctl.faultCode.toCode from hfault]
      cases s.ctl.faultCode <;> rfl
  · intro a ha w
    refine ⟨fun hnone i hi => ?_, fun e he hweight hfloor hceiling hmissed hvalues => ?_⟩
    · have hrecord : s.tableRecordAt a = List.replicate 16 0 := by
        unfold State.tableRecordAt
        rw [hnone]
      have hstands := s.standsAt_table ha
      rw [hrecord] at hstands
      change (w.getD (16 * a + i) 0).toNat = 0
      rw [hstands.toNat (by simpa using hi), List.getD_replicate (h := hi)]
      rfl
    · have hstands := s.standsAt_table ha
      rw [s.tableRecordAt_of_some he] at hstands
      obtain ⟨hflags, hstate, hterms⟩ := tableRecord_terms hstands hweight hfloor hceiling hmissed
      have hstate : b w (16 * a) % 8 = e.state.toCode := hstate
      obtain ⟨hrole, hfloor, hceiling, hmissed⟩ := hterms
      refine ⟨hflags, ?_, ?_, hrole, hfloor, hceiling, hmissed, tableRecord_values hstands hvalues⟩
      · rw [hstate]
        cases e.state <;> rfl
      · rw [hstate]
        exact e.state.toCode_lt.1
  · intro i hi w
    have hlen : ∀ o ∈ s.table.orphans, (orphanRecord o).length = 4 := fun _ _ => rfl
    refine ⟨fun hnone j hj => ?_, fun o ho haddr hreserve hremaining => ?_⟩
    · exact congrArg BitVec.toNat (getD_fitTo_flatMap_of_none hlen hnone (by omega))
    · have hstands := (standsAt_flatMap hlen ho).fitTo (size := 128)
        (by rw [hlen o (List.mem_of_getElem? ho)]; omega)
      exact orphanRecord_shown hstands haddr hreserve hremaining
  · intro m w
    have hstands := s.standsAt_shed m
    have h0 := hstands.toNat (i := 0) (by rw [length_shedRecord]; decide)
    have h1 := hstands.toNat (i := 1) (by rw [length_shedRecord]; decide)
    refine ⟨fun hnone => ?_, fun o ho hrounds => ?_⟩
    · rw [hnone] at h0 h1
      exact ⟨h0, h1⟩
    · rw [ho] at h0 h1
      have h0 : b w (2 * m) = (byte (bitAt true 7 + o.mode.toBit)).toNat := h0
      have h1 : b w (2 * m + 1) = (byte o.rounds).toNat := h1
      rw [h0, h1, byte_toNat, byte_toNat, Nat.mod_eq_of_lt hrounds]
      refine ⟨?_, rfl⟩
      cases o.mode <;> rfl
  · intro i hi w
    have hlen : ∀ r ∈ s.checker.history, (historyRecord r).length = 6 := fun _ _ => rfl
    refine ⟨fun hnone j hj => ?_, fun r hr hsender hkind hrepeats => ?_⟩
    · exact congrArg BitVec.toNat (getD_fitTo_flatMap_of_none hlen hnone (by omega))
    · have hstands := (standsAt_flatMap hlen hr).fitTo (size := 48)
        (by rw [hlen r (List.mem_of_getElem? hr)]; omega)
      obtain ⟨hflags, hreason, hrest⟩ := historyRecord_shown hstands hsender hkind hrepeats
      have hreason : b w (6 * i) % 16 = r.reason.toCode := hreason
      refine ⟨hflags, ?_, ?_, hrest⟩
      · rw [hreason]
        cases r.reason <;> rfl
      · rw [hreason]
        exact r.reason.toCode_lt.1
  · intro himage
    unfold State.configWindow
    rw [himage]
    rfl
  · intro hlen
    unfold State.configWindow
    have hfits := take_fitTo (size := 36) (bytes := s.loader.image) (by omega)
    rwa [hlen, List.take_of_length_le (by rw [length_fitTo])] at hfits
  · simp [State.ready]
  · simp [State.lde]
  · intro hphase
    exact if_neg (by simpa [State.lde] using hphase)
  · intro hphase
    unfold State.ltx
    rw [if_pos (by simpa [State.lde] using hphase)]
    congr 1
    funext f
    unfold lineLevels bitsOfBytes
    rw [List.map_flatMap]
    rfl

end Sys2Proof.Machine
end

section
/-! PROOFS. No command reads or changes the queue, and a command completes exactly where it is well formed
(R162, R172). -/

namespace Sys2Proof.Machine

/-! ## Updates that do not see the queue -/

/-- The state with another queue. -/
def State.withQueue (s : State) (q : List Instr) : State := { s with pending := q }

/-- An update that neither reads nor changes the queue. -/
def Blind (f : State → State) : Prop := ∀ s q, f (s.withQueue q) = (f s).withQueue q

section Blind
variable {f g : State → State}

theorem Blind.same : Blind (fun s => s) := fun _ _ => rfl

theorem Blind.comp (hg : Blind g) (hf : Blind f) : Blind (fun s => g (f s)) := fun s q => by
  change g (f (s.withQueue q)) = _
  rw [hf s q, hg (f s) q]

theorem Blind.ite {c : State → Prop} [∀ s, Decidable (c s)] (hc : ∀ s q, c (s.withQueue q) = c s)
    (hf : Blind f) (hg : Blind g) : Blind (fun s => if c s then f s else g s) := fun s q => by
  by_cases h : c s
  · simp only [h, hc s q, if_true, hf s q]
  · simp only [h, hc s q, if_false, hg s q]

/-- An update chosen by what the queue does not change. -/
theorem Blind.of_read {α : Type} {x : State → α} {h : α → State → State}
    (hx : ∀ s q, x (s.withQueue q) = x s) (hh : ∀ a, Blind (h a)) : Blind (fun s => h (x s) s) :=
  fun s q => by
    change h (x (s.withQueue q)) (s.withQueue q) = _
    rw [hx s q, hh (x s) s q]

end Blind

/-! ## The station's changes of state -/

theorem blind_leaveMembership (st : Station) : Blind (·.leaveMembership st) := fun _ _ => rfl

theorem blind_enterFaultState (st : Station) (code : FaultCode) :
    Blind (·.enterFaultState st code) := fun _ _ => rfl

theorem blind_enterListen : Blind State.enterListen := fun _ _ => rfl

theorem blind_enterOffline : Blind State.enterOffline := fun _ _ => rfl

theorem blind_enterJoining : Blind State.enterJoining := fun _ _ => rfl

theorem blind_enterLeaving : Blind State.enterLeaving := fun _ _ => rfl

theorem blind_enterIsolated : Blind State.enterIsolated := fun _ _ => rfl

theorem blind_removeOwnEntry : Blind State.removeOwnEntry := fun _ _ => rfl

theorem blind_endLeaving : Blind State.endLeaving :=
  .ite (fun _ _ => rfl) (blind_enterJoining.comp blind_enterOffline) blind_enterOffline

theorem blind_conflictEvidence : Blind State.conflictEvidence :=
  .ite (fun _ _ => rfl) (blind_enterFaultState _ _) .same

theorem blind_endListen : Blind State.endListen :=
  .ite (fun _ _ => rfl) (blind_enterFaultState _ _) blind_enterJoining

theorem blind_endIsolated : Blind State.endIsolated := by
  have hempty : Blind (fun s => { s with snap := .empty, ctl := { s.ctl with observed := 1 } }) :=
    fun _ _ => rfl
  exact .ite (fun _ _ => rfl) (blind_enterListen.comp hempty) (blind_enterOffline.comp hempty)

/-! ## The boundary -/

theorem blind_countBoundary (kind : BoundaryKind) : Blind (·.countBoundary kind) := by
  cases kind <;> exact fun _ _ => rfl

theorem blind_evaluateIsolation : Blind State.evaluateIsolation :=
  .ite (fun _ _ => rfl) blind_enterIsolated (.ite (fun _ _ => rfl) (fun _ _ => rfl) .same)

/-- The monitor's look by the own entry it finds (R125). -/
def State.lookAt (s : State) : Option ShedOrder → State
  | some o => if o.rounds = 1 then s.writeItem (some s.cfg.order) else s
  | none => s.writeItem (some s.cfg.order)

theorem blind_monitorLook : Blind State.monitorLook := by
  have hlook : Blind (fun s => s.lookAt s.ownShedEntry) := by
    refine .of_read (x := State.ownShedEntry) (h := fun o s => s.lookAt o) (fun _ _ => rfl) ?_
    rintro (- | o)
    · exact fun _ _ => rfl
    · exact .ite (fun _ _ => rfl) (fun _ _ => rfl) .same
  exact .ite (fun _ _ => rfl) hlook .same

theorem blind_shedCountdown : Blind State.shedCountdown := by
  have hcount : Blind (fun s => State.formLimit { s with
    shed := { s.shed with table := s.shed.table.map countDown } }) := fun _ _ => rfl
  exact blind_monitorLook.comp hcount

theorem blind_ownAdmission (decision : Option Bool) : Blind (·.ownAdmission decision) := by
  rcases decision with - | - | -
  · exact .same
  · exact .ite (fun _ _ => rfl) (fun _ _ => rfl) .same
  · exact .ite (fun _ _ => rfl) (fun _ _ => rfl) .same

theorem blind_tablePart (kind : BoundaryKind) (isolating : Bool) :
    Blind (·.tablePart kind isolating) := by
  have hstages : Blind (·.tableStages kind) := by
    have hmove : Blind (fun s => { s with
      table := s.table.stages s.cfg kind s.ownAddr (s.ctl.station == .isolated) }) := fun _ _ => rfl
    intro s q
    have hadmission := blind_ownAdmission (s.ownReport kind)
    exact (hadmission.comp hmove) s q
  cases isolating
  · exact hstages
  · exact fun _ _ => rfl

theorem blind_shareStage (kind : BoundaryKind) (own : Bool) (set : List (Nat × Confirmation)) :
    Blind (·.shareStage kind own set) := by
  intro s q
  by_cases hst : s.ctl.station = .active
  · have hst' : (s.withQueue q).ctl.station = .active := hst
    dsimp only
    rw [State.shareStage_of_active hst, State.shareStage_of_active hst']
    rfl
  · have hst' : (s.withQueue q).ctl.station ≠ .active := hst
    dsimp only
    rw [State.shareStage_of_ne_active hst, State.shareStage_of_ne_active hst']

theorem blind_boundaryStages (kind : BoundaryKind) : Blind (·.boundaryStages kind) := by
  intro s q
  have htable : (s.withQueue q).evaluateIsolation.shedCountdown.tablePart kind
        (s.withQueue q).isolates
      = (s.evaluateIsolation.shedCountdown.tablePart kind s.isolates).withQueue q :=
    ((blind_tablePart kind s.isolates).comp
      (blind_shedCountdown.comp blind_evaluateIsolation)) s q
  dsimp only
  unfold State.boundaryStages
  dsimp only
  rw [htable]
  exact blind_shareStage kind _ _ (State.allocateStage _ _) q

theorem blind_completeBoundary (began : Station) : Blind (·.completeBoundary began) := by
  have hobserve : Blind (fun s => { s with
    ctl := { s.ctl with observed := min (s.ctl.observed + 1) 2 } }) := fun _ _ => rfl
  have hlisten : Blind (fun s => if s.ctl.observed = 1 then
      State.endListen { s with ctl := { s.ctl with observed := min (s.ctl.observed + 1) 2 } }
    else { s with ctl := { s.ctl with observed := min (s.ctl.observed + 1) 2 } }) :=
    .ite (fun _ _ => rfl) (blind_endListen.comp hobserve) hobserve
  cases began
  case listen => exact hlisten
  case isolated => exact blind_endIsolated
  case offline => exact hobserve
  all_goals exact .same

theorem blind_boundary (kind : BoundaryKind) : Blind (·.boundary kind) := by
  have hwork : Blind (fun s => s.boundaryWork kind) := fun s q =>
    ((blind_completeBoundary s.ctl.station).comp (blind_boundaryStages kind)) s q
  exact .ite (fun _ _ => rfl) (hwork.comp (blind_countBoundary kind)) (blind_countBoundary kind)

/-! ## The rotation and the own burst -/

theorem blind_openOwnSlot : Blind State.openOwnSlot :=
  .ite (fun _ _ => rfl) (fun _ _ => rfl) (fun _ _ => rfl)

theorem blind_openSlot (a : Nat) : Blind (·.openSlot a) := by
  have hmove : Blind (fun s => { s with rotation := { s.rotation with rot := a, slot := .window } }) :=
    fun _ _ => rfl
  exact .ite (fun _ _ => rfl) (blind_openOwnSlot.comp hmove) hmove

theorem blind_advance : Blind State.advance := by
  have hnext : Blind (fun s => s.openSlot (s.rotation.rot + 1)) :=
    .of_read (x := fun s => s.rotation.rot + 1) (h := fun a s => s.openSlot a) (fun _ _ => rfl)
      blind_openSlot
  exact .ite (fun _ _ => rfl) hnext ((blind_openSlot 0).comp (blind_boundary .ordinary))

theorem blind_framesNotSent (frames : List Frame) : Blind (·.framesNotSent frames) := by
  have hcount : Blind (fun s => { s with
    sched := { s.sched with leaveAttempts := s.sched.leaveAttempts + 1 } }) := fun _ _ => rfl
  exact .ite (fun _ _ => rfl) (.ite (fun _ _ => rfl) (blind_endLeaving.comp hcount) hcount) .same

theorem blind_dropBurst : Blind State.dropBurst := fun _ _ => rfl

theorem blind_defer : Blind State.defer :=
  .of_read (x := fun s => s.line.burst) (h := fun frames s => s.dropBurst.framesNotSent frames)
    (fun _ _ => rfl) (fun frames => (blind_framesNotSent frames).comp blind_dropBurst)

theorem blind_countCollision : Blind State.countCollision := by
  have hcount : Blind (fun s => State.count { s with
    sched := { s.sched with collisionRun := s.sched.collisionRun + 1 } } .collisions) :=
    fun _ _ => rfl
  exact .ite (fun _ _ => rfl) ((blind_enterFaultState _ _).comp hcount) hcount

theorem blind_collide : Blind State.collide :=
  .of_read (x := fun s => s.line.burst)
    (h := fun frames s => s.dropBurst.countCollision.framesNotSent frames) (fun _ _ => rfl)
    (fun frames => (blind_framesNotSent frames).comp (blind_countCollision.comp blind_dropBurst))

theorem blind_shedSent (o : ShedOrder) : Blind (·.shedSent o) :=
  .ite (fun _ _ => rfl) (fun _ _ => rfl) (fun _ _ => rfl)

theorem blind_frameEffect (f : Frame) : Blind (·.frameEffect f) := by
  cases f with
  | shed _ o _ => exact blind_shedSent o
  | join => exact fun _ _ => rfl
  | claim => exact fun _ _ => rfl
  | leave => exact .ite (fun _ _ => rfl) blind_endLeaving .same

/-! ## The end of a frame -/

theorem blind_resync (a : Nat) : Blind (·.resync a) := by
  have hrot : Blind (·.takeRot a) := fun _ _ => rfl
  exact .ite (fun _ _ => rfl) (.ite (fun _ _ => rfl)
    (.ite (fun _ _ => rfl) (hrot.comp (blind_boundary .lost)) (.ite (fun _ _ => rfl) hrot .same))
    (fun _ _ => rfl)) .same

theorem blind_discard (reason : Reason) (body : List Byte) : Blind (·.discard reason body) := by
  have hrecord : Blind (·.recordDiscard reason body) := fun _ _ => rfl
  cases reason
  case self => exact blind_conflictEvidence.comp hrecord
  all_goals exact fun _ _ => rfl

theorem blind_settleVerdict (v : Verdict) (body : List Byte) : Blind (·.settleVerdict v body) := by
  cases v with
  | accepted f => cases f <;> exact fun _ _ => rfl
  | discarded reason => exact blind_discard reason body

theorem blind_endOfFrame (r : FrameReport) : Blind (·.endOfFrame r) := by
  have hsettle : Blind (fun s => s.settleVerdict (s.judge r) r.body) :=
    .of_read (x := fun s => s.judge r) (h := fun v s => s.settleVerdict v r.body) (fun _ _ => rfl)
      (fun v => blind_settleVerdict v r.body)
  have hresync : Blind (fun s => if r.crcValid then s.resync (senderOf r.body) else s) :=
    .ite (fun _ _ => rfl) (blind_resync _) .same
  exact hsettle.comp hresync

/-! ## Start-up, EN and the measurement -/

theorem blind_attemptFailure (stop : Bool) : Blind (·.attemptFailure stop) :=
  .ite (fun _ _ => rfl) (.ite (fun _ _ => rfl) (fun _ _ => rfl) (fun _ _ => rfl)) .same

theorem blind_trigger (mark : Bool) : Blind (·.trigger mark) := by
  intro s q
  by_cases hidle : s.meas.scan = .idle
  · dsimp only
    rw [State.trigger_of_idle hidle, State.trigger_of_idle (s := s.withQueue q) hidle]
    rfl
  · dsimp only
    rw [State.trigger_of_running hidle, State.trigger_of_running (s := s.withQueue q) hidle]
    rfl

theorem blind_deliver (block : List Byte) : Blind (·.deliver block) := by
  have hconfigure : Blind (fun s => { s.configure block with
    drive := ⟨some 0, 0, 0, false, false⟩ }) := fun _ _ => rfl
  intro s q
  dsimp only
  rw [State.deliver_eq, State.deliver_eq, State.firstPeriod_eq, State.firstPeriod_eq,
    show State.trigger _ false = _ from ((blind_trigger false).comp hconfigure) s q]
  rfl

theorem blind_settledHigh : Blind State.settledHigh := by
  intro s q
  by_cases hoff : s.ctl.station = .offline
  · rw [State.settledHigh_of_offline hoff, State.settledHigh_of_offline (s := s.withQueue q) hoff]
    exact Blind.ite (c := fun s => s.rotation.synced = true ∧ s.ctl.observed = 2) (fun _ _ => rfl)
      blind_enterJoining blind_enterListen s q
  · rw [State.settledHigh_of_ne_offline hoff,
      State.settledHigh_of_ne_offline (s := s.withQueue q) hoff]

/-- What EN settling low does in a state (R99). -/
def State.standDown (s : State) : Station → State
  | .listen => s.enterOffline
  | .joining => if s.ctl.joinComposed then s.enterLeaving else s.removeOwnEntry.enterOffline
  | .deferred => s.enterLeaving
  | .active => s.enterLeaving
  | _ => s

theorem State.settledLow_eq (s : State) : s.settledLow = s.standDown s.ctl.station := rfl

theorem blind_settledLow : Blind State.settledLow := by
  have hdown (st : Station) : Blind (·.standDown st) := by
    cases st
    case listen => exact blind_enterOffline
    case joining =>
      exact .ite (fun _ _ => rfl) blind_enterLeaving (blind_enterOffline.comp blind_removeOwnEntry)
    case deferred => exact blind_enterLeaving
    case active => exact blind_enterLeaving
    all_goals exact .same
  exact fun s q => hdown s.ctl.station s q

theorem blind_judgeOverdraw : Blind State.judgeOverdraw :=
  .ite (fun _ _ => rfl) (.ite (fun _ _ => rfl) (fun _ _ => rfl) (fun _ _ => rfl)) .same

theorem blind_judgeFeed : Blind State.judgeFeed := by
  have hjudge : Blind (fun s => { s with meas := { s.meas with
    feedDet := s.meas.feedDet.judge s.cfg.persistence (feedClass s.cfg s.meas.feed) } }) :=
    fun _ _ => rfl
  have htrip : Blind State.feedTrip := .ite (fun _ _ => rfl) (fun _ _ => rfl) .same
  have hclear : Blind State.feedClear :=
    .ite (fun _ _ => rfl) (.ite (fun _ _ => rfl) (fun _ _ => rfl) (fun _ _ => rfl)) .same
  exact .ite (fun _ _ => rfl) (.ite (fun _ _ => rfl) (htrip.comp hjudge)
    (.ite (fun _ _ => rfl) (hclear.comp hjudge) hjudge)) .same

theorem blind_stageAndLimiter (mark : Bool) : Blind (·.stageAndLimiter mark) :=
  .ite (fun _ _ => rfl) (.ite (fun _ _ => rfl) (fun _ _ => rfl) (fun _ _ => rfl)) (fun _ _ => rfl)

theorem blind_completeScan (mark : Bool) (isns dem feed : BitVec 10) :
    Blind (·.completeScan mark isns dem feed) := by
  have hvalues : Blind (·.formValues isns dem feed) := fun _ _ => rfl
  exact (blind_stageAndLimiter mark).comp (blind_judgeFeed.comp (blind_judgeOverdraw.comp hvalues))

/-! ## Every command -/

/-- What a carrier does by where the own burst stands (R3, R10, R11). -/
def State.carrierAt (s : State) : TxPhase → State
  | .startDelay => s.carrier.defer
  | .frameGap => s.carrier.collide
  | .quiet => s.carrier
  | .sending => s.carrier

theorem blind_carrierAt (phase : TxPhase) : Blind (·.carrierAt phase) := by
  have hcarrier : Blind State.carrier := fun _ _ => rfl
  cases phase
  · exact hcarrier
  · exact blind_defer.comp hcarrier
  · exact hcarrier
  · exact blind_collide.comp hcarrier

/-- What the frame at the front of the burst does when it has been sent (R12, R115). -/
def State.sentFrom (s : State) : List Frame → State
  | f :: rest => ((s.frameEnded rest).countSent).frameEffect f
  | [] => s

theorem blind_sentFrom (burst : List Frame) : Blind (·.sentFrom burst) := by
  cases burst with
  | nil => exact .same
  | cons f rest =>
    have hsent : Blind (fun s => (s.frameEnded rest).countSent) := fun _ _ => rfl
    exact (blind_frameEffect f).comp hsent

/-- What a completed scan does by the scan that runs (R135, R138). -/
def State.completionOf (s : State) (isns dem feed : BitVec 10) : Scan → State
  | .running _ mark => s.completeScan mark isns dem feed
  | .idle => s

theorem blind_completionOf (isns dem feed : BitVec 10) (scan : Scan) :
    Blind (·.completionOf isns dem feed scan) := by
  cases scan with
  | idle => exact .same
  | running _ mark => exact blind_completeScan mark isns dem feed

/-- What a completed read does by the code of its checks (R164). -/
def State.readEnds (s : State) (block : List Byte) : Option FaultCode → State
  | none => (s.takeImage block).deliver block
  | some code => (s.takeImage block).endConfigFaulted code

theorem blind_readEnds (block : List Byte) (code : Option FaultCode) :
    Blind (·.readEnds block code) := by
  have htake : Blind (·.takeImage block) := fun _ _ => rfl
  cases code with
  | none => exact (blind_deliver block).comp htake
  | some code => exact fun _ _ => rfl

theorem exec_configReadComplete_eq {block : List Byte} (hlen : block.length = blockLength)
    (s : State) : exec (.configReadComplete block) s = .next (
      if s.attempting then s.readEnds block (checkBlock block s.strapsNow) else s) := by
  change execConfigReadComplete block s = _
  unfold execConfigReadComplete
  rw [if_pos hlen]
  split_ifs with hatt
  · cases checkBlock block s.strapsNow <;> rfl
  · rfl

theorem exec_scanCompletion_eq (isns dem feed : BitVec 10) (s : State) :
    exec (.scanCompletion isns dem feed) s = .next (
      if s.ctl.station.working then s.completionOf isns dem feed s.meas.scan else s) := by
  change execScanCompletion isns dem feed s = _
  unfold execScanCompletion
  cases s.meas.scan <;> rfl

theorem exec_carrierBegins_eq (s : State) : exec .carrierBegins s = .next (
    if s.lineFree then s.carrierAt s.line.phase else s) := by
  change execCarrierBegins s = _
  unfold execCarrierBegins
  cases s.line.phase <;> rfl

theorem exec_frameSent_eq (s : State) : exec .frameSent s = .next (
    if s.line.phase = .sending then s.sentFrom s.line.burst else s) := by
  change execFrameSent s = _
  unfold execFrameSent
  cases s.line.burst <;> rfl

/-- A well-formed command completes, in a state that an update blind for the queue gives. -/
theorem exists_blind_of_wellFormed {c : Instr} (h : c.wellFormed = true) :
    ∃ f, Blind f ∧ ∀ s, exec c s = .next (f s) := by
  cases c with
  | powerOnReset => exact ⟨_, fun _ _ => rfl, fun _ => rfl⟩
  | resetNFall => exact ⟨_, fun _ _ => rfl, fun _ => rfl⟩
  | resetNRise addr role =>
    refine ⟨_, ?_, fun _ => rfl⟩
    exact .ite (fun _ _ => rfl) .same (.ite (fun _ _ => rfl) (fun _ _ => rfl) (fun _ _ => rfl))
  | powerOnResetEnd addr role =>
    refine ⟨_, ?_, fun _ => rfl⟩
    exact .ite (fun _ _ => rfl) (.ite (fun _ _ => rfl) (fun _ _ => rfl) (fun _ _ => rfl)) .same
  | notAcknowledged => exact ⟨_, blind_attemptFailure true, fun _ => rfl⟩
  | lostLevel => exact ⟨_, blind_attemptFailure true, fun _ => rfl⟩
  | busNotFree => exact ⟨_, blind_attemptFailure false, fun _ => rfl⟩
  | clockHeld => exact ⟨_, blind_attemptFailure false, fun _ => rfl⟩
  | overtime => exact ⟨_, blind_attemptFailure true, fun _ => rfl⟩
  | retryGapEnd =>
    refine ⟨_, ?_, fun _ => rfl⟩
    exact .ite (fun _ _ => rfl) (fun _ _ => rfl) .same
  | configReadComplete block =>
    refine ⟨_, ?_, exec_configReadComplete_eq (by simpa [Instr.wellFormed] using h)⟩
    exact .ite (fun _ _ => rfl) (fun s => blind_readEnds block (checkBlock block s.strapsNow) s) .same
  | enLevelChange => exact ⟨_, fun _ _ => rfl, fun _ => rfl⟩
  | enSettlesHigh =>
    have hsettle : Blind (·.settle true) := fun _ _ => rfl
    refine ⟨_, ?_, fun _ => rfl⟩
    exact .ite (fun _ _ => rfl) (blind_settledHigh.comp hsettle) .same
  | enSettlesLow =>
    have hsettle : Blind (·.settle false) := fun _ _ => rfl
    refine ⟨_, ?_, fun _ => rfl⟩
    exact .ite (fun _ _ => rfl) (blind_settledLow.comp hsettle) .same
  | carrierBegins =>
    refine ⟨_, ?_, exec_carrierBegins_eq⟩
    exact .ite (fun _ _ => rfl) (fun s => blind_carrierAt s.line.phase s) .same
  | startMark =>
    refine ⟨_, ?_, fun _ => rfl⟩
    exact .ite (fun _ _ => rfl) (fun _ _ => rfl) .same
  | badStartMark =>
    refine ⟨_, ?_, fun _ => rfl⟩
    exact .ite (fun _ _ => rfl) (fun _ _ => rfl) .same
  | codingViolation =>
    refine ⟨_, ?_, fun _ => rfl⟩
    exact .ite (fun _ _ => rfl) (fun _ _ => rfl) .same
  | frameReport bits =>
    have hidle : Blind State.lineIdle := fun _ _ => rfl
    refine ⟨_, ?_, fun _ => rfl⟩
    exact .ite (fun _ _ => rfl)
      (fun s => ((blind_endOfFrame (lineReport s.line.receiver bits)).comp hidle) s) .same
  | slotWindowEnd =>
    refine ⟨_, ?_, fun _ => rfl⟩
    exact .ite (fun _ _ => rfl) blind_advance .same
  | releaseGapEnd =>
    refine ⟨_, ?_, fun _ => rfl⟩
    exact .ite (fun _ _ => rfl) blind_advance .same
  | startDelayEnd =>
    refine ⟨_, ?_, fun _ => rfl⟩
    exact .ite (fun _ _ => rfl) (.ite (fun _ _ => rfl) (fun _ _ => rfl) blind_dropBurst) .same
  | interFrameGapEnd =>
    refine ⟨_, ?_, fun _ => rfl⟩
    exact .ite (fun _ _ => rfl) (fun _ _ => rfl) .same
  | frameSent =>
    refine ⟨_, ?_, exec_frameSent_eq⟩
    exact .ite (fun _ _ => rfl) (fun s => blind_sentFrom s.line.burst s) .same
  | abort =>
    have habort : Blind State.abortLine := fun _ _ => rfl
    refine ⟨_, ?_, fun _ => rfl⟩
    exact .ite (fun _ _ => rfl) (blind_collide.comp habort) .same
  | silenceTimerExpiry =>
    have hsync : Blind (fun s => State.enterJoining { s with
      rotation := { s.rotation with synced := true, rot := 0 }
      ctl := { s.ctl with observed := 2 } }) := fun _ _ => rfl
    refine ⟨_, ?_, fun _ => rfl⟩
    exact .ite (fun _ _ => rfl) (.ite (fun _ _ => rfl) (blind_enterFaultState _ _)
      ((blind_openSlot 0).comp hsync)) .same
  | periodStart =>
    have hnext : Blind (fun s => { s with drive := s.drive.nextPeriod }) := fun _ _ => rfl
    refine ⟨_, ?_, fun _ => rfl⟩
    exact .ite (fun _ _ => rfl) (.ite (fun _ _ => rfl)
      (fun s => ((blind_trigger s.drive.driveOffMark).comp hnext) s) hnext) .same
  | dutyEnd =>
    refine ⟨_, ?_, fun _ => rfl⟩
    exact .ite (fun _ _ => rfl) (fun _ _ => rfl) .same
  | scanCompletion isns dem feed =>
    refine ⟨_, ?_, exec_scanCompletion_eq isns dem feed⟩
    exact .ite (fun _ _ => rfl) (fun s => blind_completionOf isns dem feed s.meas.scan s) .same
  | scsNFall =>
    refine ⟨_, ?_, fun _ => rfl⟩
    exact .ite (fun _ _ => rfl) (.ite (fun _ _ => rfl) (fun _ _ => rfl) (fun _ _ => rfl)) .same
  | scsNRise =>
    refine ⟨_, ?_, fun _ => rfl⟩
    exact .ite (fun _ _ => rfl) .same (fun _ _ => rfl)
  | read =>
    refine ⟨_, ?_, fun _ => rfl⟩
    exact .ite (fun _ _ => rfl) (fun _ _ => rfl) .same
  | readWindowCode code =>
    refine ⟨_, ?_, fun _ => rfl⟩
    exact .ite (fun _ _ => rfl) (.ite (fun _ _ => rfl) (fun _ _ => rfl) (fun _ _ => rfl)) .same
  | readCapture offset =>
    refine ⟨_, ?_, fun _ => rfl⟩
    exact .ite (fun _ _ => rfl) (fun _ _ => rfl) .same
  | snapshot =>
    refine ⟨_, ?_, fun _ => rfl⟩
    exact .ite (fun _ _ => rfl) (fun _ _ => rfl) .same
  | snapshotClear =>
    refine ⟨_, ?_, fun _ => rfl⟩
    exact .ite (fun _ _ => rfl) (fun _ _ => rfl) .same
  | historyClear =>
    refine ⟨_, ?_, fun _ => rfl⟩
    exact .ite (fun _ _ => rfl) (fun _ _ => rfl) .same
  | refusedCommand byte =>
    have hcode : ¬ isCommandByte byte = true := by simpa [Instr.wellFormed] using h
    refine ⟨fun s => if s.awaitsCommand then
        { s with port := { (s.port.record .refused false).next .ignore with command := none } }
      else s, ?_, fun _ => if_neg hcode⟩
    exact .ite (fun _ _ => rfl) (fun _ _ => rfl) .same

/-- A command that is not well formed is refused (R162, R172). -/
theorem exec_of_not_wellFormed {c : Instr} (h : c.wellFormed = false) (s : State) :
    exec c s = .refused .malformed := by
  cases c with
  | configReadComplete block => exact if_neg (by simpa [Instr.wellFormed] using h)
  | refusedCommand byte => exact if_pos (by simpa [Instr.wellFormed] using h)
  | _ => cases h

/-- Settles O2: a command completes by a blind update, or is refused in every state. -/
theorem noCommandReadsOrChangesTheQueue : Obligations.NoCommandReadsOrChangesTheQueue := by
  intro c q s
  cases h : c.wellFormed
  · rw [exec_of_not_wellFormed h, exec_of_not_wellFormed h]
  · obtain ⟨f, hf, hexec⟩ := exists_blind_of_wellFormed h
    rw [hexec, hexec]
    exact congrArg Host.Outcome.next (hf s q)

/-- Settles O3. -/
theorem wellFormedCommandsAlwaysComplete : Obligations.WellFormedCommandsAlwaysComplete := by
  refine fun c s => ⟨fun h => ?_, fun h => exec_of_not_wellFormed h s⟩
  obtain ⟨f, -, hexec⟩ := exists_blind_of_wellFormed h
  exact ⟨f s, hexec s⟩

end Sys2Proof.Machine
end

section
/-! PROOFS. The configuration block, its delivery, and the end of EN (R99, R164 to R167, R184). -/

namespace Sys2Proof.Machine

/-! ## The value check -/

/-- The ranges that every role requires, as R184 lists them (R165). -/
theorem commonInRange_iff (block : List Byte) :
    let c := Settings.ofBlock block
    commonInRange block = true ↔
      (1 ≤ c.budget ∧ c.budget ≤ 4000) ∧ blockByte block 4 ≤ 2 ∧ blockByte block 5 ≤ 2
        ∧ (2 ≤ c.tIsolate ∧ c.tIsolate ≤ 15) ∧ c.tOrphan ≤ 4000
        ∧ (1 ≤ c.expected ∧ c.expected ≤ c.nSlots) ∧ c.floor ≤ c.ceiling
        ∧ (1 ≤ c.ceiling ∧ c.ceiling ≤ c.budget) ∧ (1 ≤ c.weight ∧ c.weight ≤ 15)
        ∧ (1 ≤ c.demandStep ∧ c.demandStep ≤ 64) ∧ (1 ≤ c.iScale ∧ c.iScale ≤ 4095)
        ∧ c.margin ≤ 255 ∧ (1 ≤ c.persistence ∧ c.persistence ≤ 16)
        ∧ (200 ≤ c.period ∧ c.period ≤ 8000) ∧ 1 ≤ c.stepUp ∧ 1 ≤ c.stepDown
        ∧ blockByte block 25 ≤ 1 := by
  simp only [commonInRange, Bool.and_eq_true, decide_eq_true_eq, and_assoc]
  exact ⟨fun ⟨h4, h5, hb1, hb2, h⟩ => ⟨hb1, hb2, h4, h5, h⟩,
    fun ⟨hb1, hb2, h4, h5, h⟩ => ⟨h4, h5, hb1, hb2, h⟩⟩

/-- The ranges of the monitor fields (R165, R166). -/
theorem monitorInRange_iff (block : List Byte) :
    let c := Settings.ofBlock block
    monitorInRange block = true ↔
      (1 ≤ c.fScale ∧ c.fScale ≤ 8000) ∧ (1 ≤ c.feedLimit ∧ c.feedLimit ≤ c.fScale)
        ∧ c.hysteresis < c.feedLimit ∧ (1 ≤ c.shedLen ∧ c.shedLen ≤ 63) ∧ blockByte block 33 ≤ 1
        ∧ blockByte block 34 ≤ 1 := by
  simp only [monitorInRange, Bool.and_eq_true, decide_eq_true_eq, and_assoc, Nat.succ_le_iff]

/-- Settles O9: the check of the values is the conjunction of the ranges of R184, the straps' among
them. -/
theorem valueCheckIsTheTableOfRanges : Obligations.ValueCheckIsTheTableOfRanges := by
  intro block p b w slots
  have hvalues : valuesInRange block p = true ↔ commonInRange block = true ∧ p.addr < slots
      ∧ (p.role = .monitor → p.addr < 4 ∧ monitorInRange block = true) := by
    have hslots : (Settings.ofBlock block).nSlots = slots := rfl
    simp only [valuesInRange, strapsAgree, hslots, Bool.and_eq_true, Bool.or_eq_true,
      decide_eq_true_eq]
    cases p.role
    · simp
    · simp [and_assoc]
  refine hvalues.trans ⟨fun ⟨hcommon, haddr, hmonitor⟩ => ?_, fun h => ?_⟩
  · obtain ⟨h1, h2, h3, h4, h5, h6, h7, h8, h9, h10, h11, h12, h13, h14, h15, h16, h17⟩ :=
      (commonInRange_iff block).1 hcommon
    exact ⟨h1, h2, h3, h4, h5, h6, h7, h8, h9, h10, h11, h12, h13, h14, h15, h16, h17, haddr,
      fun hrole => (hmonitor hrole).imp_right (monitorInRange_iff block).1⟩
  · obtain ⟨h1, h2, h3, h4, h5, h6, h7, h8, h9, h10, h11, h12, h13, h14, h15, h16, h17, haddr,
      hmonitor⟩ := h
    exact ⟨(commonInRange_iff block).2 ⟨h1, h2, h3, h4, h5, h6, h7, h8, h9, h10, h11, h12, h13, h14,
      h15, h16, h17⟩, haddr, fun hrole => (hmonitor hrole).imp_right (monitorInRange_iff block).2⟩

/-! ## Delivery -/

/-- Eight bytes of a long enough block, one by one. -/
theorem take_drop_eq_getD {block : List Byte} (h : 9 ≤ block.length) :
    (block.drop 1).take 8 = [block.getD 1 0, block.getD 2 0, block.getD 3 0, block.getD 4 0,
      block.getD 5 0, block.getD 6 0, block.getD 7 0, block.getD 8 0] := by
  refine List.ext_getElem (by simp; omega) (fun i hi hi' => ?_)
  have hi : i < 8 := hi'
  rw [List.getElem_take, List.getElem_drop]
  interval_cases i <;> exact (List.getD_eq_getElem _ _ _).symm

/-- The settings of a block as R184 lists them. -/
theorem Settings.ofBlock_eq (block : List Byte) :
    let b := fun (n : Nat) => (block.getD (n - 1) 0).toNat
    let w := fun (n : Nat) => b n * 256 + b (n + 1)
    Settings.ofBlock block = {
      budget := w 2, nSlots := 8 * 2 ^ b 4, bitRate := b 5, tIsolate := b 6, tOrphan := w 7
      expected := b 9, floor := w 10, ceiling := w 12, weight := b 14, demandStep := b 15
      iScale := w 16, margin := w 18, persistence := b 20, period := w 21, stepUp := b 23
      stepDown := b 24, longSample := decide (b 25 = 1), fScale := w 26, feedLimit := w 28
      hysteresis := w 30, shedLen := b 32, shedMode := if b 33 = 1 then .zero else .floor
      releaseEnable := decide (b 34 = 1) } := by
  intro b w
  have hbit (n : Nat) : (blockByte block n == 1) = decide (b n = 1) := rfl
  unfold Settings.ofBlock
  rw [hbit, hbit, hbit]
  have hmode : shedModeOfBit (decide (b 33 = 1)) = if b 33 = 1 then .zero else .floor := by
    by_cases h : b 33 = 1 <;> simp [h, shedModeOfBit]
  rw [hmode]
  rfl

/-- Settles O11: what a block that passes the checks starts (R20, R97, R149, R162, R167). -/
theorem validBlockStartsEveryBlock : Obligations.ValidBlockStartsEveryBlock := by
  intro s block hlen hst hload hidle hcrc hversion hvalues b w
  have hcheck : checkBlock block s.strapsNow = none := by
    have hcrc : (crc (block.take 34)).toNat = blockWord block 35 := hcrc
    have hversion : blockByte block 1 = 1 := hversion
    unfold checkBlock
    rw [if_neg (not_not.2 hcrc), if_neg (not_not.2 hversion)]
    exact if_pos hvalues
  rw [exec_configReadComplete_of_valid hlen (by simp [State.attempting, hst, hload]) hcheck,
    State.deliver_eq, State.firstPeriod_eq,
    State.trigger_of_idle (s := { (s.takeImage block).configure block with
      drive := ⟨some 0, 0, 0, false, false⟩ }) hidle]
  have hdigest := take_drop_eq_getD (block := block) (by omega)
  have hcfg := Settings.ofBlock_eq block
  dsimp only at hcfg
  dsimp only [State.configure, State.takeImage, groupDigest]
  rw [hdigest, hcfg]
  rfl

/-! ## EN settling low -/

/-- Leaving membership, block by block (R89, R92, R107). -/
theorem State.leaveMembership_eq (s : State) {st : Station} (h : st ≠ .active) :
    s.leaveMembership st = { s with
      ctl := { s.ctl with
        station := st, isolationA := 0, isolationB := 0, heardMeRound := false
        acceptedRound := false }
      share := { applied := 0, pending := none, limit := 0 }
      meas := { s.meas with overdraw := ⟨false, none⟩ }
      drive := if 0 < s.share.limit then { s.drive with duty := 0, buffer := 0, level := false }
        else s.drive } := by
  have hshare := s.share_leaveMembership h
  have hdrive := s.drive_leaveMembership h
  calc s.leaveMembership st
      = { s.leaveMembership st with
          share := (s.leaveMembership st).share, drive := (s.leaveMembership st).drive } := rfl
    _ = _ := by rw [hshare, hdrive]; rfl

/-- Settles O14: EN settling low stands the station down by its state (R99, R107). -/
theorem enSettlingLowStandsTheStationDown : Obligations.EnSettlingLowStandsTheStationDown := by
  intro s hst hpin hset settled without
  have hexec : exec .enSettlesLow s = .next ((s.settle false).standDown s.ctl.station) := by
    change execEnSettlesLow s = _
    have hcan : s.canSettle false = true := by simp [State.canSettle, hst, hpin, hset]
    unfold execEnSettlesLow
    rw [if_pos hcan]
    rfl
  rw [hexec]
  refine ⟨fun hs => ?_, fun hs hjoin => ?_, fun hs => ?_, fun hs => ?_⟩
  · rw [hs]
    rfl
  · rw [hs]
    exact congrArg Host.Outcome.next (if_neg (by simp [State.settle, hjoin]))
  · have hleaves : (s.settle false).standDown s.ctl.station = (s.settle false).enterLeaving := by
      rcases hs with ⟨hs, hjoin⟩ | hs | hs
      · rw [hs]
        exact if_pos hjoin
      · rw [hs]
        rfl
      · rw [hs]
        rfl
    rw [hleaves]
    unfold State.enterLeaving
    rw [State.leaveMembership_eq _ (by nofun)]
    rfl
  · have hstands : (s.settle false).standDown s.ctl.station = s.settle false := by
      cases hs' : s.ctl.station <;> simp_all [State.standDown]
    rw [hstands]
    rfl

end Sys2Proof.Machine
end

section
/-! PROOFS. The I2C port on its wires: the freeing clocks, the transaction and what SDA reads back (R162,
R163). -/

namespace Sys2Proof.Machine

/-! ## Freeing the bus -/

/-- SDA low after the ninth clock: the bus is not free (R163). -/
theorem freeBus_of_low {low : Nat} (h : 9 < low) (rest : List Bool) :
    freeBus 0 (List.replicate low false ++ rest) = .notFree := by
  obtain ⟨n, rfl⟩ : ∃ n, low = 9 + (n + 1) := ⟨low - 10, by omega⟩
  rw [List.replicate_add, List.append_assoc, freeBus_replicate 0 9 _ (le_refl 9)]
  rfl

/-- SDA high after at most nine clocks: the bus is free (R163). -/
theorem freeBus_of_high {low : Nat} (h : low ≤ 9) (rest : List Bool) :
    freeBus 0 (List.replicate low false ++ [true] ++ rest) = .free low := by
  rw [List.append_assoc, freeBus_replicate 0 low _ (by omega), Nat.zero_add]
  rfl

/-- SDA low so far: the loader clocks (R163). -/
theorem freeBus_of_clocking {low : Nat} (h : low ≤ 9) :
    freeBus 0 (List.replicate low false) = .clocking := by
  have hfree := freeBus_replicate 0 low [] (by omega)
  rwa [List.append_nil] at hfree

/-- Once the bus is free the event of the attempt is that of the transfer (R163). -/
theorem attemptEvent_of_free {low : Nat} (h : low ≤ 9) (rest : List Bool) :
    attemptEvent (List.replicate low false ++ [true] ++ rest) = transferEvent rest := by
  unfold attemptEvent
  rw [freeBus_of_high h]
  dsimp only
  rw [List.drop_left' (by simp)]

/-! ## The transfer -/

/-- The periods of the three bytes the loader sends (R162). -/
def toldBits : List I2cBit :=
  (I2cOp.send 0xA0).bits ++ (I2cOp.send 0x00).bits ++ (I2cOp.send 0xA1).bits

/-- The periods of bytes the loader receives with an acknowledge each (R162). -/
def receivedBits (n : Nat) : List I2cBit := (List.replicate n (I2cOp.receive true)).flatMap I2cOp.bits

theorem transferBits_eq :
    transferBits = toldBits ++ (receivedBits 35 ++ (I2cOp.receive false).bits) := by
  decide +kernel

/-- What SDA reads while a byte is sent that the other side acknowledges or not (R162). -/
def readAs (acknowledge : Bool) (b : Byte) : List Bool := bitsOfByte b ++ [!acknowledge]

/-- What SDA reads over the three bytes told, each acknowledged (R162). -/
def toldReads : List Bool := ([0xA0, 0x00, 0xA1] : List Byte).flatMap (readAs true)

theorem length_readAs (acknowledge : Bool) (b : Byte) : (readAs acknowledge b).length = 9 := rfl

theorem length_flatMap_readAs (acknowledge : Bool) (bytes : List Byte) :
    (bytes.flatMap (readAs acknowledge)).length = 9 * bytes.length := by
  induction bytes with
  | nil => rfl
  | cons b bytes ih =>
    rw [List.flatMap_cons, List.length_append, ih, length_readAs, List.length_cons]
    ring

/-- The periods of a byte received give its bits, and none of them fails (R162). -/
theorem receive_zip (acknowledge : Bool) (b : Byte) :
    ((I2cOp.receive acknowledge).bits.zip (readAs acknowledge b)).filterMap
        (fun x => x.1.data x.2) = bitsOfByte b
      ∧ ((I2cOp.receive acknowledge).bits.zip (readAs acknowledge b)).findSome?
        (fun x => x.1.failure x.2) = none := ⟨rfl, rfl⟩

/-- So do those of any number of bytes. -/
theorem received_zip (bytes : List Byte) :
    ((receivedBits bytes.length).zip (bytes.flatMap (readAs true))).filterMap
        (fun x => x.1.data x.2) = bitsOfBytes bytes
      ∧ ((receivedBits bytes.length).zip (bytes.flatMap (readAs true))).findSome?
        (fun x => x.1.failure x.2) = none := by
  induction bytes with
  | nil => exact ⟨rfl, rfl⟩
  | cons b bytes ih =>
    obtain ⟨hdata, hfailure⟩ := receive_zip true b
    have hbits : receivedBits (bytes.length + 1)
        = (I2cOp.receive true).bits ++ receivedBits bytes.length := by
      unfold receivedBits
      rw [List.replicate_succ, List.flatMap_cons]
    have hlen : (I2cOp.receive true).bits.length = (readAs true b).length := rfl
    rw [List.length_cons, hbits, List.flatMap_cons, List.zip_append hlen]
    constructor
    · rw [List.filterMap_append, hdata, ih.1]
      rfl
    · rw [List.findSome?_append, hfailure, ih.2]
      rfl

/-- The bytes told give no data, and none of their periods fails where each is acknowledged (R162). -/
theorem told_zip :
    (toldBits.zip toldReads).filterMap (fun x => x.1.data x.2) = []
      ∧ (toldBits.zip toldReads).findSome? (fun x => x.1.failure x.2) = none := by decide +kernel

/-- A transfer of which no period failed, once it is clocked out (R162, R164). -/
theorem transferEvent_of_complete {sda : List Bool}
    (hnone : (transferBits.zip sda).findSome? (fun x => x.1.failure x.2) = none)
    (hlen : ¬ sda.length < transferBits.length) :
    transferEvent sda = some (.configReadComplete
      (gatherBytes ((transferBits.zip sda).filterMap (fun x => x.1.data x.2)))) := by
  unfold transferEvent
  dsimp only
  rw [hnone]
  exact if_neg hlen

/-- A transfer in which the memory answers completes the read (R162). -/
theorem transferEvent_of_answered (bytes : List Byte) (last : Byte) (h : bytes.length = 35) :
    transferEvent (toldReads ++ (bytes.flatMap (readAs true) ++ readAs false last))
      = some (.configReadComplete (bytes ++ [last])) := by
  obtain ⟨htold, htold'⟩ := told_zip
  obtain ⟨hbytes, hbytes'⟩ := received_zip bytes
  obtain ⟨hlast, hlast'⟩ := receive_zip false last
  have hlen : (bytes.flatMap (readAs true)).length = 315 := by rw [length_flatMap_readAs, h]
  have hlen' : (receivedBits bytes.length).length = 315 := by rw [h]; decide +kernel
  have hzip : transferBits.zip (toldReads ++ (bytes.flatMap (readAs true) ++ readAs false last))
      = toldBits.zip toldReads ++ ((receivedBits bytes.length).zip (bytes.flatMap (readAs true))
        ++ (I2cOp.receive false).bits.zip (readAs false last)) := by
    have htoldlen : toldBits.length = toldReads.length := rfl
    rw [transferBits_eq, List.zip_append htoldlen, h, List.zip_append (by rw [← h, hlen', hlen])]
  have hnone : (transferBits.zip (toldReads ++ (bytes.flatMap (readAs true)
      ++ readAs false last))).findSome? (fun x => x.1.failure x.2) = none := by
    rw [hzip, List.findSome?_append, List.findSome?_append, htold', hbytes', hlast']
    rfl
  have hdata : (transferBits.zip (toldReads ++ (bytes.flatMap (readAs true)
      ++ readAs false last))).filterMap (fun x => x.1.data x.2) = bitsOfBytes (bytes ++ [last]) := by
    rw [hzip, List.filterMap_append, List.filterMap_append, htold, hbytes, hlast]
    simp [bitsOfBytes]
  rw [transferEvent_of_complete hnone, hdata, gatherBytes_bitsOfBytes]
  rw [length_transferBits, List.length_append, List.length_append, hlen, length_readAs]
  decide

/-- A byte told that is not acknowledged ends the transfer (R163). -/
theorem transferEvent_of_notAcknowledged {i : Nat} (h : i ∈ [8, 17, 26]) (rest : List Bool) :
    transferEvent (toldReads.take i ++ true :: rest) = some .notAcknowledged := by
  simp only [List.mem_cons, List.not_mem_nil, or_false] at h
  rcases h with rfl | rfl | rfl <;> rfl

/-- A high bit told that reads low ends the transfer (R163). -/
theorem transferEvent_of_lostLevel {i : Nat} (h : toldReads[i]? = some true) (rest : List Bool) :
    transferEvent (toldReads.take i ++ false :: rest) = some .lostLevel := by
  have hfew : i < 27 := by
    obtain ⟨hi, -⟩ := List.getElem?_eq_some_iff.1 h
    exact hi
  have hplaces : ∀ i < 27, toldReads[i]? = some true → i ∈ [0, 2, 18, 20, 25] := by decide +kernel
  have hi := hplaces i hfew h
  simp only [List.mem_cons, List.not_mem_nil, or_false] at hi
  rcases hi with rfl | rfl | rfl | rfl | rfl <;> rfl

/-! ## The wires -/

/-- In an attempt the wires are those of its operations (R162, R163). -/
theorem State.i2cWires_of_attempt {s : State} (h : s.loader.i2c = .attempt) (sda : List Bool) :
    s.i2cWires sda = (attemptOps sda).flatMap I2cOp.levels := by
  unfold State.i2cWires
  rw [h]

/-- Settles O8: the event by what SDA reads, and the wires by what the loader has done. -/
theorem wiresOfAnAttemptGiveItsEvent : Obligations.WiresOfAnAttemptGiveItsEvent := by
  intro block low i rest acknowledged told answered free
  refine ⟨fun hlow => ?_, fun hlow => ⟨fun hlen => ?_, fun hi => ?_, fun hi => ?_⟩, ?_⟩
  · unfold attemptEvent
    rw [freeBus_of_low hlow]
  · obtain ⟨bytes, last, rfl⟩ : ∃ bytes last, block = bytes ++ [last] :=
      ⟨_, _, (List.dropLast_concat_getLast (List.ne_nil_of_length_pos (by omega))).symm⟩
    have hbytes : bytes.length = 35 := by simpa using hlen
    have htold : told = toldReads := rfl
    have hanswered : answered = bytes.flatMap (readAs true) ++ readAs false last := by
      change ((bytes ++ [last]).take 35).flatMap (readAs true)
        ++ ((bytes ++ [last]).drop 35).flatMap (readAs false) = _
      rw [← hbytes, List.take_left, List.drop_left]
      simp
    rw [htold, hanswered]
    refine ⟨?_, ?_⟩
    · rw [List.length_append, List.length_append, length_flatMap_readAs, hbytes]
      rfl
    · rw [List.append_assoc]
      exact (attemptEvent_of_free hlow _).trans (transferEvent_of_answered bytes last hbytes)
  · rw [List.append_assoc]
    exact (attemptEvent_of_free hlow _).trans (transferEvent_of_notAcknowledged hi rest)
  · rw [List.append_assoc]
    exact (attemptEvent_of_free hlow _).trans (transferEvent_of_lostLevel hi rest)
  · intro s clock send receive freeing start transfer
    have htransfer : transferOps.flatMap I2cOp.levels = transfer := by decide +kernel
    have hfreeing (n : Nat) : (List.replicate n I2cOp.freeingClock).flatMap I2cOp.levels
        = freeing n := by
      rw [List.flatMap_def, List.map_replicate]
      rfl
    refine ⟨fun hi2c => ?_, fun hi2c hlow => ⟨?_, ?_⟩, fun hi2c hlow => ?_, fun hi2c => ?_,
      fun hi2c => ?_⟩
    · unfold State.i2cWires
      rw [hi2c]
      rfl
    · rw [State.i2cWires_of_attempt hi2c, attemptOps, freeBus_of_clocking hlow, List.length_replicate]
      exact hfreeing low
    · rw [State.i2cWires_of_attempt hi2c, attemptOps, freeBus_of_high hlow]
      dsimp only
      rw [List.flatMap_append, hfreeing, htransfer]
    · rw [State.i2cWires_of_attempt hi2c, attemptOps, freeBus_of_low hlow]
      exact hfreeing 9
    · unfold State.i2cWires
      rw [hi2c]
      rfl
    · unfold State.i2cWires
      rw [hi2c]
      rfl

end Sys2Proof.Machine
end

section
/-! PROOFS. The end of a burst without its frames: deferral, collision and the conflict of a third
collision (R10, R11, R13, R14, R107, R111, R115). -/

namespace Sys2Proof.Machine

section Burst
variable {s : State}

/-! ## Frames not sent -/

/-- Without a LEAVE in LEAVING nothing is counted (R107). -/
theorem State.framesNotSent_of_not {frames : List Frame}
    (h : ¬ (s.ctl.station = .leaving ∧ frames.any Frame.isLeave = true)) :
    s.framesNotSent frames = s := if_neg (fun ⟨hany, hst⟩ => h ⟨hst, hany⟩)

/-- A LEAVE not sent is an attempt (R107). -/
theorem State.framesNotSent_of_few {frames : List Frame} (hst : s.ctl.station = .leaving)
    (hany : frames.any Frame.isLeave = true) (hfew : s.sched.leaveAttempts + 1 < 3) :
    s.framesNotSent frames = { s with
      sched := { s.sched with leaveAttempts := s.sched.leaveAttempts + 1 } } := by
  unfold State.framesNotSent
  rw [if_pos ⟨hany, hst⟩]
  exact if_neg (by omega)

/-- The third attempt ends LEAVING (R107). -/
theorem State.framesNotSent_of_third {frames : List Frame} (hst : s.ctl.station = .leaving)
    (hany : frames.any Frame.isLeave = true) (hthird : 3 ≤ s.sched.leaveAttempts + 1) :
    s.framesNotSent frames = State.endLeaving { s with
      sched := { s.sched with leaveAttempts := s.sched.leaveAttempts + 1 } } := by
  unfold State.framesNotSent
  rw [if_pos ⟨hany, hst⟩]
  exact if_pos hthird

/-- LEAVING ends in OFFLINE while EN is low (R107). -/
theorem State.endLeaving_of_low (h : s.ctl.settled = false) : s.endLeaving = s.enterOffline :=
  if_neg (by simp [h])

/-- LEAVING ends in JOINING while EN is high (R107). -/
theorem State.endLeaving_of_high (h : s.ctl.settled = true) :
    s.endLeaving = s.enterOffline.enterJoining := if_pos h

/-! ## Carrier -/

/-- The line with a carrier on it (R3, R7, R8, R18). -/
theorem State.carrier_eq (s : State) : s.carrier = { s with
    line := { s.line with receiver := .hunting }
    rotation := { s.rotation with
      slot := if s.rotation.slot = .stopped then .stopped else .activity
      silence := if s.rotation.silence.isSome then some 0 else none } } := by
  unfold State.carrier
  cases s.rotation.silence <;> rfl

/-- Carrier on a free line acts by where the own burst stands (R3). -/
theorem exec_carrierBegins_of_free (hconf : s.ctl.station.configured = true)
    (hatt : s.line.receiver.attempting = false) (hphase : s.line.phase ≠ .sending) :
    exec .carrierBegins s = .next (s.carrierAt s.line.phase) := by
  have hfree : s.lineFree = true := by simp [State.lineFree, hconf, hatt, hphase]
  rw [exec_carrierBegins_eq, if_pos hfree]

/-- Settles O16: a burst in its start delay is withheld, and a LEAVE of it is an attempt (R10, R107). -/
theorem carrierInTheStartDelayDefersTheBurst : Obligations.CarrierInTheStartDelayDefersTheBurst := by
  intro s hconf hatt hphase heard leaving counted
  have hexec : exec .carrierBegins s = .next (heard.framesNotSent s.line.burst) := by
    rw [exec_carrierBegins_of_free hconf hatt (by rw [hphase]; nofun), hphase]
    change Host.Outcome.next (s.carrier.dropBurst.framesNotSent s.line.burst) = _
    rw [State.carrier_eq]
    rfl
  rw [hexec]
  refine ⟨fun hnot => ?_, fun ⟨hst, hany⟩ hfew => ?_, fun ⟨hst, hany⟩ hthird hlow => ?_,
    fun ⟨hst, hany⟩ hthird hhigh => ?_⟩
  · rw [State.framesNotSent_of_not (s := heard) hnot]
  · rw [State.framesNotSent_of_few (s := heard) hst hany hfew]
  · rw [State.framesNotSent_of_third (s := heard) hst hany hthird, State.endLeaving_of_low (by exact hlow)]
    rfl
  · rw [State.framesNotSent_of_third (s := heard) hst hany hthird,
      State.endLeaving_of_high (by exact hhigh)]
    rfl

/-! ## Collision -/

/-- The count of a collision, short of a conflict (R111). -/
theorem State.countCollision_of_not
    (h : ¬ (3 ≤ s.sched.collisionRun + 1 ∧ s.ctl.station.collisionMatters = true)) :
    s.countCollision = { s with
      sched := { s.sched with collisionRun := s.sched.collisionRun + 1 }
      stats := s.stats.bump .collisions } := if_neg h

/-- The third collision in a row where it matters is a conflict (R111). -/
theorem State.countCollision_of_third (h : 3 ≤ s.sched.collisionRun + 1)
    (hst : s.ctl.station.collisionMatters = true) :
    s.countCollision = State.enterFaultState { s with
      sched := { s.sched with collisionRun := s.sched.collisionRun + 1 }
      stats := s.stats.bump .collisions } .addressConflict .conflictByCollision := if_pos ⟨h, hst⟩

/-- A fault state, block by block (R89, R92, R112, R135). -/
theorem State.enterFaultState_eq (s : State) {st : Station} (h : st ≠ .active) (code : FaultCode) :
    s.enterFaultState st code = { s with
      ctl := { s.ctl with
        station := st, faultCode := code, isolationA := 0, isolationB := 0, heardMeRound := false
        acceptedRound := false }
      share := { applied := 0, pending := none, limit := 0 }
      drive := if 0 < s.share.limit then { s.drive with duty := 0, buffer := 0, level := false }
        else s.drive
      table := { s.table with entries := removeEntry s.ownAddr s.table.entries, confirm := [] }
      meas := { s.meas with scan := .idle, overdraw := ⟨false, none⟩ }
      rotation := { s.rotation with silence := none } } := by
  unfold State.enterFaultState
  rw [State.leaveMembership_eq s h]
  rfl

theorem collisionMatters_iff (st : Station) :
    st.collisionMatters = true ↔ st ∈ [Station.joining, .deferred, .active] := by
  cases st <;> simp [Station.collisionMatters]

/-- Settles O17: a collision is counted once, ends the burst, and is a conflict at the third in a row;
in LEAVING a LEAVE not sent is an attempt (R11, R13, R14, R107, R111). -/
theorem collisionCountsOnceAndTheThirdIsAConflict :
    Obligations.CollisionCountsOnceAndTheThirdIsAConflict := by
  intro s c hcase collided
  let stopped : State := { s with line := collided.line, rotation := collided.rotation }
  have hexec : exec c s = .next (stopped.countCollision.framesNotSent s.line.burst) := by
    rcases hcase with ⟨rfl, hphase⟩ | ⟨rfl, hphase, hconf, hatt⟩
    · change execAbort s = _
      unfold execAbort
      rw [if_pos hphase]
      rfl
    · rw [exec_carrierBegins_of_free hconf hatt (by rw [hphase]; nofun), hphase]
      change Host.Outcome.next (s.carrier.dropBurst.countCollision.framesNotSent s.line.burst) = _
      rw [State.carrier_eq]
      have hstopped : stopped = State.dropBurst { s with
          line := { s.line with receiver := .hunting }
          rotation := { s.rotation with
            slot := if s.rotation.slot = .stopped then .stopped else .activity
            silence := if s.rotation.silence.isSome then some 0 else none } } := by
        have hsilence : (if s.rotation.silence = none then s.rotation.silence else some 0)
            = if s.rotation.silence.isSome then some 0 else none := by
          cases s.rotation.silence <;> rfl
        simp [stopped, collided, State.dropBurst, hsilence]
      rw [hstopped]
  have hcount (h : ¬ (3 ≤ s.sched.collisionRun + 1 ∧ s.ctl.station.collisionMatters = true)) :
      stopped.countCollision = collided := State.countCollision_of_not h
  refine ⟨fun hfew => ?_, fun hst => ?_, fun hst hthird => ?_⟩
  · have hleaving : s.ctl.station ≠ .leaving := by
      rcases hfew with hfew | hfew
      · exact fun hst => hfew (by simp [hst])
      · exact hfew.1
    have hnone : stopped.countCollision = collided := hcount (fun ⟨hthird, hmatters⟩ => by
      rcases hfew with hfew | hfew
      · have hst := (collisionMatters_iff _).1 hmatters
        simp only [List.mem_cons, List.not_mem_nil, or_false] at hfew hst
        tauto
      · omega)
    rw [hexec, hnone, State.framesNotSent_of_not (s := collided) (fun h => hleaving h.1)]
  · have hnone : stopped.countCollision = collided :=
      hcount (fun h => by rw [hst] at h; exact absurd h.2 nofun)
    refine ⟨collided.framesNotSent s.line.burst, by rw [hexec, hnone], ?_⟩
    cases hany : s.line.burst.any Frame.isLeave
    · rw [State.framesNotSent_of_not (s := collided) (fun h => absurd (hany.symm.trans h.2) nofun)]
      exact ⟨rfl, rfl, rfl, fun _ => rfl, nofun, nofun⟩
    · rcases Nat.lt_or_ge (s.sched.leaveAttempts + 1) 3 with hfew | hthird
      · rw [State.framesNotSent_of_few (s := collided) hst hany hfew]
        exact ⟨rfl, rfl, rfl, nofun, fun _ _ => rfl, fun _ hthird => absurd hthird (by omega)⟩
      · rw [State.framesNotSent_of_third (s := collided) hst hany hthird]
        cases hset : s.ctl.settled
        · rw [State.endLeaving_of_low (by exact hset)]
          exact ⟨rfl, rfl, rfl, nofun, fun _ hfew => absurd hthird (by omega), fun _ _ => rfl⟩
        · rw [State.endLeaving_of_high (by exact hset)]
          exact ⟨rfl, rfl, rfl, nofun, fun _ hfew => absurd hthird (by omega), fun _ _ => rfl⟩
  · have hthird' : stopped.countCollision = _ :=
      State.countCollision_of_third hthird ((collisionMatters_iff _).2 hst)
    rw [hexec, hthird', State.enterFaultState_eq _ (st := .addressConflict) nofun,
      State.framesNotSent_of_not ?_]
    · rfl
    · exact fun h => absurd h.1 nofun

end Burst

end Sys2Proof.Machine
end

section
/-! PROOFS. The end of a frame: the counters and the rotation it moves, and the first of the nine checks
that fails (R5, R6, R15, R16, R22 to R33, R35). -/

namespace Sys2Proof.Machine

/-! ## The counters of a boundary and of a verdict -/

section Counters
variable {d : Counter}

/-- The Share Regulator's stage moves its two counters only (R79, R81). -/
theorem State.get_shareStage (s : State) (kind : BoundaryKind) (own : Bool)
    (set : List (Nat × Confirmation)) (hincrease : d ≠ .confirmedIncreases)
    (hdissent : d ≠ .dissentRounds) :
    (s.shareStage kind own set).stats.get d = s.stats.get d := by
  by_cases hst : s.ctl.station = .active
  · rw [State.shareStage_of_active hst]
    change (s.shareStats kind own set).get d = _
    unfold State.shareStats
    dsimp only
    split_ifs <;> simp only [Stats.get_bump_of_ne _ hincrease, Stats.get_bump_of_ne _ hdissent]
  · rw [State.shareStage_of_ne_active hst]

/-- Beyond the round counters a boundary moves the two of the Share Regulator only (R9, R79, R81). -/
theorem State.get_boundary (s : State) (kind : BoundaryKind) (hincrease : d ≠ .confirmedIncreases)
    (hdissent : d ≠ .dissentRounds) :
    (s.boundary kind).stats.get d = (s.countBoundary kind).stats.get d := by
  unfold State.boundary
  split_ifs
  · generalize s.countBoundary kind = u
    rw [State.boundaryWork_eq, State.stats_completeBoundary]
    unfold State.boundaryStages
    dsimp only
    rw [State.get_shareStage _ _ _ _ hincrease hdissent, State.allocateStage_stats,
      State.stats_tablePart, State.shedCountdown_stats, State.stats_evaluateIsolation]
  · rfl

/-- A boundary counts a round (R9). -/
theorem State.rounds_boundary (s : State) (kind : BoundaryKind) :
    (s.boundary kind).stats.get .rounds = saturatingSucc (s.stats.get .rounds) := by
  rw [State.get_boundary _ _ (by decide) (by decide)]
  cases kind
  · exact Stats.get_bump_self _ _
  · exact (Stats.get_bump_of_ne _ (by decide)).trans (Stats.get_bump_self _ _)

/-- A lost boundary counts a lost round, and an ordinary one none (R9, R16). -/
theorem State.lostRounds_boundary (s : State) (kind : BoundaryKind) :
    (s.boundary kind).stats.get .lostRounds
      = if kind = .lost then saturatingSucc (s.stats.get .lostRounds)
        else s.stats.get .lostRounds := by
  rw [State.get_boundary _ _ (by decide) (by decide)]
  cases kind
  · exact Stats.get_bump_of_ne _ (by decide)
  · refine (Stats.get_bump_self _ _).trans (congrArg saturatingSucc ?_)
    exact Stats.get_bump_of_ne _ (by decide)

/-- A resync moves the counters of a boundary only (R16). -/
theorem State.get_resync (s : State) (a : Nat)
    (hd : d ∉ [Counter.rounds, .lostRounds, .confirmedIncreases, .dissentRounds]) :
    (s.resync a).stats.get d = s.stats.get d := by
  simp only [List.mem_cons, List.not_mem_nil, or_false, not_or] at hd
  obtain ⟨hrounds, hlost, hincrease, hdissent⟩ := hd
  have hboundary : (s.boundary .lost).stats.get d = s.stats.get d := by
    rw [State.get_boundary _ _ hincrease hdissent]
    exact (Stats.get_bump_of_ne _ hlost).trans (Stats.get_bump_of_ne _ hrounds)
  unfold State.resync
  split_ifs
  · exact hboundary
  · rfl
  · rfl
  · rfl
  · rfl

/-- The counter a verdict moves of the ten (R35). -/
def Verdict.counter : Verdict → Counter
  | .accepted _ => .framesAccepted
  | .discarded reason => reason.counter

theorem Verdict.counter_mem (v : Verdict) : v.counter ∈ verdictCounters := by
  cases v with
  | accepted => exact List.mem_cons_self
  | discarded reason => cases reason <;> simp [Verdict.counter, verdictCounters, Reason.counter]

/-- A verdict moves its counter, and an accepted SHED one of its own beside it (R35, R120). -/
theorem State.get_settleVerdict (s : State) (v : Verdict) (body : List Byte)
    (hd : d ≠ .shedsAccepted) :
    (s.settleVerdict v body).stats.get d = (s.stats.bump v.counter).get d := by
  cases v with
  | discarded reason => exact congrArg (fun st => Stats.get st d) (s.discard_stats reason body)
  | accepted f =>
    cases f with
    | shed => exact Stats.get_bump_of_ne _ hd
    | _ => rfl

end Counters

/-- The report of an attempt is its verdict settled in the state of judgement (R22). -/
theorem exec_frameReport {s : State} (hconf : s.ctl.station.configured = true)
    (hatt : s.line.receiver.attempting = true) (bits : List Bool) :
    exec (.frameReport bits) s = .next ((s.atJudgement bits).settleVerdict
      ((s.atJudgement bits).judge (lineReport s.line.receiver bits))
      (lineReport s.line.receiver bits).body) :=
  exec_frameReport_of_judges ⟨hconf, hatt, rfl⟩

/-- The state of judgement has the counters of the ten as they stood (R16). -/
theorem State.get_atJudgement (s : State) (bits : List Bool) {d : Counter}
    (hd : d ∉ [Counter.rounds, .lostRounds, .confirmedIncreases, .dissentRounds]) :
    (s.atJudgement bits).stats.get d = s.stats.get d := by
  unfold State.atJudgement
  dsimp only
  split_ifs
  · exact State.get_resync _ _ hd
  · rfl

/-! ## Resync -/

/-- A verdict leaves sync, ROT, the slot and the round count, at most ends the silence, and leaves the
observation count. -/
theorem State.rotation_settleVerdict (s : State) (v : Verdict) (body : List Byte) :
    s.SameRotation (s.settleVerdict v body)
      ∧ (s.rotation.silence = none → (s.settleVerdict v body).rotation.silence = none)
      ∧ (s.settleVerdict v body).ctl.observed = s.ctl.observed
      ∧ (s.settleVerdict v body).line = s.line := by
  have hconflict (u : State) : u.SameRotation u.conflictEvidence
      ∧ (u.rotation.silence = none → u.conflictEvidence.rotation.silence = none)
      ∧ u.conflictEvidence.ctl.observed = u.ctl.observed ∧ u.conflictEvidence.line = u.line := by
    unfold State.conflictEvidence
    split_ifs
    · exact ⟨.refl u, fun _ => rfl, rfl, rfl⟩
    · exact ⟨.refl u, id, rfl, rfl⟩
  cases v with
  | accepted f => cases f <;> exact ⟨.refl s, id, rfl, rfl⟩
  | discarded reason =>
    cases reason
    case self => exact hconflict (s.recordDiscard .self body)
    all_goals exact ⟨.refl s, id, rfl, rfl⟩

/-- In the state of judgement the line is idle (R2). -/
theorem State.line_atJudgement (s : State) (bits : List Bool) :
    (s.atJudgement bits).line = { s.line with receiver := .idle } := by
  unfold State.atJudgement
  dsimp only
  split_ifs
  · exact (s.lineIdle.keeps_resync _).2.1
  · rfl

/-- Settles O18: of the ten counters a report moves that of its verdict (R33, R35). -/
theorem everyFrameReportCountsOneVerdict : Obligations.EveryFrameReportCountsOneVerdict := by
  intro s bits hconf hatt
  have hapart : ∀ d ∈ verdictCounters, d ≠ .shedsAccepted
      ∧ d ∉ [Counter.rounds, .lostRounds, .confirmedIncreases, .dissentRounds] := by decide
  let v := (s.atJudgement bits).judge (lineReport s.line.receiver bits)
  refine ⟨_, exec_frameReport hconf hatt bits, ?_, v.counter, v.counter_mem, ?_, fun d hd hne => ?_⟩
  · rw [((s.atJudgement bits).rotation_settleVerdict _ _).2.2.2, State.line_atJudgement]
  · obtain ⟨hshed, hround⟩ := hapart _ v.counter_mem
    rw [State.get_settleVerdict _ _ _ hshed, Stats.get_bump_self, State.get_atJudgement s bits hround]
  · obtain ⟨hshed, hround⟩ := hapart d hd
    rw [State.get_settleVerdict _ _ _ hshed, Stats.get_bump_of_ne _ hne,
      State.get_atJudgement s bits hround]

section Resync
variable {s : State} {a : Nat}

theorem State.resync_of_ge (h : s.cfg.nSlots ≤ a) : s.resync a = s := if_neg (by omega)

/-- An unsynced station acquires sync (R6). -/
theorem State.resync_of_unsynced (h : a < s.cfg.nSlots) (hsync : s.rotation.synced = false) :
    s.resync a = s.acquireSync a := by
  unfold State.resync
  rw [if_pos h, if_neg (by simp [hsync])]

/-- A sender below ROT is of the next round: the boundary was lost (R16). -/
theorem State.resync_of_lt (h : a < s.cfg.nSlots) (hsync : s.rotation.synced = true)
    (ha : a < s.rotation.rot) : s.resync a = (s.boundary .lost).takeRot a := by
  unfold State.resync
  rw [if_pos h, if_pos hsync, if_pos ha]

/-- A sender from ROT on is of this round (R15). -/
theorem State.resync_of_le (h : a < s.cfg.nSlots) (hsync : s.rotation.synced = true)
    (ha : s.rotation.rot ≤ a) : s.resync a = if s.rotation.rot < a then s.takeRot a else s := by
  unfold State.resync
  rw [if_pos h, if_pos hsync, if_neg (by omega)]

end Resync

/-- A report that is not CRC-valid, or of no slot of the group, resyncs nobody (R5, R6). -/
theorem State.atJudgement_of_stands {s : State} {bits : List Bool}
    (h : (lineReport s.line.receiver bits).crcValid = false
      ∨ s.cfg.nSlots ≤ senderOf (lineReport s.line.receiver bits).body) :
    s.atJudgement bits = s.lineIdle := by
  rcases h with h | h
  · exact State.atJudgement_of_invalid h
  · unfold State.atJudgement
    dsimp only
    split_ifs
    · exact State.resync_of_ge (s := s.lineIdle) h
    · rfl

/-- A CRC-valid report resyncs (R6). -/
theorem State.atJudgement_of_valid {s : State} {bits : List Bool}
    (h : (lineReport s.line.receiver bits).crcValid = true) :
    s.atJudgement bits = s.lineIdle.resync (senderOf (lineReport s.line.receiver bits).body) :=
  if_pos h

/-- In a slot that is not stopped, or at the acquisition of sync, the release gap runs (R8, R15). -/
theorem State.slot_resync {s : State} {a : Nat} (h : a < s.cfg.nSlots)
    (hslot : s.rotation.slot = .releaseGap ∨ s.rotation.synced = false) :
    (s.resync a).rotation.slot = .releaseGap := by
  cases hsync : s.rotation.synced
  · rw [State.resync_of_unsynced h hsync]
    rfl
  · have hslot : s.rotation.slot = .releaseGap := by simpa [hsync] using hslot
    rcases Nat.lt_or_ge a s.rotation.rot with ha | ha
    · rw [State.resync_of_lt h hsync ha]
      rfl
    · rw [State.resync_of_le h hsync ha]
      split_ifs
      · rfl
      · exact hslot

/-- Settles O20: a CRC-valid frame of a slot of the group moves the rotation to its sender, through a lost
boundary where the round went round (R5, R6, R15, R16). -/
theorem resyncFollowsTheSender : Obligations.ResyncFollowsTheSender := by
  intro s bits hconf hatt r a
  obtain ⟨⟨hsync, hrot, hslot, hcount⟩, hsilence, hobserved, -⟩ :=
    (s.atJudgement bits).rotation_settleVerdict ((s.atJudgement bits).judge r) r.body
  have hget (d : Counter) (hd : d ≠ .shedsAccepted ∧ d ∉ verdictCounters) :
      ((s.atJudgement bits).settleVerdict ((s.atJudgement bits).judge r) r.body).stats.get d
        = (s.atJudgement bits).stats.get d := by
    rw [State.get_settleVerdict _ _ _ hd.1, Stats.get_bump_of_ne]
    exact fun heq => hd.2 (heq ▸ Verdict.counter_mem _)
  refine ⟨_, exec_frameReport hconf hatt bits, fun hstands => ?_, fun hvalid ha => ?_,
    fun hvalid ha hopen => ?_, fun hvalid ha hno => ?_, fun hvalid ha hyes hle => ?_,
    fun hvalid ha hyes hlt => ?_⟩
  · rw [hsync, hrot, hcount, State.atJudgement_of_stands hstands]
    exact ⟨rfl, rfl, rfl⟩
  · rw [hsync, hrot, State.atJudgement_of_valid hvalid]
    exact State.rot_resync s.lineIdle ha
  · rw [hslot, State.atJudgement_of_valid hvalid]
    exact State.slot_resync (s := s.lineIdle) ha (hopen.imp_left fun hn => if_neg hn)
  · rw [hcount, hobserved]
    have hjudged := State.atJudgement_of_valid hvalid
    rw [State.resync_of_unsynced (s := s.lineIdle) ha hno] at hjudged
    exact ⟨by rw [hjudged]; rfl, hsilence (by rw [hjudged]; rfl), by rw [hjudged]; rfl⟩
  · rw [hcount, hget .rounds (by decide), hget .lostRounds (by decide)]
    have hjudged := State.atJudgement_of_valid hvalid
    rw [State.resync_of_le (s := s.lineIdle) ha hyes hle] at hjudged
    rw [hjudged]
    split_ifs <;> exact ⟨rfl, rfl, rfl⟩
  · rw [hcount, hget .rounds (by decide), hget .lostRounds (by decide)]
    have hjudged := State.atJudgement_of_valid hvalid
    rw [State.resync_of_lt (s := s.lineIdle) ha hyes hlt] at hjudged
    rw [hjudged]
    exact ⟨(s.lineIdle.rotation_boundary .lost).2.2.2, s.lineIdle.rounds_boundary .lost,
      s.lineIdle.lostRounds_boundary .lost⟩

/-! ## The nine checks -/

/-- A mask below 2 to the number of slots holds no bit of another address (R28). -/
theorem mask_lt_iff (mask : Word32) (n : Nat) :
    mask.toNat < 2 ^ n ↔ ∀ i < 32, n ≤ i → mask.getLsbD i = false := by
  constructor
  · intro h i _ hi
    exact Nat.testBit_lt_two_pow (h.trans_le (Nat.pow_le_pow_right (by decide) hi))
  · intro h
    refine Nat.lt_pow_two_of_testBit _ (fun i hi => ?_)
    rcases Nat.lt_or_ge i 32 with hsmall | hlarge
    · exact h i hsmall hi
    · exact Nat.testBit_lt_two_pow (mask.isLt.trans_le (Nat.pow_le_pow_right (by decide) hlarge))

theorem termsInRange_iff (budget a : Nat) (t : Terms) : termsInRange budget a t = true ↔
    (1 ≤ t.weight ∧ t.weight ≤ 15) ∧ (t.role = .monitor → a ≤ 3)
      ∧ (1 ≤ t.ceiling ∧ t.ceiling ≤ budget) ∧ t.floor ≤ t.ceiling := by
  simp only [termsInRange, Bool.and_eq_true, decide_eq_true_eq, and_assoc, Nat.lt_succ_iff]

/-- The FORMAT check in the words of R28. -/
theorem formatOk_iff (c : Settings) (f : Frame) :
    let terms := fun (t : Terms) => (1 ≤ t.weight ∧ t.weight ≤ 15)
      ∧ (t.role = .monitor → f.sender ≤ 3) ∧ (1 ≤ t.ceiling ∧ t.ceiling ≤ c.budget)
      ∧ t.floor ≤ t.ceiling
    formatOk c f = true ↔ f.sender < c.nSlots
      ∧ (∀ a t d, f = .join a t d → terms t)
      ∧ (∀ a v t basis d mask, f = .claim a v t basis d mask → terms t
        ∧ v.demand ≤ t.ceiling ∧ v.held ≤ t.ceiling ∧ (v.held ≤ v.pending ∧ v.pending ≤ t.ceiling)
        ∧ v.draw ≤ 4095 ∧ (∀ n < 32, c.nSlots ≤ n → mask.getLsbD n = false)
        ∧ mask.getLsbD a = false) := by
  intro terms
  unfold formatOk
  rw [Bool.and_eq_true, decide_eq_true_eq]
  refine and_congr_right fun _ => ?_
  cases f with
  | claim a v t basis d mask =>
    have hterms : termsInRange c.budget a t = true ↔ terms t := termsInRange_iff c.budget a t
    simp only [Bool.and_eq_true, decide_eq_true_eq, hterms, mask_lt_iff, Bool.not_eq_true',
      and_assoc]
    constructor
    · intro h
      refine ⟨nofun, ?_⟩
      rintro _ _ _ _ _ _ ⟨⟩
      exact h
    · exact fun h => h.2 _ _ _ _ _ _ rfl
  | join a t d =>
    rw [termsInRange_iff]
    constructor
    · intro h
      refine ⟨?_, nofun⟩
      rintro _ _ _ ⟨⟩
      exact h
    · exact fun h => h.1 _ _ _ rfl
  | leave => exact iff_of_true rfl ⟨nofun, nofun⟩
  | shed => exact iff_of_true rfl ⟨nofun, nofun⟩

/-- The ROLE check in the words of R30. -/
theorem failsRole_iff (f : Frame) : failsRole f = true ↔ f.kind = 4 ∧ 4 ≤ f.sender := by
  cases f <;> simp [failsRole, Frame.kind, Frame.sender]

/-- The STATE check in the words of R31 and R32. -/
theorem failsState_iff (st : Station) (es : List Entry) (f : Frame) :
    failsState st es f = true ↔ st.working = false ∨ st = .isolated
      ∨ (f.kind = 1 ∧ st ≠ .listen ∧ ∃ e, findEntry f.sender es = some e
        ∧ (e.state = .candidate ∨ e.state = .deferred)) := by
  have hmember : notYetMember f.sender es = true ↔ ∃ e, findEntry f.sender es = some e
      ∧ (e.state = .candidate ∨ e.state = .deferred) := by
    unfold notYetMember
    cases findEntry f.sender es <;> simp
  rw [← hmember]
  unfold failsState
  split_ifs with hbarred
  · refine iff_of_true rfl ?_
    rcases hbarred with hbarred | hbarred
    · exact .inr (.inl hbarred)
    · exact .inl (by simpa using hbarred)
  · rw [not_or, not_not] at hbarred
    obtain ⟨hisolated, hwork⟩ := hbarred
    cases f <;> simp [hisolated, hwork, Frame.kind, Frame.sender]

/-- A report that is good, of a known kind, is judged by its length, its CRC and its fields (R22). -/
theorem State.judge_of_parsed (s : State) {r : FrameReport} {n : Nat} {f : Frame}
    (hgood : r.status = .good) (hlength : kindLength (kindOf r.body) = some n)
    (hparse : parseFrame r.body = some f) : s.judge r =
      if r.length ≠ some n then .discarded .length
      else if ¬ r.crcValid then .discarded .crc
      else s.judgeFields f := by
  unfold State.judge
  rw [if_neg (not_not.2 hgood), hlength, hparse]

/-- A body of an unknown kind fails KIND (R24). -/
theorem State.judge_of_unknown (s : State) {r : FrameReport} (hgood : r.status = .good)
    (hkind : kindLength (kindOf r.body) = none) : s.judge r = .discarded .kind := by
  unfold State.judge
  rw [if_neg (not_not.2 hgood), hkind]

theorem kindLength_of_not_mem {k : Nat} (h : k ∉ [1, 2, 3, 4]) : kindLength k = none := by
  simp only [List.mem_cons, List.not_mem_nil, or_false, not_or] at h
  obtain ⟨h1, h2, h3, h4⟩ := h
  unfold kindLength
  split
  case h_5 => rfl
  all_goals contradiction

/-- Settles O19: check by check in their order (R22 to R32). -/
theorem firstFailingAcceptanceCheckIsTheVerdict :
    Obligations.FirstFailingAcceptanceCheckIsTheVerdict := by
  intro s r
  refine ⟨fun h => State.judge_of_status s h,
    fun hgood hkind => s.judge_of_unknown hgood (kindLength_of_not_mem hkind),
    fun n f hgood hn hparse => ?_⟩
  intro terms inRange
  have hlength : kindLength (kindOf r.body) = some n := by
    simp only [List.mem_cons, Prod.mk.injEq, List.not_mem_nil, or_false] at hn
    rcases hn with ⟨hk, rfl⟩ | ⟨hk, rfl⟩ | ⟨hk, rfl⟩ | ⟨hk, rfl⟩ <;> rw [hk] <;> rfl
  have hformat : formatOk s.cfg f = true ↔ inRange := formatOk_iff s.cfg f
  rw [s.judge_of_parsed hgood hlength hparse]
  refine ⟨fun hlen => if_pos hlen, fun hlen hcrc => ?_, fun hlen hcrc => ?_⟩
  · rw [if_neg (not_not.2 hlen), if_pos (by simp [hcrc])]
  rw [if_neg (not_not.2 hlen), if_neg (not_not.2 hcrc)]
  unfold State.judgeFields
  refine ⟨fun hgroup => if_pos hgroup, fun hgroup hrange => ?_, fun hgroup hrange => ?_⟩
  · rw [if_neg (not_not.2 hgroup), if_pos (mt hformat.1 hrange)]
  rw [if_neg (not_not.2 hgroup), if_neg (not_not.2 (hformat.2 hrange))]
  refine ⟨fun hself => if_pos hself, fun hself hkind haddr => ?_, fun hself hrole => ?_⟩
  · rw [if_neg hself, if_pos ((failsRole_iff f).2 ⟨hkind, haddr⟩)]
  rw [if_neg hself, if_neg (mt (failsRole_iff f).1 hrole)]
  intro barred
  have hstate : failsState s.ctl.station s.table.entries f = true ↔ barred := failsState_iff _ _ _
  exact ⟨fun h => if_pos (hstate.2 h), fun h => if_neg (mt hstate.1 h)⟩

end Sys2Proof.Machine
end

section
/-! PROOFS. What an accepted SHED, JOIN or CLAIM writes, and the conflict of the own address on the line
(R29, R33, R34, R45 to R48, R60, R90, R111, R120). -/

namespace Sys2Proof.Machine

/-! ## The limit and the shed table -/

/-- The limit by the shed table (R90, R122). -/
theorem limitOf_shedCap (st : Station) (applied floor : Nat)
    (table : Vector (Option ShedOrder) 4) :
    let limit := limitOf st applied (shedCap table floor)
    let zero := ∃ m : Fin 4, ∃ o ∈ table[m], o.mode = .zero
    let occupied := ∃ m : Fin 4, table[m].isSome = true
    (st ≠ .active → limit = 0) ∧ (st = .active → zero → limit = 0)
    ∧ (st = .active → ¬ zero → occupied → limit = min applied floor)
    ∧ (st = .active → ¬ occupied → limit = applied) := by
  intro limit zero occupied
  have hmem (p : Option ShedOrder → Bool) :
      table.toList.any p = true ↔ ∃ m : Fin 4, p table[m] = true := by
    rw [List.any_eq_true]
    constructor
    · rintro ⟨x, hx, hp⟩
      obtain ⟨i, hi, rfl⟩ := Vector.mem_iff_getElem.1 (Vector.mem_toList_iff.1 hx)
      exact ⟨⟨i, hi⟩, hp⟩
    · rintro ⟨m, hp⟩
      exact ⟨_, Vector.mem_toList_iff.2 (Vector.getElem_mem m.isLt), hp⟩
  have hzero : table.toList.any (fun o => o.any (fun x => x.mode == .zero)) = true ↔ zero := by
    rw [hmem]
    refine exists_congr fun m => ?_
    cases table[m] <;> simp
  have hoccupied : table.toList.any Option.isSome = true ↔ occupied := hmem _
  refine ⟨fun hst => if_neg hst, fun hst hz => ?_, fun hst hz ho => ?_, fun hst ho => ?_⟩
  · have hcap : shedCap table floor = some 0 := if_pos (hzero.2 hz)
    simp [limit, limitOf, hst, hcap]
  · have hcap : shedCap table floor = some floor := by
      unfold shedCap
      rw [if_neg (mt hzero.1 hz), if_pos (hoccupied.2 ho)]
    simp [limit, limitOf, hst, hcap]
  · have hz : ¬ zero := fun ⟨m, o, hm, _⟩ => ho ⟨m, by simp [show table[m] = some o from hm]⟩
    have hcap : shedCap table floor = none := by
      unfold shedCap
      rw [if_neg (mt hzero.1 hz), if_neg (mt hoccupied.1 ho)]
    simp [limit, limitOf, hst, hcap]

/-- An order written to an address of the shed table, and the limit formed anew (R90, R92, R120). -/
theorem State.writeShed_eq (s : State) (m : Fin 4) (o : ShedOrder) :
    let table := s.shed.table.set m (if o.rounds = 0 then none else some o)
    let limit := limitOf s.ctl.station s.share.applied (shedCap table s.cfg.floor)
    s.writeShed m.val o = { s with
      shed := { s.shed with table := table }
      share := { s.share with limit := limit }
      drive := if 0 < s.share.limit ∧ limit = 0 then
          { s.drive with duty := 0, buffer := 0, level := false }
        else s.drive } := by
  have htable : s.shed.table.setIfInBounds m.val (shedEntryOf o)
      = s.shed.table.set m (if o.rounds = 0 then none else some o) := by
    ext i hi : 1
    rw [Vector.getElem_setIfInBounds, Vector.getElem_set]
    rfl
  unfold State.writeShed
  rw [htable]
  rfl

/-- What a SHED does before its order is written (R33, R34, R120). -/
theorem State.accept_shed (s : State) (m : Nat) (o : ShedOrder) (d : Word16) :
    s.accept (.shed m o d) = State.writeShed { s with
      ctl := s.noticed false
      stats := (s.stats.bump .framesAccepted).bump .shedsAccepted } m o := by
  have hnotice : s.noticed false = (s.notice (.shed m o d)).ctl := rfl
  rw [hnotice]
  rfl

/-- Settles O22: the limit by the shed table, and a SHED written to its sender's entry (R90, R120,
R122). -/
theorem acceptedShedWritesItsEntryAndTheLimit :
    Obligations.AcceptedShedWritesItsEntryAndTheLimit := by
  refine ⟨limitOf_shedCap, fun s bits m o d hjudges => ?_⟩
  intro u table limit
  have hexec := exec_frameReport_of_judges hjudges
  have haccept : u.settleVerdict (.accepted (.shed m.val o d)) (lineReport s.line.receiver bits).body
      = u.accept (.shed m.val o d) := rfl
  rw [hexec, haccept, State.accept_shed, State.writeShed_eq]
  rfl

/-! ## JOIN and CLAIM -/

section Table
variable {g : GroupTable} {a : Nat}

/-- A JOIN from an address without an entry or with a member makes a CANDIDATE (R45). -/
theorem GroupTable.acceptJoin_of_renewed
    (h : ∀ e, findEntry a g.entries = some e → e.state = .active ∨ e.state = .silent) (t : Terms) :
    g.acceptJoin a t = { g with
      entries := putEntry (joinedEntry a t) g.entries, orphans := removeOrphan a g.orphans } := by
  obtain ⟨heq, -⟩ | ⟨e, he, hst, -⟩ := g.acceptJoin_cases a t
  · exact heq
  · rcases h e he with hs | hs <;> rw [hs] at hst <;> simp at hst

/-- A JOIN from one that waits rewrites its terms (R45). -/
theorem GroupTable.acceptJoin_of_waiting
    (h : ¬ ∀ e, findEntry a g.entries = some e → e.state = .active ∨ e.state = .silent) (t : Terms) :
    ∃ e, findEntry a g.entries = some e
      ∧ g.acceptJoin a t = { g with entries := putEntry (e.rejoin t) g.entries } := by
  obtain ⟨-, hrenewed⟩ | ⟨e, he, -, heq⟩ := g.acceptJoin_cases a t
  · exact absurd hrenewed h
  · exact ⟨e, he, heq⟩

/-- Of the table a JOIN writes the entry of its address only, and it leaves the confirmation set (R45). -/
theorem GroupTable.findEntry_acceptJoin_of_ne (t : Terms) {x : Nat} (hx : x ≠ a) :
    findEntry x (g.acceptJoin a t).entries = findEntry x g.entries
      ∧ (g.acceptJoin a t).confirm = g.confirm := by
  obtain ⟨heq, -⟩ | ⟨e, he, -, heq⟩ := g.acceptJoin_cases a t
  · rw [heq]
    exact ⟨findEntry_putEntry_of_ne (joinedEntry a t) _ hx, rfl⟩
  · have hne : x ≠ e.addr := by rwa [addr_of_findEntry he]
    rw [heq]
    exact ⟨findEntry_putEntry_of_ne (e.rejoin t) _ hne, rfl⟩

/-- The state a CLAIM gives by the fit of its floor (R46, R48). -/
def stateByFit (budget : Nat) (es : List Entry) (a floor : Nat) : EntryState :=
  if floorFits budget es a floor then .active else .outside

theorem stateByFit_active_iff (budget : Nat) (es : List Entry) (a floor : Nat) :
    stateByFit budget es a floor = .active ↔ floorSum (removeEntry a es) + floor ≤ budget := by
  have hfits : floorFits budget es a floor = true
      ↔ floorSum (removeEntry a es) + floor ≤ budget := decide_eq_true_iff
  rw [← hfits]
  unfold stateByFit
  cases floorFits budget es a floor <;> simp

section Claim
variable {listening : Bool} {budget floor : Nat} {es : List Entry}

/-- A member keeps ACTIVE for no more than its floor, and else by fit (R48). -/
theorem claimState_of_member {e : Entry} (he : findEntry a es = some e)
    (hst : e.state = .active ∨ e.state = .silent) : claimState listening budget es a floor
      = some (if floor ≤ e.terms.floor then .active else stateByFit budget es a floor) := by
  unfold claimState
  rw [he]
  rcases hst with hst | hst <;> simp only [hst] <;> rfl

/-- In LISTEN anyone else is given its state by fit (R46). -/
theorem claimState_of_listening
    (h : ¬ ∃ e, findEntry a es = some e ∧ (e.state = .active ∨ e.state = .silent)) :
    claimState true budget es a floor = some (stateByFit budget es a floor) := by
  unfold claimState
  cases he : findEntry a es with
  | none => rfl
  | some e =>
    cases hst : e.state
    case active => exact absurd ⟨e, he, .inl hst⟩ h
    case silent => exact absurd ⟨e, he, .inr hst⟩ h
    all_goals (simp only [hst]; rfl)

/-- Elsewhere anyone else is OUTSIDE, and an entry that waits has no CLAIM (R32, R47). -/
theorem claimState_of_not_listening
    (h : ¬ ∃ e, findEntry a es = some e ∧ (e.state = .active ∨ e.state = .silent)) :
    claimState false budget es a floor =
      if ∃ e, findEntry a es = some e ∧ (e.state = .candidate ∨ e.state = .deferred) then none
      else some .outside := by
  unfold claimState
  cases he : findEntry a es with
  | none => simp
  | some e =>
    cases hst : e.state
    case active => exact absurd ⟨e, he, .inl hst⟩ h
    case silent => exact absurd ⟨e, he, .inr hst⟩ h
    all_goals simp [hst]

/-- A CLAIM gives ACTIVE to a member with no more than its floor, and else to what fits of a member's or,
in LISTEN, of anyone's (R46 to R48). -/
theorem claimState_active_iff {st : EntryState}
    (h : claimState listening budget es a floor = some st) :
    let member := ∃ e, findEntry a es = some e ∧ (e.state = .active ∨ e.state = .silent)
    st = .active ↔
      (∃ e, findEntry a es = some e ∧ (e.state = .active ∨ e.state = .silent)
          ∧ floor ≤ e.terms.floor)
        ∨ ((member ∨ listening = true) ∧ floorSum (removeEntry a es) + floor ≤ budget) := by
  intro member
  rw [← stateByFit_active_iff]
  by_cases hmember : member
  · obtain ⟨e, he, hst⟩ := hmember
    rw [claimState_of_member he hst] at h
    obtain rfl := Option.some.inj h
    have hmember : member := ⟨e, he, hst⟩
    split_ifs with hfloor
    · exact iff_of_true rfl (.inl ⟨e, he, hst, hfloor⟩)
    · refine ⟨fun hfit => .inr ⟨.inl hmember, hfit⟩, fun hcase => ?_⟩
      obtain ⟨x, hx, -, hlower⟩ | ⟨-, hfit⟩ := hcase
      · obtain rfl := Option.some.inj (he.symm.trans hx)
        exact absurd hlower hfloor
      · exact hfit
  · have hlower : ¬ ∃ e, findEntry a es = some e ∧ (e.state = .active ∨ e.state = .silent)
        ∧ floor ≤ e.terms.floor := fun ⟨e, he, hst, _⟩ => hmember ⟨e, he, hst⟩
    cases listening
    · rw [claimState_of_not_listening hmember] at h
      split_ifs at h
      obtain rfl := Option.some.inj h
      exact iff_of_false nofun (by simp [hlower, hmember])
    · rw [claimState_of_listening hmember] at h
      obtain rfl := Option.some.inj h
      simp [hlower, hmember]

end Claim

end Table

/-- What a JOIN does beside the table: the notice, the count and the mask of the senders heard (R33,
R34). -/
theorem State.accept_join (s : State) (a : Nat) (t : Terms) (d : Word16) :
    s.accept (.join a t d) = { s with
      table := s.table.acceptJoin a t, ctl := s.noticed false
      stats := s.stats.bump .framesAccepted
      checker := { s.checker with heardAcc := s.checker.heardAcc ||| (1 <<< a) } } := rfl

/-- What a CLAIM does beside the table (R33, R34). -/
theorem State.accept_claim (s : State) (a : Nat) (v : Values) (t : Terms) (basis d : Word16)
    (mask : Word32) : s.accept (.claim a v t basis d mask) = { s with
      table := s.table.acceptClaim (s.ctl.station == .listen) s.cfg.budget s.ownAddr a v t basis mask
        s.snap.basis
      ctl := s.noticed (mask.getLsbD s.ownAddr), stats := s.stats.bump .framesAccepted
      checker := { s.checker with heardAcc := s.checker.heardAcc ||| (1 <<< a) } } := rfl

/-- Settles O24: a JOIN makes a CANDIDATE, or rewrites the terms of one that waits (R45). -/
theorem acceptedJoinMakesOrRewritesTheEntry : Obligations.AcceptedJoinMakesOrRewritesTheEntry := by
  intro s bits a terms d hjudges u old renewed
  refine ⟨u.accept (.join a terms d), exec_frameReport_of_judges hjudges, ?_⟩
  rw [State.accept_join]
  dsimp only
  refine ⟨fun hnew => ?_, fun hold => ?_, fun x hx =>
    (GroupTable.findEntry_acceptJoin_of_ne terms hx).1, ?_, rfl⟩
  · rw [GroupTable.acceptJoin_of_renewed hnew]
    exact ⟨findEntry_putEntry_self (joinedEntry a terms) _, rfl⟩
  · obtain ⟨e, he, heq⟩ := GroupTable.acceptJoin_of_waiting hold terms
    have hput : findEntry e.addr (putEntry (e.rejoin terms) u.table.entries)
        = some (e.rejoin terms) := findEntry_putEntry_self (e.rejoin terms) u.table.entries
    rw [addr_of_findEntry he] at hput
    rw [heq, show old = some e from he]
    exact ⟨hput, rfl⟩
  · exact (GroupTable.findEntry_acceptJoin_of_ne (x := a + 1) terms (by omega)).2

/-- A CLAIM that passes the checks reaches the table (R31, R32). -/
theorem State.claimState_of_accepted {s : State} {a : Nat} {v : Values} {t : Terms}
    {basis d : Word16} {mask : Word32}
    (h : s.judgeFields (.claim a v t basis d mask) = .accepted (.claim a v t basis d mask)) :
    ∃ st, claimState (s.ctl.station == .listen) s.cfg.budget s.table.entries a t.floor = some st := by
  have hstate : ¬ failsState s.ctl.station s.table.entries (.claim a v t basis d mask) = true := by
    intro hfails
    unfold State.judgeFields at h
    split_ifs at h
  rw [failsState_iff, not_or, not_or] at hstate
  obtain ⟨-, -, hpasses⟩ := hstate
  by_cases hmember : ∃ e, findEntry a s.table.entries = some e
      ∧ (e.state = .active ∨ e.state = .silent)
  · obtain ⟨e, he, hst⟩ := hmember
    exact ⟨_, claimState_of_member he hst⟩
  · by_cases hlisten : s.ctl.station = .listen
    · rw [hlisten]
      exact ⟨_, claimState_of_listening hmember⟩
    · have hnot : (s.ctl.station == .listen) = false := by simp [hlisten]
      have hwaits : ¬ ∃ e, findEntry a s.table.entries = some e
          ∧ (e.state = .candidate ∨ e.state = .deferred) :=
        fun hwaits => hpasses ⟨rfl, hlisten, hwaits⟩
      rw [hnot, claimState_of_not_listening hmember, if_neg hwaits]
      exact ⟨_, rfl⟩

/-- Settles O25: a CLAIM writes its sender's entry and status, and removes its orphan (R46 to R48,
R60). -/
theorem acceptedClaimWritesTheEntryAndTheStatus :
    Obligations.AcceptedClaimWritesTheEntryAndTheStatus := by
  intro s bits a v terms basis d mask hjudges u old fits member lowerFloor
  obtain ⟨st, hst⟩ := State.claimState_of_accepted
    (State.judgeFields_of_accepted hjudges.2.2).2
  have hst : claimState (u.ctl.station == .listen) u.cfg.budget u.table.entries a terms.floor
    = some st := hst
  have hclaim : u.table.acceptClaim (u.ctl.station == .listen) u.cfg.budget u.ownAddr a v terms basis
      mask u.snap.basis = {
        entries := putEntry (claimEntry u.ownAddr a v terms basis mask st) u.table.entries
        orphans := removeOrphan a u.table.orphans
        confirm := setConfirmation u.snap.basis a basis u.table.confirm } := by
    unfold GroupTable.acceptClaim
    rw [hst]
  refine ⟨u.accept (.claim a v terms basis d mask), st, exec_frameReport_of_judges hjudges, ?_⟩
  rw [State.accept_claim]
  dsimp only
  rw [hclaim]
  refine ⟨findEntry_putEntry_self (claimEntry u.ownAddr a v terms basis mask st) _,
    claimState_active_or_outside hst, ?_, fun x hx =>
    findEntry_putEntry_of_ne (claimEntry u.ownAddr a v terms basis mask st) _ hx, rfl, rfl, rfl⟩
  have hactive := claimState_active_iff hst
  rwa [beq_iff_eq] at hactive

theorem evidenceMatters_iff (st : Station) :
    st.evidenceMatters = true ↔ st ∈ [Station.listen, .joining, .deferred, .active] := by
  cases st <;> simp [Station.evidenceMatters, Station.collisionMatters]

/-- Settles O26: the own address on the line is a conflict where the station is of the group, and else a
discard only (R29, R111). -/
theorem ownAddressOnTheLineIsAConflict : Obligations.OwnAddressOnTheLineIsAConflict := by
  intro s bits hjudges u
  refine ⟨_, exec_frameReport_of_discarded hjudges, State.discard_stats _ _ _, fun hst => ?_,
    fun hst => ?_⟩
  · have hmatters : u.ctl.station.evidenceMatters = true := (evidenceMatters_iff _).2 hst
    have hconflict : u.discard .self (lineReport s.line.receiver bits).body
        = (u.recordDiscard .self (lineReport s.line.receiver bits).body).enterFaultState
          .addressConflict .conflictByFrame := if_pos hmatters
    rw [show s.atJudgement bits = u from rfl, hconflict, State.enterFaultState_eq _ (by nofun)]
    rfl
  · have hnot : ¬ u.ctl.station.evidenceMatters = true := mt (evidenceMatters_iff _).1 hst
    have hstands : u.discard .self (lineReport s.line.receiver bits).body
        = u.recordDiscard .self (lineReport s.line.receiver bits).body := if_neg hnot
    rw [show s.atJudgement bits = u from rfl, hstands]
    rfl

end Sys2Proof.Machine
end

section
/-! PROOFS. The end of a slot: the slot that opens next, and the boundary where the round goes round
(R7 to R10, R34, R103, R113, R128). -/

namespace Sys2Proof.Machine

/-- The end of a slot that is due advances the rotation (R7, R8). -/
theorem exec_of_slotEnds {s : State} {c : Instr} (h : s.SlotEnds c) : exec c s = .next s.advance := by
  obtain ⟨hconf, hsync, ⟨rfl, hslot, hphase⟩ | ⟨rfl, hslot, hphase, hreceiver⟩⟩ := h
  · have hruns : s.windowRunning = true := by
      simp [State.windowRunning, hconf, hsync, hslot, hphase]
    exact congrArg Host.Outcome.next (if_pos hruns)
  · have hruns : s.releaseGapRunning = true := by
      simp [State.releaseGapRunning, hconf, hsync, hslot, hphase, hreceiver]
    exact congrArg Host.Outcome.next (if_pos hruns)

/-! ## The slot that opens -/

/-- The station states that transmit (R10, R113). -/
theorem transmitting_iff (st : Station) :
    st.transmitting = true ↔ st ∈ [Station.joining, .deferred, .active, .leaving] := by
  cases st <;> simp [Station.transmitting]

/-- In a transmitting state the burst is the pending SHED and the frame of the state (R113, R128). -/
theorem State.composeBurst_eq {s : State} (h : s.ctl.station.transmitting = true) :
    s.composeBurst = s.burstNow s.checker.heardAcc := by
  unfold State.composeBurst State.stateFrame State.burstNow
  cases hst : s.ctl.station <;> simp only [hst, Station.transmitting, Bool.false_eq_true] at h ⊢
  all_goals cases s.sched.item <;> rfl

section OpenSlot
variable (s : State) {a : Nat}

/-- Another station's slot: ROT and the window (R7). -/
theorem State.openSlot_of_ne (h : a ≠ s.ownAddr) :
    s.openSlot a = { s with rotation := { s.rotation with rot := a, slot := .window } } := if_neg h

/-- The own slot in a state that does not transmit: the heard mask is emptied beside (R34). -/
theorem State.openSlot_of_silent (h : a = s.ownAddr) (hst : ¬ s.ctl.station.transmitting = true) :
    s.openSlot a = { s with
      rotation := { s.rotation with rot := a, slot := .window }
      checker := { s.checker with heardAcc := 0 } } := by
  unfold State.openSlot
  rw [if_pos h]
  exact if_neg hst

/-- The own slot in a state that transmits: the burst is composed and the start delay begins (R10, R34,
R103, R113, R128). -/
theorem State.openSlot_of_transmitting (h : a = s.ownAddr) (hst : s.ctl.station.transmitting = true) :
    s.openSlot a = { s with
      rotation := { s.rotation with rot := a, slot := .window }
      checker := { s.checker with heardAcc := 0 }
      line := { s.line with phase := .startDelay, burst := s.burstNow s.checker.heardAcc }
      sched := { s.sched with
        writtenSince := if s.sched.item.isSome then false else s.sched.writtenSince }
      ctl := { s.ctl with
        joinComposed := if s.ctl.station = .joining then true else s.ctl.joinComposed } } := by
  rw [← State.composeBurst_eq hst]
  unfold State.openSlot
  rw [if_pos h]
  exact if_pos hst

/-- What the opening of a slot may move (R7, R10, R34, R103, R128). -/
theorem State.openSlot_eq (s : State) (a : Nat) : s.openSlot a = { s with
    rotation := { s.rotation with rot := a, slot := .window }
    line := (s.openSlot a).line
    sched := { s.sched with writtenSince := (s.openSlot a).sched.writtenSince }
    ctl := { s.ctl with joinComposed := (s.openSlot a).ctl.joinComposed }
    checker := { s.checker with heardAcc := (s.openSlot a).checker.heardAcc } } := by
  by_cases h : a = s.ownAddr
  · by_cases hst : s.ctl.station.transmitting = true
    · rw [s.openSlot_of_transmitting h hst]
    · rw [s.openSlot_of_silent h hst]
  · rw [s.openSlot_of_ne h]

/-- Outside JOINING the opening of a slot leaves the Station Controller (R103). -/
theorem State.ctl_openSlot_of_ne_joining (hst : s.ctl.station ≠ .joining) (a : Nat) :
    (s.openSlot a).ctl = s.ctl := by
  by_cases h : a = s.ownAddr
  · by_cases htransmits : s.ctl.station.transmitting = true
    · rw [s.openSlot_of_transmitting h htransmits, if_neg hst]
    · rw [s.openSlot_of_silent h htransmits]
  · rw [s.openSlot_of_ne h]

end OpenSlot

/-- The opening of slot 0 after anything that left the line, the Frame Checker and the own address
(R7, R9, R10). -/
theorem State.openedSlotZero_openSlot {s u : State} (hline : u.line = s.line)
    (hchecker : u.checker = s.checker) (haddr : u.ownAddr = s.ownAddr) :
    s.OpenedSlotZero (u.openSlot 0) := by
  unfold State.OpenedSlotZero
  rw [← hline, ← hchecker, ← haddr]
  by_cases hown : u.ownAddr = 0
  · by_cases hst : u.ctl.station.transmitting = true
    · have hmem := (transmitting_iff _).1 hst
      rw [u.openSlot_of_transmitting hown.symm hst]
      dsimp only
      refine ⟨(if_pos hown).symm, fun hno => absurd ⟨hown, hmem⟩ hno, fun _ => ⟨rfl, ?_, ?_⟩⟩
      · exact fun hjoining => if_pos hjoining
      · exact fun hitem => if_pos hitem
    · have hmem := mt (transmitting_iff _).2 hst
      rw [u.openSlot_of_silent hown.symm hst]
      dsimp only
      exact ⟨(if_pos hown).symm, fun _ => rfl, fun hsends => absurd hsends.2 hmem⟩
  · rw [u.openSlot_of_ne (Ne.symm hown)]
    dsimp only
    exact ⟨(if_neg hown).symm, fun _ => rfl, fun hsends => absurd hsends.1 hown⟩

/-- Settles O27: short of the last slot the next one opens, and at the own one the burst of the station
state is composed (R7, R8, R10, R34, R113, R114, R128). -/
theorem slotEndOpensTheNextSlot : Obligations.SlotEndOpensTheNextSlot := by
  intro s c hends hlt next opened terms sheds begun
  have hexec : exec c s = .next (s.openSlot (s.rotation.rot + 1)) :=
    (exec_of_slotEnds hends).trans (congrArg Host.Outcome.next (if_pos hlt))
  have hburst (st : Station) (hst : s.ctl.station = st) (f : Frame)
      (hf : State.burstNow { s with ctl := { s.ctl with station := st } } s.checker.heardAcc
        = sheds ++ [f]) : s.burstNow s.checker.heardAcc = sheds ++ [f] := by
    subst hst
    exact hf
  have hsends (f : Frame) (hown : s.rotation.rot + 1 = s.ownAddr)
      (hst : s.ctl.station.transmitting = true) (hf : s.burstNow s.checker.heardAcc = sheds ++ [f]) :
      exec c s = .next { begun f with ctl := { s.ctl with
        joinComposed := if s.ctl.station = .joining then true else s.ctl.joinComposed } } := by
    rw [hexec, s.openSlot_of_transmitting hown hst, hf]
  have hstands (f : Frame) (hown : s.rotation.rot + 1 = s.ownAddr)
      (hst : s.ctl.station.transmitting = true) (hf : s.burstNow s.checker.heardAcc = sheds ++ [f])
      (hno : s.ctl.station ≠ .joining) : exec c s = .next (begun f) := by
    rw [hsends f hown hst hf, if_neg hno]
  refine ⟨fun hother => ?_, fun hown => ⟨fun hst => ?_, fun hst => ?_, fun hst => ?_, fun hst => ?_,
    fun hst => ?_⟩⟩
  · rw [hexec, s.openSlot_of_ne hother]
  · have hjoining := hsends (.join s.ownAddr terms s.ownDigest) hown (by rw [hst]; rfl)
      (hburst _ hst _ rfl)
    rwa [if_pos hst] at hjoining
  · exact hstands _ hown (by rw [hst]; rfl) (hburst _ hst _ rfl) (by simp [hst])
  · exact hstands _ hown (by rw [hst]; rfl) (hburst _ hst _ rfl) (by simp [hst])
  · exact hstands _ hown (by rw [hst]; rfl) (hburst _ hst _ rfl) (by simp [hst])
  · rw [hexec, s.openSlot_of_silent hown (mt (transmitting_iff _).1 hst)]

/-- The end of the last slot is the ordinary boundary and the opening of slot 0 (R9). -/
theorem exec_of_roundEnds {s : State} {c : Instr} (h : s.SlotEnds c)
    (hlast : s.rotation.rot + 1 = s.cfg.nSlots) :
    exec c s = .next ((s.boundary .ordinary).openSlot 0) :=
  (exec_of_slotEnds h).trans (congrArg Host.Outcome.next (if_neg (by omega)))

/-- In a fault state a boundary counts the round and does no more (R9, R50). -/
theorem State.boundary_of_not_working {s : State} (h : ¬ s.ctl.station.working = true)
    (kind : BoundaryKind) : s.boundary kind = s.countBoundary kind := if_neg h

/-- Settles O28: the last slot's end performs the ordinary boundary and opens slot 0 (R7, R9, R10). -/
theorem roundBoundaryReturnsToSlotZero : Obligations.RoundBoundaryReturnsToSlotZero := by
  intro s c hends hlast
  obtain ⟨hkeeps, hline, hchecker⟩ := s.keeps_boundary .ordinary
  obtain ⟨hsynced, -, -, hcount⟩ := s.rotation_boundary .ordinary
  have hexec := exec_of_roundEnds hends hlast
  constructor
  · have hhistory : (s.boundary .ordinary).checker.history = s.checker.history := by rw [hchecker]
    obtain ⟨hpins, hloader, hcfg, hport, hfree, hpending⟩ := hkeeps.trans (State.keeps_openSlot _ 0)
    have hzero := State.openedSlotZero_openSlot hline hchecker hkeeps.ownAddr
    have hrounds := s.rounds_boundary .ordinary
    have hlost := s.lostRounds_boundary .ordinary
    have heq := State.openSlot_eq (s.boundary .ordinary) 0
    refine ⟨_, hexec, ?_, ?_, ?_, ?_, ?_, ?_, ?_, hloader, hcfg, hport, hpins, hfree, hpending,
      hzero⟩
    · rw [heq]
    · rw [heq]
    · rw [heq]
      exact hsynced.trans hends.2.1
    · rw [heq]
      exact hcount
    · rw [heq]
      exact hrounds
    · rw [heq]
      exact hlost
    · rw [heq]
      exact hhistory
  · intro hst
    have hwork : ¬ s.ctl.station.working = true := by
      rcases hst with hst | hst <;> simp [hst, Station.working]
    have hsilent : ¬ s.ctl.station.transmitting = true := by
      rcases hst with hst | hst <;> simp [hst, Station.transmitting]
    rw [hexec, State.boundary_of_not_working hwork]
    by_cases hown : s.ownAddr = 0
    · rw [State.openSlot_of_silent (s.countBoundary .ordinary) hown.symm hsilent, if_pos hown]
      rfl
    · rw [State.openSlot_of_ne (s.countBoundary .ordinary) (Ne.symm hown), if_neg hown]
      rfl

end Sys2Proof.Machine
end

section
/-! PROOFS. The Allocator: the extra stage as passes that end, the allocation of each address, and what is
allocated in all (R61 to R72). -/

namespace Sys2Proof.Machine

/-! ## The extra stage -/

/-- A pass grants nobody more than it wants (R70, R71). -/
theorem passGrant_le_want (r : Nat) (cs : List Claimant) (c : Claimant) :
    passGrant r cs c ≤ c.want := by
  unfold passGrant
  split_ifs with hq hunit
  · exact Nat.min_le_right _ _
  · exact hunit.1
  · exact Nat.zero_le _

/-- What the claimants hold after a pass is what they held and what it granted (R69). -/
theorem givenSum_passOver (r : Nat) (cs : List Claimant) :
    givenSum (passOver r cs) = givenSum cs + (cs.map (passGrant r cs)).sum := by
  simp [givenSum, passOver, List.map_map, Function.comp_def, List.sum_map_add]

section Extra
variable {r : Nat} {cs : List Claimant}

/-- A pass hands out of its remainder and keeps the rest (R70, R71). -/
theorem sum_passOver (ho : cs.Pairwise Claimant.Earlier) :
    givenSum (passOver r cs) + passLeft r cs = givenSum cs + r := by
  by_cases hq : 1 ≤ r / weightSum cs
  · obtain ⟨hover, hleft⟩ := weightedPass_eq r cs hq
    have hsum := weightedPass_sum (r / weightSum cs) cs
    have hle : weightedSum (r / weightSum cs) cs ≤ r :=
      (weightedSum_le _ _).trans (Nat.div_mul_le_self r _)
    rw [← hover, ← hleft]
    omega
  · obtain ⟨hover, hleft⟩ := unitPass_eq r cs ho hq
    rw [← hover, ← hleft]
    exact unitPass_sum r cs

/-- Before its end the extra stage goes on by one pass (R69). -/
theorem extraStage_succ (ho : cs.Pairwise Claimant.Earlier)
    (hend : ¬ (r = 0 ∨ cs.all (fun c => decide (c.want = 0)) = true)) (fuel : Nat) :
    extraStage (fuel + 1) r cs = extraStage fuel (passLeft r cs) (passOver r cs) := by
  conv_lhs => unfold extraStage
  rw [if_neg hend]
  dsimp only
  split_ifs with hq
  · obtain ⟨hover, hleft⟩ := weightedPass_eq r cs hq
    rw [hover, hleft]
  · obtain ⟨hover, hleft⟩ := unitPass_eq r cs ho hq
    rw [hover, hleft]

/-- What a claimant has keeps through grants within its want, it has through the extra stage (R69). -/
theorem extraStage_keeps {P : Claimant → Prop}
    (hgrant : ∀ c g, P c → g ≤ c.want → P { c with given := c.given + g }) (fuel : Nat)
    (ho : cs.Pairwise Claimant.Earlier) (h : ∀ c ∈ cs, P c) : ∀ c ∈ extraStage fuel r cs, P c := by
  induction fuel generalizing r cs with
  | zero => exact h
  | succ fuel ih =>
    by_cases hend : r = 0 ∨ cs.all (fun c => decide (c.want = 0)) = true
    · unfold extraStage
      rwa [if_pos hend]
    · rw [extraStage_succ ho hend]
      refine ih (passOver_pairwise r cs ho) (fun x hx => ?_)
      obtain ⟨c, hc, rfl⟩ := List.mem_map.1 hx
      exact hgrant c _ (h c hc) (passGrant_le_want r cs c)

/-- The extra stage ends with nothing left or with nobody unsatisfied (R69). -/
theorem extraStage_ends (fuel : Nat) (hfuel : r ≤ fuel) (ho : cs.Pairwise Claimant.Earlier) :
    ∃ left, givenSum (extraStage fuel r cs) + left = givenSum cs + r
      ∧ (left = 0 ∨ ∀ c ∈ extraStage fuel r cs, c.want = 0) := by
  induction fuel generalizing r cs with
  | zero => exact ⟨r, rfl, .inl (Nat.le_zero.1 hfuel)⟩
  | succ fuel ih =>
    by_cases hend : r = 0 ∨ cs.all (fun c => decide (c.want = 0)) = true
    · have hstands : extraStage (fuel + 1) r cs = cs := by
        unfold extraStage
        exact if_pos hend
      rw [hstands]
      exact ⟨r, rfl, hend.imp_right fun hall c hc => by simpa using List.all_eq_true.1 hall c hc⟩
    · obtain ⟨hpos, hwants⟩ := not_or.1 hend
      have hless := passLeft_lt r cs ho hpos hwants
      obtain ⟨left, hsum, hdone⟩ :=
        ih (r := passLeft r cs) (by omega) (passOver_pairwise r cs ho)
      rw [extraStage_succ ho hend]
      exact ⟨left, hsum.trans (sum_passOver ho), hdone⟩

end Extra

/-! ## The whole share-out -/

/-- The order of R71 holds of the floor stage's result put in it, where the entries are in order. -/
theorem pairwise_inUnitOrder_floorStage (r : Nat) {es : List Entry} (hs : SortedEntries es) :
    (inUnitOrder (floorStage r (es.map Entry.claimant)).1).Pairwise Claimant.Earlier := by
  refine inUnitOrder_pairwise _ ?_
  rw [← List.pairwise_map (f := fun c : Claimant => c.addr) (R := fun a b => a ≠ b),
    floorStage_addrs, List.map_map, List.pairwise_map]
  exact hs.imp (fun hlt => Nat.ne_of_lt hlt)

section ShareOut
variable {r : Nat} {es : List Entry}

/-- What a claimant has after its floor grant keeps through grants within its want, it has through the
share-out (R68, R69). -/
theorem shareOut_keeps {P : Claimant → Prop} (hs : SortedEntries es)
    (hfloor : ∀ c ∈ (floorStage r (es.map Entry.claimant)).1, P c)
    (hgrant : ∀ c g, P c → g ≤ c.want → P { c with given := c.given + g }) :
    ∀ c ∈ shareOut r (es.map Entry.claimant), P c :=
  extraStage_keeps hgrant _ (pairwise_inUnitOrder_floorStage r hs)
    (fun c hc => hfloor c ((inUnitOrder_perm _).mem_iff.1 hc))

/-- The share-out gives all there is, or leaves nobody unsatisfied (R69). -/
theorem shareOut_ends (hs : SortedEntries es) :
    ∃ left, givenSum (shareOut r (es.map Entry.claimant)) + left = r
      ∧ (left = 0 ∨ ∀ c ∈ shareOut r (es.map Entry.claimant), c.want = 0) := by
  obtain ⟨left, hsum, hdone⟩ := extraStage_ends (r := (floorStage r (es.map Entry.claimant)).2) _
    (Nat.le_refl _) (pairwise_inUnitOrder_floorStage r hs)
  have hfloors := floorStage_sum r (es.map Entry.claimant)
  have hperm : givenSum (inUnitOrder (floorStage r (es.map Entry.claimant)).1)
      = givenSum (floorStage r (es.map Entry.claimant)).1 :=
    ((inUnitOrder_perm _).map _).sum_nat
  exact ⟨left, by unfold shareOut; dsimp only; omega, hdone⟩

/-- A floor grant is within the demand (R68). -/
theorem floorStage_within_demand (r : Nat) (cs : List Claimant) :
    ∀ c ∈ (floorStage r cs).1, c.given ≤ c.demand := by
  induction cs generalizing r with
  | nil => simp [floorStage]
  | cons c cs ih =>
    intro x hx
    rcases List.mem_cons.1 hx with rfl | hx
    · exact (Nat.min_le_left _ _).trans (Nat.min_le_left _ _)
    · exact ih _ x hx

/-- Nobody is given more than its demand (R68, R69). -/
theorem shareOut_within_demand (hs : SortedEntries es) :
    ∀ c ∈ shareOut r (es.map Entry.claimant), c.given ≤ c.demand := by
  refine shareOut_keeps hs (floorStage_within_demand r _) (fun c g hc hg => ?_)
  have hwant : c.want ≤ c.demand - c.given := Nat.sub_le_sub_right (Nat.min_le_left _ _) _
  dsimp only
  omega

/-- Nobody whose floor is within its ceiling is given more than the smaller of demand and ceiling (R68,
R69). -/
theorem shareOut_within (hs : SortedEntries es) (hterms : ∀ e ∈ es, e.terms.floor ≤ e.terms.ceiling) :
    WithinWants (shareOut r (es.map Entry.claimant)) := by
  refine shareOut_keeps hs (floorStage_within r _ ?_) (fun c g hc hg => ?_)
  · intro c hc
    obtain ⟨e, he, rfl⟩ := List.mem_map.1 hc
    exact hterms e he
  · unfold Claimant.want at hg
    dsimp only
    omega

/-- Each normal entry has its claimant after the share-out, found by its address (R69). -/
theorem find_shareOut (hs : SortedEntries es) {e : Entry} (he : e ∈ es) :
    ∃ given, (shareOut r (es.map Entry.claimant)).find? (fun c => c.addr == e.addr)
      = some { e.claimant with given := given } := by
  have hfst : (extraPass^[r] (es.foldl floorGrant (r, []))).2.map Prod.fst = es :=
    (map_fst_iterate_extraPass r _).trans (map_fst_foldl_floorGrant es r [])
  obtain ⟨x, hx, rfl⟩ := List.mem_map.1 (hfst.symm ▸ he)
  exact ⟨x.2, given_shareOut r r es hs (Nat.le_refl r) x hx⟩

/-- The share-out speaks of the addresses of the normal entries only. -/
theorem find_shareOut_eq_none (hs : SortedEntries es) {a : Nat} (ha : ∀ e ∈ es, e.addr ≠ a) :
    (shareOut r (es.map Entry.claimant)).find? (fun c => c.addr == a) = none := by
  rw [List.find?_eq_none]
  have hkeeps := shareOut_keeps (P := fun c => c.addr ≠ a) (r := r) hs (fun c hc => ?_)
    (fun c g hc _ => hc)
  · intro c hc
    simpa using hkeeps c hc
  · have hmem := List.mem_map_of_mem (f := fun c : Claimant => c.addr) hc
    rw [floorStage_addrs, List.map_map] at hmem
    obtain ⟨e, he, heq⟩ := List.mem_map.1 hmem
    exact fun hca => ha e he (heq.trans hca)

end ShareOut

/-! ## The allocation of an address -/

/-- What the share-out gave the claimant of an address, 0 where there is none (R72). -/
def givenAt (shares : List Claimant) (a : Nat) : Nat :=
  ((shares.find? (fun c => c.addr == a)).map (fun c => c.given)).getD 0

/-- The allocation of an entry: its fixed amount, or what the share-out gave it (R65, R72). -/
def Entry.amount (budget : Nat) (shares : List Claimant) (e : Entry) : Nat :=
  (e.pinned budget).getD (givenAt shares e.addr)

/-- The value of the first entry of a list with a key, 0 where there is none. -/
def lookup {α : Type} (key val : α → Nat) (l : List α) (a : Nat) : Nat :=
  ((l.find? (fun x => key x == a)).map val).getD 0

/-- The allocation of an address is that of its entry, or else of its orphan (R72). -/
theorem allocationAt_eq (budget : Nat) (es : List Entry) (os : List Orphan) (shares : List Claimant)
    (a : Nat) : allocationAt budget es os shares a =
      if (findEntry a es).isSome then lookup (·.addr) (Entry.amount budget shares) es a
      else lookup (·.addr) (·.reserve) os a := by
  unfold allocationAt lookup
  rw [show es.find? (fun e => e.addr == a) = findEntry a es from rfl]
  cases he : findEntry a es with
  | none => cases os.find? (fun o => o.addr == a) <;> rfl
  | some e =>
    have haddr := addr_of_findEntry he
    subst haddr
    unfold Entry.amount givenAt
    cases hp : e.pinned budget with
    | none => cases hfound : shares.find? (fun c => c.addr == e.addr) <;> simp [hp, hfound]
    | some n => simp [hp]

section Lookup
variable {α : Type} {key val : α → Nat} {l : List α} {a : Nat}

theorem lookup_eq_zero (h : ∀ x ∈ l, key x ≠ a) : lookup key val l a = 0 := by
  unfold lookup
  rw [List.find?_eq_none.2 (fun x hx => by simpa using h x hx)]
  rfl

theorem lookup_cons (x : α) (l : List α) (a : Nat) :
    lookup key val (x :: l) a = if key x = a then val x else lookup key val l a := by
  unfold lookup
  by_cases h : key x = a <;> simp [h]

/-- In a list of ascending keys each entry is the first with its key. -/
theorem lookup_of_mem (hs : l.Pairwise (fun x y => key x < key y)) {x : α} (hx : x ∈ l) :
    lookup key val l (key x) = val x := by
  induction l with
  | nil => cases hx
  | cons y ys ih =>
    obtain ⟨hfirst, hrest⟩ := List.pairwise_cons.1 hs
    rw [lookup_cons]
    rcases List.mem_cons.1 hx with rfl | hx
    · exact if_pos rfl
    · rw [if_neg (Nat.ne_of_lt (hfirst x hx)), ih hrest hx]

/-- Over all keys the values of a list of ascending keys add up to their sum. -/
theorem sum_lookup (n : Nat) (hs : l.Pairwise (fun x y => key x < key y)) (hn : ∀ x ∈ l, key x < n) :
    ((List.range n).map (lookup key val l)).sum = (l.map val).sum := by
  induction l with
  | nil => exact List.sum_eq_zero (by simp [lookup])
  | cons x xs ih =>
    obtain ⟨hfirst, hrest⟩ := List.pairwise_cons.1 hs
    have hsplit (a : Nat) : lookup key val (x :: xs) a
        = (if key x = a then val x else 0) + lookup key val xs a := by
      rw [lookup_cons]
      split_ifs with ha
      · rw [lookup_eq_zero fun y hy => ha ▸ (hfirst y hy).ne', Nat.add_zero]
      · rw [Nat.zero_add]
    have hone : ((List.range n).map (fun a => if key x = a then val x else 0)).sum = val x := by
      calc ((List.range n).map (fun a => if key x = a then val x else 0)).sum
          = ∑ a ∈ Finset.range n, if key x = a then val x else 0 := rfl
        _ = val x := by
          rw [Finset.sum_ite_eq, if_pos (Finset.mem_range.2 (hn x List.mem_cons_self))]
    rw [funext hsplit, List.sum_map_add, hone,
      ih hrest (fun y hy => hn y (List.mem_cons_of_mem _ hy))]
    rfl

end Lookup

/-- The words of the allocation in the statements (R64). -/
theorem isNormal_iff (e : Entry) :
    e.isNormal = true ↔ e.state = .active ∧ e.vals.stageFault = false := by
  simp [Entry.isNormal]

/-- A normal entry is not pinned (R64). -/
theorem pinned_of_isNormal (budget : Nat) {e : Entry} (h : e.isNormal = true) :
    e.pinned budget = none := by
  obtain ⟨hst, hfault⟩ := (isNormal_iff e).1 h
  simp [Entry.pinned, hst, hfault]

/-- What is pinned in all is what the statements call the fixed amounts (R65, R67). -/
theorem pinnedSum_eq (budget : Nat) (es : List Entry) (os : List Orphan) : pinnedSum budget es os
    = (es.map (Entry.fixedAmount budget)).sum + (os.map (fun o => o.reserve)).sum := by
  unfold pinnedSum
  congr 1
  induction es with
  | nil => rfl
  | cons e es ih =>
    rw [List.map_cons, List.sum_cons, ← ih, ← pinned_getD]
    cases hp : e.pinned budget with
    | none => simp [List.filterMap_cons_none hp]
    | some n => simp [List.filterMap_cons_some hp]

section Amounts
variable {budget r : Nat} {es : List Entry}

/-- The grants of the normal entries (R68 to R71). -/
abbrev shareOf (r : Nat) (es : List Entry) : List Claimant :=
  shareOut r ((es.filter Entry.isNormal).map Entry.claimant)

/-- An entry that is not normal has its fixed amount (R64, R65). -/
theorem amount_of_not_isNormal (hs : SortedEntries es) {e : Entry} (he : e ∈ es)
    (hn : ¬ e.isNormal = true) : e.amount budget (shareOf r es) = e.fixedAmount budget := by
  rw [← pinned_getD, Entry.amount]
  cases hp : e.pinned budget with
  | some n => rfl
  | none =>
    have hother : ∀ x ∈ es.filter Entry.isNormal, x.addr ≠ e.addr := by
      intro x hx haddr
      obtain ⟨hmem, hnormal⟩ := List.mem_filter.1 hx
      have hsame : x = e := Option.some.inj <|
        (findEntry_of_mem hs hmem).symm.trans (haddr ▸ findEntry_of_mem hs he)
      exact hn (hsame ▸ hnormal)
    rw [givenAt, find_shareOut_eq_none (hs.filter _) hother]
    rfl

/-- A normal entry has what its claimant was given (R69). -/
theorem amount_of_isNormal {e : Entry} (hn : e.isNormal = true) :
    e.amount budget (shareOf r es) = givenAt (shareOf r es) e.addr := by
  rw [Entry.amount, pinned_of_isNormal budget hn]
  rfl

/-- The claimant of a normal entry after the share-out, with what the entry is given (R69). -/
theorem exists_claimant_of_isNormal (hs : SortedEntries es) {e : Entry} (he : e ∈ es)
    (hn : e.isNormal = true) (budget : Nat) :
    { e.claimant with given := e.amount budget (shareOf r es) } ∈ shareOf r es := by
  obtain ⟨given, hfound⟩ := find_shareOut (r := r) (hs.filter Entry.isNormal)
    (List.mem_filter.2 ⟨he, hn⟩)
  have hgiven : givenAt (shareOf r es) e.addr = given := by rw [givenAt, hfound]; rfl
  rw [amount_of_isNormal hn, hgiven]
  exact List.mem_of_find?_eq_some hfound

/-- What the normal entries have is what the share-out gave in all (R69). -/
theorem sum_givenAt (hs : SortedEntries es) :
    ((es.filter Entry.isNormal).map (fun e => givenAt (shareOf r es) e.addr)).sum
      = givenSum (shareOf r es) := by
  have hnormals := hs.filter Entry.isNormal
  generalize hps : (extraPass^[r] ((es.filter Entry.isNormal).foldl floorGrant (r, []))).2 = ps
  have hfst : ps.map Prod.fst = es.filter Entry.isNormal := by
    rw [← hps]
    exact (map_fst_iterate_extraPass r _).trans (map_fst_foldl_floorGrant _ r [])
  have hperm : (shareOf r es).Perm (ps.map asClaimant) := by
    rw [← hps]
    exact shareOut_perm r r _ hnormals (Nat.le_refl r)
  have hgiven : ∀ x ∈ ps, givenAt (shareOf r es) x.1.addr = x.2 := by
    intro x hx
    rw [givenAt, given_shareOut r r _ hnormals (Nat.le_refl r) x (hps.symm ▸ hx)]
    rfl
  calc ((es.filter Entry.isNormal).map (fun e => givenAt (shareOf r es) e.addr)).sum
      = (ps.map (fun x => givenAt (shareOf r es) x.1.addr)).sum := by
        rw [← hfst, List.map_map]
        rfl
    _ = (ps.map (fun x => (asClaimant x).given)).sum := by
        rw [List.map_congr_left hgiven]
        rfl
    _ = givenSum (shareOf r es) := by
        rw [givenSum, (hperm.map _).sum_nat, List.map_map]
        rfl

/-- The entries have their fixed amounts and what the share-out gave in all (R65, R69). -/
theorem sum_amount (hs : SortedEntries es) :
    (es.map (Entry.amount budget (shareOf r es))).sum
      = (es.map (Entry.fixedAmount budget)).sum + givenSum (shareOf r es) := by
  have hsplit : ∀ e ∈ es, e.amount budget (shareOf r es) = e.fixedAmount budget
      + if e.isNormal then givenAt (shareOf r es) e.addr else 0 := by
    intro e he
    by_cases hn : e.isNormal = true
    · rw [amount_of_isNormal hn, if_pos hn, ← pinned_getD, pinned_of_isNormal budget hn]
      exact (Nat.zero_add _).symm
    · rw [amount_of_not_isNormal hs he hn, if_neg hn, Nat.add_zero]
  rw [List.map_congr_left hsplit, List.sum_map_add, ← sum_givenAt hs, List.sum_map_ite]
  simp

end Amounts

end Sys2Proof.Machine
end

section
/-! PROOFS. The snapshot of the Allocator: its 32 allocations, their sum, and its basis digest (R61, R64
to R72). -/

namespace Sys2Proof.Machine

section Snapshot
variable {c : Settings} {es : List Entry} {os : List Orphan}

/-- The remainder that the Allocator shares out (R67). -/
abbrev sharedRemainder (c : Settings) (es : List Entry) (os : List Orphan) : Nat :=
  (allocate c es os).bEff - pinnedSum c.budget es os

/-- The snapshot has the allocation of each of the 32 addresses, and 0 beyond (R72). -/
theorem getD_alloc (c : Settings) (es : List Entry) (os : List Orphan) (a : Nat) :
    (allocate c es os).alloc.getD a 0 = if a < 32
      then allocationAt c.budget es os (shareOf (sharedRemainder c es os) es) a else 0 := by
  have halloc : (allocate c es os).alloc = (List.range 32).map
    (allocationAt c.budget es os (shareOf (sharedRemainder c es os) es)) := rfl
  rw [halloc, List.getD_eq_getElem?_getD, List.getElem?_map]
  by_cases ha : a < 32
  · simp [ha]
  · simp [ha]

/-- The allocation of the entry found for an address (R72). -/
theorem getD_alloc_of_findEntry (os : List Orphan) {a : Nat} {e : Entry}
    (he : findEntry a es = some e) : (allocate c es os).alloc.getD a 0
      = if a < 32 then e.amount c.budget (shareOf (sharedRemainder c es os) es) else 0 := by
  have hlookup : lookup (·.addr) (Entry.amount c.budget (shareOf (sharedRemainder c es os) es)) es a
      = e.amount c.budget (shareOf (sharedRemainder c es os) es) := by
    unfold lookup
    rw [show es.find? (fun x => x.addr == a) = some e from he]
    rfl
  rw [getD_alloc, allocationAt_eq, he, hlookup]
  rfl

/-- The allocation of an address without an entry is its orphan's reserve, or 0 (R72). -/
theorem getD_alloc_of_no_entry (c : Settings) (os : List Orphan) {a : Nat}
    (hnone : ∀ e ∈ es, e.addr ≠ a) : (allocate c es os).alloc.getD a 0
      = if a < 32 then lookup (·.addr) (·.reserve) os a else 0 := by
  rw [getD_alloc, allocationAt_eq, findEntry_eq_none.2 hnone]
  rfl

/-- A normal entry is allocated no more than its demand (R68, R69). -/
theorem alloc_le_demand (hs : SortedEntries es) (os : List Orphan) {e : Entry} (he : e ∈ es)
    (hn : e.isNormal = true) : (allocate c es os).alloc.getD e.addr 0 ≤ e.vals.demand := by
  rw [getD_alloc_of_findEntry os (findEntry_of_mem hs he)]
  split_ifs
  · exact shareOut_within_demand (hs.filter _) _ (exists_claimant_of_isNormal hs he hn c.budget)
  · exact Nat.zero_le _

/-- Where the floors are within the ceilings a normal entry is allocated no more than the smaller of its
demand and its ceiling (R68, R69). -/
theorem alloc_le_want (hs : SortedEntries es) (hterms : ∀ e ∈ es, e.terms.floor ≤ e.terms.ceiling)
    (os : List Orphan) {e : Entry} (he : e ∈ es) (hn : e.isNormal = true) :
    (allocate c es os).alloc.getD e.addr 0 ≤ min e.vals.demand e.terms.ceiling := by
  rw [getD_alloc_of_findEntry os (findEntry_of_mem hs he)]
  split_ifs
  · have hnormals : ∀ x ∈ es.filter Entry.isNormal, x.terms.floor ≤ x.terms.ceiling :=
      fun x hx => hterms x (List.mem_filter.1 hx).1
    exact shareOut_within (hs.filter _) hnormals _ (exists_claimant_of_isNormal hs he hn c.budget)
  · exact Nat.zero_le _

/-- What is allocated in all is what is pinned and what the share-out gives (R67, R69). -/
theorem sum_alloc (hs : SortedEntries es) (hso : os.Pairwise (fun x y => x.addr < y.addr))
    (haddr : ∀ e ∈ es, e.addr < 32) (horphan : ∀ o ∈ os, o.addr < 32 ∧ ∀ e ∈ es, e.addr ≠ o.addr) :
    (allocate c es os).alloc.sum = pinnedSum c.budget es os
      + givenSum (shareOf (sharedRemainder c es os) es) := by
  let shares := shareOf (sharedRemainder c es os) es
  have hsplit : ∀ a, allocationAt c.budget es os shares a
      = lookup (·.addr) (Entry.amount c.budget shares) es a + lookup (·.addr) (·.reserve) os a := by
    intro a
    rw [allocationAt_eq]
    cases hfound : findEntry a es with
    | none =>
      rw [lookup_eq_zero (fun e he => findEntry_eq_none.1 hfound e he), Nat.zero_add]
      rfl
    | some e =>
      have hnone : ∀ o ∈ os, o.addr ≠ a := fun o ho hoa =>
        (horphan o ho).2 e (mem_of_findEntry hfound) ((addr_of_findEntry hfound).trans hoa.symm)
      rw [lookup_eq_zero hnone]
      rfl
  calc (allocate c es os).alloc.sum
      = ((List.range 32).map (allocationAt c.budget es os shares)).sum := rfl
    _ = (es.map (Entry.amount c.budget shares)).sum + (os.map (fun o => o.reserve)).sum := by
        rw [funext hsplit, List.sum_map_add, sum_lookup 32 hs haddr,
          sum_lookup 32 hso (fun o ho => (horphan o ho).1)]
    _ = pinnedSum c.budget es os + givenSum shares := by
        rw [sum_amount hs, pinnedSum_eq]
        exact Nat.add_right_comm _ _ _

/-- All of the effective budget beyond what is pinned is allocated, or nobody is unsatisfied (R67, R69). -/
theorem sum_alloc_ends (hs : SortedEntries es) (hso : os.Pairwise (fun x y => x.addr < y.addr))
    (haddr : ∀ e ∈ es, e.addr < 32) (horphan : ∀ o ∈ os, o.addr < 32 ∧ ∀ e ∈ es, e.addr ≠ o.addr) :
    ∃ left, pinnedSum c.budget es os ≤ (allocate c es os).alloc.sum
      ∧ (allocate c es os).alloc.sum + left
        = pinnedSum c.budget es os + ((allocate c es os).bEff - pinnedSum c.budget es os)
      ∧ (left = 0 ∨ ∀ x ∈ shareOf (sharedRemainder c es os) es, x.want = 0) := by
  obtain ⟨left, hgiven, hdone⟩ :=
    shareOut_ends (r := sharedRemainder c es os) (hs.filter Entry.isNormal)
  rw [sum_alloc hs hso haddr horphan]
  exact ⟨left, Nat.le_add_right _ _, (Nat.add_assoc _ _ _).trans (congrArg _ hgiven), hdone⟩

/-- The effective budget is within B (R66). -/
theorem effectiveBudget_le (budget expected m : Nat) :
    effectiveBudget budget expected m ≤ budget := by
  unfold effectiveBudget
  split_ifs with h
  · exact Nat.le_refl _
  · obtain ⟨-, hless⟩ := not_or.1 h
    exact Nat.div_le_of_le_mul (Nat.mul_comm budget m ▸ Nat.mul_le_mul_right _ (by omega))

end Snapshot

/-! ## The basis digest -/

/-- A part that some entries have and the others lack, over those that have it. -/
theorem flatMap_eq_flatMap_filter {α β : Type} {f g : α → List β} {p : α → Bool} {l : List α}
    (hpart : ∀ x, p x = true → f x = g x) (hnone : ∀ x, p x = false → f x = []) :
    l.flatMap f = (l.filter p).flatMap g := by
  induction l with
  | nil => rfl
  | cons x xs ih =>
    cases hp : p x
    · rw [List.flatMap_cons, hnone x hp, List.filter_cons_of_neg (by simp [hp]), ih]
      rfl
    · rw [List.flatMap_cons, hpart x hp, List.filter_cons_of_pos hp, List.flatMap_cons, ih]

/-- The basis encoding in the words of R61. -/
theorem basisEncoding_eq (budget bEff : Nat) (es : List Entry) (os : List Orphan) :
    let vals := fun (e : Entry) => e.values.getD ⟨0, 0, 0, 0, false⟩
    let present := es.filter (fun e => e.state = .active ∨ e.state = .silent ∨ e.state = .outside)
    let two := fun (n : Nat) => [BitVec.ofNat 8 (n / 256), BitVec.ofNat 8 n]
    let code := fun (e : Entry) => if e.state = .active then 1 else if e.state = .silent then 2 else 3
    basisEncoding budget bEff es os =
      present.flatMap (fun e => [BitVec.ofNat 8 e.addr, code e] ++ two (vals e).demand
          ++ two e.terms.floor ++ two e.terms.ceiling
          ++ [BitVec.ofNat 8 e.terms.weight, if (vals e).stageFault then 1 else 0]
          ++ two (e.fixedAmount budget))
        ++ os.flatMap (fun o => BitVec.ofNat 8 o.addr :: two o.reserve) ++ two bEff := by
  intro vals present two code
  have hfault (b : Bool) : byte b.toNat = if b then 1 else 0 := by cases b <;> rfl
  have hmembers : es.flatMap (memberPart budget) = present.flatMap (fun e =>
      [BitVec.ofNat 8 e.addr, code e] ++ two (vals e).demand ++ two e.terms.floor
        ++ two e.terms.ceiling ++ [BitVec.ofNat 8 e.terms.weight, if (vals e).stageFault then 1 else 0]
        ++ two (e.fixedAmount budget)) := by
    refine flatMap_eq_flatMap_filter (fun e he => ?_) (fun e he => ?_)
    · rw [← pinned_getD]
      have hcode : ∃ n, basisCode e.state = some n ∧ byte n = code e := by
        cases hst : e.state
        case candidate => simp [hst] at he
        case deferred => simp [hst] at he
        all_goals simp [basisCode, code, hst, byte]
      obtain ⟨n, hn, hbyte⟩ := hcode
      rw [← hbyte, ← hfault]
      unfold memberPart
      rw [hn]
      rfl
    · cases hst : e.state
      case candidate => simp [memberPart, basisCode, hst]
      case deferred => simp [memberPart, basisCode, hst]
      all_goals simp [hst] at he
  unfold basisEncoding
  rw [hmembers]
  rfl

/-- Settles O35: the allocations in all and each of them, what the snapshot tells, and its basis digest
(R61, R64 to R72). -/
theorem allocationsStayWithinTheBudget : Obligations.AllocationsStayWithinTheBudget := by
  intro c es os hs hso hentry horphan snap vals normals present m pins two code
  have hpins : pinnedSum c.budget es os = pins := pinnedSum_eq c.budget es os
  obtain ⟨left, hpinned, hsum, -⟩ := sum_alloc_ends (c := c) hs hso (fun e he => (hentry e he).1) horphan
  have hpinned : pins ≤ snap.alloc.sum := hpins ▸ hpinned
  have hsum : snap.alloc.sum + left = pins + (snap.bEff - pins) := hpins ▸ hsum
  have hremainder : sharedRemainder c es os = snap.bEff - pins := by rw [← hpins]
  have hover : snap.overcommitted = true ↔ snap.bEff < pins := by
    rw [← hpins]
    exact decide_eq_true_iff
  have hnormals : normals = es.filter Entry.isNormal :=
    List.filter_congr fun e _ => by rw [Bool.eq_iff_iff, isNormal_iff, decide_eq_true_iff]; rfl
  have hmembers : m = memberCount es :=
    congrArg List.length (List.filter_congr fun e _ => by
      rw [Bool.eq_iff_iff, decide_eq_true_iff]; simp [Entry.counted])
  refine ⟨effectiveBudget_le _ _ _, fun hno => ?_, fun hyes => ?_, fun e he hst hfault => ?_,
    fun e he hn => ?_, fun o ho => ?_, fun a he ho => ?_, length_alloc_allocate c es os,
    hmembers.symm, ?_, hover, ?_, ?_⟩
  · have hfits : pins ≤ snap.bEff := by
      rw [← Nat.not_lt, ← hover, hno]
      exact Bool.false_ne_true
    clear_value snap pins
    omega
  · have hless := hover.1 hyes
    clear_value snap pins
    exact ⟨by omega, by omega⟩
  · exact alloc_le_want hs (fun x hx => (hentry x hx).2) os he ((isNormal_iff e).2 ⟨hst, hfault⟩)
  · change (allocate c es os).alloc.getD e.addr 0 = _
    rw [getD_alloc_of_findEntry os (findEntry_of_mem hs he), if_pos (hentry e he).1]
    exact amount_of_not_isNormal hs he (mt (isNormal_iff e).1 hn)
  · change (allocate c es os).alloc.getD o.addr 0 = _
    rw [getD_alloc_of_no_entry c os (horphan o ho).2, if_pos (horphan o ho).1, lookup_of_mem hso ho]
  · change (allocate c es os).alloc.getD a 0 = _
    rw [getD_alloc_of_no_entry c os he, lookup_eq_zero ho, ite_self]
  · rw [hmembers]
    rfl
  · rw [hnormals, ← hremainder]
    exact shortfall_floorStage _ _
  · exact congrArg (fun bytes => some (crc bytes)) (basisEncoding_eq c.budget snap.bEff es os)

/-- Settles O36: the share-out is the floor grants and the passes, and an unmet want leaves nothing to
give (R68 to R71). -/
theorem unmetWantLeavesNoRemainder : Obligations.UnmetWantLeavesNoRemainder := by
  intro c es os n hs hso hentry horphan snap normals pins floors shares
  have hpins : pinnedSum c.budget es os = pins := pinnedSum_eq c.budget es os
  have hremainder : sharedRemainder c es os = snap.bEff - pins := by rw [← hpins]
  have hnormals : normals = es.filter Entry.isNormal :=
    List.filter_congr fun e _ => by rw [Bool.eq_iff_iff, isNormal_iff, decide_eq_true_iff]
  have hmem (e : Entry) (he : e ∈ normals) : e ∈ es ∧ e.isNormal = true :=
    List.mem_filter.1 (hnormals ▸ he)
  have halloc (e : Entry) (he : e ∈ normals) : snap.alloc.getD e.addr 0
      = e.amount c.budget (shareOf (sharedRemainder c es os) es) := by
    change (allocate c es os).alloc.getD e.addr 0 = _
    rw [getD_alloc_of_findEntry os (findEntry_of_mem hs (hmem e he).1),
      if_pos (hentry e (hmem e he).1).1]
  have hfst : shares.map Prod.fst = normals :=
    (map_fst_iterate_extraPass n floors).trans (map_fst_foldl_floorGrant normals _ [])
  refine ⟨fun hn => ⟨hfst, fun x hx => ?_⟩, fun e he hunmet hno => ?_⟩
  · have hx1 : x.1 ∈ normals := hfst ▸ List.mem_map_of_mem hx
    have hfound := given_shareOut (sharedRemainder c es os) n normals (hs.filter _)
      (hremainder ▸ hn) x (hremainder.symm ▸ hx)
    rw [hnormals] at hfound
    rw [halloc _ hx1, amount_of_isNormal (hmem _ hx1).2, givenAt, hfound]
    rfl
  · obtain ⟨left, -, hsum, hdone⟩ :=
      sum_alloc_ends (c := c) hs hso (fun e he => (hentry e he).1) horphan
    have hsum : snap.alloc.sum + left = pins + (snap.bEff - pins) := hpins ▸ hsum
    obtain ⟨hes, hnormal⟩ := hmem e he
    rw [halloc e he] at hunmet
    have hleft : left = 0 := by
      rcases hdone with hzero | hnone
      · exact hzero
      · have hwant := hnone _ (exists_claimant_of_isNormal hs hes hnormal c.budget)
        exact absurd hwant (Nat.sub_ne_zero_of_lt hunmet)
    have hover : ¬ snap.bEff < pins := by
      rw [← hpins]
      exact of_decide_eq_false hno
    clear_value floors snap pins
    omega

end Sys2Proof.Machine
end

section
/-! PROOFS. What a boundary of either kind leaves of the Shed Unit, of the isolation counts and of the
station (R54, R85, R91, R101 to R105, R108 to R110, R121, R125). -/

namespace Sys2Proof.Machine

/-- In the working states a boundary counts and does its work (R9, R50). -/
theorem State.boundary_of_working {s : State} (h : s.ctl.station.working = true)
    (kind : BoundaryKind) : s.boundary kind = (s.countBoundary kind).boundaryWork kind := if_pos h

/-! ## The Shed Unit -/

/-- The evaluation of isolation leaves the Shed Unit and the Transmit Scheduler (R108). -/
theorem State.shed_evaluateIsolation (s : State) :
    s.evaluateIsolation.shed = s.shed ∧ s.evaluateIsolation.sched = s.sched := by
  unfold State.evaluateIsolation
  split_ifs <;> exact ⟨rfl, rfl⟩

/-- The Group Table's part leaves the Shed Unit and the Transmit Scheduler (R50). -/
theorem State.shed_tablePart (s : State) (kind : BoundaryKind) (isolating : Bool) :
    (s.tablePart kind isolating).shed = s.shed ∧ (s.tablePart kind isolating).sched = s.sched := by
  unfold State.tablePart State.tableStages
  split_ifs
  · exact ⟨rfl, rfl⟩
  · exact ⟨State.ownAdmission_shed _ _, State.ownAdmission_sched _ _⟩

/-- The changes of state as a boundary completes leave the Shed Unit and the Transmit Scheduler. -/
theorem State.shed_completeBoundary (s : State) (began : Station) :
    (s.completeBoundary began).shed = s.shed ∧ (s.completeBoundary began).sched = s.sched := by
  unfold State.completeBoundary State.endListen State.endIsolated
  split
  · exact ⟨rfl, rfl⟩
  · dsimp only
    split_ifs <;> exact ⟨rfl, rfl⟩
  · dsimp only
    split_ifs <;> exact ⟨rfl, rfl⟩
  · exact ⟨rfl, rfl⟩

/-- Of the boundary's work the countdown alone moves the Shed Unit and the Transmit Scheduler (R121). -/
theorem State.shed_boundaryWork (s : State) (kind : BoundaryKind) :
    (s.boundaryWork kind).shed = s.evaluateIsolation.shedCountdown.shed
      ∧ (s.boundaryWork kind).sched = s.evaluateIsolation.shedCountdown.sched := by
  obtain ⟨hshed, hsched⟩ := (s.boundaryStages kind).shed_completeBoundary s.ctl.station
  obtain ⟨hshed', hsched'⟩ := s.evaluateIsolation.shedCountdown.shed_tablePart kind s.isolates
  rw [State.boundaryWork_eq, hshed, hsched]
  unfold State.boundaryStages
  dsimp only
  rw [State.shareStage_shed, State.shareStage_sched]
  exact ⟨hshed', hsched'⟩

/-- The own entry of the shed table at an address that has one (R119). -/
theorem State.ownShedEntry_of_addr {s : State} {m : Fin 4} (h : m.val = s.ownAddr) :
    s.ownShedEntry = s.shed.table[m] := by
  unfold State.ownShedEntry
  rw [← h, Vector.getElem?_eq_getElem m.isLt]
  rfl

/-- Without a monitor in SHEDDING there is no look at the own entry (R125). -/
theorem State.monitorLook_of_idle {s : State} (h : s.ownRole = .load ∨ s.shed.monitor = .calm) :
    s.monitorLook = s := by
  refine if_neg ?_
  rintro ⟨hrole, hmonitor⟩
  rcases h with h | h
  · exact absurd (h.symm.trans hrole) (by decide)
  · exact absurd (h.symm.trans hmonitor) (by decide)

/-- A monitor in SHEDDING renews its order at 1 round or none (R125). -/
theorem State.item_monitorLook {s : State} (hrole : s.ownRole = .monitor)
    (hmonitor : s.shed.monitor = .shedding) : s.monitorLook.sched.item
      = (match s.ownShedEntry with
        | some o => if o.rounds = 1 then some s.cfg.order else s.sched.item
        | none => some s.cfg.order) := by
  unfold State.monitorLook
  rw [if_pos ⟨hrole, hmonitor⟩]
  cases s.ownShedEntry with
  | none => rfl
  | some o =>
    dsimp only
    split_ifs <;> rfl

/-- A boundary's work leaves the Shed Unit as R121 and R125 say. -/
theorem State.shedUnitLeaves_boundaryWork (s : State) (kind : BoundaryKind) :
    s.ShedUnitLeaves (s.boundaryWork kind) := by
  obtain ⟨hshed, hsched⟩ := s.shed_boundaryWork kind
  obtain ⟨hshed', hsched'⟩ := s.shed_evaluateIsolation
  have hkeeps := s.keeps_evaluateIsolation.1
  have htable : (s.boundaryWork kind).shed
      = { s.shed with table := s.shed.table.map countDown } := by
    rw [hshed, State.shedCountdown_shed, hshed']
  let v := State.formLimit { s.evaluateIsolation with
    shed := { s.evaluateIsolation.shed with
      table := s.evaluateIsolation.shed.table.map countDown } }
  have hlook : s.evaluateIsolation.shedCountdown = v.monitorLook := rfl
  have hrole : v.ownRole = s.ownRole := hkeeps.ownRole
  have haddr : v.ownAddr = s.ownAddr := hkeeps.ownAddr
  have hmonitor : v.shed.monitor = s.shed.monitor := by rw [← hshed']; rfl
  refine ⟨by rw [htable], fun m => ?_, fun hidle => ?_, fun m hm hmon hsheds => ?_⟩
  · rw [htable]
    exact Vector.getElem_map _ m.isLt
  · rw [hsched, hlook, State.monitorLook_of_idle (by rwa [hrole, hmonitor])]
    exact congrArg Scheduler.item hsched'
  · have hentry : v.ownShedEntry = (s.boundaryWork kind).shed.table[m] := by
      rw [State.ownShedEntry_of_addr (hm.trans haddr.symm), htable, ← hshed']
      rfl
    have hcfg : v.cfg = s.cfg := hkeeps.2.2.1
    have hitem : v.sched.item = s.sched.item := congrArg Scheduler.item hsched'
    rw [hsched, hlook, State.item_monitorLook (hrole.trans hmon) (hmonitor.trans hsheds), hentry, hcfg,
      hitem]
    rfl

/-- A boundary of either kind leaves the Shed Unit as R121 and R125 say. -/
theorem State.shedUnitLeaves_boundary {s : State} (h : s.ctl.station.working = true)
    (kind : BoundaryKind) : s.ShedUnitLeaves (s.boundary kind) := by
  rw [State.boundary_of_working h]
  have hwork := (s.countBoundary kind).shedUnitLeaves_boundaryWork kind
  cases kind <;> exact hwork

/-- Settles O33: the countdown of the shed table, and the order renewed (R121, R125). -/
theorem shedOrdersCountDownAtTheBoundary : Obligations.ShedOrdersCountDownAtTheBoundary := by
  intro s c hends hlast hwork
  have hleaves := State.shedUnitLeaves_boundary hwork .ordinary
  refine ⟨_, exec_of_roundEnds hends hlast, ?_⟩
  rw [State.openSlot_eq]
  exact hleaves

end Sys2Proof.Machine
end

section
/-! PROOFS. What a boundary of either kind leaves of the orphans and of the isolation counts (R56 to R58,
R108, R109). -/

namespace Sys2Proof.Machine

/-! ## The orphan list -/

section Orphans
variable {tOrphan : Nat} {es : List Entry} {os : List Orphan}

/-- An orphan of another address stands while orphans are made (R56). -/
theorem mem_addOrphans_of_mem {x : Orphan} (hx : x ∈ os) (hne : ∀ e ∈ es, e.addr ≠ x.addr) :
    x ∈ addOrphans tOrphan es os := by
  unfold addOrphans
  split_ifs
  · exact hx
  · induction es generalizing os with
    | nil => exact hx
    | cons e es ih =>
      exact ih (mem_putOrphan_of_ne hx (hne e List.mem_cons_self).symm)
        (fun y hy => hne y (List.mem_cons_of_mem _ hy))

/-- The orphan of an entry is on the list after orphans were made of entries of different addresses
(R56). -/
theorem orphanOf_mem_addOrphans (hpos : 0 < tOrphan) (hs : SortedEntries es) {e : Entry}
    (he : e ∈ es) : orphanOf tOrphan e ∈ addOrphans tOrphan es os := by
  induction es generalizing os with
  | nil => cases he
  | cons y ys ih =>
    obtain ⟨hfirst, hrest⟩ := List.pairwise_cons.1 hs
    have hstep : addOrphans tOrphan (y :: ys) os
        = addOrphans tOrphan ys (putOrphan (orphanOf tOrphan y) os) := by
      simp only [addOrphans, if_neg (Nat.ne_of_gt hpos), List.foldl_cons]
    rw [hstep]
    rcases List.mem_cons.1 he with rfl | he
    · exact mem_addOrphans_of_mem (self_mem_putOrphan _ _) (fun x hx => (hfirst x hx).ne')
    · exact ih hrest he

/-- What is on the list after orphans were made: what was there, and the orphans of the entries (R56). -/
theorem mem_addOrphans_iff (hs : SortedEntries es) (hapart : ∀ o ∈ os, ∀ e ∈ es, e.addr ≠ o.addr)
    {x : Orphan} : x ∈ addOrphans tOrphan es os
      ↔ x ∈ os ∨ (0 < tOrphan ∧ ∃ e ∈ es, x = orphanOf tOrphan e) := by
  constructor
  · intro hx
    rcases Nat.eq_zero_or_pos tOrphan with hzero | hpos
    · exact .inl (by rwa [addOrphans, if_pos hzero] at hx)
    · exact (mem_addOrphans hx).imp_right fun hmade => ⟨hpos, hmade⟩
  · rintro (hx | ⟨hpos, e, he, rfl⟩)
    · exact mem_addOrphans_of_mem hx (hapart x hx)
    · exact orphanOf_mem_addOrphans hpos hs he

end Orphans

/-- A boundary that ages the orphans and makes them of the entries given up leaves the list of R56 and
R57. -/
theorem State.orphansLeave_of_addOrphans {s t : State} (p : Entry → Bool)
    (hvalues : ∀ e, p e = true → e.state = .active ∨ e.state = .silent ∨ e.state = .outside)
    (ht : t.table.orphans
      = addOrphans s.cfg.tOrphan (s.table.entries.filter p) (ageOrphans s.table.orphans)) :
    s.OrphansLeave t (s.table.entries.filter p) := by
  rintro ⟨hsorted, hentry⟩ ⟨hsortedO, horphan⟩ o
  have hapart : ∀ x ∈ ageOrphans s.table.orphans, ∀ e ∈ s.table.entries.filter p,
      e.addr ≠ x.addr := by
    intro x hx e he
    obtain ⟨-, -, -, -, hne⟩ := horphan _ (mem_ageOrphans.1 hx).2
    exact hne e (List.mem_filter.1 he).1
  rw [ht, mem_addOrphans_iff (hsorted.filter p) hapart, mem_ageOrphans]
  refine or_congr_right (and_congr_right fun _ => exists_congr fun e => and_congr_right fun he => ?_)
  obtain ⟨hmem, hp⟩ := List.mem_filter.1 he
  obtain ⟨v, hv⟩ := Option.isSome_iff_exists.1 ((hentry e hmem).2.2 (hvalues e hp))
  simp [orphanOf, Entry.reserve, hv]

/-! ## Isolation -/

/-- In ACTIVE nothing changes the station after the isolation evaluation, where it does not isolate
(R108). -/
theorem State.ctl_boundaryWork_of_active {s : State} (hst : s.ctl.station = .active)
    (hstays : s.isolates = false) (kind : BoundaryKind) :
    (s.boundaryWork kind).ctl = { s.ctl with
      isolationA := s.nextIsolationA, isolationB := s.nextIsolationB
      heardMeRound := false, acceptedRound := false } := by
  have heval := State.evaluateIsolation_of_active hstays hst
  have hctl : s.evaluateIsolation.shedCountdown.ctl = { s.ctl with
      isolationA := s.nextIsolationA, isolationB := s.nextIsolationB
      heardMeRound := false, acceptedRound := false } := by rw [State.shedCountdown_ctl, heval]
  rw [State.boundaryWork_eq, hst,
    State.completeBoundary_of_other _ (by decide) (by decide) (by decide),
    State.boundaryStages_ctl_of_stays hstays]
  unfold State.tableStages
  rw [State.ownAdmission_of_other]
  · exact hctl
  · change s.evaluateIsolation.shedCountdown.ctl.station ≠ _
    rw [hctl]
    exact ne_of_eq_of_ne hst (by decide)
  · change s.evaluateIsolation.shedCountdown.ctl.station ≠ _
    rw [hctl]
    exact ne_of_eq_of_ne hst (by decide)

/-- The work of an isolation boundary: ISOLATED with no share, the isolation move, and the Allocator over
the orphans alone (R58, R63, R109). -/
theorem State.boundaryWork_of_isolates {s : State} (h : s.isolates = true) (kind : BoundaryKind) :
    let t := s.boundaryWork kind
    t.ctl = { s.ctl with
      station := .isolated, isolationA := 0, isolationB := 0, heardMeRound := false
      acceptedRound := false, joinComposed := false
      isolations := min (s.ctl.isolations + 1) 255 }
    ∧ t.share = { applied := 0, pending := none, limit := 0 }
    ∧ t.table = s.table.isolationMove s.cfg s.ownAddr
    ∧ t.snap = allocate s.cfg [] t.table.orphans := by
  intro t
  have heval : s.enterIsolated.share = { applied := 0, pending := none, limit := 0 } :=
    s.share_leaveMembership (by decide)
  have ht : t = s.enterIsolated.shedCountdown.tableIsolation.allocateStage
      (ownSilent s.ownAddr s.table.entries) := by
    change s.boundaryWork kind = _
    rw [State.boundaryWork_eq, State.station_of_isolates h,
      State.completeBoundary_of_other _ (by decide) (by decide) (by decide),
      State.boundaryStages_of_isolates h]
  have hmoved : t.table = s.table.isolationMove s.cfg s.ownAddr := by
    rw [ht]
    change s.enterIsolated.shedCountdown.table.isolationMove s.enterIsolated.shedCountdown.cfg
      s.enterIsolated.shedCountdown.ownAddr = _
    have haddr := (State.keeps_shedCountdown s.enterIsolated).1.ownAddr
    rw [State.shedCountdown_table, State.shedCountdown_cfg, haddr]
    rfl
  refine ⟨?_, ?_, hmoved, ?_⟩
  · rw [ht]
    exact State.shedCountdown_ctl _
  · rw [ht]
    refine (State.shedCountdown_share _).trans ?_
    rw [heval]
    rfl
  · rw [hmoved, ht]
    change allocate s.enterIsolated.shedCountdown.cfg _ _ = _
    have haddr := (State.keeps_shedCountdown s.enterIsolated).1.ownAddr
    rw [State.shedCountdown_cfg]
    rw [show s.enterIsolated.shedCountdown.tableIsolation.table
      = s.table.isolationMove s.cfg s.ownAddr from by rw [← hmoved, ht]; rfl]
    rfl

/-- One isolation count as R108 says. -/
theorem isolationStep_eq {member seen : Bool} {n a : Nat}
    (hup : member = true → seen = false → a = n + 1)
    (hzero : member = false ∨ seen = true → a = 0) : isolationStep member seen n = a := by
  cases member
  · exact (hzero (.inl rfl)).symm
  · cases seen
    · exact (hup rfl rfl).symm
    · exact (hzero (.inr rfl)).symm

theorem State.hasOtherMember_iff (s : State) : s.hasOtherMember = true
    ↔ ∃ e ∈ s.table.entries, e.addr ≠ s.ownAddr ∧ (e.state = .active ∨ e.state = .silent) := by
  simp [State.hasOtherMember, Entry.counted]

/-- A boundary's work in ACTIVE leaves the isolation counts as R108 and R109 say. -/
theorem State.isolationLeaves_boundaryWork {s : State} (hst : s.ctl.station = .active)
    (kind : BoundaryKind) : s.IsolationLeaves (s.boundaryWork kind) := by
  unfold State.IsolationLeaves
  intro member a b haup hazero hbup hbzero
  have hmember : s.hasOtherMember = true ↔ member := s.hasOtherMember_iff
  have hno : s.hasOtherMember = false ↔ ¬ member := by rw [← hmember, Bool.not_eq_true]
  have ha : s.nextIsolationA = a :=
    isolationStep_eq (fun hm => haup (hmember.1 hm)) (fun hm => hazero (hm.imp_left hno.1))
  have hb : s.nextIsolationB = b :=
    isolationStep_eq (fun hm => hbup (hmember.1 hm)) (fun hm => hbzero (hm.imp_left hno.1))
  have hisolates : s.isolates = true ↔ s.cfg.tIsolate ≤ a ∨ s.cfg.tIsolate ≤ b := by
    simp [State.isolates, hst, ha, hb]
  refine ⟨fun hlow hlow' => ?_, fun hhigh => ?_⟩
  · have hstays : s.isolates = false := by
      rw [← Bool.not_eq_true, hisolates]
      omega
    rw [State.ctl_boundaryWork_of_active hst hstays, ha, hb]
  · obtain ⟨hctl, hshare, htable, hsnap⟩ := State.boundaryWork_of_isolates (hisolates.2 hhigh) kind
    refine ⟨hctl, hshare, by rw [htable]; rfl, by rw [htable]; rfl, hsnap, ?_⟩
    refine State.orphansLeave_of_addOrphans _ (fun e he => ?_) ?_
    · simp only [decide_eq_true_eq, List.mem_cons, List.not_mem_nil, or_false] at he
      exact he.2
    · rw [htable]
      refine congrArg (fun es => addOrphans s.cfg.tOrphan es (ageOrphans s.table.orphans)) ?_
      refine List.filter_congr fun e _ => ?_
      rw [Bool.eq_iff_iff]
      simp [Entry.counted, or_assoc]

/-- A boundary of either kind in ACTIVE leaves the isolation counts as R108 and R109 say. -/
theorem State.isolationLeaves_boundary {s : State} (hst : s.ctl.station = .active)
    (kind : BoundaryKind) : s.IsolationLeaves (s.boundary kind) := by
  rw [State.boundary_of_working (by rw [hst]; rfl)]
  have hcount : (s.countBoundary kind).ctl.station = .active := by cases kind <;> exact hst
  have hwork := State.isolationLeaves_boundaryWork hcount kind
  cases kind <;> exact hwork

/-- After a boundary in ACTIVE no JOIN is composed: the station is ACTIVE or ISOLATED (R109). -/
theorem State.station_boundary_of_active {s : State} (hst : s.ctl.station = .active)
    (kind : BoundaryKind) : (s.boundary kind).ctl.station ≠ .joining := by
  rw [State.boundary_of_working (by rw [hst]; rfl)]
  have hcount : (s.countBoundary kind).ctl.station = .active := by cases kind <;> exact hst
  generalize s.countBoundary kind = u at hcount
  cases hstays : u.isolates
  · rw [State.ctl_boundaryWork_of_active hcount hstays]
    exact ne_of_eq_of_ne hcount (by decide)
  · rw [(State.boundaryWork_of_isolates hstays kind).1]
    nofun

/-- Settles O32: the isolation counts, and isolation where one reaches T_isolate (R57, R58, R63, R108,
R109, R118). -/
theorem isolationFollowsTheTwoCounts : Obligations.IsolationFollowsTheTwoCounts := by
  intro s c hends hlast hst
  have hleaves := State.isolationLeaves_boundary hst .ordinary
  have hctl := State.ctl_openSlot_of_ne_joining _ (State.station_boundary_of_active hst .ordinary) 0
  refine ⟨_, exec_of_roundEnds hends hlast, ?_⟩
  rw [State.openSlot_eq, hctl]
  exact hleaves

end Sys2Proof.Machine
end

section
/-! PROOFS. What a boundary of either kind does to a station that is not a member (R54, R85, R101 to R105,
R110). -/

namespace Sys2Proof.Machine

/-! ## A station that waits for admission -/

section Waiting
variable {s : State}

/-- The stages of a boundary for a station that waits: no isolation is evaluated (R50). -/
theorem State.boundaryStages_of_ne_active (hst : s.ctl.station ≠ .active) (kind : BoundaryKind) :
    let u := (s.shedCountdown.tableStages kind).allocateStage (ownSilent s.ownAddr s.table.entries)
    s.boundaryStages kind = u.shareStage kind
      (u.ownTakesPartActive (ownSilent s.ownAddr s.table.entries)) s.table.confirm := by
  intro u
  unfold State.boundaryStages State.tablePart
  rw [State.isolates_of_ne_active hst, State.evaluateIsolation_of_ne_active hst]
  rfl

/-- In ACTIVE the Share Regulator leaves no share where the allocation is 0 (R79, R80). -/
theorem State.share_shareStage_of_none (hst : s.ctl.station = .active)
    (halloc : s.boundaryAllocation = 0) (kind : BoundaryKind) (own : Bool)
    (set : List (Nat × Confirmation)) :
    (s.shareStage kind own set).share = { applied := 0, pending := none, limit := 0 } := by
  have happlied : newApplied (confirms s.share.pending kind own set) s.boundaryAllocation s.share = 0 :=
    Nat.le_zero.1 (halloc ▸ newApplied_le _ _ _)
  have hpending : newPending s.boundaryAllocation 0 = none := by rw [halloc]; rfl
  rw [State.shareStage_of_active hst]
  dsimp only
  rw [happlied, hpending]
  unfold State.formLimit State.limitNow limitOf
  dsimp only
  rw [if_pos hst]
  cases shedCap s.shed.table s.cfg.floor <;> simp

/-- What a boundary does with a station that waits, by what stage 3 reports on its entry (R54, R103 to
R105). -/
theorem State.ctl_boundaryWork_of_waiting
    (hst : s.ctl.station = .joining ∨ s.ctl.station = .deferred) (kind : BoundaryKind) :
    (s.boundaryWork kind).ctl = (State.ownAdmission s (s.ownReport kind)).ctl := by
  have hne : s.ctl.station ≠ .active := by rcases hst with hst | hst <;> rw [hst] <;> decide
  have hends : ∀ u : State, u.completeBoundary s.ctl.station = u := by
    intro u
    rcases hst with hst | hst <;> rw [hst] <;> rfl
  have hreport : s.shedCountdown.ownReport kind = s.ownReport kind := by
    have haddr := (State.keeps_shedCountdown s).1.ownAddr
    unfold State.ownReport
    rw [haddr, State.shedCountdown_cfg, State.shedCountdown_table]
  have hctl (u v : State) (h : u.ctl = v.ctl) (d : Option Bool) :
      (u.ownAdmission d).ctl = (v.ownAdmission d).ctl := by
    unfold State.ownAdmission
    rw [h]
    cases d with
    | none => exact h
    | some b =>
      cases b
      · dsimp only
        split_ifs
        · rfl
        · exact h
      · dsimp only
        split_ifs
        · rfl
        · exact h
  rw [State.boundaryWork_eq, hends, State.boundaryStages_of_ne_active hne, State.shareStage_ctl]
  change (s.shedCountdown.tableStages kind).ctl = _
  unfold State.tableStages
  rw [hreport]
  refine hctl _ s ?_ _
  exact s.shedCountdown_ctl

/-- An own entry that waits is taken up once its JOIN was sent, and is ACTIVE without values or DEFERRED
after it (R53). -/
theorem Entry.decided_of_waiting {own : Nat} {fits : Bool} {e : Entry} (haddr : e.addr = own)
    (hst : e.state = .candidate ∨ e.state = .deferred) (hheard : e.heard = true) :
    (fits = true → (e.decided own fits).isNormal = true ∧ (e.decided own fits).vals.demand = 0)
      ∧ (e.decided own fits).state = if fits then .active else .deferred := by
  obtain ⟨hel, hstate⟩ := Entry.state_decided (fits := fits) haddr hst
  rw [if_pos hheard] at hstate
  refine ⟨fun hfits => ?_, hstate⟩
  have hadmitted : e.decided own fits = e.admitted := by
    unfold Entry.decided
    rw [if_pos (hel.trans hheard), if_pos hfits]
  have hvalues : e.admitted.values = some zeroValues := by
    rcases hst with hst | hst <;> simp [Entry.admitted, hst]
  rw [hadmitted, isNormal_iff, Entry.vals, hvalues]
  exact ⟨⟨rfl, rfl⟩, rfl⟩

/-- Outside an isolation boundary the boundary's work leaves the share that its stages do. -/
theorem State.boundaryWork_of_waiting (hst : s.ctl.station = .joining ∨ s.ctl.station = .deferred)
    (kind : BoundaryKind) : s.boundaryWork kind = s.boundaryStages kind := by
  rw [State.boundaryWork_eq]
  rcases hst with hst | hst <;> rw [hst] <;> rfl

/-- A station admitted at this boundary has no share yet (R80, R104). -/
theorem State.share_boundaryWork_of_admitted (hsafe : s.TableSafe)
    (hst : s.ctl.station = .joining ∨ s.ctl.station = .deferred) {kind : BoundaryKind} {x : Entry}
    (hown : findEntry s.ownAddr (s.boundaryWork kind).table.entries = some x)
    (hnormal : x.isNormal = true) (hdemand : x.vals.demand = 0)
    (hsilent : ownSilent s.ownAddr s.table.entries = false)
    (hactive : (s.boundaryWork kind).ctl.station = .active) :
    (s.boundaryWork kind).share = { applied := 0, pending := none, limit := 0 } := by
  have hne : s.ctl.station ≠ .active := by rcases hst with hst | hst <;> rw [hst] <;> decide
  have hstages := State.boundaryStages_of_ne_active hne kind
  rw [hsilent] at hstages
  rw [State.boundaryWork_of_waiting hst, hstages] at hown hactive ⊢
  generalize hv : s.shedCountdown.tableStages kind = v at hown hactive ⊢
  rw [State.shareStage_table] at hown
  rw [State.shareStage_ctl] at hactive
  have htable : v.table = s.table.stages s.cfg kind s.ownAddr (s.ctl.station == .isolated) := by
    have haddr := (State.keeps_shedCountdown s).1.ownAddr
    rw [← hv, State.tableStages_table, haddr]
    simp
  have haddr : v.ownAddr = s.ownAddr := by
    rw [← hv]
    exact ((State.keeps_shedCountdown s).trans (State.keeps_tablePart _ kind false)).1.ownAddr
  have hsorted : SortedEntries v.table.entries := by
    rw [htable]
    exact (GroupTable.sorted_stages _ _ _ _ _ hsafe.1.1 hsafe.2.1.1).1
  have hformed : formed v.ownAddr false v.table.entries = v.table.entries := by simp [formed]
  refine State.share_shareStage_of_none hactive ?_ kind _ _
  have halloc := alloc_le_demand (c := v.cfg) hsorted v.table.orphans (mem_of_findEntry hown) hnormal
  rw [hdemand, addr_of_findEntry hown] at halloc
  unfold State.boundaryAllocation
  change min ((allocate v.cfg (formed v.ownAddr false v.table.entries) v.table.orphans).alloc.getD
    v.ownAddr 0) _ = 0
  rw [hformed, haddr, Nat.le_zero.1 halloc, Nat.zero_min]

end Waiting

/-! ## A station that observes or has been isolated -/

section Observing
variable {s : State}

/-- In OFFLINE, LISTEN and ISOLATED the stages leave the Station Controller (R50). -/
theorem State.boundaryStages_ctl_of_observing
    (hst : s.ctl.station = .offline ∨ s.ctl.station = .listen ∨ s.ctl.station = .isolated)
    (kind : BoundaryKind) : (s.boundaryStages kind).ctl = s.ctl := by
  refine State.boundaryStages_ctl_of_other ?_ ?_ ?_ kind
  all_goals rcases hst with hst | hst | hst <;> rw [hst] <;> decide

/-- In LISTEN the boundary's work ends LISTEN at the second boundary observed (R101, R102). -/
theorem State.boundaryWork_of_listen (hst : s.ctl.station = .listen) (kind : BoundaryKind) :
    s.boundaryWork kind =
      let t := { s.boundaryStages kind with
        ctl := { s.ctl with observed := min (s.ctl.observed + 1) 2 } }
      if s.ctl.observed = 1 then t.endListen else t := by
  have hctl := State.boundaryStages_ctl_of_observing (.inr (.inl hst)) kind
  rw [State.boundaryWork_eq, hst]
  unfold State.completeBoundary
  dsimp only
  rw [hctl]

end Observing

/-- The stages leave what a boundary does not touch (R50). -/
theorem State.keeps_boundaryStages (s : State) (kind : BoundaryKind) :
    s.KeepsLine (s.boundaryStages kind) := by
  unfold State.boundaryStages
  refine .trans ?_ (State.keeps_shareStage _ _ _ _)
  refine .trans ?_ (State.keeps_allocateStage _ _)
  refine .trans ?_ (State.keeps_tablePart _ _ _)
  exact .trans s.keeps_evaluateIsolation (State.keeps_shedCountdown _)

/-- The entry to JOINING makes the own entry (R42). -/
theorem State.own_enterJoining (s : State) :
    findEntry s.ownAddr s.enterJoining.table.entries
      = some (ownCandidate s.ownAddr (s.cfg.terms s.ownRole)) :=
  findEntry_putEntry_self (ownCandidate s.ownAddr (s.cfg.terms s.ownRole)) s.table.entries

/-- A boundary's work moves a station that waits as R54, R104 and R105 say. -/
theorem State.boundaryWork_waiting_moves {s : State} {e : Entry}
    (he : findEntry s.ownAddr s.table.entries = some e)
    (hwaits : (s.ctl.station = .joining ∧ e.state = .candidate)
      ∨ (s.ctl.station = .deferred ∧ e.state = .deferred)) (kind : BoundaryKind) :
    let t := s.boundaryWork kind
    let admitted := (findEntry s.ownAddr t.table.entries).map (fun x => x.state) = some .active
    (e.heard = false → t.ctl.station = s.ctl.station)
    ∧ (e.heard = true → ¬ admitted → t.ctl.station = .deferred)
    ∧ (e.heard = true → admitted → t.ctl.station = .active ∧ t.ready = true
      ∧ t.ctl.isolationA = 0 ∧ t.ctl.isolationB = 0
      ∧ t.ctl.heardMeRound = false ∧ t.ctl.acceptedRound = false
      ∧ (s.TableSafe → t.share = { applied := 0, pending := none, limit := 0 })) := by
  intro t admitted
  have hst : s.ctl.station = .joining ∨ s.ctl.station = .deferred := hwaits.imp And.left And.left
  have hstate : e.state = .candidate ∨ e.state = .deferred := hwaits.imp And.right And.right
  have hne : s.ctl.station ≠ .active := by rcases hst with hst | hst <;> rw [hst] <;> decide
  obtain ⟨fits, hown, hreport⟩ := s.own_stages kind
  rw [he, Option.map_some] at hown
  rw [he, Option.bind_some] at hreport
  rw [← State.boundaryStages_table (State.isolates_of_ne_active hne),
    ← State.boundaryWork_of_waiting hst] at hown
  have hctl := State.ctl_boundaryWork_of_waiting hst kind
  rw [hreport, (Entry.state_decided (fits := fits) (addr_of_findEntry he) hstate).1] at hctl
  refine ⟨fun hheard => ?_, fun hheard hnot => ?_, fun hheard hadmitted => ?_⟩
  · rw [if_neg (by simp [hheard])] at hctl
    change (s.boundaryWork kind).ctl.station = _
    rw [hctl]
    rfl
  · obtain ⟨-, hdecided⟩ := Entry.decided_of_waiting (fits := fits) (addr_of_findEntry he) hstate hheard
    have hfits : fits = false := by
      by_contra hfits
      refine hnot ?_
      change (findEntry s.ownAddr (s.boundaryWork kind).table.entries).map _ = _
      rw [hown, Option.map_some, hdecided, if_pos (by simpa using hfits)]
    rw [if_pos hheard, hdecided, hfits] at hctl
    change (s.boundaryWork kind).ctl.station = _
    rw [hctl]
    rcases hst with hst | hst
    · exact congrArg (fun v : State => v.ctl.station) (if_pos hst)
    · refine (congrArg (fun v : State => v.ctl.station) (if_neg ?_)).trans hst
      exact ne_of_eq_of_ne hst (by decide)
  · obtain ⟨hzero, hdecided⟩ :=
      Entry.decided_of_waiting (fits := fits) (addr_of_findEntry he) hstate hheard
    have hfits : fits = true := by
      by_contra hfits
      have hadmitted : (findEntry s.ownAddr (s.boundaryWork kind).table.entries).map
        (fun x => x.state) = some .active := hadmitted
      rw [hown, Option.map_some, hdecided, if_neg hfits] at hadmitted
      cases hadmitted
    have hactive : (s.boundaryWork kind).ctl = { s.ctl with
        station := .active, joinComposed := false, isolationA := 0, isolationB := 0
        heardMeRound := false, acceptedRound := false } := by
      rw [if_pos hheard, hdecided, hfits] at hctl
      exact hctl.trans (congrArg State.ctl (if_pos hst))
    have hsilent : ownSilent s.ownAddr s.table.entries = false := by
      unfold ownSilent
      rw [he]
      rcases hstate with hstate | hstate <;> simp [hstate]
    obtain ⟨hnormal, hdemand⟩ := hzero hfits
    change (s.boundaryWork kind).ctl.station = _ ∧ (s.boundaryWork kind).ready = _
      ∧ (s.boundaryWork kind).ctl.isolationA = _ ∧ (s.boundaryWork kind).ctl.isolationB = _
      ∧ (s.boundaryWork kind).ctl.heardMeRound = _ ∧ (s.boundaryWork kind).ctl.acceptedRound = _
      ∧ (s.TableSafe → (s.boundaryWork kind).share = _)
    unfold State.ready
    rw [hactive]
    exact ⟨rfl, rfl, rfl, rfl, rfl, rfl, fun hsafe =>
      State.share_boundaryWork_of_admitted hsafe hst hown hnormal hdemand hsilent (by rw [hactive])⟩

/-- A boundary's work moves a station that is not a member as R54, R85, R101, R102, R104, R105 and R110
say. -/
theorem State.stationMoves_boundaryWork (s : State) (kind : BoundaryKind) :
    s.StationMoves (s.boundaryWork kind) := by
  have haddr := (s.keeps_boundaryStages kind).1.ownAddr
  refine ⟨fun hst => ?_, fun hst hobserved => ?_, fun hst hobserved => ?_, fun hst => ?_,
    fun e he hwaits => ?_⟩
  · have hctl := State.boundaryStages_ctl_of_observing (.inl hst) kind
    rw [State.boundaryWork_eq, hst]
    unfold State.completeBoundary
    dsimp only
    rw [hctl]
    exact ⟨hst, rfl⟩
  · rw [State.boundaryWork_of_listen hst]
    dsimp only
    rw [if_neg hobserved]
    exact ⟨hst, rfl⟩
  · rw [State.boundaryWork_of_listen hst]
    dsimp only
    rw [if_pos hobserved, hobserved]
    unfold State.endListen
    split_ifs with hmismatch
    · obtain ⟨hevidence, hseen⟩ : s.ctl.groupEvidence = true ∧ s.ctl.acceptedSeen = false := by
        simpa [State.mismatchEvidence] using hmismatch
      refine ⟨rfl, fun _ _ => ⟨rfl, rfl⟩, fun hno => ?_⟩
      rcases hno with hno | hno
      · exact absurd (hno.symm.trans hevidence) (by decide)
      · exact absurd (hno.symm.trans hseen) (by decide)
    · refine ⟨rfl, fun hevidence hseen => absurd ?_ hmismatch, fun _ => ⟨rfl, ?_⟩⟩
      · change (s.ctl.groupEvidence && !s.ctl.acceptedSeen) = true
        rw [hevidence, hseen]
        rfl
      · have hmade := State.own_enterJoining { s.boundaryStages kind with
          ctl := { s.ctl with observed := min (1 + 1) 2 } }
        rw [← haddr]
        exact congrArg (Option.map (fun e => e.state)) hmade
  · have hctl := State.boundaryStages_ctl_of_observing (.inr (.inr hst)) kind
    rw [State.boundaryWork_eq, hst]
    change (s.boundaryStages kind).endIsolated.snap = _
      ∧ (s.boundaryStages kind).endIsolated.ctl.observed = _
      ∧ (s.boundaryStages kind).endIsolated.ctl.station = _
    unfold State.endIsolated
    dsimp only
    rw [hctl]
    split_ifs <;> exact ⟨rfl, rfl, rfl⟩
  · obtain ⟨hunheard, hwaiting, hadmitted⟩ := State.boundaryWork_waiting_moves he hwaits kind
    refine ⟨hunheard, hwaiting, fun hheard hentry => ?_⟩
    obtain ⟨hactive, hready, hA, hB, hheardMe, haccepted, hshare⟩ := hadmitted hheard hentry
    exact ⟨hactive, hready, hA, hB, hheardMe, haccepted, fun hsafe _ => hshare hsafe⟩

/-- A boundary of either kind moves a station that is not a member as R54, R85, R101, R102, R104, R105
and R110 say. -/
theorem State.stationMoves_boundary (s : State) (kind : BoundaryKind) :
    s.StationMoves (s.boundary kind) := by
  by_cases hwork : s.ctl.station.working = true
  · rw [State.boundary_of_working hwork]
    have hmoves := (s.countBoundary kind).stationMoves_boundaryWork kind
    cases kind <;> exact hmoves
  · have hno (st : Station) (hst : st.working = true) : s.ctl.station ≠ st := by
      rintro rfl
      exact hwork hst
    refine ⟨fun hst => absurd hst (hno _ rfl), fun hst => absurd hst (hno _ rfl),
      fun hst => absurd hst (hno _ rfl), fun hst => absurd hst (hno _ rfl), fun e he hwaits => ?_⟩
    rcases hwaits with ⟨hst, -⟩ | ⟨hst, -⟩ <;> exact absurd hst (hno _ rfl)

/-- Settles O34: what the round boundary does to a station that is not a member (R54, R85, R101, R102,
R104, R105, R110). -/
theorem stationMovesAtTheBoundary : Obligations.StationMovesAtTheBoundary := by
  intro s c hends hlast
  have hmoves := s.stationMoves_boundary .ordinary
  refine ⟨_, exec_of_roundEnds hends hlast, ?_⟩
  rw [State.openSlot_eq]
  exact hmoves

end Sys2Proof.Machine
end

section
/-! PROOFS. What a boundary that does not isolate the station leaves of the Group Table, the snapshot and
the share (R44, R50 to R63, R72, R75, R78 to R81, R90). -/

namespace Sys2Proof.Machine

/-! ## The Group Table and the Allocator -/

/-- Stage 3 over the entries that stage 1 left, in the words of R53. -/
theorem admittedEntries_eq (c : Settings) (kind : BoundaryKind) (own : Nat) (es : List Entry) :
    let aged := stageOne kind own (tGone c.tIsolate) es
    let floors := (aged.filter (fun e => e.state = .active ∨ e.state = .silent)).map (·.terms.floor)
    admittedEntries c kind own es = (aged.foldl (decideEntry c.budget own) (floors.sum, [])).2 := by
  intro aged floors
  have hsum : floors.sum = floorSum aged := by
    refine congrArg (fun l => (List.map (fun e : Entry => e.terms.floor) l).sum) ?_
    refine List.filter_congr fun e _ => ?_
    rw [Bool.eq_iff_iff]
    simp [Entry.counted]
  rw [foldl_decideEntry, hsum]
  rfl

section Stages
variable {s : State} {kind : BoundaryKind}

/-- The stages leave the snapshot of the table that stage 5 leaves (R44, R63,
R72). -/
theorem State.boundaryStages_snap (s : State) (kind : BoundaryKind) : (s.boundaryStages kind).snap
    = allocate s.cfg
      (formed s.ownAddr (ownSilent s.ownAddr s.table.entries) (s.boundaryStages kind).table.entries)
      (s.boundaryStages kind).table.orphans := by
  have hbefore := s.keeps_evaluateIsolation.trans (State.keeps_shedCountdown _)
  have hkeeps := (hbefore.trans (State.keeps_tablePart _ kind s.isolates)).1
  simp only [State.boundaryStages, State.shareStage_snap, State.shareStage_table]
  unfold State.allocateStage
  dsimp only
  rw [hkeeps.ownAddr, hkeeps.2.2.1]

/-- The own entry as R44 has it take part. -/
theorem ownSilent_eq (own : Nat) (es : List Entry) : ownSilent own es
    = (findEntry own es).any (fun e => e.state = .active ∧ e.heard = false) := by
  unfold ownSilent
  cases findEntry own es with
  | none => rfl
  | some e =>
    rw [Bool.eq_iff_iff]
    simp

/-- The table as the Allocator takes it, in the words of R44. -/
theorem formed_eq (own : Nat) (silent : Bool) (es : List Entry) : formed own silent es
    = es.map (fun e => if silent = true ∧ e.addr = own then { e with state := .silent } else e) := by
  refine List.map_congr_left fun e _ => ?_
  simp

/-- Mismatch evidence ends LISTEN in GROUP_MISMATCH (R102). -/
theorem State.endListen_of_mismatch (h : s.ctl.groupEvidence = true ∧ s.ctl.acceptedSeen = false) :
    s.endListen = s.enterFaultState .groupMismatch .groupMismatch :=
  if_pos (by simp [State.mismatchEvidence, h])

/-- Without mismatch evidence LISTEN ends in JOINING (R102). -/
theorem State.endListen_of_no_mismatch
    (h : ¬ (s.ctl.groupEvidence = true ∧ s.ctl.acceptedSeen = false)) :
    s.endListen = s.enterJoining :=
  if_neg (by simpa [State.mismatchEvidence] using h)

/-- What the changes of state as a boundary completes leave of the table and the snapshot (R42, R62, R75,
R101, R102, R110). -/
theorem State.completeBoundary_table (s : State) (began : Station) :
    let ends := began = .listen ∧ s.ctl.observed = 1
    let mismatch := s.ctl.groupEvidence = true ∧ s.ctl.acceptedSeen = false
    let t := s.completeBoundary began
    t.table.entries = (if ends then
        if mismatch then removeEntry s.ownAddr s.table.entries
        else putEntry (ownCandidate s.ownAddr (s.cfg.terms s.ownRole)) s.table.entries
      else s.table.entries)
    ∧ t.table.confirm = (if ends ∧ mismatch then [] else s.table.confirm)
    ∧ t.table.orphans = s.table.orphans
    ∧ t.snap = (if began = .isolated then Snapshot.empty else s.snap) := by
  intro ends mismatch t
  by_cases hends : ends
  · obtain ⟨rfl, hobserved⟩ := hends
    let u := { s with ctl := { s.ctl with observed := min (s.ctl.observed + 1) 2 } }
    have ht : t = u.endListen := if_pos hobserved
    have hends : ends := ⟨rfl, hobserved⟩
    rw [if_pos hends]
    by_cases hm : mismatch
    · rw [State.endListen_of_mismatch (s := u) hm] at ht
      rw [ht, if_pos hm, if_pos ⟨hends, hm⟩]
      exact ⟨rfl, rfl, rfl, rfl⟩
    · rw [State.endListen_of_no_mismatch (s := u) hm] at ht
      rw [ht, if_neg hm, if_neg (fun h => hm h.2)]
      exact ⟨rfl, rfl, rfl, rfl⟩
  · rw [if_neg hends, if_neg (fun h => hends h.1)]
    cases hbegan : began
    case listen =>
      have ht : t = { s with ctl := { s.ctl with observed := min (s.ctl.observed + 1) 2 } } := by
        subst hbegan
        exact if_neg fun h => hends ⟨rfl, h⟩
      rw [ht]
      exact ⟨rfl, rfl, rfl, rfl⟩
    case isolated =>
      have ht : t = s.endIsolated := by
        subst hbegan
        rfl
      rw [ht, if_pos rfl]
      unfold State.endIsolated
      dsimp only
      split_ifs <;> exact ⟨rfl, rfl, rfl, rfl⟩
    all_goals
      subst hbegan
      exact ⟨rfl, rfl, rfl, rfl⟩

/-- The stages leave the observation count and the listen flags (R101, R102). -/
theorem State.evidence_boundaryStages (s : State) (kind : BoundaryKind) :
    (s.boundaryStages kind).ctl.observed = s.ctl.observed
      ∧ (s.boundaryStages kind).ctl.groupEvidence = s.ctl.groupEvidence
      ∧ (s.boundaryStages kind).ctl.acceptedSeen = s.ctl.acceptedSeen := by
  have hevaluate : s.evaluateIsolation.ctl.observed = s.ctl.observed
      ∧ s.evaluateIsolation.ctl.groupEvidence = s.ctl.groupEvidence
      ∧ s.evaluateIsolation.ctl.acceptedSeen = s.ctl.acceptedSeen := by
    unfold State.evaluateIsolation
    split_ifs <;> exact ⟨rfl, rfl, rfl⟩
  have hadmission (u : State) (d : Option Bool) : (u.ownAdmission d).ctl.observed = u.ctl.observed
      ∧ (u.ownAdmission d).ctl.groupEvidence = u.ctl.groupEvidence
      ∧ (u.ownAdmission d).ctl.acceptedSeen = u.ctl.acceptedSeen := by
    unfold State.ownAdmission
    split
    · split_ifs <;> exact ⟨rfl, rfl, rfl⟩
    · split_ifs <;> exact ⟨rfl, rfl, rfl⟩
    · exact ⟨rfl, rfl, rfl⟩
  rw [State.boundaryStages_ctl, ← hevaluate.1, ← hevaluate.2.1, ← hevaluate.2.2,
    ← s.evaluateIsolation.shedCountdown_ctl]
  generalize s.evaluateIsolation.shedCountdown = v
  unfold State.tablePart
  split_ifs
  · exact ⟨rfl, rfl, rfl⟩
  · exact hadmission _ _

/-- Short of an isolation the orphans of a boundary are those aged and those of the entries given up
(R56, R57). -/
theorem State.orphansLeave_boundaryWork (hstays : s.isolates = false) (kind : BoundaryKind) :
    s.OrphansLeave (s.boundaryWork kind)
      (stageOneGone kind s.ownAddr (tGone s.cfg.tIsolate) s.table.entries) := by
  obtain ⟨-, -, horphans, -⟩ := (s.boundaryStages kind).completeBoundary_table s.ctl.station
  rw [State.boundaryStages_table hstays] at horphans
  cases kind
  · refine State.orphansLeave_of_addOrphans (isGone s.ownAddr (tGone s.cfg.tIsolate)) ?_ horphans
    intro e he
    simp only [isGone, Bool.and_eq_true, Bool.or_eq_true, beq_iff_eq] at he
    exact .inr he.2
  · have hnone : s.table.entries.filter (fun _ => false) = [] := List.filter_false _
    have hleave := State.orphansLeave_of_addOrphans (s := s) (t := s.boundaryWork .lost)
      (fun _ => false) nofun (hnone.symm ▸ horphans)
    rwa [hnone] at hleave

/-- A boundary's work that does not isolate the station leaves the table and the snapshot as R44, R50 to
R63, R72 and R75 say, from the entries that stage 1 left and those it gave up. -/
theorem State.stagesLeave_boundaryWork (hstays : s.isolates = false) (kind : BoundaryKind) :
    s.StagesLeave (s.boundaryWork kind)
      (stageOne kind s.ownAddr (tGone s.cfg.tIsolate) s.table.entries)
      (stageOneGone kind s.ownAddr (tGone s.cfg.tIsolate) s.table.entries) := by
  obtain ⟨hentries, hconfirm, horphans, hsnap⟩ :=
    (s.boundaryStages kind).completeBoundary_table s.ctl.station
  obtain ⟨hobserved, hevidence, hseen⟩ := s.evidence_boundaryStages kind
  have hadmitted := admittedEntries_eq s.cfg kind s.ownAddr s.table.entries
  have hkeeps := (s.keeps_boundaryStages kind).1
  rw [State.boundaryStages_snap, ← horphans, State.boundaryStages_table hstays] at hsnap
  rw [State.boundaryStages_table hstays] at hentries hconfirm
  rw [hkeeps.ownAddr, hkeeps.ownRole, hkeeps.2.2.1] at hentries
  rw [hobserved, hevidence, hseen] at hentries hconfirm
  unfold State.StagesLeave
  intro floors decided cleared ends mismatch candidate unsent
  have hdecided : admittedEntries s.cfg kind s.ownAddr s.table.entries = decided := hadmitted
  have hcleared : (s.table.stages s.cfg kind s.ownAddr (s.ctl.station == .isolated)).entries
      = cleared := congrArg clearHeard hdecided
  have hunsent : ownSilent s.ownAddr s.table.entries = unsent := ownSilent_eq _ _
  rw [hcleared] at hentries hsnap
  refine ⟨hentries, ?_, State.orphansLeave_boundaryWork hstays kind, ?_⟩
  · have hrebuilt : (s.table.stages s.cfg kind s.ownAddr (s.ctl.station == .isolated)).confirm
        = if s.ctl.station = .isolated then [] else
          (decided.filter (fun e => e.addr ≠ s.ownAddr ∧ e.state = .active)).map
            (fun e => (e.addr, .pending)) := by
      rw [← hdecided]
      change (if (s.ctl.station == .isolated) = true then [] else
        rebuildConfirm s.ownAddr (admittedEntries s.cfg kind s.ownAddr s.table.entries)) = _
      refine if_congr beq_iff_eq rfl (congrArg (List.map fun e : Entry => (e.addr, Confirmation.pending)) ?_)
      refine List.filter_congr fun e _ => ?_
      rw [Bool.eq_iff_iff]
      simp
    refine hconfirm.trans ?_
    rw [hrebuilt]
    by_cases hends : ends ∧ mismatch
    · rw [if_pos hends, if_pos (.inr hends)]
    · rw [if_neg hends]
      exact if_congr (or_iff_left hends).symm rfl rfl
  · refine hsnap.trans ?_
    rw [formed_eq, hunsent]
    rfl

/-- A boundary of either kind that does not isolate the station leaves the table and the snapshot so. -/
theorem State.stagesLeave_boundary (hwork : s.ctl.station.working = true)
    (hstays : s.isolates = false) (kind : BoundaryKind) :
    s.StagesLeave (s.boundary kind)
      (stageOne kind s.ownAddr (tGone s.cfg.tIsolate) s.table.entries)
      (stageOneGone kind s.ownAddr (tGone s.cfg.tIsolate) s.table.entries) := by
  rw [State.boundary_of_working hwork]
  have hcount : (s.countBoundary kind).isolates = false := by cases kind <;> exact hstays
  have hleaves := State.stagesLeave_boundaryWork hcount kind
  cases kind <;> exact hleaves

end Stages

/-- Ageing takes no CANDIDATE and no ACTIVE entry away (R51). -/
theorem ageEntry_ne_none {own gone : Nat} {e : Entry} (h : e.state = .candidate ∨ e.state = .active) :
    ageEntry own gone e ≠ none := by
  rw [ageEntry_eq]
  rcases h with h | h
  · simp [h]
  · split_ifs <;> simp

/-- GONE is what ageing takes away, but for a DEFERRED entry (R51). -/
theorem isGone_iff {own gone : Nat} {e : Entry} :
    isGone own gone e = true ↔ ageEntry own gone e = none ∧ e.state ≠ .deferred := by
  unfold isGone
  rw [Bool.and_eq_true, Option.isNone_iff_eq_none]
  refine and_congr_right fun hnone => ?_
  cases hst : e.state
  case candidate => exact absurd hnone (ageEntry_ne_none (.inl hst))
  case active => exact absurd hnone (ageEntry_ne_none (.inr hst))
  all_goals simp

/-- Settles O30: the Group Table, the orphans and the snapshot at the round boundary (R42 to R44, R50 to
R63, R72, R75). -/
theorem groupTableAndAllocatorAtTheBoundary : Obligations.GroupTableAndAllocatorAtTheBoundary := by
  intro s c hends hlast hwork hstays age
  have hage : age = ageEntry s.ownAddr (tGone s.cfg.tIsolate) :=
    funext fun e => (ageEntry_eq _ _ e).symm
  have haged : stageOne .ordinary s.ownAddr (tGone s.cfg.tIsolate) s.table.entries
      = s.table.entries.filterMap age := by
    rw [hage]
    rfl
  have hgone : s.table.entries.filter (fun e => age e = none ∧ e.state ≠ .deferred)
      = stageOneGone .ordinary s.ownAddr (tGone s.cfg.tIsolate) s.table.entries := by
    refine List.filter_congr fun e _ => ?_
    rw [hage, Bool.eq_iff_iff, isGone_iff]
    exact decide_eq_true_iff
  have hleaves := State.stagesLeave_boundary hwork hstays .ordinary
  rw [haged, ← hgone] at hleaves
  refine ⟨_, exec_of_roundEnds hends hlast, ?_⟩
  rw [State.openSlot_eq]
  exact hleaves

end Sys2Proof.Machine
end

section
/-! PROOFS. What a boundary that does not isolate an ACTIVE station leaves of its share (R78 to R81,
R90). -/

namespace Sys2Proof.Machine

/-- Unconfirmed the applied share does not rise (R80). -/
theorem newApplied_of_not_confirmed {ok : Bool} {sh : Share} (h : ok = false ∨ sh.pending = none)
    (a : Nat) : newApplied ok a sh = min a sh.applied := by
  unfold newApplied
  rcases h with h | h <;> rw [h]
  cases ok <;> rfl

section ShareStats
variable {s : State} {kind : BoundaryKind} {own : Bool} {set : List (Nat × Confirmation)}

/-- A rise of the applied share is counted as a confirmed increase (R79, R80). -/
theorem State.get_confirmedIncreases_shareStats :
    (s.shareStats kind own set).get .confirmedIncreases =
      if s.share.applied < newApplied (confirms s.share.pending kind own set) s.boundaryAllocation
          s.share
        then saturatingSucc (s.stats.get .confirmedIncreases)
        else s.stats.get .confirmedIncreases := by
  unfold State.shareStats
  dsimp only
  generalize hok : confirms s.share.pending kind own set = ok
  have hunconfirmed : ok = false → ¬ s.share.applied < newApplied ok s.boundaryAllocation s.share := by
    intro hno
    rw [newApplied_of_not_confirmed (.inl hno)]
    exact Nat.not_lt.2 (Nat.min_le_right _ _)
  have hdissent (st : Stats) : (if dissents s.share.pending set = true then st.bump .dissentRounds
      else st).get .confirmedIncreases = st.get .confirmedIncreases := by
    split_ifs
    · exact Stats.get_bump_of_ne _ (by decide)
    · rfl
  rw [hdissent]
  by_cases hrises : s.share.applied < newApplied ok s.boundaryAllocation s.share
  · have hyes : ok = true := by
      by_contra hno
      exact hunconfirmed (by simpa using hno) hrises
    rw [if_pos hrises, if_pos (by simp [hyes, hyes ▸ hrises])]
    exact Stats.get_bump_self _ _
  · rw [if_neg hrises, if_neg (by simp [hrises])]

/-- A pending increase with a mismatch is counted as a dissent round (R81). -/
theorem State.get_dissentRounds_shareStats :
    (s.shareStats kind own set).get .dissentRounds =
      if dissents s.share.pending set then saturatingSucc (s.stats.get .dissentRounds)
      else s.stats.get .dissentRounds := by
  have hrises (b : Bool) : (if b = true then s.stats.bump .confirmedIncreases else s.stats).get
      .dissentRounds = s.stats.get .dissentRounds := by
    split_ifs
    · exact Stats.get_bump_of_ne _ (by decide)
    · rfl
  unfold State.shareStats
  dsimp only
  by_cases hdissents : dissents s.share.pending set = true
  · rw [if_pos hdissents, if_pos hdissents, Stats.get_bump_self, hrises]
  · rw [if_neg hdissents, if_neg hdissents, hrises]

end ShareStats

/-- A dissent round in the words of R81. -/
theorem dissents_iff (pending : Option Nat) (set : List (Nat × Confirmation)) :
    dissents pending set = true ↔ pending.isSome = true ∧ ∃ x ∈ set, x.2 = .mismatch := by
  simp [dissents]

/-- The confirmation test in the words of R79. -/
theorem confirms_iff (pending : Option Nat) (kind : BoundaryKind) (own : Bool)
    (set : List (Nat × Confirmation)) : confirms pending kind own set = true
      ↔ pending.isSome = true ∧ kind = .ordinary ∧ own = true ∧ ∀ x ∈ set, x.2 = .agrees := by
  simp [confirms, and_assoc]

section Share
variable {s : State}

/-- The share as the Share Regulator's stage leaves it in ACTIVE (R79, R80, R90). -/
theorem State.share_shareStage_of_active (hst : s.ctl.station = .active) (kind : BoundaryKind)
    (own : Bool) (set : List (Nat × Confirmation)) :
    (s.shareStage kind own set).share =
      let ok := confirms s.share.pending kind own set
      let applied := newApplied ok s.boundaryAllocation s.share
      { applied := applied, pending := newPending s.boundaryAllocation applied
        limit := limitOf .active applied (shedCap s.shed.table s.cfg.floor) } := by
  rw [State.shareStage_of_active hst, ← hst]
  rfl

/-- The own entry is there after the stages where it was before (R43). -/
theorem State.isSome_own_boundaryStages (hstays : s.isolates = false) (kind : BoundaryKind) :
    (findEntry s.ownAddr (s.boundaryStages kind).table.entries).isSome
      = (findEntry s.ownAddr s.table.entries).isSome := by
  obtain ⟨fits, hfound, -⟩ := s.own_stages kind
  rw [State.boundaryStages_table hstays, hfound, Option.isSome_map]

/-- Short of an isolation an ACTIVE station takes the new share from the snapshot of this boundary (R78
to R81, R90). -/
theorem State.share_boundaryWork_of_active (hst : s.ctl.station = .active)
    (hstays : s.isolates = false) (kind : BoundaryKind) :
    let t := s.boundaryWork kind
    let own := !ownSilent s.ownAddr s.table.entries
      && (findEntry s.ownAddr s.table.entries).isSome
    let ok := confirms s.share.pending kind own s.table.confirm
    let a := min (t.snap.alloc.getD s.ownAddr 0) s.cfg.ceiling
    let applied := newApplied ok a s.share
    t.share = { applied := applied, pending := newPending a applied
                limit := limitOf .active applied (shedCap t.shed.table s.cfg.floor) }
    ∧ t.stats.get .confirmedIncreases = (if s.share.applied < applied
        then saturatingSucc (s.stats.get .confirmedIncreases)
        else s.stats.get .confirmedIncreases)
    ∧ t.stats.get .dissentRounds = (if dissents s.share.pending s.table.confirm
        then saturatingSucc (s.stats.get .dissentRounds) else s.stats.get .dissentRounds) := by
  let silent := ownSilent s.ownAddr s.table.entries
  let v := s.evaluateIsolation.shedCountdown
  let u := (v.tablePart kind s.isolates).allocateStage silent
  have hbefore := s.keeps_evaluateIsolation.trans (State.keeps_shedCountdown _)
  have hkeeps := (hbefore.trans (State.keeps_tablePart v kind s.isolates)).1
  have haddr : u.ownAddr = s.ownAddr := hkeeps.ownAddr
  have hcfg : u.cfg = s.cfg := hkeeps.2.2.1
  have hv : v.ctl.station = .active := by
    rw [show v.ctl = s.evaluateIsolation.ctl from State.shedCountdown_ctl _,
      State.station_evaluateIsolation hstays, hst]
  have hpart : v.tablePart kind s.isolates = { v with
      table := v.table.stages v.cfg kind v.ownAddr (v.ctl.station == .isolated) } := by
    unfold State.tablePart State.tableStages
    rw [hstays, if_neg (by decide), State.ownAdmission_of_other]
    · exact ne_of_eq_of_ne hv (by decide)
    · exact ne_of_eq_of_ne hv (by decide)
  have hu : u.ctl.station = .active := by
    change (v.tablePart kind s.isolates).ctl.station = _
    rw [hpart]
    exact hv
  have hshare : u.share.applied = s.share.applied ∧ u.share.pending = s.share.pending := by
    change (v.tablePart kind s.isolates).share.applied = _
      ∧ (v.tablePart kind s.isolates).share.pending = _
    rw [hpart]
    change v.share.applied = _ ∧ v.share.pending = _
    rw [show v.share = _ from State.shedCountdown_share _, State.evaluateIsolation_of_active hstays hst]
    exact ⟨rfl, rfl⟩
  have hstats : u.stats = s.stats := by
    change (v.tablePart kind s.isolates).stats = _
    rw [State.stats_tablePart, show v.stats = _ from State.shedCountdown_stats _,
      State.stats_evaluateIsolation]
  have hwork : s.boundaryWork kind
      = u.shareStage kind (u.ownTakesPartActive silent) s.table.confirm := by
    rw [State.boundaryWork_eq, hst,
      State.completeBoundary_of_other _ (by decide) (by decide) (by decide)]
    rfl
  have hsnap : (s.boundaryWork kind).snap = u.snap := by rw [hwork, State.shareStage_snap]
  have hshed : (s.boundaryWork kind).shed = u.shed := by rw [hwork, State.shareStage_shed]
  have htable : (s.boundaryStages kind).table = u.table := State.shareStage_table _ _ _ _
  have hown : u.ownTakesPartActive silent = (!ownSilent s.ownAddr s.table.entries
      && (findEntry s.ownAddr s.table.entries).isSome) := by
    unfold State.ownTakesPartActive
    rw [haddr, ← htable, State.isSome_own_boundaryStages hstays]
  have halloc : u.boundaryAllocation
      = min ((s.boundaryWork kind).snap.alloc.getD s.ownAddr 0) s.cfg.ceiling := by
    unfold State.boundaryAllocation
    rw [hsnap, haddr, hcfg]
  have happlied (ok : Bool) (a : Nat) : newApplied ok a u.share = newApplied ok a s.share := by
    unfold newApplied
    rw [hshare.1, hshare.2]
  intro t own ok a applied
  have hstage := State.shareStage_of_active hu kind (u.ownTakesPartActive silent) s.table.confirm
  refine ⟨?_, ?_, ?_⟩
  · change (s.boundaryWork kind).share = _
    rw [hwork, State.share_shareStage_of_active hu]
    dsimp only
    rw [hshare.2, hown, halloc, happlied, hcfg, ← hshed]
  · change (s.boundaryWork kind).stats.get _ = _
    rw [hwork, hstage]
    change (u.shareStats kind _ _).get _ = _
    rw [State.get_confirmedIncreases_shareStats, hstats, hshare.1, hshare.2, hown, halloc, happlied]
  · change (s.boundaryWork kind).stats.get _ = _
    rw [hwork, hstage]
    change (u.shareStats kind _ _).get _ = _
    rw [State.get_dissentRounds_shareStats, hstats, hshare.2]


/-- The same of a boundary of either kind. -/
theorem State.share_boundary_of_active (hst : s.ctl.station = .active)
    (hstays : s.isolates = false) (kind : BoundaryKind) :
    let t := s.boundary kind
    let own := !ownSilent s.ownAddr s.table.entries
      && (findEntry s.ownAddr s.table.entries).isSome
    let ok := confirms s.share.pending kind own s.table.confirm
    let a := min (t.snap.alloc.getD s.ownAddr 0) s.cfg.ceiling
    let applied := newApplied ok a s.share
    t.share = { applied := applied, pending := newPending a applied
                limit := limitOf .active applied (shedCap t.shed.table s.cfg.floor) }
    ∧ t.stats.get .confirmedIncreases = (if s.share.applied < applied
        then saturatingSucc (s.stats.get .confirmedIncreases)
        else s.stats.get .confirmedIncreases)
    ∧ t.stats.get .dissentRounds = (if dissents s.share.pending s.table.confirm
        then saturatingSucc (s.stats.get .dissentRounds) else s.stats.get .dissentRounds) := by
  have hcount (d : Counter) (hrounds : d ≠ .rounds) (hlost : d ≠ .lostRounds) :
      (s.countBoundary kind).stats.get d = s.stats.get d := by
    cases kind
    · exact Stats.get_bump_of_ne _ hrounds
    · exact (Stats.get_bump_of_ne _ hlost).trans (Stats.get_bump_of_ne _ hrounds)
  rw [State.boundary_of_working (by rw [hst]; rfl),
    ← hcount .confirmedIncreases (by decide) (by decide),
    ← hcount .dissentRounds (by decide) (by decide)]
  have hst' : (s.countBoundary kind).ctl.station = .active := by cases kind <;> exact hst
  have hstays' : (s.countBoundary kind).isolates = false := by cases kind <;> exact hstays
  have hwork := State.share_boundaryWork_of_active hst' hstays' kind
  cases kind <;> exact hwork

/-- Short of an isolation an ACTIVE station stays so (R108). -/
theorem State.station_boundary_of_stays (hst : s.ctl.station = .active)
    (hstays : s.isolates = false) (kind : BoundaryKind) :
    (s.boundary kind).ctl.station = .active := by
  rw [State.boundary_of_working (by rw [hst]; rfl)]
  have hst' : (s.countBoundary kind).ctl.station = .active := by cases kind <;> exact hst
  have hstays' : (s.countBoundary kind).isolates = false := by cases kind <;> exact hstays
  rw [State.ctl_boundaryWork_of_active hst' hstays']
  exact hst'

end Share

/-- The limit in ACTIVE (R90). -/
theorem limitOf_active (applied : Nat) (cap : Option Nat) : limitOf .active applied cap
    = (match cap with | some c => min applied c | none => applied) := by
  cases cap <;> rfl

/-- Settles O29: the applied share rises only where it is confirmed, and the pending increase, the limit
and the counts follow (R78 to R81, R90). -/
theorem shareRisesOnlyWhenConfirmed : Obligations.ShareRisesOnlyWhenConfirmed := by
  intro s c e hends hlast hst hstays he hactive confirmed
  let own := !ownSilent s.ownAddr s.table.entries && (findEntry s.ownAddr s.table.entries).isSome
  have hown : own = e.heard := by
    change (!ownSilent s.ownAddr s.table.entries && (findEntry s.ownAddr s.table.entries).isSome) = _
    unfold ownSilent
    rw [he]
    simp [hactive]
  have hok (p : Nat) (hp : s.share.pending = some p) (hconfirmed : confirmed) :
      confirms s.share.pending .ordinary own s.table.confirm = true := by
    rw [confirms_iff, hown, hp]
    exact ⟨rfl, rfl, hconfirmed.1, hconfirmed.2⟩
  have hno (h : s.share.pending = none ∨ ¬ confirmed) :
      confirms s.share.pending .ordinary own s.table.confirm = false := by
    rw [← Bool.not_eq_true, confirms_iff, hown]
    rintro ⟨hpending, -, hheard, hagree⟩
    rcases h with h | h
    · rw [h] at hpending
      cases hpending
    · exact h ⟨hheard, hagree⟩
  obtain ⟨hshare, hincrease, hdissent⟩ := State.share_boundary_of_active hst hstays .ordinary
  refine ⟨_, exec_of_roundEnds hends hlast, ?_⟩
  have hstation := State.station_boundary_of_stays hst hstays .ordinary
  rw [State.openSlot_eq]
  dsimp only
  rw [hshare, hincrease, hdissent]
  dsimp only
  refine ⟨hstation, fun p hp hconfirmed => ?_, fun h => ?_, rfl, limitOf_active _ _,
    fun hpending hmismatch => ?_, fun h => ?_, rfl⟩
  · have hp : s.share.pending = some p := hp
    rw [hok p hp hconfirmed]
    unfold newApplied
    rw [hp]
  · exact newApplied_of_not_confirmed (.inl (hno h)) _
  · exact if_pos ((dissents_iff _ _).2 ⟨hpending, hmismatch⟩)
  · refine if_neg (fun hdissents => ?_)
    obtain ⟨hpending, x, hx, hmismatch⟩ := (dissents_iff _ _).1 hdissents
    rcases h with h | h
    · rw [h] at hpending
      cases hpending
    · exact h x hx hmismatch

end Sys2Proof.Machine
end

section
/-! PROOFS. The lost boundary, by a CRC-valid frame of a slot already passed (R6, R16, R52, R79). -/

namespace Sys2Proof.Machine

/-- At a lost boundary no increase is confirmed (R79). -/
theorem confirms_lost (pending : Option Nat) (own : Bool) (set : List (Nat × Confirmation)) :
    confirms pending .lost own set = false := by
  rw [← Bool.not_eq_true, confirms_iff]
  rintro ⟨-, hkind, -⟩
  cases hkind

/-- A lost boundary confirms no increase (R79). -/
theorem State.confirmedIncreases_boundary_lost (s : State) :
    (s.boundary .lost).stats.get .confirmedIncreases = s.stats.get .confirmedIncreases := by
  have hcount : (s.countBoundary .lost).stats.get .confirmedIncreases
      = s.stats.get .confirmedIncreases :=
    (Stats.get_bump_of_ne _ (by decide)).trans (Stats.get_bump_of_ne _ (by decide))
  have hstage (u : State) (own : Bool) (set : List (Nat × Confirmation)) :
      (u.shareStage .lost own set).stats.get .confirmedIncreases
        = u.stats.get .confirmedIncreases := by
    by_cases hst : u.ctl.station = .active
    · rw [State.shareStage_of_active hst]
      refine State.get_confirmedIncreases_shareStats.trans (if_neg ?_)
      rw [newApplied_of_not_confirmed (.inl (confirms_lost _ _ _))]
      exact Nat.not_lt.2 (Nat.min_le_right _ _)
    · rw [State.shareStage_of_ne_active hst]
  unfold State.boundary
  split_ifs
  · rw [← hcount]
    generalize s.countBoundary .lost = u
    rw [State.boundaryWork_eq, State.stats_completeBoundary]
    unfold State.boundaryStages
    dsimp only
    rw [hstage, State.allocateStage_stats, State.stats_tablePart, State.shedCountdown_stats,
      State.stats_evaluateIsolation]
  · exact hcount

/-- A boundary that isolates the station (R58, R63, R109). -/
theorem State.boundary_of_isolates {s : State} (h : s.isolates = true) (kind : BoundaryKind) :
    let t := s.boundary kind
    t.ctl.station = .isolated ∧ t.share = { applied := 0, pending := none, limit := 0 }
      ∧ t.table.entries = [] ∧ t.table.confirm = [] ∧ t.snap = allocate s.cfg [] t.table.orphans := by
  have hwork : s.ctl.station.working = true := by rw [State.station_of_isolates h]; rfl
  have hcount : (s.countBoundary kind).isolates = true := by cases kind <;> exact h
  have hcfg : (s.countBoundary kind).cfg = s.cfg := by cases kind <;> rfl
  obtain ⟨hctl, hshare, htable, hsnap⟩ := State.boundaryWork_of_isolates hcount kind
  rw [State.boundary_of_working hwork]
  exact ⟨by rw [hctl], hshare, by rw [htable]; rfl, by rw [htable]; rfl, by rw [hsnap, hcfg]⟩

/-- Settles O31: the lost boundary ages nothing and raises no share (R6, R16, R50, R52, R58, R78 to R81,
R108, R109, R121). -/
theorem lostBoundaryAgesNothingAndRaisesNoShare :
    Obligations.LostBoundaryAgesNothingAndRaisesNoShare := by
  intro s bits hwork hatt r a hvalid ha hsync hlt u allocation
  have hexec := exec_frameReport (configured_of_working hwork) hatt bits
  have hu : u = (s.lineIdle.boundary .lost).takeRot a := by
    change s.atJudgement bits = _
    rw [State.atJudgement_of_valid hvalid]
    exact State.resync_of_lt (s := s.lineIdle) ha hsync hlt
  obtain ⟨-, hline, hchecker⟩ := s.lineIdle.keeps_boundary .lost
  have hround := (s.lineIdle.rotation_boundary .lost).2.2.2
  have hrounds := s.lineIdle.rounds_boundary .lost
  have hlost := s.lineIdle.lostRounds_boundary .lost
  have hincreases := s.lineIdle.confirmedIncreases_boundary_lost
  have hshed := State.shedUnitLeaves_boundary (s := s.lineIdle) hwork .lost
  have hmoves := s.lineIdle.stationMoves_boundary .lost
  have hisolation (hst : s.ctl.station = .active) :=
    State.isolationLeaves_boundary (s := s.lineIdle) hst .lost
  have hstages (hstays : s.isolates = false) :=
    State.stagesLeave_boundary (s := s.lineIdle) hwork hstays .lost
  have hisolated (hyes : s.isolates = true) :=
    State.boundary_of_isolates (s := s.lineIdle) hyes .lost
  have hactive (hstays : s.isolates = false) (hst : s.ctl.station = .active) :=
    And.intro (State.station_boundary_of_stays (s := s.lineIdle) hst hstays .lost)
      (State.share_boundary_of_active (s := s.lineIdle) hst hstays .lost)
  refine ⟨hexec, ?_⟩
  have halloc : allocation = min (u.snap.alloc.getD s.ownAddr 0) s.cfg.ceiling := rfl
  clear_value allocation u
  subst hu
  generalize s.lineIdle.boundary .lost = t at *
  refine ⟨rfl, rfl, hround, hrounds, hlost, hincreases, hchecker, hline, hshed, hmoves, hisolation,
    hstages, hisolated, fun hstays hst => ?_⟩
  obtain ⟨hstation, hshare, -, hdissent⟩ := hactive hstays hst
  rw [confirms_lost, newApplied_of_not_confirmed (.inl rfl)] at hshare
  refine ⟨hstation, ?_⟩
  change t.share.applied = _ ∧ t.share.pending = (if t.share.applied < _ then _ else _)
    ∧ t.share.limit = limitOf .active t.share.applied _ ∧ t.stats.get .dissentRounds = _
  rw [hshare, hdissent]
  rw [halloc]
  exact ⟨rfl, rfl, rfl, if_congr (dissents_iff _ _) rfl rfl⟩

end Sys2Proof.Machine
end

section
/-! PROOFS. What a frame of the own burst does as it has been sent, and the end of the silence (R12, R18,
R19, R42, R43, R102, R107, R115, R129, R131). -/

namespace Sys2Proof.Machine

/-! ## A frame sent -/

/-- The line, the slot and the counts as a frame has been sent (R1, R8, R11, R12, R115). -/
theorem State.countSent_frameEnded (s : State) (rest : List Frame) :
    (s.frameEnded rest).countSent = { s with
      line := { s.line with phase := if rest = [] then .quiet else .frameGap, burst := rest }
      rotation := { s.rotation with slot := .releaseGap }
      sched := { s.sched with collisionRun := 0 }
      stats := s.stats.bump .framesSent } := by
  cases rest <;> rfl

/-- Settles O37: what a frame sent does by its kind (R12, R42, R43, R107, R115, R129, R131). -/
theorem frameSentActsByKind : Obligations.FrameSentActsByKind := by
  intro s f rest hphase hburst sent
  have hexec : exec .frameSent s = .next (sent.frameEffect f) := by
    have hsent : (s.frameEnded rest).countSent = sent := s.countSent_frameEnded rest
    rw [exec_frameSent_eq, if_pos hphase, hburst, ← hsent]
    rfl
  rw [hexec]
  refine ⟨?_, ?_, ?_, ?_, ?_⟩
  · rintro a t d rfl
    rfl
  · rintro a v t b d m rfl
    rfl
  · rintro a d rfl hst hlow
    have heffect : sent.frameEffect (.leave a d) = sent.endLeaving := if_pos hst
    rw [heffect, State.endLeaving_of_low (s := sent) hlow]
    rfl
  · rintro a d rfl hst hhigh
    have heffect : sent.frameEffect (.leave a d) = sent.endLeaving := if_pos hst
    rw [heffect, State.endLeaving_of_high (s := sent) hhigh]
    rfl
  · rintro a o d m rfl hm hwork table limit
    have heffect : sent.frameEffect (.shed a o d) = sent.shedSent o := rfl
    rw [heffect, State.shedSent_of_working (s := sent) hwork,
      show sent.ownAddr = m.val from hm.symm, State.writeShed_eq]

/-! ## The end of the silence -/

/-- The silence that runs out in LISTEN unsynced ends it (R18, R102). -/
theorem exec_silenceTimerExpiry {s : State} (hst : s.ctl.station = .listen)
    (hsync : s.rotation.synced = false) (hsilence : s.rotation.silence.isSome = true) :
    exec .silenceTimerExpiry s = .next (if s.mismatchEvidence
      then s.enterFaultState .groupMismatch .groupMismatch else s.coldStart) := by
  have hruns : s.silenceRunning = true := by simp [State.silenceRunning, hst, hsync, hsilence]
  exact congrArg Host.Outcome.next (if_pos hruns)

/-- Settles O38: the silence ends in GROUP_MISMATCH or in a cold start (R18, R19, R42, R101, R102). -/
theorem silenceEndsInAColdStartOrAMismatch : Obligations.SilenceEndsInAColdStartOrAMismatch := by
  intro s hst hsync hsilence mismatch
  have hexec := exec_silenceTimerExpiry hst hsync hsilence
  by_cases hm : mismatch
  · rw [if_pos (by simp [State.mismatchEvidence, hm.1, hm.2])] at hexec
    refine ⟨_, hexec, ?_⟩
    rw [State.enterFaultState_eq s (by nofun)]
    exact ⟨rfl, rfl, fun _ => ⟨rfl, rfl, hsync, rfl⟩, fun hno => absurd hm hno⟩
  · rw [if_neg (by simpa [State.mismatchEvidence, mismatch] using hm)] at hexec
    let joined := State.enterJoining { s with
      rotation := { s.rotation with synced := true, rot := 0 }
      ctl := { s.ctl with observed := 2 } }
    have hcold : s.coldStart = joined.openSlot 0 := rfl
    have hzero : s.OpenedSlotZero (joined.openSlot 0) :=
      State.openedSlotZero_openSlot rfl rfl rfl
    have hown : findEntry s.ownAddr joined.table.entries
        = some (ownCandidate s.ownAddr (s.cfg.terms s.ownRole)) := State.own_enterJoining _
    rw [hcold] at hexec
    refine ⟨_, hexec, ?_⟩
    rw [State.openSlot_eq]
    refine ⟨rfl, rfl, fun hyes => absurd hyes hm, fun _ => ⟨rfl, rfl, rfl, rfl, rfl, ?_, ?_, rfl⟩⟩
    · exact congrArg (Option.map fun e => e.state) hown
    · rw [← State.openSlot_eq]
      exact hzero

end Sys2Proof.Machine
end

section
/-! PROOFS. The receiver and the sender: the start that is hunted, the events of an activity, the frame
read back, and what each of them does to the line (R1 to R4, R10 to R13). -/

namespace Sys2Proof.Machine

/-! ## The start -/

/-- A start is accepted where its shape is met within the first 10 bit times (R3). -/
theorem isSome_afterStart_iff (times : List BitTime) : (afterStart times).isSome = true
    ↔ ∃ lead after, times = lead ++ startShape ++ after ∧ lead.length ≤ 2 := by
  unfold afterStart
  rw [Option.isSome_map, List.find?_isSome]
  constructor
  · rintro ⟨n, hn, hprefix⟩
    obtain ⟨after, hafter⟩ := List.isPrefixOf_iff_prefix.1 hprefix
    refine ⟨times.take n, after, ?_, (List.length_take_le _ _).trans ?_⟩
    · rw [List.append_assoc, hafter, List.take_append_drop]
    · have hsmall : n < 3 := List.mem_range.1 hn
      omega
  · rintro ⟨lead, after, rfl, hlead⟩
    refine ⟨lead.length, List.mem_range.2 (show lead.length < 3 by omega), ?_⟩
    rw [List.append_assoc, List.drop_left]
    exact List.isPrefixOf_iff_prefix.2 ⟨after, rfl⟩

section Start
variable {times : List BitTime}

theorem startEvent_of_started (h : (afterStart times).isSome = true) :
    startEvent times = some .startMark := if_pos h

/-- Before the tenth bit time the hunt without a start is open (R3). -/
theorem startEvent_of_short (h : ¬ (afterStart times).isSome = true) (hlen : times.length < 10) :
    startEvent times = none := by
  unfold startEvent
  rw [if_neg h]
  exact if_neg (Nat.not_le.2 hlen)

/-- At the tenth bit time the hunt without a start has failed (R3). -/
theorem startEvent_of_long (h : ¬ (afterStart times).isSome = true) (hlen : 10 ≤ times.length) :
    startEvent times = some .badStartMark := by
  unfold startEvent
  rw [if_neg h]
  exact if_pos hlen

end Start

/-- Settles O15: the receiver through an attempt, the sender through its gaps, the hunt for a start and
the frame read back (R2, R3, R4, R10 to R13, R18). -/
theorem receiverAndSenderMoves : Obligations.ReceiverAndSenderMoves := by
  intro s times tail i y mark started begun
  have hstarted : (afterStart times).isSome = true ↔ started := isSome_afterStart_iff times
  refine ⟨fun hconf hatt hphase => ?_, fun hhunting => ⟨?_, ?_⟩, fun hdecoding => ?_,
    fun hphase hst => ⟨?_, rfl⟩, fun hphase => ?_, fun h => startEvent_of_started (hstarted.2 h),
    fun h => startEvent_of_short (mt hstarted.1 h), fun h => startEvent_of_long (mt hstarted.1 h),
    fun hnone => ?_, fun sent hsent => ?_⟩
  · rw [exec_carrierBegins_of_free hconf hatt (by rw [hphase]; nofun), hphase]
    exact congrArg Host.Outcome.next s.carrier_eq
  · exact congrArg Host.Outcome.next (if_pos hhunting)
  · exact congrArg Host.Outcome.next (if_pos hhunting)
  · exact congrArg Host.Outcome.next (if_pos hdecoding)
  · exact congrArg Host.Outcome.next ((if_pos hphase).trans (if_pos ((transmitting_iff _).2 hst)))
  · exact congrArg Host.Outcome.next (if_pos hphase)
  · unfold State.readBack
    rw [hnone]
    rfl
  · have hread (lrx : List BitTime) : s.readBack lrx = readBackEvent sent lrx := by
      unfold State.readBack
      rw [hsent]
      rfl
    rw [hread, hread, hread]
    exact ⟨readBackEvent_self sent, readBackEvent_take sent i,
      fun hi hy => readBackEvent_mismatch sent tail i y hi hy⟩

/-! ## Check sequences -/

/-- A shift of the CRC in the words of R181. -/
theorem crcShift_eq (v : Word16) :
    crcShift v = (v <<< 1) ^^^ (if v.getLsbD 15 then 0x1021 else 0) := by
  have hmsb : v.msb = v.getLsbD 15 := by rw [BitVec.msb_eq_getLsbD_last]
  unfold crcShift
  rw [hmsb]
  split_ifs <;> simp

/-- One byte more is that byte into the CRC, and eight shifts (R181). -/
theorem crc_append (bytes : List Byte) (b : Byte) :
    crc (bytes ++ [b]) = crcShift^[8] (crc bytes ^^^ (b.zeroExtend 16 <<< 8)) := by
  unfold crc
  rw [List.foldl_append]
  rfl

/-! ## Frames -/

/-- A frame body ends in its own check sequence (R5, R181). -/
theorem crcMatches_body (f : Frame) : crcMatches f.body = true := by
  have hlen : f.body.length - 2 = f.payload.length := by rw [length_body]; omega
  have htake : f.body.take f.payload.length = f.payload := by
    unfold Frame.body
    exact List.take_left
  have hword : wordAt f.body f.payload.length = (crc f.payload).toNat := by
    unfold wordAt byteAt Frame.body bytes2
    rw [List.getD_append_right _ _ _ _ (le_refl _), List.getD_append_right _ _ _ _ (Nat.le_succ _)]
    rw [Nat.sub_self, Nat.succ_sub (le_refl _), Nat.sub_self]
    exact bytes2_value (crc f.payload).isLt
  unfold crcMatches
  rw [hlen, htake, hword]
  exact beq_self_eq_true _

/-- A body is short enough to be kept whole, and long enough for a frame (R4, R25). -/
theorem length_body_bounds (f : Frame) : 5 ≤ f.body.length ∧ f.body.length ≤ 25 := by
  cases f <;> simp [Frame.body, Frame.payload]

/-- The report of the body of a frame (R4, R5). -/
theorem lineReport_body (f : Frame) : lineReport .decoding (bitsOfBytes f.body)
    = ⟨.good, some f.body.length, f.body, true⟩ := by
  obtain ⟨hlow, hhigh⟩ := length_body_bounds f
  have hbytes := gatherBytes_bitsOfBytes f.body
  have hgood : codeStatus .decoding (bitsOfBytes f.body) = .good := by
    change (if (bitsOfBytes f.body).length % 8 ≠ 0 then CodeStatus.notWholeBytes
      else if (gatherBytes (bitsOfBytes f.body)).length < 3 then .truncatedBody else .good) = _
    rw [hbytes, length_bitsOfBytes, if_neg (by omega), if_neg (by omega)]
  unfold lineReport
  dsimp only
  rw [hgood, if_neg (by decide), if_neg (by decide), hbytes, crcMatches_body,
    List.take_of_length_le (by omega), Nat.min_eq_left (by omega)]
  rfl

section Fields
variable {f : Frame}

/-- The first byte carries kind and sender (R24, R182). -/
theorem first_byte_body (h : f.sender < 32) :
    kindOf f.body = f.kind ∧ senderOf f.body = f.sender := by
  have hfirst : byteAt f.body 0 = kindAddress f.kind f.sender := by cases f <;> rfl
  have hkind : f.kind < 8 := by cases f <;> simp [Frame.kind]
  unfold kindOf senderOf
  rw [hfirst]
  unfold kindAddress
  rw [byte_toNat, Nat.mod_eq_of_lt (by omega)]
  omega

end Fields

/-- A bit of a value as one byte (R182). -/
theorem getLsbD_byte (n : Nat) {i : Nat} (hi : i < 8) :
    (byte n).getLsbD i = decide (n / 2 ^ i % 2 = 1) := by
  unfold byte
  rw [BitVec.getLsbD_ofNat, Nat.testBit_eq_decide_div_mod_eq]
  simp [hi]

/-- Terms that fit are read back (R182, R183). -/
theorem weightRole_fields {t : Terms} (h : t.weight < 16) :
    (weightRole t).toNat % 16 = t.weight ∧ roleOfBit ((weightRole t).getLsbD 4) = t.role := by
  unfold weightRole
  rw [byte_toNat, getLsbD_byte _ (by decide)]
  cases t.role
  · refine ⟨by simp only [roleBit]; omega, ?_⟩
    rw [decide_eq_false (by simp only [roleBit]; omega)]
    rfl
  · refine ⟨by simp only [roleBit]; omega, ?_⟩
    rw [decide_eq_true (by simp only [roleBit]; omega)]
    rfl

/-- An order that fits is read back (R182, R183). -/
theorem shedControl_fields {o : ShedOrder} (h : o.rounds < 64) :
    (shedControl o).toNat % 64 = o.rounds ∧ shedModeOfBit ((shedControl o).getLsbD 6) = o.mode := by
  unfold shedControl
  rw [byte_toNat, getLsbD_byte _ (by decide)]
  cases o.mode
  · refine ⟨by simp only [ShedMode.toBit]; omega, ?_⟩
    rw [decide_eq_false (by simp only [ShedMode.toBit]; omega)]
    rfl
  · refine ⟨by simp only [ShedMode.toBit]; omega, ?_⟩
    rw [decide_eq_true (by simp only [ShedMode.toBit]; omega)]
    rfl

end Sys2Proof.Machine
end

section
/-! PROOFS. Frames read back from their bodies, and the events of an activity from its bit times (R1 to R4,
R182, R183). -/

namespace Sys2Proof.Machine

/-! ## Fields read back -/

/-- Two bytes, high byte first, give the low 16 bits of a value (R182). -/
theorem bytes2_value_mod (n : Nat) : (byte (n / 256)).toNat * 256 + (byte n).toNat = n % 65536 := by
  simp only [byte_toNat]
  omega

section Word
variable {body : List Byte} {i n : Nat}

/-- Where the two bytes of a value stand its low 16 bits are read back (R182). -/
theorem wordAt_of_bytes (hhigh : byteAt body i = byte (n / 256)) (hlow : byteAt body (i + 1) = byte n) :
    wordAt body i = n % 65536 := by
  unfold wordAt
  rw [hhigh, hlow, bytes2_value_mod]

/-- Where the two bytes of a 16-bit value stand it is read back (R182). -/
theorem wordAt_eq (h : n < 65536) (hhigh : byteAt body i = byte (n / 256))
    (hlow : byteAt body (i + 1) = byte n) : wordAt body i = n := by
  rw [wordAt_of_bytes hhigh hlow, Nat.mod_eq_of_lt h]

/-- Where the two bytes of a 16-bit word stand it is read back (R182). -/
theorem ofNat_wordAt {d : Word16} (hhigh : byteAt body i = byte (d.toNat / 256))
    (hlow : byteAt body (i + 1) = byte d.toNat) : BitVec.ofNat 16 (wordAt body i) = d := by
  rw [wordAt_eq d.isLt hhigh hlow, BitVec.ofNat_toNat, BitVec.setWidth_eq]

/-- Where the four bytes of a 32-bit word stand it is read back (R182). -/
theorem ofNat_longAt {m : Word32} (h0 : byteAt body i = byte (m.toNat / 65536 / 256))
    (h1 : byteAt body (i + 1) = byte (m.toNat / 65536))
    (h2 : byteAt body (i + 2) = byte (m.toNat / 256)) (h3 : byteAt body (i + 3) = byte m.toNat) :
    BitVec.ofNat 32 (longAt body i) = m := by
  have hsplit : m.toNat / 65536 % 65536 * 65536 + m.toNat % 65536 = m.toNat := by
    have := m.isLt
    omega
  unfold longAt
  rw [wordAt_of_bytes h0 h1, wordAt_of_bytes h2 h3, hsplit, BitVec.ofNat_toNat, BitVec.setWidth_eq]

end Word

/-- The flag of the second byte of a CLAIM (R182). -/
theorem getLsbD_toNat (b : Bool) : (byte b.toNat).getLsbD 0 = b := by cases b <;> rfl

/-- The terms at a place where they stand are read back (R182, R183). -/
theorem termsAt_eq {body : List Byte} {i : Nat} {t : Terms} (h : t.Fits)
    (hfloor : t.floor < 65536 → wordAt body i = t.floor)
    (hceiling : t.ceiling < 65536 → wordAt body (i + 2) = t.ceiling)
    (hrole : byteAt body (i + 4) = weightRole t) : termsAt body i = t := by
  obtain ⟨hf, hc, hw⟩ := h
  obtain ⟨hweight, hbit⟩ := weightRole_fields hw
  unfold termsAt
  rw [hfloor hf, hceiling hc, hrole, hweight, hbit]

/-- The sender of a frame that fits is an address of five bits (R182). -/
theorem sender_lt_of_fits {f : Frame} (h : f.Fits) : f.sender < 32 := by
  cases f with
  | claim => exact h.1
  | join => exact h.1
  | leave => exact h
  | shed => exact h.1

/-- A frame whose fields fit is read back from its body (R182, R183). -/
theorem parseFrame_body {f : Frame} (h : f.Fits) : parseFrame f.body = some f := by
  obtain ⟨hkind, hsender⟩ := first_byte_body (sender_lt_of_fits h)
  unfold parseFrame
  rw [hkind, hsender]
  generalize hbody : f.body = body
  cases f with
  | claim a v t basis d mask =>
    obtain ⟨-, hdemand, hheld, hpending, hdraw, hterms⟩ := h
    change some (Frame.claim a ⟨wordAt body 2, wordAt body 4, wordAt body 6, wordAt body 8,
      (byteAt body 1).getLsbD 0⟩ (termsAt body 10) (BitVec.ofNat 16 (wordAt body 15))
      (BitVec.ofNat 16 (wordAt body 17)) (BitVec.ofNat 32 (longAt body 19))) = _
    subst hbody
    rw [wordAt_eq hdemand rfl rfl, wordAt_eq hheld rfl rfl, wordAt_eq hpending rfl rfl,
      wordAt_eq hdraw rfl rfl, termsAt_eq hterms (fun h => wordAt_eq h rfl rfl)
      (fun h => wordAt_eq h rfl rfl) rfl, ofNat_wordAt (d := basis) rfl rfl,
      ofNat_wordAt (d := d) rfl rfl, ofNat_longAt (m := mask) rfl rfl rfl rfl]
    exact congrArg (fun fault => some (Frame.claim a { v with stageFault := fault } t basis d mask))
      (getLsbD_toNat v.stageFault)
  | join a t d =>
    change some (Frame.join a (termsAt body 1) (BitVec.ofNat 16 (wordAt body 6))) = _
    subst hbody
    rw [termsAt_eq h.2 (fun h => wordAt_eq h rfl rfl) (fun h => wordAt_eq h rfl rfl) rfl,
      ofNat_wordAt (d := d) rfl rfl]
  | leave a d =>
    change some (Frame.leave a (BitVec.ofNat 16 (wordAt body 1))) = _
    subst hbody
    rw [ofNat_wordAt (d := d) rfl rfl]
  | shed a o d =>
    obtain ⟨hrounds, hmode⟩ := shedControl_fields h.2
    change some (Frame.shed a ⟨(byteAt body 1).toNat % 64, shedModeOfBit ((byteAt body 1).getLsbD 6)⟩
      (BitVec.ofNat 16 (wordAt body 2))) = _
    subst hbody
    rw [ofNat_wordAt (d := d) rfl rfl]
    exact congrArg₂ (fun rounds mode => some (Frame.shed a ⟨rounds, mode⟩ d)) hrounds hmode

/-! ## The events of an activity -/

/-- The bit times that hold two equal flat ones come to the idle line (R2). -/
theorem exists_untilIdle (times rest : List BitTime) (level : Bool) :
    ∃ heard, untilIdle (times ++ (level, level) :: (level, level) :: rest) = some heard
      ∧ 2 ≤ heard.length := by
  induction times with
  | nil => exact ⟨_, untilIdle_idle level rest, le_refl 2⟩
  | cons x times ih =>
    obtain ⟨heard, hheard, hlen⟩ := ih
    cases hnext : times ++ (level, level) :: (level, level) :: rest with
    | nil => simp at hnext
    | cons y more =>
      rw [hnext] at hheard
      rw [List.cons_append, hnext]
      by_cases hidle : decodeBit x = none ∧ x = y
      · exact ⟨[x, y], if_pos hidle, le_refl 2⟩
      · refine ⟨x :: heard, ?_, Nat.le_succ_of_le hlen⟩
        change (if decodeBit x = none ∧ x = y then some [x, y]
          else (untilIdle (y :: more)).map (x :: ·)) = _
        rw [if_neg hidle, hheard]
        rfl

/-- The start of an activity, whatever its first two bit times, passes before the line is idle (R2,
R3). -/
theorem untilIdle_lead {x y next : BitTime} (hxy : ¬ (x.1 = x.2 ∧ y = x)) (hnext : next ≠ (false, false))
    (times : List BitTime) : untilIdle (x :: y :: startShape ++ next :: times)
      = (untilIdle (next :: times)).map (x :: y :: startShape ++ ·) := by
  have hfirst (more : List BitTime) : untilIdle (x :: y :: more)
      = (untilIdle (y :: more)).map (x :: ·) := by
    by_cases hflat : x.1 = x.2
    · exact untilIdle_cons_of_ne (fun h => hxy ⟨hflat, h⟩) more
    · exact untilIdle_cons_of_bit (by simp [decodeBit, hflat]) _
  have hsecond (more : List BitTime) : untilIdle (y :: (false, true) :: more)
      = (untilIdle ((false, true) :: more)).map (y :: ·) := by
    by_cases hy : (false, true) = y
    · exact untilIdle_cons_of_bit (by rw [← hy]; decide) _
    · exact untilIdle_cons_of_ne hy more
  have hshape : startShape = [true, false, true, false, true, false].map manchester
    ++ [(true, true), (false, false)] := rfl
  have hstart : untilIdle (startShape ++ next :: times)
      = (untilIdle (next :: times)).map (startShape ++ ·) := by
    rw [hshape, List.append_assoc, untilIdle_bits]
    change (untilIdle ((true, true) :: (false, false) :: next :: times)).map _ = _
    rw [untilIdle_cons_of_ne (by decide), untilIdle_cons_of_ne hnext, Option.map_map, Option.map_map]
    rfl
  calc untilIdle (x :: y :: startShape ++ next :: times)
      = ((untilIdle (startShape ++ next :: times)).map (y :: ·)).map (x :: ·) :=
        (hfirst _).trans (congrArg _ (hsecond _))
    _ = _ := by
        rw [hstart, Option.map_map, Option.map_map]
        rfl

/-- The events of an activity that begins with a start and whose body is then heard (R2 to R4). -/
theorem activityEvents_of_lead {x y next : BitTime} (hxy : ¬ (x.1 = x.2 ∧ y = x))
    (hnext : next ≠ (false, false)) {times heard : List BitTime}
    (hheard : untilIdle (next :: times) = some heard) :
    activityEvents (x :: y :: startShape ++ next :: times)
      = some (.carrierBegins :: .startMark :: bodyEvents heard) := by
  have hafter : afterStart (x :: y :: startShape ++ heard) = some heard := afterStart_of_lead x y heard
  have hstart : startEvent (x :: y :: startShape ++ heard) = some .startMark :=
    startEvent_of_started (by rw [hafter]; rfl)
  unfold activityEvents
  rw [untilIdle_lead hxy hnext, hheard, Option.map_some, Option.map_some, hafter, hstart]
  rfl

/-- A flat bit time ends the body bits (R4). -/
theorem bodyBits_flat (bits : List Bool) (level : Bool) (times : List BitTime) :
    bodyBits (bits.map manchester ++ (level, level) :: times) = bits := by
  rw [bodyBits_bits]
  simp [bodyBits]

/-- A body of bits alone is reported at the idle line (R4). -/
theorem bodyEvents_of_bits (bits : List Bool) (level : Bool) :
    bodyEvents (bits.map manchester ++ [(level, level), (level, level)])
      = [.frameReport bits] := by
  unfold bodyEvents
  rw [bodyBits_flat]
  dsimp only
  rw [if_neg (by simp [idleBits])]
  rfl

/-- A body with a bit time that does not decode before the idle line is a coding violation (R4). -/
theorem bodyEvents_of_violation (bits : List Bool) (level : Bool) {times : List BitTime}
    (h : 2 ≤ times.length) : bodyEvents (bits.map manchester ++ (level, level) :: times)
      = [.codingViolation, .frameReport bits] := by
  unfold bodyEvents
  rw [bodyBits_flat]
  dsimp only
  rw [if_pos (by simp [idleBits]; omega)]
  rfl

/-- The levels of a frame from the third preamble bit on (R1, R3). -/
theorem drop_lineLevels (body : List Byte) :
    (lineLevels body).drop 2 = startShape ++ (bitsOfBytes body).map manchester := rfl

/-- The events of an activity that carries a body (R2 to R4). -/
theorem activityEvents_of_bits {x y : BitTime} (hxy : ¬ (x.1 = x.2 ∧ y = x)) {bits : List Bool}
    (hbits : bits ≠ []) (level : Bool) (rest : List BitTime) :
    activityEvents (x :: y :: startShape ++ (bits.map manchester
        ++ (level, level) :: (level, level) :: rest))
      = some [.carrierBegins, .startMark, .frameReport bits] := by
  have hheard : untilIdle (bits.map manchester ++ (level, level) :: (level, level) :: rest)
      = some (bits.map manchester ++ [(level, level), (level, level)]) := by
    rw [untilIdle_bits, untilIdle_idle]
    rfl
  cases bits with
  | nil => exact absurd rfl hbits
  | cons b bits =>
    have hnext : manchester b ≠ (false, false) := by cases b <;> decide
    exact (activityEvents_of_lead hxy hnext hheard).trans
      (congrArg (fun events => some (.carrierBegins :: .startMark :: events))
        (bodyEvents_of_bits (b :: bits) level))

/-- The events of an activity with a bit time in its body that does not decode (R4). -/
theorem activityEvents_of_violation {x y z : BitTime} (hxy : ¬ (x.1 = x.2 ∧ y = x)) {bits : List Bool}
    {flat : Bool} (hz : z ≠ (flat, flat)) (hbits : bits ≠ [] ∨ flat = true) (level : Bool)
    (mid rest : List BitTime) :
    activityEvents (x :: y :: startShape ++ (bits.map manchester
        ++ (flat, flat) :: z :: (mid ++ (level, level) :: (level, level) :: rest)))
      = some [.carrierBegins, .startMark, .codingViolation, .frameReport bits] := by
  obtain ⟨tail, htail, hlen⟩ := exists_untilIdle (z :: mid) rest level
  have hheard : untilIdle (bits.map manchester
      ++ (flat, flat) :: z :: (mid ++ (level, level) :: (level, level) :: rest))
        = some (bits.map manchester ++ (flat, flat) :: tail) := by
    rw [untilIdle_bits, untilIdle_cons_of_ne hz, ← List.cons_append, htail]
    rfl
  cases bits with
  | nil =>
    have hflat : flat = true := hbits.resolve_left (fun h => h rfl)
    have hnext : (flat, flat) ≠ (false, false) := by rw [hflat]; decide
    exact (activityEvents_of_lead hxy hnext hheard).trans
      (congrArg (fun events => some (.carrierBegins :: .startMark :: events))
        (bodyEvents_of_violation [] flat hlen))
  | cons b bits =>
    have hnext : manchester b ≠ (false, false) := by cases b <;> decide
    exact (activityEvents_of_lead hxy hnext hheard).trans
      (congrArg (fun events => some (.carrierBegins :: .startMark :: events))
        (bodyEvents_of_violation (b :: bits) flat hlen))

/-- Settles O53: the check sequences, frames read back from their bodies, and activities read back from
their bit times (R1 to R5, R25, R181 to R183). -/
theorem checkSequencesAndFramesAreReadBack : Obligations.CheckSequencesAndFramesAreReadBack := by
  refine ⟨⟨rfl, rfl, by decide +kernel, fun bytes b => ?_⟩, fun f hfits => ?_,
    fun f bits level flat x y z mid rest => ?_⟩
  · intro shift
    have hshift : crcShift = shift := funext crcShift_eq
    rw [crc_append, hshift]
  · obtain ⟨hkind, hsender⟩ := first_byte_body (sender_lt_of_fits hfits)
    rw [lineReport_body]
    exact ⟨rfl, rfl, rfl, (kindLength_of_frame f).symm, hkind, hsender, parseFrame_body hfits⟩
  · intro lead idle hxy
    refine ⟨?_, fun hz hbits => ?_⟩
    · have hbits : bitsOfBytes f.body ≠ [] := by
        obtain ⟨hlow, -⟩ := length_body_bounds f
        rw [Ne, ← List.length_eq_zero_iff, length_bitsOfBytes]
        omega
      have hevents := activityEvents_of_bits hxy hbits level rest
      rw [drop_lineLevels]
      simpa [idle] using hevents
    · have hevents := activityEvents_of_violation hxy hz hbits level mid rest
      change activityEvents ((x :: y :: (startShape ++ [])) ++ bits.map manchester
        ++ (flat, flat) :: z :: mid ++ idle ++ rest) = _
      simpa [idle] using hevents

end Sys2Proof.Machine
end
